-- ==== Sys2Proof/Word.lean ====
section
/-!
DEFINITION. The word types of the MD816 and nothing else: bytes of a frame, 32-bit words (the time base of R1 and
the block position of section 4.3), and levels in level steps of 0.5 dB (section 4.1).
-/

namespace Sys2Proof

/-- One byte of a frame (section 11). -/
abbrev Byte := BitVec 8

/-- A 32-bit value that wraps: a time-base reading (R1) or a block position (section 4.3). -/
abbrev Word := BitVec 32

/-- A level, gain, threshold or band value in level steps of 0.5 dB (section 4.1). -/
abbrev Level := Int

/-- The position that means "no position" (section 4.3). -/
def noPosition : Word := 4294967295#32

/-- The reading of silence, −120 dBFS (section 4.1). -/
def silence : Level := -240

end Sys2Proof
end

