-- ==== Sys2Proof/Syntax.lean ====
section
/-!
DEFINITION. The commands and events of the MD816: one constructor of `Instr` for each row of spec/opcode_table.json,
in the table's order, with the operands its rule gives it.
-/

namespace Sys2Proof

/-- A whole frame as a lane delimits it (R2, section 11.1): eight header bytes, the payload bytes between header and
check word, and the check word. -/
structure Frame where
  header : Vector Byte 8
  payload : List Byte
  check : BitVec 16
  deriving DecidableEq, Repr

/-- The two receive lanes (section 1.1). -/
inductive Lane where
  | aIn
  | bIn
  deriving DecidableEq, Repr

/-- What a COMMAND frame says to the Management Unit beside its command code (R8): the tag, the screen selector and
the payload. For a row that is one form or one scope of a command (EQ_LOAD_GRAPHIC, EQ_LOAD_SECTION,
UNIT_RESET_KEEP_TABLES, UNIT_RESET_CLEAR) the payload here is what follows the form or scope byte. -/
structure CmdArgs where
  tag : Byte
  selector : Byte
  payload : List Byte
  deriving DecidableEq, Repr

/-- The steps of the part, one constructor for each row of the table. -/
inductive Instr where
  /-- BLOCK_ARRIVAL: a whole frame arrives on A-in (R6). -/
  | blockArrival (f : Frame)
  /-- COMMAND_ARRIVAL: a whole frame arrives on A-in (R8). -/
  | commandArrival (f : Frame)
  /-- FORWARD_ARRIVAL: a whole frame arrives on B-in (R10). -/
  | forwardArrival (f : Frame)
  /-- A_OUT_FRAME_SENT (R11). -/
  | aOutFrameSent
  /-- B_OUT_FRAME_SENT (R13). -/
  | bOutFrameSent
  /-- COMMAND_TAKE (R8). -/
  | commandTake
  /-- RESETN_ASSERT (R17). -/
  | resetnAssert
  /-- POWER_ON_RESET: RESETN is released with the UADDR straps at this number (R5, R173). -/
  | powerOnReset (straps : Fin 8)
  /-- SOURCE_LOST of a screen (R37). -/
  | sourceLost (screen : Fin 8)
  /-- SILENT_BLOCK of a screen (R37). -/
  | silentBlock (screen : Fin 8)
  /-- FADER_RAMP_END of a screen (R40). -/
  | faderRampEnd (screen : Fin 8)
  /-- STOP_FADE_END of a screen (R45). -/
  | stopFadeEnd (screen : Fin 8)
  /-- FORMAT_CROSSFADE_END of a screen (R57). -/
  | formatCrossfadeEnd (screen : Fin 8)
  /-- SWAP_CROSSFADE_END of a screen (R73). -/
  | swapCrossfadeEnd (screen : Fin 8)
  /-- SETTLE_END (R85). -/
  | settleEnd
  /-- DWELL_END (R86). -/
  | dwellEnd
  /-- TIMER_EXPIRY of a timer (R134). -/
  | timerExpiry (timer : Fin 8)
  /-- PULSE_PHASE_END of a booth line's train (R157). -/
  | pulsePhaseEnd (line : Fin 16)
  /-- GO_PULSE_END (R153). -/
  | goPulseEnd
  /-- HSTOP_PIN_CHANGE: whether any other unit pulls HSTOP from now on (R144). -/
  | hstopPinChange (asserted : Bool)
  /-- HSTOP_SENSED_CHANGE (R144). -/
  | hstopSensedChange
  /-- GO_PIN_CHANGE: whether anything but this unit pulls GO from now on (R152). -/
  | goPinChange (asserted : Bool)
  /-- GO_SENSED_CHANGE (R152). -/
  | goSensedChange
  /-- LINE_PIN_CHANGE: the level the booth puts on a line's pin from now on, true for high (R156). -/
  | linePinChange (line : Fin 16) (high : Bool)
  /-- LINE_FILTER_CHANGE of an input line (R156). -/
  | lineFilterChange (line : Fin 16)
  /-- UNIT_INFO (R169). -/
  | unitInfo (a : CmdArgs)
  /-- UNIT_RESET with scope KEEP_TABLES (R172). -/
  | unitResetKeepTables (a : CmdArgs)
  /-- UNIT_RESET with scope CLEAR (R172). -/
  | unitResetClear (a : CmdArgs)
  /-- NOTICE_MASK (R170). -/
  | noticeMask (a : CmdArgs)
  /-- LINK_STATS (R171). -/
  | linkStats (a : CmdArgs)
  /-- SCREEN_SETUP (R21). -/
  | screenSetup (a : CmdArgs)
  /-- SCREEN_CLOSE (R28). -/
  | screenClose (a : CmdArgs)
  /-- SCREEN_STATUS (R47). -/
  | screenStatus (a : CmdArgs)
  /-- SCREEN_RESUME (R27). -/
  | screenResume (a : CmdArgs)
  /-- FADER_SET (R40). -/
  | faderSet (a : CmdArgs)
  /-- MUTE_SET (R43). -/
  | muteSet (a : CmdArgs)
  /-- REHEARSAL_SET (R46). -/
  | rehearsalSet (a : CmdArgs)
  /-- CHANNEL_SETUP (R32). -/
  | channelSetup (a : CmdArgs)
  /-- FORMAT_LOAD (R52). -/
  | formatLoad (a : CmdArgs)
  /-- FORMAT_CLEAR (R53). -/
  | formatClear (a : CmdArgs)
  /-- FORMAT_ARM (R54). -/
  | formatArm (a : CmdArgs)
  /-- FORMAT_TAKE (R55). -/
  | formatTake (a : CmdArgs)
  /-- FORMAT_READ (R53). -/
  | formatRead (a : CmdArgs)
  /-- EQ_LOAD in its graphic form (R68). -/
  | eqLoadGraphic (a : CmdArgs)
  /-- EQ_LOAD in its section form (R69). -/
  | eqLoadSection (a : CmdArgs)
  /-- EQ_COPY (R70). -/
  | eqCopy (a : CmdArgs)
  /-- EQ_SWAP (R71). -/
  | eqSwap (a : CmdArgs)
  /-- EQ_READ (R75). -/
  | eqRead (a : CmdArgs)
  /-- CURVE_LOAD (R77). -/
  | curveLoad (a : CmdArgs)
  /-- ALIGN_START (R80). -/
  | alignStart (a : CmdArgs)
  /-- ALIGN_ABORT (R95). -/
  | alignAbort (a : CmdArgs)
  /-- ALIGN_READ (R79). -/
  | alignRead (a : CmdArgs)
  /-- MONITOR_LOAD (R102). -/
  | monitorLoad (a : CmdArgs)
  /-- MONITOR_ENABLE (R103). -/
  | monitorEnable (a : CmdArgs)
  /-- MONITOR_DISABLE (R103). -/
  | monitorDisable (a : CmdArgs)
  /-- MONITOR_ACK (R107). -/
  | monitorAck (a : CmdArgs)
  /-- MONITOR_STATUS (R116). -/
  | monitorStatus (a : CmdArgs)
  /-- CUELIST_LOAD (R123). -/
  | cuelistLoad (a : CmdArgs)
  /-- CUELIST_CLEAR (R124). -/
  | cuelistClear (a : CmdArgs)
  /-- LINK_LOAD (R128). -/
  | linkLoad (a : CmdArgs)
  /-- LINK_ENABLE (R129). -/
  | linkEnable (a : CmdArgs)
  /-- LINK_DISABLE (R129). -/
  | linkDisable (a : CmdArgs)
  /-- TIMER_START (R133). -/
  | timerStart (a : CmdArgs)
  /-- TIMER_STOP (R133). -/
  | timerStop (a : CmdArgs)
  /-- TIMER_READ (R135). -/
  | timerRead (a : CmdArgs)
  /-- CUE_FIRE (R132). -/
  | cueFire (a : CmdArgs)
  /-- GO_PULSE (R153). -/
  | goPulse (a : CmdArgs)
  /-- GO_CANCEL (R138). -/
  | goCancel (a : CmdArgs)
  /-- HELD_READ (R140). -/
  | heldRead (a : CmdArgs)
  /-- HOUSE_SETUP (R150). -/
  | houseSetup (a : CmdArgs)
  /-- HOUSE_STOP (R149). -/
  | houseStop (a : CmdArgs)
  /-- HOUSE_RELEASE (R149). -/
  | houseRelease (a : CmdArgs)
  /-- HOUSE_STATUS (R149). -/
  | houseStatus (a : CmdArgs)
  /-- LINE_SETUP (R154). -/
  | lineSetup (a : CmdArgs)
  /-- LINE_SET (R157). -/
  | lineSet (a : CmdArgs)
  /-- LINE_READ (R158). -/
  | lineRead (a : CmdArgs)
  /-- DISCARDED_FRAME: a frame, whole or cut off before its check word, arrives on a lane (R3, R4). -/
  | discardedFrame (lane : Lane) (cutOff : Bool) (f : Frame)
  deriving DecidableEq, Repr

end Sys2Proof
end

