-- ==== Sys2Proof/Decode.lean ====
section
/-!
DEFINITION. The row that a word spells by the opcode table's bits. The table gives bits to no row: a command of this
block is a frame with operands, or an event, so no word spells one (log entry 22).
-/

namespace Sys2Proof

/-- The row that a word of the table spells: none, for no row of the table has bits. -/
def decodeTableWord (_nbits _w : Nat) : Option Instr := none

end Sys2Proof
end

