-- ==== Sys2Proof/Config.lean ====
section
/-!
DEFINITION. What is fixed for the part (its capacities, chapter 0 section 6, and the constants its rules name), and
the free roundings: opaque constants, with no body, for what the manual leaves to "the implementation of the part"
(section 3 of the scope chapter). No proof can see a value of one, so a statement holds whatever they are. The free
values of which the manual states laws stand in Config/Equaliser.lean and Config/Alignment.lean.
-/

namespace Sys2Proof.Config

/-- Capacity of the command intake queue (R8). -/
def intakeCapacity : Nat := 8
/-- Capacity of the reply list (R9). -/
def replyCapacity : Nat := 8
/-- Capacity of the forward buffer (R10). -/
def forwardCapacity : Nat := 8
/-- Capacity of the Notice Queue (R178). -/
def noticeCapacity : Nat := 64
/-- Capacity of the held list (R136). -/
def heldCapacity : Nat := 16
/-- Capacity of a cue list (R122). -/
def cueCapacity : Nat := 64
/-- Blocks in a SHORT window, 0.3 s (R33). -/
def shortBlocks : Nat := 450
/-- Blocks in a one-second mean (R33). -/
def secondBlocks : Nat := 1500
/-- One-second means in a LONG reading (R33). -/
def longSeconds : Nat := 60
/-- Sample periods a delay line holds (section 2.2). -/
def delayPeriods : Nat := 4800
/-- Sample periods in a block (section 4.3). -/
def blockPeriods : Nat := 32
/-- The source timeout in milliseconds (R37). -/
def timeoutMs : Nat := 20
/-- The length of a swap crossfade in milliseconds (R73). -/
def swapMs : Nat := 50
/-- The length of this unit's GO pulse in milliseconds (R153). -/
def goPulseMs : Nat := 10
/-- The HSTOP and GO filters in milliseconds (R144, R152). -/
def wireFilterMs : Nat := 1
/-- Milliseconds a step of a ramp at the ceiling rate takes (R41). -/
def ceilingStepMs : Nat := 20
/-- Where a link statistics counter and `lost_count` stop (R16, R178). -/
def counterTop : Nat := 65535

/-- Full scale: the magnitude of the smallest 24-bit sample (R33). DEDUCED, log entry 12. -/
def fullScale : Nat := 8388608

/-- Fraction bits of the samples between decode and the meter point: R31 gives them "enough headroom", and no
resolution. DESIGN CHOICE, log entry 11. -/
def fractionBits : Nat := 32

/-- FREE VALUE. Whether the amplitude factor 10^(k/120) of a gain of k third-steps, held with `fractionBits`
fraction bits, is the part's rounded up one (log entry 11). -/
opaque gainRoundsUp : Int → Bool

/-- FREE VALUE. Whether the part rounds the quotient of these two numbers up where it is no whole number: at a
crossfade, at the meter point and in a stop fade (log entry 11). -/
opaque quotientRoundsUp : Int → Nat → Bool

/-- The energy of samples: the sum of their squares. -/
def energy (xs : List Int) : Nat := (xs.map fun x => x.natAbs * x.natAbs).sum

end Sys2Proof.Config
end

