-- ==== Sys2Proof/Machine/Records.lean ====
section
/-!
DEFINITION. The records of the part's blocks: every table entry, list entry and named set of values that the manual
describes, as plain data. State.lean puts them together.
-/

namespace Sys2Proof.Machine

/-! ### Screens (chapter 2) -/

/-- The screen states (section 2.3). -/
inductive ScreenState where
  | off
  | dark
  | inShow
  | inAlign
  | stopped
  deriving DecidableEq, Repr

/-- How a house stop silences a screen (section 2.1). -/
inductive StopPolicy where
  | mute
  | fade
  | exempt
  deriving DecidableEq, Repr

/-- Whether a screen leaves STOPPED by itself (section 2.1). -/
inductive ResumePolicy where
  | auto
  | manual
  deriving DecidableEq, Repr

/-- A fader ramp in flight (section 2.1). -/
structure Ramp where
  origin : Nat
  dest : Nat
  start : Word
  duration : Nat
  deriving DecidableEq, Repr

/-- The fader. `rest` is the position while no ramp is in flight; during a ramp the position is the ramp's (R40). -/
structure Fader where
  rest : Nat
  requested : Nat
  effective : Nat
  ramp : Option Ramp
  deriving DecidableEq, Repr

/-- The screen's mute cause set (R43). -/
structure ScreenMutes where
  unconfigured : Bool
  stop : Bool
  cue : Bool
  command : Bool
  monitor : Bool
  deriving DecidableEq, Repr

/-- A channel's mute cause set (R43). -/
structure ChannelMutes where
  align : Bool
  command : Bool
  monitor : Bool
  deriving DecidableEq, Repr

/-- A format crossfade in flight (R55). -/
structure FormatFade where
  start : Word
  duration : Nat
  deriving DecidableEq, Repr

/-- The four directions of matrix steering (section 3.7). -/
inductive Direction where
  | left
  | centre
  | right
  | surround
  deriving DecidableEq, Repr

/-- The steering of a screen (R61): `state` none is NEUTRAL, `candidate` none is no candidate. -/
structure Steering where
  state : Option Direction
  candidate : Option Direction
  counter : Nat
  deriving DecidableEq, Repr

/-- The two banks of a channel (section 4.1). -/
inductive BankName where
  | a
  | b
  deriving DecidableEq, Repr

/-- A swap crossfade in flight (R71). -/
structure SwapFade where
  start : Word
  outgoing : BankName
  deriving DecidableEq, Repr

/-- A meter (R33): its readings, the energies of the blocks of its short window (newest first), the second being
gathered, and the energies of the completed seconds (newest first). An energy is a sum of squared samples. -/
structure Meter where
  peak : Level
  short : Level
  long : Level
  window : List Nat
  secondEnergy : Nat
  secondBlocks : Nat
  seconds : List Nat
  deriving DecidableEq, Repr

/-- A steering meter, which keeps a SHORT reading alone (R60). -/
structure SteerMeter where
  short : Level
  window : List Nat
  deriving DecidableEq, Repr

/-- The MODEL's own: the memories of the filters of a channel's two banks, each bank's nine stages in the order of the
cascade, an empty one at rest (R64; log entry 13). -/
structure EqMemory where
  a : List (List Int)
  b : List (List Int)
  deriving DecidableEq, Repr

/-- An output channel record (section 2.2). The delay line is newest first; what it does not list is silence. Its
samples count 2^-`fractionBits` of a 24-bit step. `eqMemory` is the model's own. -/
structure Channel where
  trim : Level
  delay : Nat
  line : List Int
  eqMemory : EqMemory
  mutes : ChannelMutes
  meter : Meter
  deriving DecidableEq, Repr

/-- The screen record with its channel records and meters (sections 2.1, 2.2, 2.5). -/
structure Screen where
  state : ScreenState
  channelCount : Option Nat
  micChannel : Option (Fin 16)
  stopPolicy : StopPolicy
  stopFadeMs : Nat
  resumePolicy : ResumePolicy
  catchupWindow : Nat
  fader : Fader
  ceiling : Nat
  mutes : ScreenMutes
  stopFade : Option Word
  activeFormat : Option (Fin 32)
  pendingFormat : Option (Fin 32)
  outgoingFormat : Option (Fin 32)
  formatFade : Option FormatFade
  steering : Steering
  eqLive : BankName
  eqSwap : Option SwapFade
  lastPosition : Option Word
  sourceLost : Bool
  lastArrival : Word
  arrivalPosition : Word
  silentBase : Word
  silentPhase : Nat
  rehearsal : Bool
  mismatchReported : Bool
  showPeakLong : Level
  channels : Vector Channel 16
  inputs : Vector Meter 16
  sum : Meter
  steerSum : SteerMeter
  steerDiff : SteerMeter
  deriving DecidableEq, Repr

/-! ### Formats (chapter 3) -/

/-- The two kinds of format (section 3.1). -/
inductive FormatKind where
  | discrete
  | matrix
  deriving DecidableEq, Repr

/-- A routing term (section 3.1). -/
structure RoutingTerm where
  output : Fin 16
  input : Fin 16
  gain : Level
  invert : Bool
  deriving DecidableEq, Repr

/-- One pair of a steering row (section 3.1). -/
structure RowPair where
  output : Fin 16
  offset : Level
  deriving DecidableEq, Repr

/-- The matrix part of a format (section 3.1). -/
structure MatrixPart where
  enter : Nat
  exit : Nat
  hold : Nat
  neutral : List RowPair
  left : List RowPair
  centre : List RowPair
  right : List RowPair
  surround : List RowPair
  deriving DecidableEq, Repr

/-- An entry of the Format Table (section 3.1). -/
structure FormatEntry where
  valid : Bool
  label : Vector Byte 8
  kind : FormatKind
  inputsExpected : Nat
  terms : List RoutingTerm
  matrix : Option MatrixPart
  useCount : Nat
  deriving DecidableEq, Repr

/-! ### Room equalisation (chapter 4) -/

/-- The types of a parametric section (R65). -/
inductive SectionType where
  | none
  | peak
  | lowShelf
  | highShelf
  | lowCut
  | highCut
  deriving DecidableEq, Repr

/-- A parametric section (section 4.1). -/
structure EqSection where
  type : SectionType
  freq : Nat
  gain : Level
  q : Nat
  deriving DecidableEq, Repr

/-- How a bank came by its content (section 4.1). -/
inductive Origin where
  | flat
  | loaded
  | copied
  | aligned
  deriving DecidableEq, Repr

/-- An EQ bank (section 4.1). -/
structure EqBank where
  graphic : Vector Level 31
  sections : Vector EqSection 8
  origin : Origin
  passStamp : Nat
  deriving DecidableEq, Repr

/-- The two banks of a channel (section 4.1). -/
structure ChannelBanks where
  a : EqBank
  b : EqBank
  deriving DecidableEq, Repr

/-- A target curve (section 4.6). -/
structure Curve where
  valid : Bool
  low : Nat
  high : Nat
  targets : Vector Level 31
  tolerance : Nat
  deriving DecidableEq, Repr

/-! ### Alignment runs (chapter 5) -/

/-- The modes of a run (section 5.1). -/
inductive AlignMode where
  | measureOnly
  | correct
  deriving DecidableEq, Repr

/-- The engine's states (R78). -/
inductive EngineState where
  | idle
  | settle
  | dwell
  deriving DecidableEq, Repr

/-- Why a run was overtaken (section 5.1). -/
inductive AbortReason where
  | showStarted
  | houseStop
  | command
  | noSource
  | reset
  deriving DecidableEq, Repr

/-- The outcome of a run (section 5.1). -/
inductive RunOutcome where
  | running
  | complete
  | aborted (reason : AbortReason)
  deriving DecidableEq, Repr

/-- The result of a channel (section 5.1). -/
inductive AlignResult where
  | pending
  | converged
  | notConverged
  | noSignal
  | clipped
  | aborted
  | skipped
  deriving DecidableEq, Repr

/-- A per-channel result (section 5.1). -/
structure ChannelResult where
  channel : Fin 16
  result : AlignResult
  passesUsed : Nat
  limited : Bool
  bandLevels : Vector Level 31
  deviation : Nat
  deriving DecidableEq, Repr

/-- The dwell accumulator (R86): 31 band energies, the total energy, the sample count and the full-scale flag.
`gathered` is the MODEL's own: the samples themselves, oldest first, which the band energies are of (log entry 15). -/
structure DwellAcc where
  bands : Vector Nat 31
  total : Nat
  samples : Nat
  fullScale : Bool
  gathered : List Int
  deriving DecidableEq, Repr

/-- The run record (section 5.1). `results` has one entry for each place of the channel list. -/
structure RunRecord where
  present : Bool
  screen : Fin 8
  curve : Fin 4
  mode : AlignMode
  passesMax : Nat
  settleMs : Nat
  dwellMs : Nat
  testLevel : Level
  fromFlat : Bool
  channels : List (Fin 16)
  position : Nat
  pass : Nat
  engine : EngineState
  phaseStart : Word
  outcome : RunOutcome
  acc : DwellAcc
  results : List ChannelResult
  deriving DecidableEq, Repr

/-! ### Level monitors (chapter 6) -/

/-- The meter a monitor reads (section 6.1). -/
inductive MonitorPoint where
  | input (i : Fin 16)
  | output (o : Fin 16)
  | sum
  deriving DecidableEq, Repr

/-- The reading a monitor takes (section 6.1). -/
inductive Measure where
  | peak
  | short
  | long
  deriving DecidableEq, Repr

/-- A monitor's condition (section 6.3). -/
inductive Condition where
  | above
  | below
  | outside
  | inside
  | jump
  | track
  deriving DecidableEq, Repr

/-- A monitor's action (R111). -/
inductive MonitorAction where
  | none
  | muteChannel
  | muteScreen
  | faderCeiling (c : Nat)
  | houseStop
  deriving DecidableEq, Repr

/-- A watch set, a subset of DARK, SHOW and STOPPED (section 6.1). -/
structure WatchSet where
  dark : Bool
  inShow : Bool
  stopped : Bool
  deriving DecidableEq, Repr

/-- The states of a monitor (section 6.1). -/
inductive MonitorState where
  | off
  | clear
  | pending
  | raised
  | releasing
  | latched
  | suspended
  deriving DecidableEq, Repr

/-- The content of a monitor entry (section 6.1) less its loaded and enabled flags. -/
structure MonitorContent where
  screen : Fin 8
  point : MonitorPoint
  measure : Measure
  condition : Condition
  a : Level
  b : Level
  partner : Option (Fin 48)
  holdMs : Nat
  releaseMs : Nat
  latch : Bool
  watch : WatchSet
  action : MonitorAction
  notify : Bool
  deriving DecidableEq, Repr

/-- A monitor entry with its run-time record (section 6.1). -/
structure Monitor where
  loaded : Bool
  enabled : Bool
  content : MonitorContent
  state : MonitorState
  mark : Option Word
  prev : Option Level
  tripped : Bool
  raiseCount : Nat
  deriving DecidableEq, Repr

/-! ### The Cue Engine (chapter 7) -/

/-- ONCE or REPEAT, for links and timers (sections 7.4, 7.5). -/
inductive RunMode where
  | once
  | repeating
  deriving DecidableEq, Repr

/-- The action set (R118). The screen that a screen action acts on stands beside the action (`CueLink.target`), since
a cue list entry's action carries none. -/
inductive Action where
  | lineSet (line : Fin 16) (active : Bool)
  | linePulse (line : Fin 16) (count onMs offMs : Nat)
  | fader (target ms : Nat)
  | mute (on : Bool)
  | formatArm (format : Option (Fin 32))
  | formatTake (ms : Nat)
  | eqSwap
  | timerStart (timer : Fin 8) (interval : Nat) (mode : RunMode)
  | timerStop (timer : Fin 8)
  | linkOn (link : Fin 32)
  | linkOff (link : Fin 32)
  | goOut
  | houseStop
  | notice (code : Byte)
  deriving DecidableEq, Repr

/-- The triggers (R130). -/
inductive Trigger where
  | showStart (s : Fin 8)
  | showEnd (s : Fin 8)
  | monitorRaised (m : Fin 48)
  | monitorCleared (m : Fin 48)
  | timer (t : Fin 8)
  | lineActive (l : Fin 16)
  | lineInactive (l : Fin 16)
  | go
  | cue (s : Fin 8) (e : Fin 64)
  | houseStop
  | houseRelease
  | alignDone (s : Fin 8)
  | command
  deriving DecidableEq, Repr

/-- An entry of a cue list (section 7.3). -/
structure CueEntry where
  position : Word
  held : Bool
  action : Action
  deriving DecidableEq, Repr

/-- A cue list with its cursor (section 7.3). -/
structure CueList where
  entries : List CueEntry
  cursor : Nat
  deriving DecidableEq, Repr

/-- A cue link (section 7.4); `target` is the own screen of a screen action, and 0 for any other (R183). -/
structure CueLink where
  loaded : Bool
  enabled : Bool
  trigger : Trigger
  owner : Option (Fin 8)
  action : Action
  target : Fin 8
  mode : RunMode
  held : Bool
  deriving DecidableEq, Repr

/-- A timer (section 7.5). -/
structure Timer where
  running : Bool
  interval : Nat
  mode : RunMode
  start : Word
  deriving DecidableEq, Repr

/-- Where an action comes from: entry e of screen s's list, or link k (section 7.6). -/
inductive Source where
  | entry (s : Fin 8) (e : Fin 64)
  | link (k : Fin 32)
  deriving DecidableEq, Repr

/-- An entry of the held list (section 7.6). -/
structure HeldAction where
  source : Source
  action : Action
  target : Fin 8
  owner : Option (Fin 8)
  time : Word
  deriving DecidableEq, Repr

/-! ### House stop, GO and booth lines (chapter 8) -/

/-- The house stop source set (R143). -/
structure SourceSet where
  line : Bool
  boothInput : Bool
  command : Bool
  monitor : Bool
  cue : Bool
  deriving DecidableEq, Repr

/-- The House Stop Controller (chapter 8). `hstopOthers` and `goOthers` say whether the wire is pulled by anything
but this unit: the pin with this unit's own drive withdrawn (R145). `hstopSince` and `goSince` are the readings at
which the pins last changed level, from which the filters time (R144, R152). `goLevel` is `go_mode` LEVEL. -/
structure House where
  set : SourceSet
  lineInput : Bool
  lineOutput : Bool
  goInput : Bool
  goLevel : Bool
  drive : Bool
  hstopOthers : Bool
  hstopSensed : Bool
  hstopSince : Word
  goPulse : Option Word
  goOthers : Bool
  goSensed : Bool
  goSince : Word
  deriving DecidableEq, Repr

/-- The modes of a booth line (section 8.7). -/
inductive LineMode where
  | input
  | stopInput
  | output
  | screenStatus
  | alarm
  deriving DecidableEq, Repr

/-- Which pin level is active (section 8.7). -/
inductive Polarity where
  | activeHigh
  | activeLow
  deriving DecidableEq, Repr

/-- The input filters of a booth line (section 8.7). -/
inductive LineFilter where
  | none
  | ms2
  | ms20
  deriving DecidableEq, Repr

/-- A status set, a set of screen states (section 8.7). -/
structure StatusSet where
  off : Bool
  dark : Bool
  inShow : Bool
  inAlign : Bool
  stopped : Bool
  deriving DecidableEq, Repr

/-- A pulse train in flight (section 8.7); `on` is phase ON. -/
structure Train where
  remaining : Nat
  on : Bool
  start : Word
  onMs : Nat
  offMs : Nat
  deriving DecidableEq, Repr

/-- A booth line record (section 8.7). `owner` none is UNIT. `filtered` is kept in INPUT and STOP_INPUT modes alone
(R156). `external` is the level the booth puts on the pin, true for high: the pin with the line's own drive withdrawn
(R154). `since` is the reading at which `external` last changed, from which the filter times. -/
structure BoothLine where
  mode : LineMode
  polarity : Polarity
  filter : LineFilter
  owner : Option (Fin 8)
  statusScreen : Fin 8
  statusSet : StatusSet
  alarmMonitor : Fin 48
  latch : Bool
  filtered : Option Bool
  train : Option Train
  external : Bool
  since : Word
  deriving DecidableEq, Repr

/-! ### Management commands (chapter 9) -/

/-- A command as it arrived (R8). -/
structure Command where
  tag : Byte
  code : Byte
  selector : Byte
  payload : List Byte
  deriving DecidableEq, Repr

/-- The result codes (R162). -/
inductive Result where
  | ok
  | accepted
  | badCommand
  | badLength
  | badValue
  | badIndex
  | badState
  | inUse
  | busy
  | stopActive
  | full
  deriving DecidableEq, Repr

/-- A reply (R162). -/
structure Reply where
  tag : Byte
  code : Byte
  result : Result
  mask : BitVec 8
  payload : List Byte
  deriving DecidableEq, Repr

/-! ### Notices (chapter 10) -/

/-- The reasons of UNIT_READY (R173). -/
inductive ReadyReason where
  | powerOn
  | keepTables
  | clear
  deriving DecidableEq, Repr

/-- The disagreements of FORMAT_MISMATCH (R59). -/
inductive Mismatch where
  | kind
  | count
  | kindAndCount
  deriving DecidableEq, Repr

/-- The skip reasons of CUE_SKIPPED (section 10.2). -/
inductive SkipReason where
  | off
  | align
  | invalid
  | nothingPending
  | swapBusy
  | jump
  | houseStop
  | heldFull
  deriving DecidableEq, Repr

/-- The notice kinds with the subject and detail that R176 gives each. The action of a cue notice is its code of
section 11.4. -/
inductive NoticeBody where
  | unitReady (reason : ReadyReason) (stopActive : Bool)
  | showStart (position : Option Word)
  | showEnd (peakLong : Level)
  | sourceLost (position : Option Word)
  | sourceRestored (position : Option Word)
  | blockGap (difference : Word)
  | formatMismatch (format : Fin 32) (what : Mismatch)
  | formatTaken (format released : Fin 32) (cutShort : Bool)
  | eqSwapped (live : BankName) (early : Bool)
  | alignProgress (channel : Fin 16) (result : AlignResult) (passesUsed : Nat) (limited : Bool) (deviation : Nat)
  | alignDone (channels converged : Nat)
  | alignAborted (reason : AbortReason) (position : Nat)
  | monitorRaised (m : Fin 48) (reading : Level)
  | monitorLatched (m : Fin 48) (reading : Level)
  | monitorCleared (m : Fin 48) (acknowledged : Bool) (reading : Level)
  | cueFired (source : Source) (action : Action) (released rehearsed : Bool)
  | cueSkipped (source : Source) (action : Action) (released : Bool) (reason : SkipReason)
  | cueHeld (source : Source) (action : Action) (length : Nat)
  | goReleased (count : Nat)
  | goCancelled (count : Nat) (byHouseStop : Bool)
  | cueNotice (source : Source) (code : Byte)
  | lineEdge (line : Fin 16) (active : Bool)
  | noticesLost (count : Nat)
  | houseState (set : SourceSet) (changes : Nat)
  deriving DecidableEq, Repr

/-- A notice (section 10.1): its REHEARSAL flag is the body's. -/
structure Notice where
  body : NoticeBody
  screen : Option (Fin 8)
  stamp : Word
  deriving DecidableEq, Repr

/-- A filled house-state slot (R179). -/
structure HouseSlot where
  count : Nat
  stamp : Word
  deriving DecidableEq, Repr

/-! ### The link interface (chapter 1) -/

/-- The two requesters that alternate for A-out (R12). -/
inductive Requester where
  | noticeSide
  | forwardBuffer
  deriving DecidableEq, Repr

/-- The link statistics (R16). -/
structure LinkStats where
  framesIn : Nat
  checkErrors : Nat
  badFrames : Nat
  cmdDropped : Nat
  fwdDropped : Nat
  gaps : Vector Nat 8
  deriving DecidableEq, Repr

end Sys2Proof.Machine
end

