-- ==== Sys2Proof/Config/Response.lean ====
section
/-!
DEFINITION. What the manual says of the responses of the EQ filters (R64, R65), as laws on a filter's impulse response.
The realisation behind them "belongs to the part" (R64), so the filters themselves are free: a structure that carries
these laws (log entry 13).
-/

namespace Sys2Proof.Config

/-! ### A filter and its response -/

/-- A filter: its memory and a block of its input give a block of its output and its memory after. -/
abbrev EqFilter := List Int → List Int → List Int × List Int

/-- What a filter gives for blocks one after another. -/
def EqFilter.run (filter : EqFilter) : List Int → List (List Int) → List Int
  | _, [] => []
  | memory, block :: blocks => (filter memory block).1 ++ EqFilter.run filter (filter memory block).2 blocks

/-- The sample at period `n` that an impulse response makes of an input. -/
noncomputable def convolved (h : Nat → ℝ) (xs : List Int) (n : Nat) : ℝ :=
  ∑ k ∈ Finset.range (n + 1), h k * (xs.getD (n - k) 0 : ℝ)

/-- The filter gives what the impulse response makes of its input, to less than one 24-bit step, whatever it remembers:
a memory stands for some input that came before, and an empty one for none. So a filter passes its next block by its own
response, also where another filter left the memory (R64; log entry 13). -/
def EqFilter.follows (filter : EqFilter) (h : Nat → ℝ) : Prop :=
  Summable (fun n => |h n|) ∧ ∀ memory : List Int, ∃ past : List Int, (memory = [] → past = []) ∧
    ∀ (blocks : List (List Int)) (n : Nat), n < blocks.flatten.length →
      |((EqFilter.run filter memory blocks).getD n 0 : ℝ) -
        convolved h (past ++ blocks.flatten) (past.length + n)| < 2 ^ fractionBits

/-- The factor by which an impulse response passes the amplitude of a tone of `hz` hertz, at 48000 sample periods a
second (00 section 4.3). -/
noncomputable def response (h : Nat → ℝ) (hz : ℝ) : ℝ :=
  ‖∑' n, (h n : ℂ) * Complex.exp (-(2 * Real.pi * hz / 48000 * n) * Complex.I)‖

/-- The factor on the amplitude of a gain in level steps (section 3.2). -/
noncomputable def amplitude (steps : ℝ) : ℝ := 10 ^ (steps / 40)

/-- The centre frequency of band `b` (section 4.1). -/
noncomputable def bandHz (b : Nat) : ℝ := 20 * 2 ^ ((b : ℝ) / 3)

/-- The frequency that index `k` stands for; a whole step is a twelfth of an octave (R65). -/
noncomputable def indexHz (k : ℝ) : ℝ := 20 * 2 ^ (k / 12)

/-- The Q that index `i` stands for (R65). -/
noncomputable def sectionQ (i : Nat) : ℝ := 0.4 * 2 ^ ((i : ℝ) / 6)

/-- A response gives the amplitude that is asked of it, within half a level step (log entry 13). -/
def gives (actual asked : ℝ) : Prop := asked * amplitude (-1 / 2) ≤ actual ∧ actual ≤ asked * amplitude (1 / 2)

/-! ### The graphic (R64) -/

/-- The response of a graphic: at the centre of each band the gain of that band, and between neighbouring centres a
smooth passage from the one gain to the other. -/
structure GraphicResponse (gains : List Int) (r : ℝ → ℝ) : Prop where
  centre : ∀ b < 31, gives (r (bandHz b)) (amplitude (gains.getD b 0))
  between : ∀ b < 30, ∀ hz, bandHz b ≤ hz → hz ≤ bandHz (b + 1) →
    amplitude (min (gains.getD b 0) (gains.getD (b + 1) 0)) * amplitude (-1 / 2) ≤ r hz ∧
      r hz ≤ amplitude (max (gains.getD b 0) (gains.getD (b + 1) 0)) * amplitude (1 / 2)
  smooth : Differentiable ℝ r

end Sys2Proof.Config

/-! ### A section (R65) -/

namespace Sys2Proof.Machine
open Config

/-- The amplitude to which a section takes what it acts on: a bell or shelf by its gain, a cut to nothing (R65). -/
noncomputable def SectionType.full : SectionType → Int → ℝ
  | .none, _ => 1
  | .peak, gain => amplitude gain
  | .lowShelf, gain => amplitude gain
  | .highShelf, gain => amplitude gain
  | .lowCut, _ => 0
  | .highCut, _ => 0

/-- The amplitude that a section asks for below its frequency: the types named for the low end act there (R65). -/
noncomputable def SectionType.below (type : SectionType) (gain : Int) : ℝ :=
  if type = .lowShelf ∨ type = .lowCut then type.full gain else 1

/-- The amplitude that a section asks for above its frequency: the types named for the high end act there (R65). -/
noncomputable def SectionType.above (type : SectionType) (gain : Int) : ℝ :=
  if type = .highShelf ∨ type = .highCut then type.full gain else 1

end Sys2Proof.Machine

namespace Sys2Proof.Config
open Machine (SectionType)

/-- The response of a section at its frequency index and gain. At the two ends of the spectrum it gives what its type
asks for below and above its frequency, and nowhere more than its full effect. A bell gives its gain at its centre. The
turn of a shelf or a cut lies at its corner, to within one step of the index: below it the response is nearer what is
asked for below, above it nearer what is asked for above (R65; log entry 13). -/
structure SectionResponse (type : SectionType) (freq : Nat) (gain : Int) (r : ℝ → ℝ) : Prop where
  lowest : gives (r 0) (type.below gain)
  highest : gives (r 24000) (type.above gain)
  within : ∀ hz, 0 ≤ hz → hz ≤ 24000 → r hz ∈ Set.uIcc 1 (type.full gain)
  centre : type = .peak → gives (r (indexHz freq)) (type.full gain)
  corner : ∀ hz, type.below gain ≠ type.above gain →
    (0 ≤ hz → hz ≤ indexHz (freq - 1) → |r hz - type.below gain| < |r hz - type.above gain|) ∧
    (indexHz (freq + 1) ≤ hz → hz ≤ 24000 → |r hz - type.above gain| < |r hz - type.below gain|)

/-- `narrow` is a narrower bell, a sharper shelf or a more abrupt knee than `wide`: at every frequency of the bands that
lies a step of the index or more away from the section's own, it is nearer what is asked for there (R65). -/
def Sharper (type : SectionType) (freq : Nat) (gain : Int) (wide narrow : ℝ → ℝ) : Prop :=
  ∀ hz, bandHz 0 ≤ hz → hz ≤ bandHz 30 →
    (hz ≤ indexHz (freq - 1) → |narrow hz - type.below gain| < |wide hz - type.below gain|) ∧
    (indexHz (freq + 1) ≤ hz → |narrow hz - type.above gain| < |wide hz - type.above gain|)

/-! ### The filters of a part -/

/-- Filters as R64 and R65 describe them: the graphic filter for the 31 band gains, and a section's filter for its type,
frequency index, gain and Q index. Each gives as many samples as it takes, and at rest, its memory empty, silence for
silence. Each follows an impulse response of the response that the manual gives it, and of two sections alike but for
their Q the one of the larger Q is the sharper. -/
structure EqFilters where
  graphic : List Int → EqFilter
  parametric : SectionType → Nat → Int → Nat → EqFilter
  graphic_length : ∀ gains memory xs, (graphic gains memory xs).1.length = xs.length
  graphic_rest : ∀ gains n, graphic gains [] (List.replicate n 0) = (List.replicate n 0, [])
  graphic_responds : ∀ gains : List Int, gains.length = 31 → (∀ g ∈ gains, -48 ≤ g ∧ g ≤ 24) →
    ∃ h, (graphic gains).follows h ∧ GraphicResponse gains (response h)
  parametric_length : ∀ type freq gain q memory xs, (parametric type freq gain q memory xs).1.length = xs.length
  parametric_rest : ∀ type freq gain q n,
    parametric type freq gain q [] (List.replicate n 0) = (List.replicate n 0, [])
  parametric_responds : ∀ type freq gain, freq < 120 → -48 ≤ gain → gain ≤ 24 → ∃ h : Nat → Nat → ℝ,
    (∀ q < 32, (parametric type freq gain q).follows (h q) ∧ SectionResponse type freq gain (response (h q))) ∧
    ∀ q < 32, ∀ q' < 32, sectionQ q < sectionQ q' → type.full gain ≠ 1 →
      Sharper type freq gain (response (h q)) (response (h q'))

end Sys2Proof.Config
end

