-- ==== Sys2Proof/Config/Analyser.lean ====
section
/-!
DEFINITION. What the manual says of the test signal generator and the band analyser of the Alignment Engine (R84, R86,
section 4.1), as laws: a structure that carries them. The noise's samples and the band filters are the part's own (00
section 3).
-/

namespace Sys2Proof.Config

/-! ### The band filters (R86, section 4.1) -/

/-- The lower edge of the third octave about the centre of band `b`. -/
noncomputable def bandLow (b : Nat) : ℝ := bandHz b * 2 ^ (-(1 / 6 : ℝ))

/-- The upper edge of the third octave about the centre of band `b`. -/
noncomputable def bandHigh (b : Nat) : ℝ := bandHz b * 2 ^ (1 / 6 : ℝ)

/-- The responses of the 31 band filters, each the factor by which it passes the amplitude of a tone. A filter passes
the centre of its band in full, and nothing of a tone a third of an octave or more away from it; of the energy of a tone
within its third octave it passes half or more, and of that of a tone outside half or less. All filters together pass no
more of a tone than there is, and of one beyond all 31 third octaves half or less. Each is meant to within half a level
step (log entry 15). -/
structure BandResponse (r : Fin 31 → ℝ → ℝ) : Prop where
  centre : ∀ b : Fin 31, gives (r b (bandHz b)) 1
  inside : ∀ (b : Fin 31) (hz : ℝ), bandLow b ≤ hz → hz ≤ bandHigh b → amplitude (-1) ≤ 2 * r b hz ^ 2
  outside : ∀ (b : Fin 31) (hz : ℝ), 0 ≤ hz → hz ≤ 24000 → hz ≤ bandLow b ∨ bandHigh b ≤ hz →
    2 * r b hz ^ 2 ≤ amplitude 1
  far : ∀ (b : Fin 31) (hz : ℝ), 0 ≤ hz → hz ≤ 24000 →
    hz ≤ bandHz b * 2 ^ (-(1 / 3 : ℝ)) ∨ bandHz b * 2 ^ (1 / 3 : ℝ) ≤ hz → r b hz ^ 2 ≤ 1 - amplitude (-1)
  whole : ∀ hz : ℝ, 0 ≤ hz → hz ≤ 24000 → ∑ b, r b hz ^ 2 ≤ 1
  beyond : ∀ hz : ℝ, 0 ≤ hz → hz ≤ 24000 → hz ≤ bandLow 0 ∨ bandHigh 30 ≤ hz → 2 * ∑ b, r b hz ^ 2 ≤ amplitude 1

/-- The energy of what a filter of impulse response `h`, at rest before them, makes of samples. -/
noncomputable def passedEnergy (h : Nat → ℝ) (xs : List Int) : ℝ :=
  ∑ n ∈ Finset.range xs.length, convolved h xs n ^ 2

/-! ### The noise (R84) -/

/-- The stretch of `size` samples of a sequence from sample period `n` on. -/
def stretch (sample : Nat → Int) (n size : Nat) : List Int := (List.range size).map fun t => sample (n + t)

/-- Sample periods in a second. -/
def secondPeriods : Nat := secondBlocks * blockPeriods

/-- The energy of a second at full scale. -/
def fullSecond : Nat := secondPeriods * (fullScale * fullScale)

/-- The energies lie within one level step of each other; a step is a factor of 10^(1/20) on an energy. -/
def withinStep (x y : Nat) : Prop := x ^ 20 ≤ y ^ 20 * 10 ∧ y ^ 20 ≤ x ^ 20 * 10

/-- The generator and the analyser of the Alignment Engine. `noise` is the sample of the noise at a test level and a
sample period, in units of one 24-bit step. `energyIn` is the energy that samples hold in a band: that of what the
band's filter makes of them, to less than one square of a 24-bit step; it is a share of their energy, from which further
samples take nothing (R86). Over any whole second the noise's energy mean lies within one level step of the test level
−k, and over every stretch that is long enough each of the 31 bands holds an equal share of its energy, within one level
step (R84; log entries 14 and 15). -/
structure AlignmentGear where
  noise : Level → Nat → Int
  energyIn : Nat → List Int → Nat
  level : ∀ k n : Nat, 20 ≤ k → k ≤ 120 →
    fullSecond ^ 20 ≤ energy (stretch (noise (-k)) n secondPeriods) ^ 20 * 10 ^ (k + 1) ∧
    energy (stretch (noise (-k)) n secondPeriods) ^ 20 * 10 ^ k ≤ fullSecond ^ 20 * 10
  equal : ∀ k : Nat, 20 ≤ k → k ≤ 120 → ∃ long : Nat, ∀ (size n : Nat) (b : Fin 31), long ≤ size →
    withinStep (31 * energyIn b (stretch (noise (-k)) n size)) (energy (stretch (noise (-k)) n size))
  share : ∀ band xs, energyIn band xs ≤ energy xs
  grows : ∀ band xs ys, energyIn band xs ≤ energyIn band (xs ++ ys)
  filters : ∃ h : Fin 31 → Nat → ℝ, (∀ b, Summable fun n => |h b n|) ∧ BandResponse (fun b => response (h b)) ∧
    ∀ (b : Fin 31) (xs : List Int), |(energyIn b xs : ℝ) - passedEnergy (h b) xs| < 1

end Sys2Proof.Config
end

