-- ==== Sys2Proof/Laws/Bernstein.lean ====
section
/-!
SUPPORT. Bernstein sums, and the filters of finitely many taps whose response is such a sum.
They show that a response as R64 and R65 ask for can be had (`Config.EqFilters`).
-/

namespace Sys2Proof.Config.Witness
open Finset

/-- The Bernstein sum of degree `n` of a function. -/
def bern {K : Type} [Field K] (n : Nat) (f : K → K) (x : K) : K :=
  ∑ k ∈ range (n + 1), f (k / n) * (n.choose k * x ^ k * (1 - x) ^ (n - k))

variable {n : Nat}

/-- The weights of a Bernstein sum add up to one. -/
theorem weights_sum (x : ℝ) : ∑ k ∈ range (n + 1), ((n.choose k : ℝ) * x ^ k * (1 - x) ^ (n - k)) = 1 := by
  have h := congrArg (Polynomial.eval x) (bernsteinPolynomial.sum ℝ n)
  simpa [bernsteinPolynomial, Polynomial.eval_finsetSum] using h

/-- The variance of the weights of a Bernstein sum. -/
theorem weights_variance (x : ℝ) (pos : 0 < n) :
    ∑ k ∈ range (n + 1), ((k / n : ℝ) - x) ^ 2 * ((n.choose k : ℝ) * x ^ k * (1 - x) ^ (n - k)) = x * (1 - x) / n :=
        by
  have h := congrArg (Polynomial.eval x) (bernsteinPolynomial.variance ℝ n)
  simp only [bernsteinPolynomial, Polynomial.eval_finsetSum, Polynomial.eval_mul, Polynomial.eval_pow,
    Polynomial.eval_sub, Polynomial.eval_X, Polynomial.eval_natCast, Polynomial.eval_one,
    nsmul_eq_mul] at h
  have nz : (n : ℝ) ≠ 0 := by positivity
  have : ∀ k : ℕ, ((k / n : ℝ) - x) ^ 2 = (n * x - k) ^ 2 / n ^ 2 := fun k => by field_simp; ring
  simp only [this, div_mul_eq_mul_div, ← Finset.sum_div]
  rw [h]
  field_simp

theorem weight_nonneg {x : ℝ} (low : 0 ≤ x) (high : x ≤ 1) (k : Nat) :
    0 ≤ (n.choose k : ℝ) * x ^ k * (1 - x) ^ (n - k) := by
  have : 0 ≤ 1 - x := by linarith
  positivity

/-- A Bernstein sum stands near its function, where that function is not too steep. -/
theorem bern_near {f : ℝ → ℝ} {slope d x : ℝ} (dpos : 0 < d) (pos : 0 < n)
    (lipschitz : ∀ x y, |f x - f y| ≤ slope * |x - y|) (low : 0 ≤ x) (high : x ≤ 1) :
    |bern n f x - f x| ≤ d + slope ^ 2 / (16 * d * n) := by
  have rewrite_f : bern n f x - f x =
      ∑ k ∈ range (n + 1), (f (k / n) - f x) * ((n.choose k : ℝ) * x ^ k * (1 - x) ^ (n - k)) := by
    simp only [sub_mul, Finset.sum_sub_distrib, ← Finset.mul_sum, weights_sum, mul_one, bern]
  rw [rewrite_f]
  refine (Finset.abs_sum_le_sum_abs _ _).trans ?_
  have each : ∀ k ∈ range (n + 1), |(f (k / n) - f x) * ((n.choose k : ℝ) * x ^ k * (1 - x) ^ (n - k))| ≤
      d * ((n.choose k : ℝ) * x ^ k * (1 - x) ^ (n - k)) +
      slope ^ 2 / (4 * d) * (((k / n : ℝ) - x) ^ 2 * ((n.choose k : ℝ) * x ^ k * (1 - x) ^ (n - k))) := by
    intro k _
    have w := weight_nonneg (n := n) low high k
    rw [abs_mul, abs_of_nonneg w, ← mul_assoc (slope ^ 2 / (4 * d)), ← add_mul]
    refine mul_le_mul_of_nonneg_right ((lipschitz _ _).trans ?_) w
    have key := sq_nonneg (2 * d - slope * |(k / n : ℝ) - x|)
    have sq := sq_abs ((k / n : ℝ) - x)
    rw [← sq]
    have : d + slope ^ 2 / (4 * d) * |(k / n : ℝ) - x| ^ 2 - slope * |(k / n : ℝ) - x| =
      (2 * d - slope * |(k / n : ℝ) - x|) ^ 2 / (4 * d) := by field_simp; ring
    have : 0 ≤ (2 * d - slope * |(k / n : ℝ) - x|) ^ 2 / (4 * d) := by positivity
    linarith
  refine (Finset.sum_le_sum each).trans ?_
  rw [Finset.sum_add_distrib, ← Finset.mul_sum, ← Finset.mul_sum, weights_sum, weights_variance x pos]
  have quarter : x * (1 - x) ≤ 1 / 4 := by nlinarith [sq_nonneg (2 * x - 1)]
  have npos : (0 : ℝ) < n := by positivity
  have : slope ^ 2 / (4 * d) * (x * (1 - x) / n) ≤ slope ^ 2 / (16 * d * n) := by
    rw [show slope ^ 2 / (16 * d * n) = slope ^ 2 / (4 * d) * (1 / 4 / n) by field_simp; ring]
    gcongr
  linarith

/-- The coefficients of (1 − w)^a (1 + w)^b. -/
def lin : Nat → Nat → Nat → Int
  | 0, 0, 0 => 1
  | 0, 0, _ + 1 => 0
  | 0, b + 1, 0 => lin 0 b 0
  | 0, b + 1, m + 1 => lin 0 b (m + 1) + lin 0 b m
  | a + 1, b, 0 => lin a b 0
  | a + 1, b, m + 1 => lin a b (m + 1) - lin a b m

open Polynomial in
theorem lin_eq (a b m : Nat) : lin a b m = ((1 - X) ^ a * (1 + X) ^ b : ℤ[X]).coeff m := by
  induction a, b, m using lin.induct with
  | case1 => simp [lin]
  | case2 => simp [lin, Polynomial.coeff_one]
  | case3 b ih => rw [lin, ih, pow_succ']; simp [Polynomial.mul_coeff_zero]
  | case4 b m ih1 ih2 =>
    rw [lin, ih1, ih2, pow_succ]
    simp [mul_add, Polynomial.coeff_mul_X]
  | case5 a b ih => rw [lin, ih, pow_succ']; simp [Polynomial.mul_coeff_zero]
  | case6 a b m ih1 ih2 =>
    rw [lin, ih1, ih2, pow_succ']
    rw [mul_assoc, sub_mul, one_mul, Polynomial.coeff_sub, Polynomial.coeff_X_mul]

/-- The impulse response that passes a tone as the Bernstein sum of a function of `sinSquare` does. -/
def tap (n : Nat) (f : ℚ → ℚ) (m : Nat) : ℚ :=
  (∑ k ∈ range (n + 1), f (k / n) * n.choose k * (-1) ^ k * lin (2 * k) (2 * (n - k)) m) / 4 ^ n

open Polynomial in
/-- The taps as a polynomial. -/
noncomputable def tapPoly (n : Nat) (f : ℚ → ℚ) : ℂ[X] :=
  ∑ k ∈ range (n + 1), C (((f (k / n) * n.choose k * (-1) ^ k / 4 ^ n : ℚ) : ℂ)) *
    ((1 - X) ^ (2 * k) * (1 + X) ^ (2 * (n - k)) : ℤ[X]).map (Int.castRingHom ℂ)

theorem tap_eq (f : ℚ → ℚ) (m : Nat) : (tap n f m : ℂ) = (tapPoly n f).coeff m := by
  simp only [tap, tapPoly, Polynomial.finsetSum_coeff, Polynomial.coeff_C_mul, Polynomial.coeff_map, lin_eq]
  push_cast
  rw [Finset.sum_div]
  refine Finset.sum_congr rfl fun k _ => ?_
  simp
  ring

theorem tapPoly_degree (f : ℚ → ℚ) : (tapPoly n f).natDegree ≤ 2 * n := by
  refine Polynomial.natDegree_sum_le_of_forall_le _ _ fun k hk => ?_
  have hk : k ≤ n := by simpa [Nat.lt_succ_iff] using hk
  refine Polynomial.natDegree_C_mul_le _ _ |>.trans ?_
  refine Polynomial.natDegree_map_le.trans ?_
  refine Polynomial.natDegree_mul_le.trans ?_
  have h1 : ((1 - Polynomial.X : Polynomial ℤ) ^ (2 * k)).natDegree ≤ 2 * k := by
    refine Polynomial.natDegree_pow_le.trans ?_
    have : (1 - Polynomial.X : Polynomial ℤ).natDegree ≤ 1 := by compute_degree
    nlinarith
  have h2 : ((1 + Polynomial.X : Polynomial ℤ) ^ (2 * (n - k))).natDegree ≤ 2 * (n - k) := by
    refine Polynomial.natDegree_pow_le.trans ?_
    have : (1 + Polynomial.X : Polynomial ℤ).natDegree ≤ 1 := by compute_degree
    nlinarith
  omega

/-- The place of a frequency in the spectrum: 0 at 0 Hz, 1 at 24 kHz. -/
noncomputable def sinSquare (hz : ℝ) : ℝ := Real.sin (Real.pi * hz / 48000) ^ 2

theorem one_sub_exp (a : ℂ) :
    (1 - Complex.exp (-(2 * a) * Complex.I)) ^ 2 =
      -(4 * Complex.exp (-(2 * a) * Complex.I) * Complex.sin a ^ 2) := by
  have e : Complex.exp (-(2 * a) * Complex.I) = Complex.exp (-a * Complex.I) ^ 2 := by
    rw [← Complex.exp_nat_mul]; congr 1; push_cast; ring
  have u : Complex.exp (a * Complex.I) * Complex.exp (-a * Complex.I) = 1 := by
    rw [← Complex.exp_add]; simp
  rw [e, Complex.sin]
  have i2 : Complex.I ^ 2 = -1 := Complex.I_sq
  generalize Complex.exp (-a * Complex.I) = p at *
  generalize Complex.exp (a * Complex.I) = q at *
  have : -(4 * p ^ 2 * ((p - q) * Complex.I / 2) ^ 2) = (p * (p - q)) ^ 2 := by
    linear_combination (-(p ^ 2 * (p - q) ^ 2)) * i2
  rw [this]
  have : p * (p - q) = p ^ 2 - 1 := by linear_combination -u
  rw [this]; ring

theorem one_add_exp (a : ℂ) :
    (1 + Complex.exp (-(2 * a) * Complex.I)) ^ 2 =
      4 * Complex.exp (-(2 * a) * Complex.I) * (1 - Complex.sin a ^ 2) := by
  have := one_sub_exp a
  linear_combination this

open Polynomial in
theorem tapPoly_eval (f : ℚ → ℚ) (g : ℝ → ℝ) (same : ∀ q : ℚ, ((f q : ℚ) : ℝ) = g q) (a : ℝ) :
    (tapPoly n f).eval (Complex.exp (-(2 * a) * Complex.I)) =
      Complex.exp (-(2 * a) * Complex.I) ^ n * (bern n g (Real.sin a ^ 2) : ℝ) := by
  simp only [tapPoly, Polynomial.eval_finsetSum, Polynomial.eval_mul, Polynomial.eval_C, bern]
  rw [Complex.ofReal_sum, Finset.mul_sum]
  refine Finset.sum_congr rfl fun k hk => ?_
  have hk : k ≤ n := by simpa [Nat.lt_succ_iff] using hk
  have hn : n = k + (n - k) := by omega
  simp only [Polynomial.map_mul, Polynomial.map_pow, Polynomial.map_sub, Polynomial.map_add, Polynomial.map_one,
    Polynomial.map_X, Polynomial.eval_mul, Polynomial.eval_pow, Polynomial.eval_sub, Polynomial.eval_add,
    Polynomial.eval_one, Polynomial.eval_X]
  rw [pow_mul, pow_mul (1 + _), one_sub_exp, one_add_exp]
  have value : ((g (k / n : ℝ) : ℝ) : ℂ) = ((f (k / n) : ℚ) : ℂ) := by
    rw [show (k / n : ℝ) = ((k / n : ℚ) : ℝ) by push_cast; rfl, ← same]; simp
  push_cast
  rw [value]
  generalize Complex.exp (-(2 * (a : ℂ)) * Complex.I) = w
  generalize Complex.sin (a : ℂ) ^ 2 = u
  generalize ((f (k / n) : ℚ) : ℂ) = v
  generalize n - k = l at *
  subst hn
  have : ((-1 : ℂ)) ^ k * (-1) ^ k = 1 := by rw [← mul_pow]; simp
  have four : (4 : ℂ) ^ (k + l) ≠ 0 := pow_ne_zero _ (by norm_num)
  field_simp
  have split : (-(4 * w * u)) ^ k = (-1) ^ k * (4 ^ k * w ^ k * u ^ k) := by
    rw [← mul_pow, ← mul_pow, ← mul_pow]; congr 1; ring
  rw [split]
  simp only [mul_pow, pow_add]
  linear_combination (v * ((k + l).choose k) * 4 ^ k * w ^ k * u ^ k * 4 ^ l * w ^ l * (1 - u) ^ l) * this

/-- The response of the taps is the Bernstein sum. -/
theorem response_tap (f : ℚ → ℚ) (g : ℝ → ℝ) (same : ∀ q : ℚ, ((f q : ℚ) : ℝ) = g q) (hz : ℝ) :
    response (fun m => (tap n f m : ℝ)) hz = |bern n g (sinSquare hz)| := by
  have terms : ∀ m : ℕ, ((((tap n f m : ℚ) : ℝ)) : ℂ) * Complex.exp (-(2 * Real.pi * hz / 48000 * m) * Complex.I) =
      (tapPoly n f).coeff m * Complex.exp (-(2 * ((Real.pi * hz / 48000 : ℝ) : ℂ)) * Complex.I) ^ m := by
    intro m
    rw [← tap_eq, ← Complex.exp_nat_mul]
    push_cast
    congr 2
    ring
  unfold response
  simp only [terms]
  rw [tsum_eq_sum (s := range (2 * n + 1)), ← Polynomial.eval_eq_sum_range' (Nat.lt_succ_of_le (tapPoly_degree f)),
    tapPoly_eval f g same, norm_mul, norm_pow]
  · have : ‖Complex.exp (-(2 * ((Real.pi * hz / 48000 : ℝ) : ℂ)) * Complex.I)‖ = 1 := by
      rw [show -(2 * ((Real.pi * hz / 48000 : ℝ) : ℂ)) * Complex.I = ((-(2 * (Real.pi * hz / 48000)) : ℝ) : ℂ) *
          Complex.I by
        push_cast; rfl]
      exact Complex.norm_exp_ofReal_mul_I _
    rw [this, one_pow, one_mul, Complex.norm_real, Real.norm_eq_abs, sinSquare]
  · intro m hm
    rw [Polynomial.coeff_eq_zero_of_natDegree_lt, zero_mul]
    have := tapPoly_degree (n := n) f
    simp at hm; omega

theorem tap_beyond (f : ℚ → ℚ) {m : Nat} (far : 2 * n < m) : tap n f m = 0 := by
  have h := tap_eq (n := n) f m
  rw [Polynomial.coeff_eq_zero_of_natDegree_lt] at h
  · exact_mod_cast h
  · have := tapPoly_degree (n := n) f; omega

/-! ### Filters of finitely many taps -/

/-- A sample put before those that a filter remembers; silence after silence is not remembered. -/
def push (x : Int) : List Int → List Int
  | [] => if x = 0 then [] else [x]
  | y :: rest => x :: y :: rest

/-- The sample that taps make of what a filter remembers, rounded down. -/
def firSample (taps : Nat → ℚ) (size : Nat) (memory : List Int) : Int :=
  ⌊∑ k ∈ range size, taps k * (memory.getD k 0 : ℚ)⌋

/-- The filter of finitely many taps. -/
def fir (taps : Nat → ℚ) (size : Nat) : EqFilter
  | memory, [] => ([], memory)
  | memory, x :: xs =>
    let (ys, after) := fir taps size (push x memory) xs
    (firSample taps size (push x memory) :: ys, after)

theorem push_getD (x : Int) (memory : List Int) (k : Nat) : (push x memory).getD k 0 = (x :: memory).getD k 0 := by
  cases memory with
  | nil => by_cases h : x = 0 <;> cases k <;> simp [push, h]
  | cons => rfl

variable {taps : Nat → ℚ} {size : Nat}

theorem fir_length (memory xs : List Int) : (fir taps size memory xs).1.length = xs.length := by
  induction xs generalizing memory with
  | nil => rfl
  | cons x xs ih => simp [fir, ih]

theorem fir_rest (n : Nat) : fir taps size [] (List.replicate n 0) = (List.replicate n 0, []) := by
  induction n with
  | zero => rfl
  | succ n ih =>
    have quiet : firSample taps size [] = 0 := by simp [firSample]
    simp [List.replicate_succ, fir, push, ih, quiet]

theorem fir_append (memory xs ys : List Int) :
    fir taps size memory (xs ++ ys) =
      ((fir taps size memory xs).1 ++ (fir taps size (fir taps size memory xs).2 ys).1,
        (fir taps size (fir taps size memory xs).2 ys).2) := by
  induction xs generalizing memory with
  | nil => rfl
  | cons x xs ih => simp [fir, ih]

theorem run_fir (memory : List Int) (blocks : List (List Int)) :
    EqFilter.run (fir taps size) memory blocks = (fir taps size memory blocks.flatten).1 := by
  induction blocks generalizing memory with
  | nil => rfl
  | cons b bs ih => simp [EqFilter.run, ih, fir_append]

/-- Each sample of the filter, from its input and what it remembered. -/
theorem fir_getD (memory xs : List Int) {n : Nat} (inside : n < xs.length) :
    (fir taps size memory xs).1.getD n 0 =
      ⌊∑ k ∈ range size, taps k * ((if k ≤ n then xs.getD (n - k) 0 else memory.getD (k - n - 1) 0 : Int) : ℚ)⌋ := by
  induction xs generalizing memory n with
  | nil => simp at inside
  | cons x xs ih =>
    cases n with
    | zero =>
      simp only [fir, List.getD_cons_zero, firSample, push_getD]
      congr 1
      refine Finset.sum_congr rfl fun k _ => ?_
      cases k <;> simp
    | succ n =>
      simp only [fir, List.getD_cons_succ]
      rw [ih _ (by simpa using inside)]
      congr 1
      refine Finset.sum_congr rfl fun k _ => ?_
      congr 2
      rw [push_getD]
      split_ifs with h1 h2 h2
      · rw [show n + 1 - k = n - k + 1 by omega, List.getD_cons_succ]
      · omega
      · obtain rfl : k = n + 1 := by omega
        simp
      · rw [show k - n - 1 = k - (n + 1) - 1 + 1 by omega, List.getD_cons_succ]

/-- The input that a filter remembers, oldest first, stands before what it takes next. -/
theorem remembered_getD (memory xs : List Int) {n k : Nat} (inside : k ≤ memory.length + n) :
    (memory.reverse ++ xs).getD (memory.length + n - k) 0 =
      if k ≤ n then xs.getD (n - k) 0 else memory.getD (k - n - 1) 0 := by
  split_ifs with late
  · rw [List.getD_append_right _ _ _ _ (by simp; omega)]
    congr 1
    simp; omega
  · rw [List.getD_append _ _ _ _ (by simp; omega), List.getD_eq_getElem _ _ (by simp; omega),
      List.getD_eq_getElem _ _ (by omega), List.getElem_reverse]
    congr 1
    omega

/-- The filter follows its taps, the input that it remembers coming before what it takes. -/
theorem fir_follows (outside : ∀ k, size ≤ k → taps k = 0) : (fir taps size).follows (fun k => (taps k : ℝ)) := by
  refine ⟨summable_of_ne_finset_zero (s := range size) fun k hk => ?_,
    fun memory => ⟨memory.reverse, fun rest => by simp [rest], fun blocks n inside => ?_⟩⟩
  · simp [outside k (by simpa using hk)]
  · rw [run_fir, fir_getD _ _ inside, List.length_reverse]
    set read := fun k => ((if k ≤ n then blocks.flatten.getD (n - k) 0 else memory.getD (k - n - 1) 0 : Int) : ℚ)
      with read_eq
    set total := ∑ k ∈ range size, taps k * read k with total_eq
    have exact : convolved (fun k => (taps k : ℝ)) (memory.reverse ++ blocks.flatten) (memory.length + n) =
        (total : ℝ) := by
      have inRange : total = ∑ k ∈ range (max (memory.length + n + 1) size), taps k * read k := by
        rw [total_eq, ← Finset.sum_subset (Finset.range_mono (le_max_right (memory.length + n + 1) size))]
        intro k _ hk
        rw [outside k (by simpa using hk), zero_mul]
      rw [inRange, ← Finset.sum_subset (Finset.range_mono (le_max_left (memory.length + n + 1) size)), convolved]
      · push_cast
        refine Finset.sum_congr rfl fun k hk => ?_
        rw [remembered_getD _ _ (by simpa [Nat.lt_succ_iff] using hk), read_eq, Rat.cast_intCast]
      · intro k _ hk
        have : memory.length + n + 1 ≤ k := by simpa using hk
        simp only [read_eq]
        rw [if_neg (by omega), List.getD_eq_default _ _ (by omega)]
        simp
    rw [exact]
    have low := Int.floor_le total
    have high := Int.lt_floor_add_one total
    have low' : ((⌊total⌋ : Int) : ℝ) ≤ (total : ℝ) := by exact_mod_cast low
    have high' : (total : ℝ) < ((⌊total⌋ : Int) : ℝ) + 1 := by exact_mod_cast high
    rw [abs_lt]
    constructor <;> norm_num [fractionBits] <;> linarith

end Sys2Proof.Config.Witness
end

