-- ==== Sys2Proof/Laws/Spectrum.lean ====
section
/-!
SUPPORT. The places of the bands and of the frequency indices in the spectrum, and on them the
responses that the taps of a graphic and of a section are made for (R64, R65).
-/

namespace Sys2Proof.Config.Witness
open Finset
open Machine (SectionType)

/-- The grid on which places of the spectrum are bounded. -/
def grid : Nat := 10 ^ 12

/-- The squares of the angles of the twelve lowest places, on the grid, rounded down. -/
def baseSquares : List Nat :=
  [1526530, 1713472, 1923308, 2158840, 2423216, 2719968, 3053061, 3426945, 3846616, 4317681, 4846433, 5439937]

/-- A bound below the place `j` of octave `o`: an octave up is one doubling of the angle. -/
def lower (o j : Nat) : Nat :=
  match o with
  | 0 => baseSquares.getD j 0 - 60
  | o + 1 => 4 * lower o j * (grid - lower o j) / grid

/-- A bound above the place `j` of octave `o`. -/
def upper (o j : Nat) : Nat :=
  match o with
  | 0 => baseSquares.getD j 0 + 2
  | o + 1 => 4 * upper o j * (grid - upper o j) / grid + 1

/-- The bound below the place of index `j` − 1. -/
def below (j : Nat) : Nat := lower (j / 12) (j % 12)

/-- The bound above the place of index `j` − 1. -/
def above (j : Nat) : Nat := upper (j / 12) (j % 12)

theorem separate : ∀ j < 121, above j < below (j + 1) := by decide +kernel

theorem half : ∀ j < 110, 2 * above j ≤ grid := by decide +kernel

theorem ordered : ∀ j < 122, below j ≤ above j := by decide +kernel

theorem first : 1000000 < below 1 := by decide +kernel

theorem last : 20 * above 121 < 19 * grid := by decide +kernel

theorem base_square {j : Nat} (h : j < 12) :
    ((baseSquares.getD j 0 : ℕ) : ℝ) ≤ 10 ^ 12 * (Real.pi * indexHz (j - 1) / 48000) ^ 2 ∧
    10 ^ 12 * (Real.pi * indexHz (j - 1) / 48000) ^ 2 ≤ (baseSquares.getD j 0 : ℕ) + 1 := by
  have pl := Real.pi_gt_d20
  have pu := Real.pi_lt_d20
  have sq : (Real.pi * indexHz (j - 1) / 48000) ^ 2 = Real.pi ^ 2 * 2 ^ (((j : ℝ) - 1) / 6) / 5760000 := by
    unfold indexHz
    have : (2 : ℝ) ^ (((j : ℝ) - 1) / 6) = (2 ^ (((j : ℝ) - 1) / 12)) ^ 2 := by
      rw [← Real.rpow_natCast, ← Real.rpow_mul (by norm_num)]; congr 1; push_cast; ring
    rw [this]; ring
  rw [sq]
  have tpos : (0 : ℝ) < 2 ^ (((j : ℝ) - 1) / 6) := by positivity
  have t6 : ((2 : ℝ) ^ (((j : ℝ) - 1) / 6)) ^ 6 * 2 = 2 ^ j := by
    rw [← Real.rpow_natCast, ← Real.rpow_mul (by norm_num)]
    rw [show ((j : ℝ) - 1) / 6 * ((6 : ℕ) : ℝ) = j - 1 by push_cast; ring, Real.rpow_sub (by norm_num)]
    simp
  generalize (2 : ℝ) ^ (((j : ℝ) - 1) / 6) = t at *
  have pi2l : (9.86960440 : ℝ) < Real.pi ^ 2 := by nlinarith
  have pi2u : Real.pi ^ 2 < (9.86960441 : ℝ) := by nlinarith
  have bound : ∀ a b : ℝ, 0 ≤ a → 0 ≤ b → a ^ 6 * 2 ≤ 2 ^ j → (2 : ℝ) ^ j ≤ b ^ 6 * 2 → a ≤ t ∧ t ≤ b := by
    intro a b ha hb h1 h2
    constructor
    · exact le_of_pow_le_pow_left₀ (n := 6) (by norm_num) tpos.le (by linarith)
    · exact le_of_pow_le_pow_left₀ (n := 6) (by norm_num) hb (by linarith)
  have m0 : (0 : ℝ) ≤ (baseSquares.getD j 0 : ℕ) := by positivity
  have := bound ((baseSquares.getD j 0 : ℕ) * 5.76 / 10 ^ 6 / 9.86960440) (((baseSquares.getD j 0 : ℕ) + 1) * 5.76 /
      10 ^ 6 / 9.86960441)
    (by positivity) (by positivity)
    (by clear * - h; interval_cases j <;> norm_num [baseSquares]) (by clear * - h; interval_cases j <;> norm_num
        [baseSquares])
  obtain ⟨l, u⟩ := this
  constructor
  · rw [div_le_iff₀ (by norm_num)] at l
    nlinarith
  · rw [le_div_iff₀ (by norm_num)] at u
    nlinarith

theorem sinSquare_base {j : Nat} (h : j < 12) :
    (lower 0 j : ℝ) ≤ 10 ^ 12 * sinSquare (indexHz (j - 1)) ∧ 10 ^ 12 * sinSquare (indexHz (j - 1)) ≤ upper 0 j := by
  obtain ⟨l, u⟩ := base_square h
  have pos : 0 < Real.pi * indexHz (j - 1) / 48000 := by unfold indexHz; positivity
  unfold sinSquare
  generalize Real.pi * indexHz (j - 1) / 48000 = x at *
  have s1 := Real.sin_lt pos
  have s2 := Real.sin_gt_sub_cube pos
  have m : 1000 ≤ baseSquares.getD j 0 ∧ baseSquares.getD j 0 < 6000000 := by interval_cases j <;> decide
  have mR : ((baseSquares.getD j 0 : ℕ) : ℝ) ≤ 6000000 := by exact_mod_cast m.2.le
  have x2 : x ^ 2 ≤ 7 / 10 ^ 6 := by nlinarith
  have x1 : 0 < x - x ^ 3 / 6 := by nlinarith [mul_pos pos pos]
  have spos : 0 < Real.sin x := x1.trans s2
  simp only [lower, upper]
  constructor
  · rw [Nat.cast_sub (by omega)]
    have : (x - x ^ 3 / 6) ^ 2 ≤ Real.sin x ^ 2 := by gcongr
    have : x ^ 2 * x ^ 2 ≤ 7 / 10 ^ 6 * (7 / 10 ^ 6) := by gcongr
    have : x ^ 2 - x ^ 4 / 3 ≤ (x - x ^ 3 / 6) ^ 2 := by nlinarith [sq_nonneg (x ^ 3)]
    push_cast
    nlinarith
  · have : Real.sin x ^ 2 ≤ x ^ 2 := by gcongr
    push_cast
    linarith

/-- A frequency doubled. -/
theorem sinSquare_double (hz : ℝ) : sinSquare (2 * hz) = 4 * sinSquare hz * (1 - sinSquare hz) := by
  unfold sinSquare
  rw [show Real.pi * (2 * hz) / 48000 = 2 * (Real.pi * hz / 48000) by ring, Real.sin_two_mul]
  have := Real.sin_sq_add_cos_sq (Real.pi * hz / 48000)
  linear_combination (4 * Real.sin (Real.pi * hz / 48000) ^ 2) * this

theorem sinSquare_octaves (o : Nat) {j : Nat} (h : j < 12) (low : 12 * o + j < 122) :
    (lower o j : ℝ) ≤ 10 ^ 12 * sinSquare (indexHz ((12 * o + j : ℕ) - 1)) ∧
      10 ^ 12 * sinSquare (indexHz ((12 * o + j : ℕ) - 1)) ≤ upper o j := by
  induction o with
  | zero => simpa using sinSquare_base h
  | succ o ih =>
    obtain ⟨l, u⟩ := ih (by omega)
    have double : indexHz ((12 * (o + 1) + j : ℕ) - 1) = 2 * indexHz ((12 * o + j : ℕ) - 1) := by
      unfold indexHz
      rw [show (((12 * (o + 1) + j : ℕ) : ℝ) - 1) / 12 = (((12 * o + j : ℕ) : ℝ) - 1) / 12 + 1 by push_cast; ring,
        Real.rpow_add (by norm_num), Real.rpow_one]
      ring
    have small : 2 * upper o j ≤ grid := by
      have := half (12 * o + j) (by omega)
      rwa [above, show (12 * o + j) / 12 = o by omega, show (12 * o + j) % 12 = j by omega] at this
    have order : lower o j ≤ upper o j := by exact_mod_cast l.trans u
    have smallR : 2 * (upper o j : ℝ) ≤ 10 ^ 12 := by exact_mod_cast small
    have l0 : (0 : ℝ) ≤ lower o j := by positivity
    rw [double, sinSquare_double]
    generalize sinSquare (indexHz ((12 * o + j : ℕ) - 1)) = s at *
    simp only [lower, upper]
    constructor
    · have := Nat.div_mul_le_self (4 * lower o j * (grid - lower o j)) grid
      have : ((4 * lower o j * (grid - lower o j) / grid : ℕ) : ℝ) * 10 ^ 12 ≤ 4 * lower o j * (10 ^ 12 - lower o j)
          := by
        have := (Nat.cast_le (α := ℝ)).mpr this
        rw [Nat.cast_mul, Nat.cast_mul, Nat.cast_mul, Nat.cast_sub (by omega)] at this
        norm_num [grid] at this ⊢
        linarith
      nlinarith
    · have := Nat.lt_div_mul_add (a := 4 * upper o j * (grid - upper o j)) (b := grid) (by decide)
      have : 4 * (upper o j : ℝ) * (10 ^ 12 - upper o j) < ((4 * upper o j * (grid - upper o j) / grid : ℕ) : ℝ) * 10
          ^ 12 + 10 ^ 12 := by
        have := (Nat.cast_lt (α := ℝ)).mpr this
        rw [Nat.cast_add, Nat.cast_mul, Nat.cast_mul, Nat.cast_mul, Nat.cast_sub (by omega)] at this
        norm_num [grid] at this ⊢
        linarith
      push_cast
      nlinarith

/-- The bounds hold the places of the indices. -/
theorem sinSquare_index {j : Nat} (h : j < 122) :
    (below j : ℝ) ≤ 10 ^ 12 * sinSquare (indexHz (j - 1)) ∧ 10 ^ 12 * sinSquare (indexHz (j - 1)) ≤ above j := by
  have := sinSquare_octaves (j / 12) (j := j % 12) (Nat.mod_lt _ (by norm_num)) (by omega)
  rwa [Nat.div_add_mod] at this

theorem sinSquare_mono {a b : ℝ} (low : 0 ≤ a) (le : a ≤ b) (high : b ≤ 24000) : sinSquare a ≤ sinSquare b := by
  have p := Real.pi_pos
  unfold sinSquare
  have h : Real.sin (Real.pi * a / 48000) ≤ Real.sin (Real.pi * b / 48000) := by
    apply Real.sin_le_sin_of_le_of_le_pi_div_two
    · have : 0 ≤ Real.pi * a / 48000 := by positivity
      linarith
    · nlinarith
    · gcongr
  have : 0 ≤ Real.sin (Real.pi * a / 48000) := Real.sin_nonneg_of_nonneg_of_le_pi (by positivity) (by nlinarith)
  gcongr

theorem indexHz_mono {a b : ℝ} (le : a ≤ b) : indexHz a ≤ indexHz b := by
  unfold indexHz; gcongr; norm_num

theorem sinSquare_zero : sinSquare 0 = 0 := by simp [sinSquare]

theorem sinSquare_top : sinSquare 24000 = 1 := by
  rw [sinSquare, show Real.pi * 24000 / 48000 = Real.pi / 2 by ring]; simp

theorem sinSquare_range (hz : ℝ) : 0 ≤ sinSquare hz ∧ sinSquare hz ≤ 1 :=
  ⟨sq_nonneg _, Real.sin_sq_le_one _⟩

/-! ### The responses aimed at -/
section Shapes
variable {K : Type} [Field K] [LinearOrder K]

/-- 0 up to `l`, 1 from `r` on, and straight between them. -/
def ramp (l r u : K) : K := max 0 (min 1 ((u - l) / (r - l)))

/-- A point of the grid. -/
def gridPoint (n : Nat) : K := (n : K) / (grid : K)

/-- A turn at the place of an index, done within a step on either side. -/
def rise (freq : Nat) (u : K) : K := ramp (gridPoint (above freq)) (gridPoint (below (freq + 2))) u

/-- A bell at the place of an index, over within a step on either side. -/
def bump (freq : Nat) (u : K) : K :=
  ramp (gridPoint (above freq)) (gridPoint (below (freq + 1))) u -
    ramp (gridPoint (above (freq + 1))) (gridPoint (below (freq + 2))) u

/-- The part of a section's effect that is over within a step of its index. -/
def core (freq : Nat) : SectionType → K → K
  | .none, _ => 0
  | .peak, u => bump freq u
  | .lowShelf, u => 1 - rise freq u
  | .lowCut, u => 1 - rise freq u
  | .highShelf, u => rise freq u
  | .highCut, u => rise freq u

/-- The part of a section's effect that reaches over the whole spectrum. -/
def spread : SectionType → K → K
  | .none, _ => 0
  | .peak, u => min u (1 - u)
  | .lowShelf, u => 1 - u
  | .lowCut, u => 1 - u
  | .highShelf, u => u
  | .highCut, u => u

/-- The largest number of units, 2^-20 each, whose 40th power stays under `up` / `down`. -/
def floorUnits (up down : Nat) : Nat :=
  (List.range 22).reverse.foldl
    (fun a b => if (a + 2 ^ b) ^ 40 * down ≤ up * (2 ^ 20) ^ 40 then a + 2 ^ b else a) 0

/-- The amplitude of a gain in units of 2^-20, rounded towards 1. -/
def units (gain : Int) : Nat :=
  if 0 ≤ gain then floorUnits (10 ^ gain.natAbs) 1
  else floorUnits 1 (10 ^ gain.natAbs) + 1

/-- The amplitude of a gain, rounded towards 1. -/
def level (gain : Int) : K := (units gain : K) / 2 ^ 20

/-- The amplitude of a section's full effect, rounded towards 1. -/
def fullLevel : SectionType → Int → K
  | .none, _ => 1
  | .lowCut, _ => 0
  | .highCut, _ => 0
  | .peak, gain => level gain
  | .lowShelf, gain => level gain
  | .highShelf, gain => level gain

/-- The share of the wide part in a section's effect: the smaller, the larger the Q. -/
def share (q : Nat) : K := 1 / (10 ^ 5 * (q + 1))

/-- A section's effect: 0 is none and 1 the full one. -/
def shape (type : SectionType) (freq q : Nat) (u : K) : K :=
  (1 - share q) * core freq type u + share q * spread type u

/-- The response that a section's taps are made for, at a place of the spectrum. -/
def sectionTarget (type : SectionType) (freq : Nat) (gain : Int) (q : Nat) (u : K) : K :=
  1 + (fullLevel type gain - 1) * shape type freq q u

/-- The passage from a band to the next. -/
def bandRamp (b : Nat) (u : K) : K := ramp (gridPoint (above (4 * b + 1))) (gridPoint (below (4 * b + 5))) u

/-- The response that a graphic's taps are made for, at a place of the spectrum. -/
def graphicTarget (gains : List Int) (u : K) : K :=
  level (gains.getD 0 0) +
    ∑ b ∈ range 30, (level (gains.getD (b + 1) 0) - level (gains.getD b 0)) * bandRamp b u
end Shapes

section Casts

theorem ramp_cast (l r u : ℚ) : ((ramp l r u : ℚ) : ℝ) = ramp (l : ℝ) r u := by simp [ramp]

theorem gridPoint_cast (n : Nat) : ((gridPoint n : ℚ) : ℝ) = gridPoint n := by simp [gridPoint]

theorem level_cast (g : Int) : ((level g : ℚ) : ℝ) = level g := by simp [level]

theorem core_cast (freq : Nat) (type : SectionType) (u : ℚ) : ((core freq type u : ℚ) : ℝ) = core freq type (u : ℝ)
    := by
  cases type <;> simp [core, bump, rise, ramp_cast, gridPoint_cast]

theorem spread_cast (type : SectionType) (u : ℚ) : ((spread type u : ℚ) : ℝ) = spread type (u : ℝ) := by
  cases type <;> simp [spread]

theorem fullLevel_cast (type : SectionType) (g : Int) : ((fullLevel type g : ℚ) : ℝ) = fullLevel type g := by
  cases type <;> simp [fullLevel, level_cast]

theorem sectionTarget_cast (type : SectionType) (freq : Nat) (gain : Int) (q : Nat) (u : ℚ) :
    ((sectionTarget type freq gain q u : ℚ) : ℝ) = sectionTarget type freq gain q (u : ℝ) := by
  simp [sectionTarget, shape, share, core_cast, spread_cast, fullLevel_cast]

theorem graphicTarget_cast (gains : List Int) (u : ℚ) :
    ((graphicTarget gains u : ℚ) : ℝ) = graphicTarget gains (u : ℝ) := by
  simp [graphicTarget, bandRamp, ramp_cast, gridPoint_cast, level_cast]
end Casts

/-! ### Amplitudes -/
theorem units_checked : ∀ n : Fin 73, let g := (n.val : Int) - 48
    (0 ≤ g → units g ^ 40 ≤ 10 ^ g.natAbs * (2 ^ 20) ^ 40 ∧ 10 ^ g.natAbs * (2 ^ 20) ^ 40 ≤ (units g + 1) ^ 40 ∧
      2 ^ 20 ≤ units g) ∧
    (g < 0 → (2 ^ 20) ^ 40 ≤ units g ^ 40 * 10 ^ g.natAbs ∧ (units g - 1) ^ 40 * 10 ^ g.natAbs ≤ (2 ^ 20) ^ 40 ∧
      1 ≤ units g ∧ units g ≤ 2 ^ 20) ∧
    (0 < g → 2 ^ 20 + 50000 ≤ units g) ∧ (g < 0 → units g + 50000 ≤ 2 ^ 20) ∧
    60000 < units g ∧ units g < 2 ^ 22 := by decide +kernel

theorem amplitude_pow (g : Int) : amplitude g ^ 40 = (10 : ℝ) ^ g := by
  rw [amplitude, ← Real.rpow_natCast, ← Real.rpow_mul (by norm_num), ← Real.rpow_intCast]
  congr 1; push_cast; ring

theorem amplitude_pos (x : ℝ) : 0 < amplitude x := by unfold amplitude; positivity

theorem amplitude_mono {x y : ℝ} (le : x ≤ y) : amplitude x ≤ amplitude y := by
  unfold amplitude; gcongr; norm_num

theorem amplitude_zero : amplitude 0 = 1 := by simp [amplitude]

/-- How near the rounded amplitude of a gain is to the exact one. -/
theorem level_checked {g : Int} (low : -48 ≤ g) (high : g ≤ 24) :
    (0 ≤ g → 1 ≤ (level g : ℝ) ∧ level g ≤ amplitude g) ∧ (g < 0 → (level g : ℝ) ≤ 1 ∧ amplitude g ≤ level g) ∧
    |(level g : ℝ) - amplitude g| ≤ 1 / 10 ^ 6 ∧ (g ≠ 0 → 1 / 25 ≤ |(level g : ℝ) - 1|) ∧
    1 / 20 ≤ (level g : ℝ) ∧ (level g : ℝ) ≤ 4 := by
  have checked := units_checked ⟨(g + 48).toNat, by omega⟩
  simp only [show (((g + 48).toNat : Nat) : Int) - 48 = g by omega] at checked
  obtain ⟨up, down, gapUp, gapDown, least, most⟩ := checked
  have pos := amplitude_pos g
  have leastR : (60000 : ℝ) < units g := by exact_mod_cast least
  have mostR : (units g : ℝ) < 2 ^ 22 := by exact_mod_cast most
  simp only [level]
  have range : 1 / 20 ≤ (units g : ℝ) / 2 ^ 20 ∧ (units g : ℝ) / 2 ^ 20 ≤ 4 := by
    constructor
    · rw [le_div_iff₀ (by norm_num)]; norm_num; linarith
    · rw [div_le_iff₀ (by norm_num)]; norm_num; norm_num at mostR; linarith
  rcases lt_or_ge g 0 with neg | nonneg
  · obtain ⟨h1, h2, h3, h4⟩ := down neg
    have gap := gapDown neg
    have power : amplitude g ^ 40 * 10 ^ g.natAbs = 1 := by
      rw [amplitude_pow, ← zpow_natCast, ← zpow_add₀ (by norm_num)]
      rw [show g + (g.natAbs : Int) = 0 by omega, zpow_zero]
    have a1 : amplitude g ≤ (units g : ℝ) / 2 ^ 20 := by
      refine le_of_pow_le_pow_left₀ (n := 40) (by norm_num) (by positivity) ?_
      have : ((2 : ℝ) ^ 20) ^ 40 ≤ (units g : ℝ) ^ 40 * 10 ^ g.natAbs := by exact_mod_cast h1
      rw [div_pow, le_div_iff₀ (by positivity)]
      refine le_of_mul_le_mul_right ?_ (show (0 : ℝ) < 10 ^ g.natAbs by positivity)
      calc amplitude g ^ 40 * (2 ^ 20) ^ 40 * 10 ^ g.natAbs = (2 ^ 20) ^ 40 * (amplitude g ^ 40 * 10 ^ g.natAbs) :=
          by ring
        _ ≤ _ := by rw [power, mul_one]; exact this
    have a2 : ((units g : ℝ) - 1) / 2 ^ 20 ≤ amplitude g := by
      refine le_of_pow_le_pow_left₀ (n := 40) (by norm_num) pos.le ?_
      have : ((units g : ℝ) - 1) ^ 40 * 10 ^ g.natAbs ≤ ((2 : ℝ) ^ 20) ^ 40 := by
        have := (Nat.cast_le (α := ℝ)).mpr h2
        rw [Nat.cast_mul, Nat.cast_pow, Nat.cast_sub h3, Nat.cast_pow, Nat.cast_pow, Nat.cast_pow] at this
        simpa only [Nat.cast_one, Nat.cast_ofNat] using this
      rw [div_pow, div_le_iff₀ (by positivity)]
      refine le_of_mul_le_mul_right ?_ (show (0 : ℝ) < 10 ^ g.natAbs by positivity)
      calc _ ≤ _ := this
        _ = (2 ^ 20) ^ 40 * (amplitude g ^ 40 * 10 ^ g.natAbs) := by rw [power, mul_one]
        _ = _ := by ring
    have u1 : (units g : ℝ) + 50000 ≤ 2 ^ 20 := by exact_mod_cast gap
    refine ⟨fun h => by omega, fun _ => ⟨?_, a1⟩, ?_, fun _ => ?_, range⟩
    · rw [div_le_iff₀ (by norm_num)]; linarith
    · rw [abs_of_nonneg (by linarith)]
      rw [sub_div] at a2
      norm_num at a2 ⊢; linarith
    · rw [abs_of_nonpos (by rw [sub_nonpos, div_le_iff₀ (by norm_num)]; linarith)]
      norm_num at u1 ⊢; linarith
  · obtain ⟨h1, h2, h3⟩ := up nonneg
    have power : amplitude g ^ 40 = 10 ^ g.natAbs := by
      rw [amplitude_pow, ← zpow_natCast]; congr 1; omega
    have a1 : (units g : ℝ) / 2 ^ 20 ≤ amplitude g := by
      refine le_of_pow_le_pow_left₀ (n := 40) (by norm_num) pos.le ?_
      rw [power, div_pow, div_le_iff₀ (by positivity)]
      exact_mod_cast h1
    have a2 : amplitude g ≤ ((units g : ℝ) + 1) / 2 ^ 20 := by
      refine le_of_pow_le_pow_left₀ (n := 40) (by norm_num) (by positivity) ?_
      rw [power, div_pow, le_div_iff₀ (by positivity)]
      exact_mod_cast h2
    have u1 : (2 : ℝ) ^ 20 ≤ units g := by exact_mod_cast h3
    refine ⟨fun _ => ⟨?_, a1⟩, fun h => by omega, ?_, fun nz => ?_, range⟩
    · rw [le_div_iff₀ (by norm_num)]; linarith
    · rw [abs_of_nonpos (by linarith)]
      rw [add_div] at a2
      norm_num at a2 ⊢; linarith
    · have u2 := (Nat.cast_le (α := ℝ)).mpr (gapUp (by omega))
      push_cast at u2
      rw [abs_of_nonneg (by rw [sub_nonneg, le_div_iff₀ (by norm_num)]; linarith)]
      rw [le_sub_iff_add_le, le_div_iff₀ (by norm_num)]
      linarith

theorem amplitude_half : 51 / 50 ≤ amplitude (1 / 2) ∧ amplitude (-1 / 2) ≤ 50 / 51 := by
  have up : 51 / 50 ≤ amplitude (1 / 2) := by
    refine le_of_pow_le_pow_left₀ (n := 80) (by norm_num) (amplitude_pos _).le ?_
    rw [amplitude, ← Real.rpow_natCast (_ ^ _), ← Real.rpow_mul (by norm_num)]
    norm_num
  refine ⟨up, ?_⟩
  have inverse : amplitude (1 / 2) * amplitude (-1 / 2) = 1 := by
    unfold amplitude
    rw [← Real.rpow_add (by norm_num)]; norm_num
  have := amplitude_pos (-1 / 2)
  nlinarith

theorem gives_near {r x : ℝ} (low : 1 / 25 ≤ x) (near : |r - x| ≤ 1 / 2000) : gives r x := by
  obtain ⟨u, d⟩ := amplitude_half
  obtain ⟨n1, n2⟩ := abs_le.mp near
  constructor <;> nlinarith

end Sys2Proof.Config.Witness
end

