-- ==== Sys2Proof/Laws/Filters.lean ====
section
/-!
SUPPORT. There are filters that meet R64 and R65 (`Witness.filters`). Nothing rests on these ones: they only show that
the laws of `Config.EqFilters` can be met.
-/

namespace Sys2Proof.Config.Witness
open Finset
open Machine (SectionType)

/-! ### Functions of bounded slope -/

/-- A function of bounded slope. -/
def Slope (k : ℝ) (f : ℝ → ℝ) : Prop := ∀ x y, |f x - f y| ≤ k * |x - y|

theorem Slope.add {k l : ℝ} {f g : ℝ → ℝ} (hf : Slope k f) (hg : Slope l g) : Slope (k + l) fun x => f x + g x := by
  intro x y
  have := abs_add_le (f x - f y) (g x - g y)
  rw [show f x - f y + (g x - g y) = f x + g x - (f y + g y) by ring] at this
  linarith [hf x y, hg x y]

theorem Slope.mul {k : ℝ} {f : ℝ → ℝ} (hf : Slope k f) (a : ℝ) : Slope (|a| * k) fun x => a * f x := by
  intro x y
  rw [← mul_sub, abs_mul, mul_assoc]
  exact mul_le_mul_of_nonneg_left (hf x y) (abs_nonneg a)

theorem Slope.const (a : ℝ) : Slope 0 fun _ => a := by intro x y; simp

theorem Slope.mono {k l : ℝ} {f : ℝ → ℝ} (hf : Slope k f) (le : k ≤ l) : Slope l f :=
  fun x y => (hf x y).trans (mul_le_mul_of_nonneg_right le (abs_nonneg _))

theorem Slope.congr {k : ℝ} {f g : ℝ → ℝ} (hf : Slope k f) (same : ∀ u, f u = g u) : Slope k g := by
  intro x y; rw [← same, ← same]; exact hf x y

theorem Slope.sum {k : ℝ} {f : Nat → ℝ → ℝ} {m : Nat} (hf : ∀ b < m, Slope k (f b)) :
    Slope (m * k) fun x => ∑ b ∈ range m, f b x := by
  induction m with
  | zero => simpa using Slope.const 0
  | succ m ih =>
    simp only [Finset.sum_range_succ]
    have := (ih fun b hb => hf b (by omega)).add (hf m (by omega))
    refine this.mono (le_of_eq ?_)
    push_cast; ring

theorem gridPoint_gap {m n : Nat} (lt : m < n) : 1 / 10 ^ 12 ≤ (gridPoint n : ℝ) - gridPoint m := by
  have : (m : ℝ) + 1 ≤ n := by exact_mod_cast lt
  unfold gridPoint grid
  rw [← sub_div]
  push_cast
  rw [le_div_iff₀ (by norm_num)]
  norm_num
  linarith

theorem ramp_slope {m n : Nat} (lt : m < n) : Slope (10 ^ 12) (ramp (gridPoint m) (gridPoint n)) := by
  intro x y
  have gap := gridPoint_gap lt
  have pos : (0 : ℝ) < gridPoint n - gridPoint m := lt_of_lt_of_le (by norm_num) gap
  unfold ramp
  rw [max_comm 0, max_comm 0, min_comm 1, min_comm 1]
  refine (abs_max_sub_max_le_abs _ _ _).trans ?_
  refine (abs_min_sub_min_le_max _ _ _ _).trans ?_
  rw [sub_self, abs_zero, max_eq_left (abs_nonneg _), ← sub_div, abs_div, abs_of_pos pos,
    show x - gridPoint m - (y - gridPoint m) = x - y by ring, div_le_iff₀ pos]
  nlinarith [abs_nonneg (x - y)]

theorem ramp_range {l r u : ℝ} : 0 ≤ ramp l r u ∧ ramp l r u ≤ 1 := by
  unfold ramp; exact ⟨le_max_left _ _, max_le (by norm_num) (min_le_left _ _)⟩

theorem ramp_low {l r u : ℝ} (lt : l < r) (le : u ≤ l) : ramp l r u = 0 := by
  unfold ramp
  have : (u - l) / (r - l) ≤ 0 := div_nonpos_of_nonpos_of_nonneg (by linarith) (by linarith)
  rw [min_eq_right (by linarith), max_eq_left this]

theorem ramp_high {l r u : ℝ} (lt : l < r) (le : r ≤ u) : ramp l r u = 1 := by
  unfold ramp
  have : 1 ≤ (u - l) / (r - l) := by rw [le_div_iff₀ (by linarith)]; linarith
  rw [min_eq_left this]; norm_num

/-! ### Bernstein sums near their functions -/

/-- The degree of the Bernstein sums. -/
@[irreducible] def degree : Nat := 10 ^ 60

/-- At that degree a Bernstein sum is near every function that is not too steep. -/
theorem near {f : ℝ → ℝ} (slope : Slope (10 ^ 21) f) {x : ℝ} (low : 0 ≤ x) (high : x ≤ 1) :
    |bern degree f x - f x| ≤ 1 / 10 ^ 8 := by
  refine (bern_near (d := 1 / (2 * 10 ^ 8)) (by norm_num) (by unfold degree; positivity) slope low high).trans ?_
  unfold degree; norm_num

/-- A Bernstein sum stays within the bounds of its function. -/
theorem bern_between {n : Nat} {f : ℝ → ℝ} {lo hi x : ℝ} (range : ∀ x, 0 ≤ x → x ≤ 1 → lo ≤ f x ∧ f x ≤ hi)
    (low : 0 ≤ x) (high : x ≤ 1) : lo ≤ bern n f x ∧ bern n f x ≤ hi := by
  have node : ∀ k ∈ Finset.range (n + 1), 0 ≤ ((k : ℝ) / n) ∧ ((k : ℝ) / n) ≤ 1 := by
    intro k hk
    have : (k : ℝ) ≤ n := by exact_mod_cast (show k ≤ n by simpa [Nat.lt_succ_iff] using hk)
    exact ⟨by positivity, div_le_one_of_le₀ this (by positivity)⟩
  have w := weights_sum (n := n) x
  constructor
  · calc lo = lo * ∑ k ∈ Finset.range (n + 1), ((n.choose k : ℝ) * x ^ k * (1 - x) ^ (n - k)) := by rw [w, mul_one]
      _ ≤ _ := by
        rw [Finset.mul_sum]
        exact Finset.sum_le_sum fun k hk =>
          mul_le_mul_of_nonneg_right (range _ (node k hk).1 (node k hk).2).1 (weight_nonneg low high k)
  · calc bern n f x ≤ hi * ∑ k ∈ Finset.range (n + 1), ((n.choose k : ℝ) * x ^ k * (1 - x) ^ (n - k)) := by
          rw [Finset.mul_sum]
          exact Finset.sum_le_sum fun k hk =>
            mul_le_mul_of_nonneg_right (range _ (node k hk).1 (node k hk).2).2 (weight_nonneg low high k)
      _ = hi := by rw [w, mul_one]

theorem bern_zero {n : Nat} (f : ℝ → ℝ) : bern n f 0 = f 0 := by
  unfold bern
  rw [Finset.sum_eq_single 0]
  · simp
  · intro k _ hk; simp [hk]
  · simp

theorem bern_one {n : Nat} (pos : 0 < n) (f : ℝ → ℝ) : bern n f 1 = f 1 := by
  unfold bern
  rw [Finset.sum_eq_single n]
  · have : (n : ℝ) ≠ 0 := by positivity
    simp [this]
  · intro k hk hn
    have : n - k ≠ 0 := by simp at hk; omega
    simp [this]
  · simp

theorem bern_linear {n : Nat} (a b c : ℝ) (f g : ℝ → ℝ) (x : ℝ) :
    bern n (fun u => a + b * f u + c * g u) x = a + b * bern n f x + c * bern n g x := by
  have w := weights_sum (n := n) x
  unfold bern
  simp only [add_mul, Finset.sum_add_distrib, mul_assoc b, mul_assoc c, ← Finset.mul_sum, w, mul_one]

/-! ### Places in the spectrum -/
theorem separate_more : ∀ j < 118, above j < below (j + 4) ∧ below j ≤ below (j + 4) ∧ above j ≤ above (j + 4) := by
  decide +kernel

theorem step_up : ∀ j < 121, above j ≤ above (j + 1) ∧ below j ≤ below (j + 1) := by decide +kernel

theorem gridPoint_mono {m n : Nat} (le : m ≤ n) : (gridPoint m : ℝ) ≤ gridPoint n := by
  unfold gridPoint; gcongr

theorem sinSquare_between {j : Nat} (h : j < 122) :
    gridPoint (below j) ≤ sinSquare (indexHz (j - 1)) ∧ sinSquare (indexHz (j - 1)) ≤ gridPoint (above j) := by
  obtain ⟨l, u⟩ := sinSquare_index h
  unfold gridPoint grid
  constructor
  · rw [div_le_iff₀ (by norm_num)]; push_cast; linarith
  · rw [le_div_iff₀ (by norm_num)]; push_cast; linarith

theorem indexHz_pos (k : ℝ) : 0 < indexHz k := by unfold indexHz; positivity

theorem indexHz_top : indexHz 120 = 20480 := by
  unfold indexHz
  rw [show (120 / 12 : ℝ) = ((10 : ℕ) : ℝ) by norm_num, Real.rpow_natCast]; norm_num

theorem bandHz_eq (b : Nat) : bandHz b = indexHz ((4 * b + 1 : ℕ) - 1) := by
  unfold bandHz indexHz
  congr 2; push_cast; ring

/-! ### The graphic -/

/-- The graphic's target up to band `m`. -/
noncomputable def partialTarget (gains : List Int) (m : Nat) (u : ℝ) : ℝ :=
  level (gains.getD 0 0) +
    ∑ b ∈ range m, (level (gains.getD (b + 1) 0) - level (gains.getD b 0)) * bandRamp b u

variable {gains : List Int} {u : ℝ}

theorem bandRamp_low {b : Nat} (h : b < 30) (le : u ≤ gridPoint (above (4 * b + 1))) : bandRamp b u = 0 :=
  ramp_low (lt_of_lt_of_le (by norm_num : (0 : ℝ) < 1 / 10 ^ 12) (gridPoint_gap (separate_more _ (by omega)).1) |>
      sub_pos.mp) le

theorem bandRamp_high {b : Nat} (h : b < 30) (le : gridPoint (below (4 * b + 5)) ≤ u) : bandRamp b u = 1 :=
  ramp_high (lt_of_lt_of_le (by norm_num : (0 : ℝ) < 1 / 10 ^ 12) (gridPoint_gap (separate_more _ (by omega)).1) |>
      sub_pos.mp) le

theorem partialTarget_reached {m : Nat} (h : m ≤ 30) (le : gridPoint (below (4 * m + 1)) ≤ u) :
    partialTarget gains m u = level (gains.getD m 0) := by
  induction m with
  | zero => simp [partialTarget]
  | succ m ih =>
    have before := ih (by omega) ((gridPoint_mono (separate_more (4 * m + 1) (by omega)).2.1).trans le)
    have one := bandRamp_high (b := m) (by omega) le
    unfold partialTarget at before ⊢
    rw [Finset.sum_range_succ, ← add_assoc, before, one]; ring

theorem partialTarget_stays {m n : Nat} (le : m ≤ n) (h : n ≤ 30) (low : u ≤ gridPoint (above (4 * m + 1))) :
    partialTarget gains n u = partialTarget gains m u ∧ u ≤ gridPoint (above (4 * n + 1)) := by
  induction n, le using Nat.le_induction with
  | base => exact ⟨rfl, low⟩
  | succ n le ih =>
    obtain ⟨same, under⟩ := ih (by omega)
    refine ⟨?_, under.trans (gridPoint_mono (separate_more (4 * n + 1) (by omega)).2.2)⟩
    rw [← same, partialTarget, Finset.sum_range_succ, bandRamp_low (by omega) under, mul_zero, add_zero]
    rfl

theorem partialTarget_positive (inside : ∀ b, -48 ≤ gains.getD b 0 ∧ gains.getD b 0 ≤ 24) {m : Nat} (h : m ≤ 30) :
    1 / 20 ≤ partialTarget gains m u := by
  have least : ∀ b, 1 / 20 ≤ (level (gains.getD b 0) : ℝ) := fun b =>
    (level_checked (inside b).1 (inside b).2).2.2.2.2.1
  induction m with
  | zero => simpa [partialTarget] using least 0
  | succ m ih =>
    have step : partialTarget gains (m + 1) u = partialTarget gains m u +
        (level (gains.getD (m + 1) 0) - level (gains.getD m 0)) * bandRamp m u := by
      unfold partialTarget; rw [Finset.sum_range_succ, ← add_assoc]
    rw [step]
    rcases le_or_gt (gridPoint (below (4 * m + 1))) u with le | gt
    · rw [partialTarget_reached (by omega) le]
      obtain ⟨r0, r1⟩ := ramp_range (l := gridPoint (above (4 * m + 1))) (r := gridPoint (below (4 * m + 5))) (u := u)
      have h1 := least m
      have h2 := least (m + 1)
      unfold bandRamp
      nlinarith
    · have : u ≤ gridPoint (above (4 * m + 1)) := gt.le.trans (gridPoint_mono (ordered _ (by omega)))
      rw [bandRamp_low (by omega) this, mul_zero, add_zero]
      exact ih (by omega)

theorem graphicTarget_slope (inside : ∀ b, -48 ≤ gains.getD b 0 ∧ gains.getD b 0 ≤ 24) :
    Slope (10 ^ 21) (graphicTarget gains : ℝ → ℝ) := by
  have bound : ∀ b, 1 / 20 ≤ (level (gains.getD b 0) : ℝ) ∧ (level (gains.getD b 0) : ℝ) ≤ 4 := fun b =>
    (level_checked (inside b).1 (inside b).2).2.2.2.2
  have each : ∀ b < 30, Slope (4 * 10 ^ 12)
      fun u => (level (gains.getD (b + 1) 0) - level (gains.getD b 0)) * bandRamp b u := by
    intro b hb
    refine ((ramp_slope (separate_more (4 * b + 1) (by omega)).1).mul _).mono ?_
    have : |(level (gains.getD (b + 1) 0) : ℝ) - level (gains.getD b 0)| ≤ 4 := by
      rw [abs_le]; constructor <;> linarith [bound b, bound (b + 1)]
    gcongr
  refine ((Slope.const _).add (Slope.sum each)).mono ?_
  norm_num

theorem degree_pos : 0 < degree := by unfold degree; positivity

theorem graphicTarget_eq : graphicTarget gains u = partialTarget gains 30 u := rfl

/-- The taps of a graphic. -/
def graphicTaps (gains : List Int) : Nat → ℚ := tap degree (graphicTarget gains)

theorem graphic_response (inside : ∀ b, -48 ≤ gains.getD b 0 ∧ gains.getD b 0 ≤ 24) (hz : ℝ) :
    response (fun k => (graphicTaps gains k : ℝ)) hz = bern degree (graphicTarget gains) (sinSquare hz) := by
  unfold graphicTaps
  rw [response_tap _ (graphicTarget gains) (graphicTarget_cast gains), abs_of_nonneg]
  obtain ⟨low, high⟩ := sinSquare_range hz
  have slope := graphicTarget_slope inside
  have := abs_le.mp (near slope low high)
  have := partialTarget_positive (u := sinSquare hz) inside (m := 30) le_rfl
  rw [← graphicTarget_eq] at this
  norm_num at *
  linarith

theorem bern_differentiable (n : Nat) (f : ℝ → ℝ) : Differentiable ℝ (bern n f) := by
  unfold bern; fun_prop

theorem sinSquare_differentiable : Differentiable ℝ sinSquare := by unfold sinSquare; fun_prop

theorem amplitude_least {g : Int} (low : -48 ≤ g) : 1 / 25 ≤ amplitude g := by
  refine le_trans ?_ (amplitude_mono (show ((-48 : Int) : ℝ) ≤ g by exact_mod_cast low))
  refine le_of_pow_le_pow_left₀ (n := 40) (by norm_num) (amplitude_pos _).le ?_
  rw [amplitude_pow]; norm_num

theorem bandHz_range {b : Nat} (h : b ≤ 30) : 0 < bandHz b ∧ bandHz b ≤ 20480 := by
  rw [bandHz_eq, ← indexHz_top]
  refine ⟨indexHz_pos _, indexHz_mono ?_⟩
  have : (b : ℝ) ≤ 30 := by exact_mod_cast h
  push_cast; linarith

theorem graphicTarget_centre {b : Nat} (h : b ≤ 30) :
    graphicTarget gains (sinSquare (bandHz b)) = (level (gains.getD b 0) : ℝ) := by
  obtain ⟨l, r⟩ := sinSquare_between (j := 4 * b + 1) (by omega)
  rw [← bandHz_eq] at l r
  rw [graphicTarget_eq, (partialTarget_stays h le_rfl r).1, partialTarget_reached h l]

theorem graphicTarget_between {b : Nat} (h : b < 30) {hz : ℝ} (from_ : bandHz b ≤ hz) (upto : hz ≤ bandHz (b + 1)) :
    ∃ r : ℝ, 0 ≤ r ∧ r ≤ 1 ∧ graphicTarget gains (sinSquare hz) =
      level (gains.getD b 0) + (level (gains.getD (b + 1) 0) - level (gains.getD b 0)) * r := by
  obtain ⟨b0, _⟩ := bandHz_range (b := b) (by omega)
  obtain ⟨_, b1⟩ := bandHz_range (b := b + 1) (by omega)
  have l := (sinSquare_between (j := 4 * b + 1) (by omega)).1
  have r := (sinSquare_between (j := 4 * (b + 1) + 1) (by omega)).2
  rw [← bandHz_eq] at l r
  have l' := l.trans (sinSquare_mono b0.le from_ (by linarith))
  have r' := (sinSquare_mono (by linarith) upto (by linarith)).trans r
  refine ⟨bandRamp b (sinSquare hz), ramp_range.1, ramp_range.2, ?_⟩
  rw [graphicTarget_eq, (partialTarget_stays (show b + 1 ≤ 30 from h) le_rfl r').1, partialTarget,
      Finset.sum_range_succ,
    ← add_assoc, ← partialTarget_reached (gains := gains) h.le l']
  rfl

/-- The taps of a graphic meet R64. -/
theorem graphic_meets (inside : ∀ b, -48 ≤ gains.getD b 0 ∧ gains.getD b 0 ≤ 24) :
    GraphicResponse gains (response fun k => (graphicTaps gains k : ℝ)) where
  centre := by
    intro b hb
    rw [graphic_response inside]
    have range := sinSquare_range (bandHz b)
    have close := near (graphicTarget_slope inside) range.1 range.2
    rw [graphicTarget_centre (by omega)] at close
    refine gives_near (amplitude_least (inside b).1) ?_
    have := (level_checked (inside b).1 (inside b).2).2.2.1
    have := abs_sub_le (bern degree (graphicTarget gains) (sinSquare (bandHz b))) (level (gains.getD b 0) : ℝ)
      (amplitude (gains.getD b 0))
    norm_num at *
    linarith
  between := by
    intro b hb hz from_ upto
    rw [graphic_response inside]
    have range := sinSquare_range hz
    have close := abs_le.mp (near (graphicTarget_slope inside) range.1 range.2)
    obtain ⟨r, r0, r1, value⟩ := graphicTarget_between (gains := gains) hb from_ upto
    rw [value] at close
    have ga := (level_checked (inside b).1 (inside b).2).2.2.1
    have gb := (level_checked (inside (b + 1)).1 (inside (b + 1)).2).2.2.1
    have ga := abs_le.mp ga
    have gb := abs_le.mp gb
    have least : (1 : ℝ) / 25 ≤ amplitude (min (gains.getD b 0) (gains.getD (b + 1) 0) : Int) :=
      amplitude_least (le_min (inside b).1 (inside (b + 1)).1)
    have minA : amplitude (min (gains.getD b 0) (gains.getD (b + 1) 0) : Int) ≤ amplitude (gains.getD b 0) :=
      amplitude_mono (by exact_mod_cast min_le_left _ _)
    have minB : amplitude (min (gains.getD b 0) (gains.getD (b + 1) 0) : Int) ≤ amplitude (gains.getD (b + 1) 0) :=
      amplitude_mono (by exact_mod_cast min_le_right _ _)
    have maxA : amplitude (gains.getD b 0) ≤ amplitude (max (gains.getD b 0) (gains.getD (b + 1) 0) : Int) :=
      amplitude_mono (by exact_mod_cast le_max_left _ _)
    have maxB : amplitude (gains.getD (b + 1) 0) ≤ amplitude (max (gains.getD b 0) (gains.getD (b + 1) 0) : Int) :=
      amplitude_mono (by exact_mod_cast le_max_right _ _)
    push_cast at least minA minB maxA maxB
    obtain ⟨up, down⟩ := amplitude_half
    generalize bern degree (graphicTarget gains) (sinSquare hz) = y at *
    generalize (level (gains.getD b 0) : ℝ) = la at *
    generalize (level (gains.getD (b + 1) 0) : ℝ) = lb at *
    generalize amplitude (min _ _) = m at *
    generalize amplitude (max _ _) = M at *
    generalize amplitude (1 / 2) = p at *
    generalize amplitude (-1 / 2) = n at *
    have hull : m - 1 / 10 ^ 6 ≤ la + (lb - la) * r ∧ la + (lb - la) * r ≤ M + 1 / 10 ^ 6 := by
      constructor <;> nlinarith
    norm_num at hull close
    constructor <;> nlinarith
  smooth := by
    rw [show response (fun k => (graphicTaps gains k : ℝ)) =
      fun hz => bern degree (graphicTarget gains) (sinSquare hz) from funext fun hz => graphic_response inside hz]
    exact (bern_differentiable _ _).comp sinSquare_differentiable

/-! ### The sections -/

/-- Whether a type acts below its frequency. -/
noncomputable def lowSide : SectionType → ℝ
  | .lowShelf => 1
  | .lowCut => 1
  | _ => 0

/-- Whether a type acts above its frequency. -/
noncomputable def highSide : SectionType → ℝ
  | .highShelf => 1
  | .highCut => 1
  | _ => 0

variable {type : SectionType} {freq q : Nat} {gain : Int}

theorem below_eq : type.below gain = 1 + (type.full gain - 1) * lowSide type := by
  cases type <;> simp [SectionType.below, lowSide]

theorem above_eq : type.above gain = 1 + (type.full gain - 1) * highSide type := by
  cases type <;> simp [SectionType.above, highSide]

theorem lowSide_cases : lowSide type = 0 ∨ lowSide type = 1 := by cases type <;> simp [lowSide]

theorem highSide_cases : highSide type = 0 ∨ highSide type = 1 := by cases type <;> simp [highSide]

theorem gap_pos {m n : Nat} (lt : m < n) : (gridPoint m : ℝ) < gridPoint n :=
  sub_pos.mp (lt_of_lt_of_le (by norm_num) (gridPoint_gap lt))

theorem rise_gap (h : freq < 120) : above freq < below (freq + 2) :=
  (separate freq (by omega)).trans_le (step_up (freq + 1) (by omega)).2

theorem core_low (h : freq < 120) (le : u ≤ gridPoint (above freq)) : core freq type u = lowSide type := by
  have r : rise freq u = 0 := ramp_low (gap_pos (rise_gap h)) le
  have b : bump freq u = 0 := by
    unfold bump
    rw [ramp_low (gap_pos (separate freq (by omega))) le, ramp_low (gap_pos (separate (freq + 1) (by omega)))
      (le.trans (gridPoint_mono (step_up freq (by omega)).1)), sub_zero]
  cases type <;> simp [core, lowSide, r, b]

theorem core_high (h : freq < 120) (le : gridPoint (below (freq + 2)) ≤ u) : core freq type u = highSide type := by
  have r : rise freq u = 1 := ramp_high (gap_pos (rise_gap h)) le
  have b : bump freq u = 0 := by
    unfold bump
    rw [ramp_high (gap_pos (separate freq (by omega))) ((gridPoint_mono (step_up (freq + 1) (by omega)).2).trans le),
      ramp_high (gap_pos (separate (freq + 1) (by omega))) le, sub_self]
  cases type <;> simp [core, highSide, r, b]

theorem core_centre (h : freq < 120) (l : gridPoint (below (freq + 1)) ≤ u) (r : u ≤ gridPoint (above (freq + 1))) :
    core freq .peak u = 1 := by
  show bump freq u = 1
  unfold bump
  rw [ramp_high (gap_pos (separate freq (by omega))) l, ramp_low (gap_pos (separate (freq + 1) (by omega))) r,
      sub_zero]

theorem core_range (h : freq < 120) (u : ℝ) : 0 ≤ core freq type u ∧ core freq type u ≤ 1 := by
  have r : 0 ≤ rise freq u ∧ rise freq u ≤ 1 := ramp_range
  have b : 0 ≤ bump freq u ∧ bump freq u ≤ 1 := by
    unfold bump
    have first := ramp_range (l := gridPoint (above freq)) (r := gridPoint (below (freq + 1))) (u := u)
    have second := ramp_range (l := gridPoint (above (freq + 1))) (r := gridPoint (below (freq + 2))) (u := u)
    refine ⟨?_, by linarith⟩
    rcases le_total u (gridPoint (above (freq + 1))) with le | le
    · rw [ramp_low (gap_pos (separate (freq + 1) (by omega))) le]; linarith
    · rw [ramp_high (l := gridPoint (above freq)) (gap_pos (separate freq (by omega)))
        ((gridPoint_mono (ordered (freq + 1) (by omega))).trans le)]
      linarith
  cases type <;> simp [core] <;> first | exact b | exact r | linarith | exact ⟨r.2, r.1⟩

theorem spread_range {u : ℝ} (low : 0 ≤ u) (high : u ≤ 1) : 0 ≤ spread type u ∧ spread type u ≤ 1 := by
  cases type <;> simp [spread] <;> first | exact ⟨low, high⟩ | exact ⟨high, low⟩ | exact ⟨⟨low, high⟩, Or.inl high⟩

theorem core_slope (h : freq < 120) : Slope (10 ^ 21) (core freq type : ℝ → ℝ) := by
  have r : Slope (10 ^ 12) (rise freq : ℝ → ℝ) := ramp_slope (rise_gap h)
  have n : Slope (0 + |(-1 : ℝ)| * 10 ^ 12) fun u : ℝ => 1 + -1 * rise freq u := (Slope.const 1).add (r.mul (-1))
  have b := (ramp_slope (separate freq (by omega))).add ((ramp_slope (separate (freq + 1) (by omega))).mul (-1))
  have r' := r.mono (show (10 : ℝ) ^ 12 ≤ 10 ^ 21 by norm_num)
  have n' : Slope (10 ^ 21) fun u : ℝ => 1 - rise freq u := by
    refine (n.mono (by norm_num)).congr fun u => ?_
    ring
  cases type
  · exact (Slope.const 0).mono (by norm_num)
  · refine (b.mono (by norm_num)).congr fun u => ?_
    simp only [core, bump]; ring
  · exact n'
  · exact r'
  · exact n'
  · exact r'

theorem spread_slope : Slope (10 ^ 21) (spread type : ℝ → ℝ) := by
  have up : Slope 1 fun u : ℝ => u := fun x y => by simp
  have down : Slope 1 fun u : ℝ => 1 - u := fun x y => by
    rw [show 1 - x - (1 - y) = y - x by ring, abs_sub_comm, one_mul]
  have big : (1 : ℝ) ≤ 10 ^ 21 := by norm_num
  cases type
  · exact (Slope.const 0).mono (by norm_num)
  · intro x y
    refine (abs_min_sub_min_le_max _ _ _ _).trans ?_
    exact max_le ((up.mono big) x y) ((down.mono big) x y)
  · exact down.mono big
  · exact up.mono big
  · exact down.mono big
  · exact up.mono big

theorem spread_inside {u : ℝ} (nn : type ≠ .none) (low : 1 / 10 ^ 6 ≤ u) (high : u ≤ 19 / 20) :
    1 / 10 ^ 6 ≤ spread type u ∧ spread type u ≤ 1 - 1 / 10 ^ 6 := by
  norm_num at low ⊢
  cases type <;> simp [spread] at nn ⊢
  · exact ⟨⟨by linarith, by linarith⟩, Or.inl (by linarith)⟩
  all_goals constructor <;> linarith

theorem full_checked (low : -48 ≤ gain) (high : gain ≤ 24) :
    (fullLevel type gain : ℝ) ∈ Set.uIcc 1 (type.full gain) ∧
    |(fullLevel type gain : ℝ) - type.full gain| ≤ 1 / 10 ^ 6 ∧
    0 ≤ (fullLevel type gain : ℝ) ∧ (fullLevel type gain : ℝ) ≤ 4 ∧
    (type.full gain ≠ 1 → 1 / 25 ≤ |(fullLevel type gain : ℝ) - 1|) ∧
    (type.full gain = 0 ∧ (fullLevel type gain : ℝ) = 0 ∨ 1 / 25 ≤ type.full gain) := by
  obtain ⟨up, down, close, far, least, most⟩ := level_checked low high
  have mem : (level gain : ℝ) ∈ Set.uIcc 1 (amplitude gain) := by
    rcases lt_or_ge gain 0 with neg | nonneg
    · obtain ⟨h1, h2⟩ := down neg
      exact Set.mem_uIcc.mpr (Or.inr ⟨h2, h1⟩)
    · obtain ⟨h1, h2⟩ := up nonneg
      exact Set.mem_uIcc.mpr (Or.inl ⟨h1, h2⟩)
  have far' : amplitude gain ≠ 1 → 1 / 25 ≤ |(level gain : ℝ) - 1| := fun ne => far fun zero => ne (by
    subst zero; simpa using amplitude_zero)
  have leastFull := amplitude_least low
  cases type <;> simp only [fullLevel, SectionType.full]
  · norm_num
  · exact ⟨mem, close, by linarith, most, far', Or.inr leastFull⟩
  · exact ⟨mem, close, by linarith, most, far', Or.inr leastFull⟩
  · exact ⟨mem, close, by linarith, most, far', Or.inr leastFull⟩
  · norm_num [Set.uIcc]
  · norm_num [Set.uIcc]

/-- The effect that a section's taps have. -/
noncomputable def effect (type : SectionType) (freq q : Nat) (u : ℝ) : ℝ :=
  (1 - share q) * bern degree (core freq type) u + share q * bern degree (spread type) u

theorem share_range : 0 < (share q : ℝ) ∧ (share q : ℝ) ≤ 1 / 10 ^ 5 := by
  unfold share
  refine ⟨by positivity, ?_⟩
  have : (0 : ℝ) ≤ q := by positivity
  gcongr
  nlinarith

theorem share_less {q' : Nat} (lt : q < q') : (share q' : ℝ) < share q := by
  unfold share
  have : (q : ℝ) < q' := by exact_mod_cast lt
  gcongr

theorem bern_target : bern degree (sectionTarget type freq gain q) u =
    1 + (fullLevel type gain - 1) * effect type freq q u := by
  have := bern_linear (n := degree) 1 ((fullLevel type gain - 1) * (1 - share q)) ((fullLevel type gain - 1) * share
      q)
    (core freq type) (spread type) u
  unfold effect
  rw [mul_add, ← mul_assoc, ← mul_assoc, ← add_assoc, ← this]
  congr 1
  funext u
  unfold sectionTarget shape
  ring

theorem parts_range (h : freq < 120) (low : 0 ≤ u) (high : u ≤ 1) :
    (0 ≤ bern degree (core freq type) u ∧ bern degree (core freq type) u ≤ 1) ∧
    (0 ≤ bern degree (spread type) u ∧ bern degree (spread type) u ≤ 1) :=
  ⟨bern_between (fun x _ _ => core_range h x) low high, bern_between (fun _ a b => spread_range a b) low high⟩

theorem effect_range (h : freq < 120) (low : 0 ≤ u) (high : u ≤ 1) :
    0 ≤ effect type freq q u ∧ effect type freq q u ≤ 1 := by
  obtain ⟨c, w⟩ := parts_range (type := type) h low high
  obtain ⟨s0, s1⟩ := share_range (q := q)
  unfold effect
  norm_num at s1
  constructor <;> nlinarith

theorem effect_near (h : freq < 120) (low : 0 ≤ u) (high : u ≤ 1) :
    |effect type freq q u - core freq type u| ≤ 1 / 10 ^ 4 := by
  obtain ⟨c, w⟩ := parts_range (type := type) h low high
  obtain ⟨s0, s1⟩ := share_range (q := q)
  have close := abs_le.mp (near (core_slope (type := type) h) low high)
  unfold effect
  norm_num at s1 close ⊢
  rw [abs_le]
  constructor <;> nlinarith

/-- The taps of a section. -/
def sectionTaps (type : SectionType) (freq : Nat) (gain : Int) (q : Nat) : Nat → ℚ :=
  tap degree (sectionTarget type freq gain q)

theorem section_response (h : freq < 120) (low : -48 ≤ gain) (high : gain ≤ 24) (hz : ℝ) :
    response (fun k => (sectionTaps type freq gain q k : ℝ)) hz =
      1 + (fullLevel type gain - 1) * effect type freq q (sinSquare hz) := by
  unfold sectionTaps
  rw [response_tap _ (sectionTarget type freq gain q) (sectionTarget_cast type freq gain q), bern_target,
      abs_of_nonneg]
  obtain ⟨l, r⟩ := sinSquare_range hz
  obtain ⟨e0, e1⟩ := effect_range (type := type) (q := q) h l r
  have := (full_checked (type := type) low high).2.2.1
  nlinarith

theorem index_low (h : freq < 120) {hz : ℝ} (pos : 0 ≤ hz) (le : hz ≤ indexHz (freq - 1)) :
    sinSquare hz ≤ gridPoint (above freq) := by
  have top : indexHz (freq - 1) ≤ 24000 := by
    have : (freq : ℝ) < 120 := by exact_mod_cast h
    have := indexHz_mono (show (freq : ℝ) - 1 ≤ 120 by linarith)
    rw [indexHz_top] at this; linarith
  exact (sinSquare_mono pos le top).trans (sinSquare_between (by omega)).2

theorem index_high (h : freq < 120) {hz : ℝ} (le : indexHz (freq + 1) ≤ hz) (top : hz ≤ 24000) :
    gridPoint (below (freq + 2)) ≤ sinSquare hz := by
  have := (sinSquare_between (j := freq + 2) (by omega)).1
  rw [show ((freq + 2 : ℕ) : ℝ) - 1 = freq + 1 by push_cast; ring] at this
  exact this.trans (sinSquare_mono (indexHz_pos _).le le top)

theorem index_centre (h : freq < 120) : gridPoint (below (freq + 1)) ≤ sinSquare (indexHz freq) ∧
    sinSquare (indexHz freq) ≤ gridPoint (above (freq + 1)) := by
  have := sinSquare_between (j := freq + 1) (by omega)
  rwa [show ((freq + 1 : ℕ) : ℝ) - 1 = freq by push_cast; ring] at this

theorem far_from_full {full part e : ℝ} (mem : part ∈ Set.uIcc 1 full) (e0 : 0 ≤ e) (e1 : e ≤ 1) :
    |1 + (part - 1) * e - full| = |full - 1| - |part - 1| * e ∧ |1 + (part - 1) * e - 1| = |part - 1| * e := by
  rw [show 1 + (part - 1) * e - 1 = (part - 1) * e by ring, abs_mul, abs_of_nonneg e0]
  refine ⟨?_, rfl⟩
  rcases Set.mem_uIcc.mp mem with ⟨a, b⟩ | ⟨a, b⟩
  · rw [abs_of_nonneg (by linarith : 0 ≤ full - 1), abs_of_nonneg (by linarith : 0 ≤ part - 1), abs_of_nonpos (by
      nlinarith)]
    ring
  · rw [abs_of_nonpos (by linarith : full - 1 ≤ 0), abs_of_nonpos (by linarith : part - 1 ≤ 0), abs_of_nonneg (by
      nlinarith)]
    ring

/-- How far an effect is from what is asked for on a side. -/
theorem asked_distance {full part e side : ℝ} (mem : part ∈ Set.uIcc 1 full) (e0 : 0 ≤ e) (e1 : e ≤ 1)
    (sides : side = 0 ∨ side = 1) :
    |1 + (part - 1) * e - (1 + (full - 1) * side)| = if side = 0 then |part - 1| * e else |full - 1| - |part - 1| * e
        := by
  obtain ⟨a, b⟩ := far_from_full mem e0 e1
  rcases sides with rfl | rfl
  · rw [if_pos rfl, mul_zero, add_zero]; exact b
  · rw [if_neg (by norm_num), mul_one, show (1 : ℝ) + (full - 1) = full by ring]; exact a

theorem nearer {full part e one other : ℝ} (mem : part ∈ Set.uIcc 1 full) (close : |part - full| ≤ 1 / 10 ^ 6)
    (apart : 1 / 25 ≤ |part - 1|) (e0 : 0 ≤ e) (e1 : e ≤ 1)
    (side : one = 0 ∨ one = 1) (side' : other = 0 ∨ other = 1) (differ : one ≠ other) (reached : |e - one| ≤ 1 / 10 ^
        4) :
    |1 + (part - 1) * e - (1 + (full - 1) * one)| < |1 + (part - 1) * e - (1 + (full - 1) * other)| := by
  rw [asked_distance mem e0 e1 side, asked_distance mem e0 e1 side']
  have triangle := abs_sub_le full part 1
  rw [abs_sub_comm full part] at triangle
  have triangle' : |part - 1| ≤ |full - 1| := by
    rcases Set.mem_uIcc.mp mem with ⟨a, b⟩ | ⟨a, b⟩
    · rw [abs_of_nonneg (by linarith), abs_of_nonneg (by linarith)]; linarith
    · rw [abs_of_nonpos (by linarith), abs_of_nonpos (by linarith)]; linarith
  obtain ⟨r1, r2⟩ := abs_le.mp reached
  norm_num at r1 r2 close
  generalize |part - 1| = p at *
  generalize |full - 1| = f at *
  rcases side with rfl | rfl <;> rcases side' with rfl | rfl
  · exact absurd rfl differ
  · norm_num at r1 r2 ⊢; nlinarith
  · norm_num at r1 r2 ⊢; nlinarith
  · exact absurd rfl differ

theorem sharper {full part e e' side : ℝ} (mem : part ∈ Set.uIcc 1 full) (apart : 1 / 25 ≤ |part - 1|)
    (e0 : 0 ≤ e) (e1 : e ≤ 1) (e0' : 0 ≤ e') (e1' : e' ≤ 1) (sides : side = 0 ∨ side = 1)
    (low : side = 0 → e' < e) (high : side = 1 → e < e') :
    |1 + (part - 1) * e' - (1 + (full - 1) * side)| < |1 + (part - 1) * e - (1 + (full - 1) * side)| := by
  rw [asked_distance mem e0 e1 sides, asked_distance mem e0' e1' sides]
  have pos : 0 < |part - 1| := by linarith
  rcases sides with rfl | rfl
  · have := low rfl
    simp only [if_true]
    exact mul_lt_mul_of_pos_left this pos
  · have := high rfl
    simp only [one_ne_zero, if_false]
    nlinarith

theorem effect_sharper {q' : Nat} (h : freq < 120) (nn : type ≠ .none) (lt : q < q') (low : 1 / 10 ^ 6 ≤ u)
    (high : u ≤ 19 / 20) :
    (core freq type u = 0 → effect type freq q' u < effect type freq q u) ∧
    (core freq type u = 1 → effect type freq q u < effect type freq q' u) := by
  have u0 : 0 ≤ u := le_trans (by norm_num) low
  have u1 : u ≤ 1 := by linarith
  have c := abs_le.mp (near (core_slope (type := type) h) u0 u1)
  have w := abs_le.mp (near (spread_slope (type := type)) u0 u1)
  obtain ⟨s0, s1⟩ := spread_inside nn low high
  have less := share_less lt
  unfold effect
  norm_num at c w s0 s1
  constructor
  · intro zero
    rw [zero] at c
    nlinarith
  · intro one
    rw [one] at c
    nlinarith

theorem degree_ends (f : ℝ → ℝ) : bern degree f 0 = f 0 ∧ bern degree f 1 = f 1 :=
  ⟨bern_zero f, bern_one degree_pos f⟩

theorem effect_zero (h : freq < 120) : effect type freq q 0 = lowSide type := by
  have s : spread type (0 : ℝ) = lowSide type := by cases type <;> simp [spread, lowSide]
  have c : core freq type (0 : ℝ) = lowSide type := core_low h (by unfold gridPoint; positivity)
  unfold effect
  rw [(degree_ends _).1, (degree_ends _).1, s, c]; ring

theorem effect_one (h : freq < 120) : effect type freq q 1 = highSide type := by
  have s : spread type (1 : ℝ) = highSide type := by cases type <;> simp [spread, highSide]
  have c : core freq type (1 : ℝ) = highSide type := by
    have := index_high h (hz := 24000) (by
      have : (freq : ℝ) + 1 ≤ 120 := by exact_mod_cast h
      have := indexHz_mono this
      rw [indexHz_top] at this; linarith) le_rfl
    rw [sinSquare_top] at this
    exact core_high h this
  unfold effect
  rw [(degree_ends _).2, (degree_ends _).2, s, c]; ring

theorem gives_full {side : ℝ} (low : -48 ≤ gain) (high : gain ≤ 24) (sides : side = 0 ∨ side = 1) :
    gives (1 + ((fullLevel type gain : ℝ) - 1) * side) (1 + (type.full gain - 1) * side) := by
  obtain ⟨_, close, _, _, _, cut⟩ := full_checked (type := type) low high
  rcases sides with rfl | rfl
  · exact gives_near (by norm_num) (by norm_num)
  · rw [mul_one, mul_one, add_sub_cancel, add_sub_cancel]
    rcases cut with ⟨f, p⟩ | least
    · rw [f, p]; simp [gives]
    · exact gives_near least (close.trans (by norm_num))

/-- The taps of a section meet R65. -/
theorem section_meets (h : freq < 120) (low : -48 ≤ gain) (high : gain ≤ 24) :
    SectionResponse type freq gain (response fun k => (sectionTaps type freq gain q k : ℝ)) where
  lowest := by
    rw [section_response h low high, sinSquare_zero, effect_zero h, below_eq]
    exact gives_full low high lowSide_cases
  highest := by
    rw [section_response h low high, sinSquare_top, effect_one h, above_eq]
    exact gives_full low high highSide_cases
  within := by
    intro hz _ _
    rw [section_response h low high]
    obtain ⟨l, r⟩ := sinSquare_range hz
    obtain ⟨e0, e1⟩ := effect_range (type := type) (q := q) h l r
    have mem := (full_checked (type := type) low high).1
    rcases Set.mem_uIcc.mp mem with ⟨a, b⟩ | ⟨a, b⟩
    · exact Set.mem_uIcc.mpr (Or.inl ⟨by nlinarith, by nlinarith⟩)
    · exact Set.mem_uIcc.mpr (Or.inr ⟨by nlinarith, by nlinarith⟩)
  centre := by
    rintro rfl
    rw [section_response h low high]
    obtain ⟨l, r⟩ := sinSquare_range (indexHz freq)
    have reached := effect_near (type := .peak) (q := q) h l r
    rw [core_centre h (index_centre h).1 (index_centre h).2] at reached
    obtain ⟨_, close, p0, p4, _, cut⟩ := full_checked (type := .peak) low high
    have least : 1 / 25 ≤ SectionType.full .peak gain := amplitude_least low
    refine gives_near least ?_
    obtain ⟨c1, c2⟩ := abs_le.mp close
    obtain ⟨r1, r2⟩ := abs_le.mp reached
    norm_num at c1 c2 r1 r2
    rw [abs_le]
    norm_num
    constructor <;> nlinarith
  corner := by
    intro hz differ
    rw [below_eq, above_eq] at differ ⊢
    have sides : lowSide type ≠ highSide type := fun e => differ (by rw [e])
    have moved : type.full gain ≠ 1 := fun e => differ (by rw [e]; ring)
    obtain ⟨mem, close, _, _, apart, _⟩ := full_checked (type := type) low high
    obtain ⟨l, r⟩ := sinSquare_range hz
    obtain ⟨e0, e1⟩ := effect_range (type := type) (q := q) h l r
    have reached := effect_near (type := type) (q := q) h l r
    rw [section_response h low high]
    refine ⟨fun pos le => ?_, fun le top => ?_⟩
    · rw [core_low h (index_low h pos le)] at reached
      exact nearer mem close (apart moved) e0 e1 lowSide_cases highSide_cases sides reached
    · rw [core_high h (index_high h le top)] at reached
      exact nearer mem close (apart moved) e0 e1 highSide_cases lowSide_cases sides.symm reached

theorem sectionQ_less {q' : Nat} (lt : sectionQ q < sectionQ q') : q < q' := by
  by_contra le
  have : ((q' : ℕ) : ℝ) ≤ q := by exact_mod_cast not_lt.mp le
  have : sectionQ q' ≤ sectionQ q := by unfold sectionQ; gcongr; norm_num
  linarith

/-- The taps of the larger Q are the sharper. -/
theorem section_sharper {q' : Nat} (h : freq < 120) (low : -48 ≤ gain) (high : gain ≤ 24)
    (lt : sectionQ q < sectionQ q') (moved : type.full gain ≠ 1) :
    Sharper type freq gain (response fun k => (sectionTaps type freq gain q k : ℝ))
      (response fun k => (sectionTaps type freq gain q' k : ℝ)) := by
  intro hz from_ upto
  have nn : type ≠ .none := by rintro rfl; exact moved rfl
  obtain ⟨mem, _, _, _, apart, _⟩ := full_checked (type := type) low high
  obtain ⟨l, r⟩ := sinSquare_range hz
  obtain ⟨e0, e1⟩ := effect_range (type := type) (q := q) h l r
  obtain ⟨e0', e1'⟩ := effect_range (type := type) (q := q') h l r
  have b0 := bandHz_range (b := 0) (by norm_num)
  have b30 := bandHz_range (b := 30) (by norm_num)
  have low' : (1 : ℝ) / 10 ^ 6 ≤ sinSquare hz := by
    have s := (sinSquare_index (j := 1) (by norm_num)).1
    have : (1000000 : ℝ) < below 1 := by exact_mod_cast first
    have m := sinSquare_mono b0.1.le from_ (by linarith)
    rw [bandHz_eq] at m
    norm_num at s m ⊢
    linarith
  have high' : sinSquare hz ≤ 19 / 20 := by
    have s := (sinSquare_index (j := 121) (by norm_num)).2
    have : 20 * (above 121 : ℝ) < 19 * 10 ^ 12 := by exact_mod_cast last
    have m := sinSquare_mono (b0.1.le.trans from_) upto (by linarith)
    rw [bandHz_eq] at m
    norm_num at s m this ⊢
    linarith
  obtain ⟨zero, one⟩ := effect_sharper (type := type) h nn (sectionQ_less lt) low' high'
  rw [section_response h low high, section_response h low high, below_eq, above_eq]
  refine ⟨fun le => ?_, fun le => ?_⟩
  · rw [core_low h (index_low h (b0.1.le.trans from_) le)] at zero one
    exact sharper mem (apart moved) e0 e1 e0' e1' lowSide_cases zero one
  · rw [core_high h (index_high h le (by linarith))] at zero one
    exact sharper mem (apart moved) e0 e1 e0' e1' highSide_cases zero one

theorem taps_beyond {f : ℚ → ℚ} {k : Nat} (far : 2 * degree + 1 ≤ k) : tap degree f k = 0 := tap_beyond f (by omega)

/-- There are such filters. -/
def filters : EqFilters where
  graphic := fun gains => fir (graphicTaps gains) (2 * degree + 1)
  parametric := fun type freq gain q => fir (sectionTaps type freq gain q) (2 * degree + 1)
  graphic_length := fun _ _ _ => fir_length _ _
  graphic_rest := fun _ _ => fir_rest _
  graphic_responds := fun gains length inside =>
    ⟨_, fir_follows fun _ far => taps_beyond far, graphic_meets fun b => by
      rcases lt_or_ge b gains.length with lt | ge
      · rw [List.getD_eq_getElem _ _ lt]; exact inside _ (List.getElem_mem lt)
      · rw [List.getD_eq_default _ _ ge]; norm_num⟩
  parametric_length := fun _ _ _ _ _ _ => fir_length _ _
  parametric_rest := fun _ _ _ _ _ => fir_rest _
  parametric_responds := fun type freq gain h low high =>
    ⟨fun q k => sectionTaps type freq gain q k,
      fun _ _ => ⟨fir_follows fun _ far => taps_beyond far, section_meets h low high⟩,
      fun _ _ _ _ lt moved => section_sharper h low high lt moved⟩

end Sys2Proof.Config.Witness
end

