-- ==== Sys2Proof/Laws/Bands.lean ====
section
/-!
SUPPORT. Band filters that meet `BandResponse` (`bandTaps`, `band_meets`): each rises at the lower edge of its third
octave and falls at the upper one, and at an edge the two filters share a tone's energy in halves.
-/

namespace Sys2Proof.Config.Witness
open Finset

/-! ### The edges of the bands -/

/-- A bound below the place of the lower edge of band `b`; that of band 31 is the upper edge of band 30. -/
def edgeLow (b : Nat) : Nat :=
  if b = 0 then below 11 / 4
  else if b = 31 then 4 * below 111 * (grid - below 111) / grid
  else below (4 * b - 1)

/-- A bound above that place. -/
def edgeHigh (b : Nat) : Nat :=
  if b = 0 then above 11 * (grid + above 11) / (4 * grid) + 1
  else if b = 31 then 4 * above 111 * (grid - above 111) / grid + 1
  else above (4 * b - 1)

/-- Where the turn at an edge begins, on a finer grid. -/
def turnLow (b : Nat) : Nat := 10 * edgeLow b * grid - edgeLow b * (grid - edgeLow b)

/-- Where the turn at an edge ends. -/
def turnHigh (b : Nat) : Nat := 10 * edgeLow b * grid + edgeLow b * (grid - edgeLow b)

theorem edges_checked : ∀ b < 32,
    1300000 < edgeLow b ∧ edgeLow b + 4000000000 < grid ∧ edgeLow b ≤ edgeHigh b ∧
    1000 * (10 * grid * (edgeHigh b - edgeLow b)) ≤ 8 * (edgeLow b * (grid - edgeLow b)) := by decide +kernel

theorem turns_checked : ∀ b < 31,
    turnHigh b ≤ 10 * grid * below (4 * b) ∧ 10 * grid * above (4 * b + 1) ≤ turnLow (b + 1) := by decide +kernel

theorem lowest_checked : 10 * (above 9 * (grid + above 9)) ≤ 4 * turnLow 0 := by decide +kernel

theorem highest_checked : 2 * above 111 ≤ grid := by decide +kernel

/-- The place of a frequency from that of its octave. -/
theorem sinSquare_quarter {hz : ℝ} (small : sinSquare hz ≤ 1 / 2) :
    sinSquare (2 * hz) / 4 ≤ sinSquare hz ∧ sinSquare hz ≤ sinSquare (2 * hz) * (1 + sinSquare (2 * hz)) / 4 := by
  rw [sinSquare_double]
  have := (sinSquare_range hz).1
  generalize sinSquare hz = s at *
  constructor
  · nlinarith
  · nlinarith [mul_nonneg this (mul_nonneg this (sub_nonneg.mpr small))]

theorem indexHz_octave (k : ℝ) : indexHz (k + 12) = 2 * indexHz k := by
  unfold indexHz
  rw [add_div, Real.rpow_add (by norm_num)]
  norm_num; ring

theorem low_place_small {k : ℝ} (le : k ≤ 0) : sinSquare (indexHz k) ≤ 1 / 2 := by
  have h := (sinSquare_between (j := 1) (by norm_num)).2
  have : (gridPoint (above 1) : ℝ) ≤ 1 / 2 := by
    have : 2 * above 1 ≤ grid := half 1 (by norm_num)
    have : 2 * (above 1 : ℝ) ≤ grid := by exact_mod_cast this
    unfold gridPoint
    rw [div_le_iff₀ (by unfold grid; norm_num)]
    linarith
  have mono := sinSquare_mono (indexHz_pos k).le (indexHz_mono le) (by
    have := indexHz_mono (show (0 : ℝ) ≤ 120 by norm_num)
    rw [indexHz_top] at this; linarith)
  norm_num at h
  linarith

theorem edge_between {b : Nat} (h : b ≤ 31) :
    gridPoint (edgeLow b) ≤ sinSquare (indexHz (4 * b - 2)) ∧ sinSquare (indexHz (4 * b - 2)) ≤ gridPoint (edgeHigh b)
    := by
  have g : (0 : ℝ) < grid := by unfold grid; norm_num
  rcases Nat.eq_zero_or_pos b with rfl | pos
  · obtain ⟨l, u⟩ := sinSquare_between (j := 11) (by norm_num)
    obtain ⟨q1, q2⟩ := sinSquare_quarter (low_place_small (show ((-2 : ℝ)) ≤ 0 by norm_num))
    rw [← indexHz_octave, show (-2 : ℝ) + 12 = ((11 : ℕ) : ℝ) - 1 by norm_num] at q1 q2
    have s0 := (sinSquare_range (indexHz (((11 : ℕ) : ℝ) - 1))).1
    rw [show (4 : ℝ) * ((0 : ℕ) : ℝ) - 2 = -2 by norm_num]
    simp only [edgeLow, edgeHigh, if_true]
    unfold gridPoint at *
    constructor
    · refine le_trans ?_ q1
      have quarter : ((below 11 / 4 : ℕ) : ℝ) ≤ below 11 / 4 := Nat.cast_div_le
      rw [div_le_iff₀ g] at l ⊢
      refine quarter.trans ?_
      rw [div_mul_eq_mul_div]
      exact div_le_div_of_nonneg_right l (by norm_num)
    · refine q2.trans ?_
      have := (Nat.lt_div_mul_add (a := above 11 * (grid + above 11)) (b := 4 * grid) (by unfold grid; norm_num)).le
      have : (above 11 : ℝ) * (grid + above 11) ≤
          ((above 11 * (grid + above 11) / (4 * grid) : ℕ) : ℝ) * (4 * grid) + 4 * grid := by exact_mod_cast this
      have bigger : sinSquare (indexHz (((11 : ℕ) : ℝ) - 1)) * (1 + sinSquare (indexHz (((11 : ℕ) : ℝ) - 1))) ≤
          (above 11 / grid : ℝ) * (1 + above 11 / grid) := by gcongr
      have same : (above 11 / grid : ℝ) * (1 + above 11 / grid) = above 11 * (grid + above 11) / (grid * grid) := by
        field_simp
      rw [same] at bigger
      push_cast
      refine (div_le_div_of_nonneg_right bigger (by norm_num)).trans ?_
      rw [div_div, div_le_div_iff₀ (by positivity) g]
      nlinarith
  · rcases Nat.lt_or_ge b 31 with lt | ge
    · have := sinSquare_between (j := 4 * b - 1) (by omega)
      rw [Nat.cast_sub (by omega)] at this
      push_cast at this
      rw [show (4 : ℝ) * b - 1 - 1 = 4 * b - 2 by ring] at this
      simpa only [edgeLow, edgeHigh, if_neg (show b ≠ 0 by omega), if_neg (show b ≠ 31 by omega)] using this
    · obtain rfl : b = 31 := by omega
      obtain ⟨l, u⟩ := sinSquare_between (j := 111) (by norm_num)
      rw [show (4 : ℝ) * ((31 : ℕ) : ℝ) - 2 = ((111 : ℕ) : ℝ) - 1 + 12 by norm_num, indexHz_octave, sinSquare_double]
      have s0 := (sinSquare_range (indexHz (((111 : ℕ) : ℝ) - 1))).1
      have order : below 111 ≤ above 111 := ordered 111 (by norm_num)
      have small : 2 * above 111 ≤ grid := highest_checked
      have orderR : (below 111 : ℝ) ≤ above 111 := by exact_mod_cast order
      have smallR : 2 * (above 111 : ℝ) ≤ grid := by exact_mod_cast small
      generalize sinSquare (indexHz (((111 : ℕ) : ℝ) - 1)) = s at *
      simp only [edgeLow, edgeHigh, if_neg (show (31 : ℕ) ≠ 0 by norm_num), if_true]
      unfold gridPoint at *
      rw [div_le_iff₀ g] at l
      rw [le_div_iff₀ g] at u
      have b0 : (0 : ℝ) ≤ below 111 := by positivity
      constructor
      · have := Nat.div_mul_le_self (4 * below 111 * (grid - below 111)) grid
        have := (Nat.cast_le (α := ℝ)).mpr this
        rw [Nat.cast_mul, Nat.cast_mul, Nat.cast_mul, Nat.cast_sub (by omega)] at this
        rw [div_le_iff₀ g]
        refine le_of_mul_le_mul_right (this.trans ?_) g
        push_cast
        nlinarith
      · have := (Nat.lt_div_mul_add (a := 4 * above 111 * (grid - above 111)) (b := grid) (by unfold grid; norm_num)).le
        have := (Nat.cast_le (α := ℝ)).mpr this
        rw [Nat.cast_add, Nat.cast_mul, Nat.cast_mul, Nat.cast_mul, Nat.cast_sub (by omega)] at this
        rw [le_div_iff₀ g]
        refine le_of_mul_le_mul_right (le_trans ?_ (this.trans (le_of_eq ?_))) g
        · push_cast
          nlinarith
        · push_cast; ring

theorem bandLow_eq (b : Nat) : bandLow b = indexHz (4 * b - 2) := by
  unfold bandLow bandHz indexHz
  rw [mul_assoc, ← Real.rpow_add (by norm_num)]
  congr 2; ring

theorem bandHigh_eq (b : Nat) : bandHigh b = indexHz (4 * (b + 1 : ℕ) - 2) := by
  unfold bandHigh bandHz indexHz
  rw [mul_assoc, ← Real.rpow_add (by norm_num)]
  congr 2; push_cast; ring

/-! ### The responses aimed at -/
section Shapes
variable {K : Type} [Field K] [LinearOrder K]

/-- A point of the finer grid. -/
def finePoint (n : Nat) : K := (n : K) / (10 * (grid : K) * grid)

/-- The turn at the lower edge of band `b`, half done at the edge. -/
def bandTurn (b : Nat) (u : K) : K := ramp (finePoint (turnLow b)) (finePoint (turnHigh b)) u

/-- How far a tone stands in band `b`: 0 is outside and 1 within. -/
def bandPart (b : Nat) (u : K) : K := bandTurn b u - bandTurn (b + 1) u

/-- The amplitude for a part: two parts that make a whole share a tone's energy. -/
def knee (t : K) : K := t * (91 / 50 - 41 / 50 * t)

/-- The response that the taps of a band filter are made for, at a place of the spectrum. -/
def bandTarget (b : Nat) (u : K) : K := (1 - 1 / 10 ^ 4) * knee (bandPart b u)
end Shapes

theorem bandTarget_cast (b : Nat) (u : ℚ) : ((bandTarget b u : ℚ) : ℝ) = bandTarget b (u : ℝ) := by
  simp [bandTarget, knee, bandPart, bandTurn, ramp_cast, finePoint]

variable {b : Nat} {u : ℝ}

theorem finePoint_le {m n : Nat} (le : m ≤ 10 * grid * n) : (finePoint m : ℝ) ≤ gridPoint n := by
  have : (m : ℝ) ≤ 10 * grid * n := by exact_mod_cast le
  have g : (0 : ℝ) < grid := by unfold grid; norm_num
  unfold finePoint gridPoint
  rw [div_le_div_iff₀ (by positivity) g]
  nlinarith

theorem le_finePoint {m n : Nat} (le : 10 * grid * n ≤ m) : (gridPoint n : ℝ) ≤ finePoint m := by
  have : 10 * grid * (n : ℝ) ≤ m := by exact_mod_cast le
  have g : (0 : ℝ) < grid := by unfold grid; norm_num
  unfold finePoint gridPoint
  rw [div_le_div_iff₀ g (by positivity)]
  nlinarith

/-- The turn about the place of its edge, in reals. -/
theorem turn_about (h : b < 32) : ∃ d : ℝ, 1 / 10 ^ 8 ≤ d ∧ finePoint (turnLow b) = gridPoint (edgeLow b) - d ∧
    finePoint (turnHigh b) = gridPoint (edgeLow b) + d ∧ gridPoint (edgeHigh b) - gridPoint (edgeLow b) ≤ 8 / 1000 * d
    := by
  obtain ⟨e0, e1, order, close⟩ := edges_checked b h
  have g : (0 : ℝ) < grid := by unfold grid; norm_num
  have e0R : (1300000 : ℝ) < edgeLow b := by exact_mod_cast e0
  have e1R : (edgeLow b : ℝ) + 4000000000 < grid := by exact_mod_cast e1
  have closeR : 1000 * (10 * grid * ((edgeHigh b : ℝ) - edgeLow b)) ≤ 8 * (edgeLow b * (grid - edgeLow b)) := by
    have := (Nat.cast_le (α := ℝ)).mpr close
    rwa [Nat.cast_mul, Nat.cast_mul, Nat.cast_mul, Nat.cast_mul, Nat.cast_mul, Nat.cast_sub order,
      Nat.cast_sub (by omega), Nat.cast_ofNat, Nat.cast_ofNat, Nat.cast_ofNat] at this
  have lowR : (turnLow b : ℝ) = 10 * edgeLow b * grid - edgeLow b * (grid - edgeLow b) := by
    have fits : edgeLow b * (grid - edgeLow b) ≤ 10 * edgeLow b * grid := by
      calc _ ≤ edgeLow b * grid := Nat.mul_le_mul_left _ (Nat.sub_le _ _)
        _ ≤ _ := Nat.mul_le_mul_right _ (Nat.le_mul_of_pos_left _ (by norm_num))
    rw [turnLow, Nat.cast_sub fits, Nat.cast_mul, Nat.cast_mul, Nat.cast_mul, Nat.cast_sub (by omega), Nat.cast_ofNat]
  have highR : (turnHigh b : ℝ) = 10 * edgeLow b * grid + edgeLow b * (grid - edgeLow b) := by
    rw [turnHigh, Nat.cast_add, Nat.cast_mul, Nat.cast_mul, Nat.cast_mul, Nat.cast_sub (by omega), Nat.cast_ofNat]
  have gv : (grid : ℝ) = 10 ^ 12 := by norm_num [grid]
  unfold finePoint gridPoint
  rw [lowR, highR]
  generalize (edgeLow b : ℝ) = e at *
  generalize (edgeHigh b : ℝ) = f at *
  clear e0 e1 order close lowR highR
  generalize (grid : ℝ) = g' at *
  refine ⟨e * (g' - e) / (10 * g' * g'), ?_, ?_, ?_, ?_⟩
  · rw [le_div_iff₀ (by positivity)]
    rw [gv] at e1R ⊢
    rcases le_or_gt e (5 * 10 ^ 11) with lo | hi <;> nlinarith
  · field_simp
  · field_simp
  · rw [← sub_div, ← mul_div_assoc, div_le_div_iff₀ g (by positivity)]
    nlinarith

theorem bandTurn_range : 0 ≤ bandTurn b u ∧ bandTurn b u ≤ 1 := ramp_range

theorem bandTurn_low (h : b < 32) (le : u ≤ finePoint (turnLow b)) : bandTurn b u = 0 := by
  obtain ⟨d, d0, l, r, _⟩ := turn_about h
  refine ramp_low ?_ le
  rw [l, r]; norm_num at d0; linarith

theorem bandTurn_high (h : b < 32) (le : finePoint (turnHigh b) ≤ u) : bandTurn b u = 1 := by
  obtain ⟨d, d0, l, r, _⟩ := turn_about h
  refine ramp_high ?_ le
  rw [l, r]; norm_num at d0; linarith

/-- Past its edge a turn is half done. -/
theorem bandTurn_past (h : b < 32) (le : gridPoint (edgeLow b) ≤ u) : 1 / 2 ≤ bandTurn b u := by
  obtain ⟨d, d0, l, r, _⟩ := turn_about h
  have pos : 0 < d := lt_of_lt_of_le (by norm_num) d0
  unfold bandTurn ramp
  rw [l, r]
  refine le_max_of_le_right (le_min (by norm_num) ?_)
  rw [le_div_iff₀ (by linarith)]
  linarith

/-- Before its edge a turn is not half done. -/
theorem bandTurn_before (h : b < 32) (le : u ≤ gridPoint (edgeHigh b)) : bandTurn b u ≤ 1 / 2 + 1 / 250 := by
  obtain ⟨d, d0, l, r, close⟩ := turn_about h
  have pos : 0 < d := lt_of_lt_of_le (by norm_num) d0
  unfold bandTurn ramp
  rw [l, r]
  refine max_le (by norm_num) (min_le_of_right_le ?_)
  rw [div_le_iff₀ (by linarith)]
  linarith

/-- A turn begins when the one before it is done. -/
theorem turns_apart (h : b < 31) (u : ℝ) : bandTurn b u = 1 ∨ bandTurn (b + 1) u = 0 := by
  rcases le_or_gt (finePoint (turnHigh b)) u with le | gt
  · exact .inl (bandTurn_high (by omega) le)
  · obtain ⟨one, two⟩ := turns_checked b h
    refine .inr (bandTurn_low (by omega) (gt.le.trans ((finePoint_le one).trans (le_trans ?_ (le_finePoint two)))))
    exact gridPoint_mono ((step_up (4 * b) (by omega)).2.trans (ordered _ (by omega)))

theorem bandPart_range (h : b < 31) :
    0 ≤ bandPart b u ∧ bandPart b u ≤ bandTurn b u ∧ bandPart b u ≤ 1 - bandTurn (b + 1) u := by
  obtain ⟨t0, t1⟩ := bandTurn_range (b := b) (u := u)
  obtain ⟨n0, n1⟩ := bandTurn_range (b := b + 1) (u := u)
  unfold bandPart
  refine ⟨?_, by linarith, by linarith⟩
  rcases turns_apart h u with one | zero <;> linarith

theorem knee_range {t : ℝ} (low : 0 ≤ t) (high : t ≤ 1) : 0 ≤ knee t ∧ knee t ≤ 1 := by
  unfold knee; constructor <;> nlinarith

theorem knee_mono {s t : ℝ} (le : s ≤ t) (high : t ≤ 1) : knee s ≤ knee t := by
  unfold knee; nlinarith

theorem knee_pair {s : ℝ} (low : 0 ≤ s) (high : s ≤ 1) : knee (1 - s) ^ 2 ≤ 1 - knee s ^ 2 := by
  unfold knee
  have x0 : 0 ≤ s * (1 - s) := mul_nonneg low (by linarith)
  have x1 : s * (1 - s) ≤ 1 / 4 := by nlinarith [sq_nonneg (s - 1 / 2)]
  have e : (1 - s) * (91 / 50 - 41 / 50 * (1 - s)) = 1 - s + 41 / 50 * (s * (1 - s)) := by ring
  have f : s * (91 / 50 - 41 / 50 * s) = s + 41 / 50 * (s * (1 - s)) := by ring
  rw [e, f]
  nlinarith

/-- What the bands up to `m` have of a tone's energy. -/
theorem parts_energy {m : Nat} (h : m ≤ 31) (u : ℝ) :
    ∑ b ∈ range m, knee (bandPart b u) ^ 2 ≤ knee (bandTurn 0 u) ^ 2 - knee (bandTurn m u) ^ 2 := by
  induction m with
  | zero => simp
  | succ m ih =>
    rw [Finset.sum_range_succ]
    have := ih (by omega)
    have step : knee (bandPart m u) ^ 2 ≤ knee (bandTurn m u) ^ 2 - knee (bandTurn (m + 1) u) ^ 2 := by
      unfold bandPart
      rcases turns_apart (show m < 31 by omega) u with one | zero
      · rw [one]
        refine (knee_pair bandTurn_range.1 bandTurn_range.2).trans (le_of_eq ?_)
        norm_num [knee]
      · rw [zero]; simp [knee]
    linarith

/-! ### The taps -/

/-- The taps of the filter of band `b`. -/
def bandTaps (b : Nat) : Nat → ℚ := tap degree (bandTarget b)

theorem finer_slope {l r g : ℝ} (pos : 0 < g) (gap : g ≤ r - l) : Slope (1 / g) (ramp l r) := by
  intro x y
  have wide : 0 < r - l := lt_of_lt_of_le pos gap
  unfold ramp
  rw [max_comm 0, max_comm 0, min_comm 1, min_comm 1]
  refine (abs_max_sub_max_le_abs _ _ _).trans ?_
  refine (abs_min_sub_min_le_max _ _ _ _).trans ?_
  rw [sub_self, abs_zero, max_eq_left (abs_nonneg _), ← sub_div, abs_div, abs_of_pos wide,
    show x - l - (y - l) = x - y by ring, one_div, inv_mul_eq_div]
  exact div_le_div_of_nonneg_left (abs_nonneg _) pos gap

theorem bandTarget_slope (h : b < 31) : Slope (10 ^ 21) (bandTarget b : ℝ → ℝ) := by
  have turn : ∀ c < 32, Slope (10 ^ 8) (bandTurn c : ℝ → ℝ) := by
    intro c hc
    obtain ⟨d, d0, l, r, _⟩ := turn_about hc
    have := finer_slope (l := finePoint (turnLow c)) (r := finePoint (turnHigh c)) (g := 1 / 10 ^ 8) (by norm_num)
      (by rw [l, r]; norm_num at d0 ⊢; linarith)
    exact this.mono (by norm_num)
  intro x y
  have one := turn b (by omega) x y
  have two := turn (b + 1) (by omega) x y
  obtain ⟨px0, px1, px2⟩ := bandPart_range (u := x) h
  obtain ⟨py0, py1, py2⟩ := bandPart_range (u := y) h
  have parts : |bandPart b x - bandPart b y| ≤ 2 * 10 ^ 8 * |x - y| := by
    have := abs_sub (bandTurn b x - bandTurn b y) (bandTurn (b + 1) x - bandTurn (b + 1) y)
    unfold bandPart
    rw [show bandTurn b x - bandTurn (b + 1) x - (bandTurn b y - bandTurn (b + 1) y) =
      bandTurn b x - bandTurn b y - (bandTurn (b + 1) x - bandTurn (b + 1) y) by ring]
    linarith
  have tx := (bandTurn_range (b := b) (u := x)).2
  have ty := (bandTurn_range (b := b) (u := y)).2
  have factored : bandTarget b x - bandTarget b y = (1 - 1 / 10 ^ 4) *
      (91 / 50 - 41 / 50 * (bandPart b x + bandPart b y)) * (bandPart b x - bandPart b y) := by
    unfold bandTarget knee; ring
  rw [factored, abs_mul]
  have small : |(1 - 1 / 10 ^ 4 : ℝ) * (91 / 50 - 41 / 50 * (bandPart b x + bandPart b y))| ≤ 2 := by
    rw [abs_le]; constructor <;> norm_num <;> linarith
  calc _ ≤ 2 * (2 * 10 ^ 8 * |x - y|) := mul_le_mul small parts (abs_nonneg _) (by norm_num)
    _ ≤ _ := by nlinarith [abs_nonneg (x - y)]

theorem bandTarget_range (h : b < 31) : 0 ≤ (bandTarget b u : ℝ) ∧ (bandTarget b u : ℝ) ≤ 1 := by
  obtain ⟨p0, p1, _⟩ := bandPart_range (u := u) h
  obtain ⟨k0, k1⟩ := knee_range p0 (p1.trans bandTurn_range.2)
  unfold bandTarget
  constructor <;> norm_num <;> linarith

/-- The response of a band filter, near what it is made for. -/
theorem band_response (h : b < 31) (hz : ℝ) :
    0 ≤ response (fun k => (bandTaps b k : ℝ)) hz ∧
    |response (fun k => (bandTaps b k : ℝ)) hz - bandTarget b (sinSquare hz)| ≤ 1 / 10 ^ 8 := by
  unfold bandTaps
  rw [response_tap _ (bandTarget b) (bandTarget_cast b)]
  obtain ⟨low, high⟩ := sinSquare_range hz
  have close := near (bandTarget_slope h) low high
  refine ⟨abs_nonneg _, le_trans ?_ close⟩
  have := abs_abs_sub_abs_le (bern degree (bandTarget b) (sinSquare hz)) (bandTarget b (sinSquare hz))
  rwa [abs_of_nonneg (bandTarget_range (u := sinSquare hz) h).1] at this

theorem band_taps_beyond {k : Nat} (far : 2 * degree + 1 ≤ k) : ((bandTaps b k : ℚ) : ℝ) = 0 := by
  rw [bandTaps, taps_beyond far]; norm_num

/-- The energy of a tone that all filters pass together. -/
theorem bands_energy {hz e : ℝ} (parts : ∑ b ∈ range 31, knee (bandPart b (sinSquare hz)) ^ 2 ≤ e) (le : e ≤ 1)
    (pos : 0 ≤ e) : ∑ b : Fin 31, response (fun k => (bandTaps b k : ℝ)) hz ^ 2 ≤ min 1 (e + 1 / 1000) := by
  have each : ∀ b : Fin 31, response (fun k => (bandTaps b k : ℝ)) hz ^ 2 ≤
      (1 - 1 / 10 ^ 4) ^ 2 * knee (bandPart b (sinSquare hz)) ^ 2 + 3 / 10 ^ 8 := by
    intro b
    obtain ⟨r0, close⟩ := band_response b.isLt hz
    obtain ⟨t0, t1⟩ := bandTarget_range (u := sinSquare hz) b.isLt
    obtain ⟨c0, c1⟩ := abs_le.mp close
    have same : (1 - 1 / 10 ^ 4 : ℝ) ^ 2 * knee (bandPart b (sinSquare hz)) ^ 2 = bandTarget b (sinSquare hz) ^ 2 := by
      unfold bandTarget; ring
    rw [same]
    norm_num at *
    nlinarith
  refine (Finset.sum_le_sum fun b _ => each b).trans ?_
  rw [Finset.sum_add_distrib, ← Finset.mul_sum,
    Fin.sum_univ_eq_sum_range (fun b => knee (bandPart b (sinSquare hz)) ^ 2) 31]
  simp only [Finset.sum_const, Finset.card_univ, Fintype.card_fin, nsmul_eq_mul]
  refine le_min ?_ ?_ <;> norm_num <;> linarith

/-- Together the filters pass no more of a tone than there is. -/
theorem bands_whole (hz : ℝ) : ∑ b : Fin 31, response (fun k => (bandTaps b k : ℝ)) hz ^ 2 ≤ 1 := by
  refine (bands_energy (e := 1) ?_ le_rfl (by norm_num)).trans (min_le_left _ _)
  refine (parts_energy le_rfl _).trans ?_
  obtain ⟨k0, k1⟩ := knee_range (bandTurn_range (b := 0) (u := sinSquare hz)).1 bandTurn_range.2
  nlinarith [sq_nonneg (knee (bandTurn 31 (sinSquare hz)))]

/-- Well within its band a tone passes in full. -/
theorem band_full (h : b < 31) {hz : ℝ} (from_ : indexHz (4 * b - 1) ≤ hz) (upto : hz ≤ bandHz b) :
    1 - 1 / 5000 ≤ response (fun k => (bandTaps b k : ℝ)) hz := by
  have whole : bandPart b (sinSquare hz) = 1 := by
    obtain ⟨one, two⟩ := turns_checked b h
    have top := (bandHz_range (show b ≤ 30 by omega)).2
    have l := (sinSquare_between (j := 4 * b) (by omega)).1
    have r := (sinSquare_between (j := 4 * b + 1) (by omega)).2
    rw [← bandHz_eq] at r
    push_cast at l
    have l' := l.trans (sinSquare_mono (indexHz_pos _).le from_ (by linarith))
    have r' := (sinSquare_mono ((indexHz_pos _).le.trans from_) upto (by linarith)).trans r
    unfold bandPart
    rw [bandTurn_high (by omega) ((finePoint_le one).trans l'),
      bandTurn_low (by omega) (r'.trans (le_finePoint two)), sub_zero]
  obtain ⟨_, close⟩ := band_response h hz
  unfold bandTarget knee at close
  rw [whole] at close
  have := (abs_le.mp close).1
  norm_num at *
  linarith

theorem amplitude_one : 26 / 25 ≤ amplitude 1 ∧ amplitude (-1) ≤ 25 / 26 := by
  obtain ⟨u, d⟩ := amplitude_half
  have up : amplitude 1 = amplitude (1 / 2) * amplitude (1 / 2) := by
    unfold amplitude; rw [← Real.rpow_add (by norm_num)]; norm_num
  have down : amplitude (-1) = amplitude (-1 / 2) * amplitude (-1 / 2) := by
    unfold amplitude; rw [← Real.rpow_add (by norm_num)]; norm_num
  have := amplitude_pos (-1 / 2)
  rw [up, down]
  constructor <;> nlinarith

theorem knee_half : (141 / 200 : ℝ) = knee (1 / 2) := by norm_num [knee]

/-- From the part of a tone in a band to the energy that its filter passes. -/
theorem band_low {hz : ℝ} (h : b < 31) (part : bandPart b (sinSquare hz) ≤ 1 / 2 + 1 / 250) :
    2 * response (fun k => (bandTaps b k : ℝ)) hz ^ 2 ≤ amplitude 1 := by
  obtain ⟨r0, close⟩ := band_response h hz
  have := amplitude_one.1
  have small := knee_mono part (by norm_num)
  have : knee (1 / 2 + 1 / 250 : ℝ) ≤ 71 / 100 := by norm_num [knee]
  have c := (abs_le.mp close).2
  have up : response (fun k => (bandTaps b k : ℝ)) hz ≤ 72 / 100 := by
    unfold bandTarget at c
    norm_num at *
    linarith
  nlinarith

theorem band_high {hz : ℝ} (h : b < 31) (part : 1 / 2 - 1 / 250 ≤ bandPart b (sinSquare hz)) :
    amplitude (-1) ≤ 2 * response (fun k => (bandTaps b k : ℝ)) hz ^ 2 := by
  obtain ⟨r0, close⟩ := band_response h hz
  have := amplitude_one.2
  obtain ⟨_, p1, _⟩ := bandPart_range (u := sinSquare hz) h
  have large := knee_mono part (p1.trans bandTurn_range.2)
  have : 7009 / 10000 ≤ knee (1 / 2 - 1 / 250 : ℝ) := by norm_num [knee]
  have c := (abs_le.mp close).1
  have up : 7007 / 10000 ≤ response (fun k => (bandTaps b k : ℝ)) hz := by
    unfold bandTarget at c
    norm_num at *
    linarith
  nlinarith

theorem band_none {hz : ℝ} (h : b < 31) (part : bandPart b (sinSquare hz) = 0) :
    response (fun k => (bandTaps b k : ℝ)) hz ^ 2 ≤ 1 - amplitude (-1) := by
  obtain ⟨r0, close⟩ := band_response h hz
  have := amplitude_one.2
  have c := (abs_le.mp close).2
  unfold bandTarget knee at c
  rw [part] at c
  norm_num at *
  nlinarith

/-- The places of the edges of band `b` about a frequency. -/
theorem edge_top (h : b ≤ 31) : indexHz (4 * b - 2) ≤ 24000 := by
  have b31 : (b : ℝ) ≤ 31 := by exact_mod_cast h
  refine (indexHz_mono (b := 122) (by linarith)).trans ?_
  unfold indexHz
  have : (2 : ℝ) ^ (122 / 12 : ℝ) ≤ 1200 := by
    refine le_of_pow_le_pow_left₀ (n := 6) (by norm_num) (by norm_num) ?_
    rw [← Real.rpow_natCast, ← Real.rpow_mul (by norm_num)]; norm_num
  linarith

theorem turn_from (h : b ≤ 31) {hz : ℝ} (from_ : indexHz (4 * b - 2) ≤ hz) (top : hz ≤ 24000) :
    1 / 2 ≤ bandTurn b (sinSquare hz) :=
  bandTurn_past (by omega) ((edge_between h).1.trans (sinSquare_mono (indexHz_pos _).le from_ top))

theorem turn_upto (h : b ≤ 31) {hz : ℝ} (low : 0 ≤ hz) (upto : hz ≤ indexHz (4 * b - 2)) :
    bandTurn b (sinSquare hz) ≤ 1 / 2 + 1 / 250 :=
  bandTurn_before (by omega) ((sinSquare_mono low upto (edge_top h)).trans (edge_between h).2)

/-- Below the centre of the band before, and above that of the band after, a tone has no part in a band. -/
theorem far_below (h : b < 31) {hz : ℝ} (low : 0 ≤ hz) (le : hz ≤ indexHz (4 * b - 4)) :
    bandPart b (sinSquare hz) = 0 := by
  have none : bandTurn b (sinSquare hz) = 0 := by
    refine bandTurn_low (by omega) ?_
    have top := (indexHz_mono (show (4 * b - 4 : ℝ) ≤ 4 * b - 2 by linarith)).trans (edge_top (show b ≤ 31 by omega))
    refine (sinSquare_mono low le top).trans ?_
    rcases Nat.eq_zero_or_pos b with rfl | pos
    · have u := (sinSquare_between (j := 9) (by norm_num)).2
      have q := (sinSquare_quarter (low_place_small (show ((-4 : ℝ)) ≤ 0 by norm_num))).2
      rw [← indexHz_octave, show (-4 : ℝ) + 12 = ((9 : ℕ) : ℝ) - 1 by norm_num] at q
      rw [show (4 : ℝ) * ((0 : ℕ) : ℝ) - 4 = -4 by norm_num]
      refine q.trans ?_
      have s0 := (sinSquare_range (indexHz (((9 : ℕ) : ℝ) - 1))).1
      have g : (0 : ℝ) < grid := by unfold grid; norm_num
      have checked : 10 * ((above 9 : ℝ) * (grid + above 9)) ≤ 4 * turnLow 0 := by exact_mod_cast lowest_checked
      have bigger : sinSquare (indexHz (((9 : ℕ) : ℝ) - 1)) * (1 + sinSquare (indexHz (((9 : ℕ) : ℝ) - 1))) ≤
          (above 9 / grid : ℝ) * (1 + above 9 / grid) := by
        unfold gridPoint at u; gcongr
      have same : (above 9 / grid : ℝ) * (1 + above 9 / grid) = above 9 * (grid + above 9) / (grid * grid) := by
        field_simp
      rw [same] at bigger
      refine (div_le_div_of_nonneg_right bigger (by norm_num)).trans ?_
      unfold finePoint
      rw [div_div, div_le_div_iff₀ (by positivity) (by positivity)]
      nlinarith [mul_pos g g]
    · have u := (sinSquare_between (j := 4 * (b - 1) + 1) (by omega)).2
      rw [show (((4 * (b - 1) + 1 : ℕ) : ℝ) - 1) = 4 * b - 4 by
        rw [Nat.cast_add, Nat.cast_mul, Nat.cast_sub (by omega)]; push_cast; ring] at u
      have two := (turns_checked (b - 1) (by omega)).2
      rw [show b - 1 + 1 = b by omega] at two
      exact u.trans (le_finePoint two)
  have := bandPart_range (u := sinSquare hz) h
  rw [none] at this
  linarith [this.1, this.2.1]

theorem far_above (h : b < 30) {hz : ℝ} (ge : indexHz (4 * b + 4) ≤ hz) (top : hz ≤ 24000) :
    bandPart b (sinSquare hz) = 0 := by
  have done : bandTurn (b + 1) (sinSquare hz) = 1 := by
    refine bandTurn_high (by omega) (le_trans ?_ (sinSquare_mono (indexHz_pos _).le ge top))
    have l := (sinSquare_between (j := 4 * (b + 1) + 1) (by omega)).1
    rw [show (((4 * (b + 1) + 1 : ℕ) : ℝ) - 1) = 4 * b + 4 by push_cast; ring] at l
    exact (finePoint_le (turns_checked (b + 1) (by omega)).1).trans
      ((gridPoint_mono (step_up (4 * (b + 1)) (by omega)).2).trans l)
  have := bandPart_range (u := sinSquare hz) (show b < 31 by omega)
  rw [done] at this
  linarith [this.1, this.2.2]

/-- The band filters meet section 4.1 and R86. -/
theorem band_meets : BandResponse fun b => response fun k => (bandTaps b k : ℝ) where
  centre := by
    intro b
    have low : indexHz (4 * b.val - 1) ≤ bandHz b := by
      rw [bandHz_eq]; exact indexHz_mono (by push_cast; linarith)
    have full := band_full b.isLt low le_rfl
    have one := bands_whole (bandHz b)
    have part := Finset.single_le_sum (f := fun c : Fin 31 => response (fun k => (bandTaps c k : ℝ)) (bandHz b) ^ 2)
      (fun c _ => sq_nonneg _) (Finset.mem_univ b)
    refine gives_near (by norm_num) ?_
    have upper : response (fun k => (bandTaps b k : ℝ)) (bandHz b) ^ 2 ≤ 1 := part.trans one
    rw [abs_le]
    constructor
    · norm_num at *; linarith
    · nlinarith
  inside := by
    intro b hz from_ upto
    rw [bandLow_eq] at from_
    rw [bandHigh_eq] at upto
    have top := upto.trans (edge_top (show b.val + 1 ≤ 31 by omega))
    have past := turn_from (show b.val ≤ 31 by omega) from_ top
    have before := turn_upto (show b.val + 1 ≤ 31 by omega) ((indexHz_pos _).le.trans from_) upto
    refine band_high b.isLt ?_
    unfold bandPart
    rcases turns_apart b.isLt (sinSquare hz) with one | zero <;> linarith
  outside := by
    intro b hz low top where_
    obtain ⟨_, p1, p2⟩ := bandPart_range (u := sinSquare hz) b.isLt
    refine band_low b.isLt ?_
    rcases where_ with le | ge
    · rw [bandLow_eq] at le
      linarith [turn_upto (show b.val ≤ 31 by omega) low le]
    · rw [bandHigh_eq] at ge
      linarith [turn_from (show b.val + 1 ≤ 31 by omega) ge top]
  far := by
    intro b hz low top where_
    refine band_none b.isLt ?_
    rcases where_ with le | ge
    · refine far_below b.isLt low (le.trans (le_of_eq ?_))
      unfold bandHz indexHz
      rw [mul_assoc, ← Real.rpow_add (by norm_num)]
      congr 2; ring
    · have same : bandHz b * 2 ^ (1 / 3 : ℝ) = indexHz (4 * b.val + 4) := by
        unfold bandHz indexHz
        rw [mul_assoc, ← Real.rpow_add (by norm_num)]
        congr 2; ring
      rw [same] at ge
      rcases Nat.lt_or_ge b.val 30 with lt | last
      · exact far_above lt ge top
      · exfalso
        have : indexHz 124 ≤ hz := by
          have : b.val = 30 := by omega
          rw [this] at ge; norm_num at ge; exact ge
        have : (24600 : ℝ) < indexHz 124 := by
          unfold indexHz
          have : (1230 : ℝ) < 2 ^ (124 / 12 : ℝ) := by
            refine lt_of_pow_lt_pow_left₀ 3 (by positivity) ?_
            rw [← Real.rpow_natCast (2 ^ _), ← Real.rpow_mul (by norm_num)]; norm_num
          linarith
        linarith
  whole := fun hz _ _ => bands_whole hz
  beyond := by
    intro hz low top where_
    have one := amplitude_one.1
    have k0 := knee_range (bandTurn_range (b := 0) (u := sinSquare hz)).1 bandTurn_range.2
    have all := parts_energy le_rfl (sinSquare hz)
    have bound : ∑ b ∈ range 31, knee (bandPart b (sinSquare hz)) ^ 2 ≤ 51 / 100 := by
      refine all.trans ?_
      rcases where_ with le | ge
      · rw [bandLow_eq] at le
        have := knee_mono (turn_upto (show 0 ≤ 31 by omega) low le) (by norm_num)
        have : knee (1 / 2 + 1 / 250 : ℝ) ≤ 71 / 100 := by norm_num [knee]
        nlinarith [sq_nonneg (knee (bandTurn 31 (sinSquare hz)))]
      · rw [bandHigh_eq] at ge
        have := knee_mono (turn_from (show 31 ≤ 31 by omega) ge top) bandTurn_range.2
        rw [← knee_half] at this
        nlinarith
    have := (bands_energy bound (by norm_num) (by norm_num)).trans (min_le_right _ _)
    norm_num at *
    linarith

end Sys2Proof.Config.Witness
end

