-- ==== Sys2Proof/Laws/Fourier.lean ====
section
/-!
SUPPORT. The discrete Fourier transform of a periodic sequence and what filters of finitely many taps make of it: the
energy that they pass is that of its tones, each by its response.
-/

namespace Sys2Proof.Config.Witness
open Finset ZMod AddChar

variable {N : ℕ} [NeZero N]

/-- The tone of `k` turns in a period, at place `t`. -/
noncomputable def turn (t k : ZMod N) : ℂ := stdAddChar (t * k)

theorem turn_add (t u k : ZMod N) : turn (t + u) k = turn t k * turn u k := by
  simp [turn, add_mul, map_add_eq_mul]

theorem turn_conj (t k : ZMod N) : (starRingEnd ℂ) (turn t k) = turn (-t) k := by
  rw [turn, turn, neg_mul, map_neg_eq_conj]

theorem turn_sum (k : ZMod N) : ∑ t, turn t k = if k = 0 then (N : ℂ) else 0 := by
  unfold turn
  split_ifs with h
  · simp [h]
  · simp only [mul_comm _ k]
    exact sum_eq_zero_of_ne_one (isPrimitive_stdAddChar N h)

theorem turn_sum_tones (t : ZMod N) : ∑ k, turn t k = if t = 0 then (N : ℂ) else 0 := by
  rw [← turn_sum t]
  exact Finset.sum_congr rfl fun k _ => by rw [turn, turn, mul_comm]

/-- The transform of a periodic sequence. -/
noncomputable def spectrum (x : ZMod N → ℝ) (k : ZMod N) : ℂ := ∑ t, turn (-t) k * x t

/-- The energy of a sequence is that of its tones. -/
theorem spectrum_energy (x : ZMod N → ℝ) : ∑ k, ‖spectrum x k‖ ^ 2 = N * ∑ t, x t ^ 2 := by
  have expand : ∀ k, ((‖spectrum x k‖ ^ 2 : ℝ) : ℂ) = ∑ t, ∑ u, (x t : ℂ) * x u * turn (u - t) k := by
    intro k
    rw [Complex.ofReal_pow, ← Complex.mul_conj', spectrum, map_sum, Finset.sum_mul_sum]
    refine Finset.sum_congr rfl fun t _ => Finset.sum_congr rfl fun u _ => ?_
    rw [map_mul, turn_conj, neg_neg, Complex.conj_ofReal, show u - t = -t + u by ring, turn_add]
    ring
  have total : ((∑ k, ‖spectrum x k‖ ^ 2 : ℝ) : ℂ) = ((N * ∑ t, x t ^ 2 : ℝ) : ℂ) := by
    rw [Complex.ofReal_sum]
    simp only [expand]
    rw [Finset.sum_comm]
    have inner : ∀ t : ZMod N, ∑ k, ∑ u, (x t : ℂ) * x u * turn (u - t) k = N * (x t : ℂ) ^ 2 := by
      intro t
      rw [Finset.sum_comm]
      simp only [← Finset.mul_sum, turn_sum_tones, sub_eq_zero]
      rw [Finset.sum_eq_single t]
      · rw [if_pos rfl]; ring
      · intro u _ ne; rw [if_neg ne, mul_zero]
      · simp
    simp only [inner]
    push_cast
    rw [Finset.mul_sum]
  exact_mod_cast total

/-- What `size` taps make of a periodic sequence. -/
noncomputable def filtered (h : Nat → ℝ) (size : Nat) (x : ZMod N → ℝ) (t : ZMod N) : ℝ :=
  ∑ j ∈ range size, h j * x (t - j)

/-- What `size` taps make of a tone of a period. -/
noncomputable def factor (N : ℕ) [NeZero N] (h : Nat → ℝ) (size : Nat) (k : ZMod N) : ℂ :=
  ∑ j ∈ range size, (h j : ℂ) * turn (-(j : ZMod N)) k

theorem spectrum_filtered (h : Nat → ℝ) (size : Nat) (x : ZMod N → ℝ) (k : ZMod N) :
    spectrum (filtered h size x) k = factor N h size k * spectrum x k := by
  unfold spectrum filtered factor
  rw [Finset.sum_mul]
  simp only [Complex.ofReal_sum, Finset.mul_sum]
  rw [Finset.sum_comm]
  refine Finset.sum_congr rfl fun j _ => ?_
  rw [← Equiv.sum_comp (Equiv.subRight (j : ZMod N)) fun t => (h j : ℂ) * turn (-(j : ZMod N)) k * (turn (-t) k * x t)]
  refine Finset.sum_congr rfl fun t _ => ?_
  simp only [Equiv.subRight_apply]
  rw [show -t = -(j : ZMod N) + -(t - j) by ring, turn_add]
  push_cast
  ring

/-- The factor is the response at the tone's frequency, for a period of `N` samples. -/
theorem factor_response {h : Nat → ℝ} {size : Nat} (outside : ∀ j, size ≤ j → h j = 0) (k : ZMod N) :
    ‖factor N h size k‖ = response h (48000 * k.val / N) := by
  unfold response factor
  rw [tsum_eq_sum (s := range size)]
  · congr 1
    refine Finset.sum_congr rfl fun j _ => ?_
    congr 1
    have place : turn (-(j : ZMod N)) k = stdAddChar (((-(j * k.val : ℕ) : ℤ)) : ZMod N) := by
      rw [turn]
      congr 1
      push_cast
      rw [natCast_zmod_val]
      ring
    rw [place, stdAddChar_coe]
    congr 1
    have : (N : ℂ) ≠ 0 := by exact_mod_cast NeZero.ne N
    push_cast
    field_simp
  · intro j hj
    rw [outside j (by simpa using hj)]
    simp

/-- The energy that taps pass, tone by tone. -/
theorem filtered_energy (h : Nat → ℝ) (size : Nat) (x : ZMod N → ℝ) :
    N * ∑ t, filtered h size x t ^ 2 = ∑ k, ‖factor N h size k‖ ^ 2 * ‖spectrum x k‖ ^ 2 := by
  rw [← spectrum_energy]
  exact Finset.sum_congr rfl fun k _ => by rw [spectrum_filtered, norm_mul, mul_pow]

theorem period_pos : (0 : ℝ) < N := by exact_mod_cast Nat.pos_of_ne_zero (NeZero.ne N)

/-- Filters that together pass no more of any tone than there is pass no more of the energy. -/
theorem filtered_share {ι : Type} [Fintype ι] {h : ι → Nat → ℝ} {size : Nat} (outside : ∀ i j, size ≤ j → h i j = 0)
    (whole : ∀ hz, ∑ i, response (h i) hz ^ 2 ≤ 1) (x : ZMod N → ℝ) :
    ∑ i, ∑ t, filtered (h i) size x t ^ 2 ≤ ∑ t, x t ^ 2 := by
  refine le_of_mul_le_mul_left ?_ (period_pos (N := N))
  rw [Finset.mul_sum, ← spectrum_energy]
  simp only [filtered_energy, factor_response (outside _)]
  rw [Finset.sum_comm]
  refine Finset.sum_le_sum fun k _ => ?_
  rw [← Finset.sum_mul]
  exact mul_le_of_le_one_left (sq_nonneg _) (whole _)

/-- A tone and its mirror hold the same of a real sequence. -/
theorem spectrum_neg (x : ZMod N → ℝ) (k : ZMod N) : spectrum x (-k) = (starRingEnd ℂ) (spectrum x k) := by
  unfold spectrum
  rw [map_sum]
  refine Finset.sum_congr rfl fun t _ => ?_
  rw [map_mul, turn_conj, Complex.conj_ofReal]
  simp [turn]

theorem factor_neg (h : Nat → ℝ) (size : Nat) (k : ZMod N) :
    factor N h size (-k) = (starRingEnd ℂ) (factor N h size k) := by
  unfold factor
  rw [map_sum]
  refine Finset.sum_congr rfl fun t _ => ?_
  rw [map_mul, turn_conj, Complex.conj_ofReal]
  simp [turn]

/-- What a filter passes of one of a sequence's tones, with its mirror. -/
theorem filtered_tone {h : Nat → ℝ} {size : Nat} (outside : ∀ j, size ≤ j → h j = 0) (x : ZMod N → ℝ)
    {k : ZMod N} (ne : k ≠ -k) :
    2 * (response h (48000 * k.val / N) * ‖spectrum x k‖) ^ 2 ≤ N * ∑ t, filtered h size x t ^ 2 := by
  rw [filtered_energy, ← factor_response outside]
  refine le_trans (le_of_eq ?_) (Finset.sum_le_sum_of_subset_of_nonneg (Finset.subset_univ {k, -k})
    fun k _ _ => by positivity)
  rw [Finset.sum_pair ne, factor_neg, spectrum_neg, RCLike.norm_conj, RCLike.norm_conj]
  ring

/-! ### Samples as one period -/

/-- Samples followed by silence, as one period. -/
noncomputable def padded (N : ℕ) (xs : List Int) (t : ZMod N) : ℝ := (xs.getD t.val 0 : ℝ)

omit [NeZero N] in
theorem padded_filtered {xs : List Int} {size : Nat} (room : xs.length + size ≤ N) (h : Nat → ℝ)
    (outside : ∀ j, size ≤ j → h j = 0) {n : Nat} (inside : n < xs.length) :
    filtered h size (padded N xs) (n : ZMod N) = convolved h xs n := by
  have range_eq : convolved h xs n = ∑ k ∈ range (max (n + 1) size), if k ≤ n then h k * (xs.getD (n - k) 0 : ℝ) else 0
      := by
    rw [← Finset.sum_subset (Finset.range_mono (le_max_left (n + 1) size)), convolved]
    · exact Finset.sum_congr rfl fun k hk => by rw [if_pos (by simpa [Nat.lt_succ_iff] using hk)]
    · intro k _ hk
      rw [if_neg (by simpa [Nat.lt_succ_iff] using hk)]
  rw [range_eq, filtered, Finset.sum_subset (Finset.range_mono (le_max_right (n + 1) size))]
  · refine Finset.sum_congr rfl fun k _ => ?_
    split_ifs with h1
    · rw [padded, ← Nat.cast_sub h1, val_natCast, Nat.mod_eq_of_lt (by omega)]
    · rcases lt_or_ge k size with lt | ge
      · have place : (n : ZMod N) - k = ((n + N - k : ℕ) : ZMod N) := by
          rw [Nat.cast_sub (by omega), Nat.cast_add, natCast_self, add_zero]
        rw [padded, place, val_natCast, Nat.mod_eq_of_lt (by omega), List.getD_eq_default _ _ (by omega)]
        simp
      · rw [outside k ge, zero_mul]
  · intro k _ hk
    rw [outside k (by simpa using hk), zero_mul]

theorem sum_over_period (N : ℕ) [NeZero N] (f : Nat → ℝ) : ∑ t : ZMod N, f t.val = ∑ n ∈ range N, f n := by
  rw [← Fin.sum_univ_eq_sum_range]
  refine Fintype.sum_bijective (fun t : ZMod N => (⟨t.val, val_lt t⟩ : Fin N)) ⟨fun a b h => ?_, fun b => ?_⟩ _ _
    fun _ => rfl
  · exact val_injective N (by simpa using h)
  · exact ⟨(b.val : ZMod N), by ext; simp [val_natCast, Nat.mod_eq_of_lt b.isLt]⟩

theorem energy_sum (xs : List Int) : (energy xs : ℝ) = ∑ n ∈ range xs.length, (xs.getD n 0 : ℝ) ^ 2 := by
  induction xs with
  | nil => simp [energy]
  | cons x xs ih =>
    have head : energy (x :: xs) = x.natAbs * x.natAbs + energy xs := by simp [energy]
    rw [head, List.length_cons, Finset.sum_range_succ']
    simp only [List.getD_cons_succ, List.getD_cons_zero]
    rw [Nat.cast_add, ih, add_comm]
    congr 1
    rw [← pow_two, Nat.cast_pow, Nat.cast_natAbs, Int.cast_abs, sq_abs]

/-- Filters that together pass no more of any tone than there is pass no more than the energy of samples. -/
theorem passedEnergy_share {ι : Type} [Fintype ι] {h : ι → Nat → ℝ} {size : Nat}
    (outside : ∀ i j, size ≤ j → h i j = 0) (whole : ∀ hz, ∑ i, response (h i) hz ^ 2 ≤ 1) (xs : List Int) :
    ∑ i, passedEnergy (h i) xs ≤ energy xs := by
  set N := xs.length + size + 1 with N_eq
  have : NeZero N := ⟨by omega⟩
  have bound := filtered_share (N := N) outside whole (padded N xs)
  have right : ∑ t, padded N xs t ^ 2 = energy xs := by
    unfold padded
    rw [sum_over_period N fun n => (xs.getD n 0 : ℝ) ^ 2, energy_sum]
    refine (Finset.sum_subset (Finset.range_mono (by omega)) fun n _ hn => ?_).symm
    rw [List.getD_eq_default _ _ (by simpa using hn)]; simp
  rw [right] at bound
  refine (Finset.sum_le_sum fun i _ => ?_).trans bound
  have left : ∑ t, filtered (h i) size (padded N xs) t ^ 2 =
      ∑ n ∈ range N, filtered (h i) size (padded N xs) (n : ZMod N) ^ 2 := by
    rw [← sum_over_period N fun n => filtered (h i) size (padded N xs) (n : ZMod N) ^ 2]
    exact Finset.sum_congr rfl fun t _ => by rw [natCast_zmod_val]
  rw [left, passedEnergy]
  refine le_trans (le_of_eq (Finset.sum_congr rfl fun n hn => ?_))
    (Finset.sum_le_sum_of_subset_of_nonneg (Finset.range_mono (show xs.length ≤ N by omega)) fun _ _ _ => sq_nonneg _)
  rw [padded_filtered (by omega) _ (outside i) (by simpa using hn)]

end Sys2Proof.Config.Witness
end

