-- ==== Sys2Proof/Laws/Noise.lean ====
section
/-!
SUPPORT. There is a generator and an analyser that meet R84 and R86 (`Witness.someGear`): the noise is a sum of 31
tones, one in each band, and the analyser has the filters of Laws/Bands.lean. Nothing rests on this one: it only shows
that the laws of `Config.AlignmentGear` can be met.
-/

namespace Sys2Proof.Config.Witness
open Finset ZMod

/-! ### The tones -/

/-- The frequency of the tone in band `b`. -/
def toneHz (b : Nat) : Nat := [20, 25, 31].getD (b % 3) 0 * 2 ^ (b / 3)

theorem tones_checked : ∀ b < 31, 0 < toneHz b ∧ toneHz b ≤ 20480 ∧
    ∀ c < 31, toneHz b = toneHz c → b = c := by decide +kernel

theorem toneHz_inside {b : Nat} (_ : b < 31) : indexHz (4 * b - 1) ≤ toneHz b ∧ (toneHz b : ℝ) ≤ bandHz b := by
  have split : (b : ℝ) = 3 * (b / 3 : ℕ) + (b % 3 : ℕ) := by exact_mod_cast (Nat.div_add_mod b 3).symm
  have octave : ∀ x : ℝ, (2 : ℝ) ^ (((b / 3 : ℕ) : ℝ) + x) = 2 ^ (b / 3) * 2 ^ x := fun x => by
    rw [Real.rpow_add (by norm_num), Real.rpow_natCast]
  have low : indexHz (4 * b - 1) = 2 ^ (b / 3) * (20 * 2 ^ ((4 * ((b % 3 : ℕ) : ℝ) - 1) / 12)) := by
    unfold indexHz
    rw [split, show (4 * (3 * ((b / 3 : ℕ) : ℝ) + (b % 3 : ℕ)) - 1) / 12 =
      ((b / 3 : ℕ) : ℝ) + (4 * ((b % 3 : ℕ) : ℝ) - 1) / 12 by ring, octave]
    ring
  have high : bandHz b = 2 ^ (b / 3) * (20 * 2 ^ (((b % 3 : ℕ) : ℝ) / 3)) := by
    unfold bandHz
    rw [split, show (3 * ((b / 3 : ℕ) : ℝ) + (b % 3 : ℕ)) / 3 = ((b / 3 : ℕ) : ℝ) + ((b % 3 : ℕ) : ℝ) / 3 by ring,
      octave]
    ring
  have value : (toneHz b : ℝ) = 2 ^ (b / 3) * ([20, 25, 31].getD (b % 3) 0 : ℕ) := by
    unfold toneHz; push_cast; ring
  have small : b % 3 < 3 := Nat.mod_lt _ (by norm_num)
  have root : ∀ (x y : ℝ) (n : ℕ), 0 ≤ y → (2 : ℝ) ^ (x * (n + 1 : ℕ)) ≤ y ^ (n + 1) → (2 : ℝ) ^ x ≤ y := by
    intro x y n pos le
    refine le_of_pow_le_pow_left₀ (n := n + 1) (by omega) pos ?_
    rwa [← Real.rpow_natCast, ← Real.rpow_mul (by norm_num)]
  have root' : ∀ (x y : ℝ) (n : ℕ), y ^ (n + 1) ≤ (2 : ℝ) ^ (x * (n + 1 : ℕ)) → y ≤ (2 : ℝ) ^ x := by
    intro x y n le
    refine le_of_pow_le_pow_left₀ (n := n + 1) (by omega) (by positivity) ?_
    rwa [← Real.rpow_natCast (2 ^ x), ← Real.rpow_mul (by norm_num)]
  rw [low, high, value]
  constructor
  · refine mul_le_mul_of_nonneg_left ?_ (by positivity)
    generalize b % 3 = r at small
    interval_cases r
    · have := Real.rpow_le_one_of_one_le_of_nonpos (show (1 : ℝ) ≤ 2 by norm_num)
        (show (4 * ((0 : ℕ) : ℝ) - 1) / 12 ≤ 0 by norm_num)
      norm_num at *; linarith
    · have := root ((4 * ((1 : ℕ) : ℝ) - 1) / 12) (5 / 4) 3 (by norm_num) (by norm_num)
      norm_num at *; linarith
    · have := root ((4 * ((2 : ℕ) : ℝ) - 1) / 12) (31 / 20) 11 (by norm_num) (by norm_num)
      norm_num at *; linarith
  · refine mul_le_mul_of_nonneg_left ?_ (by positivity)
    generalize b % 3 = r at small
    interval_cases r
    · norm_num
    · have := root' (((1 : ℕ) : ℝ) / 3) (5 / 4) 2 (by norm_num)
      norm_num at *; linarith
    · have := root' (((2 : ℕ) : ℝ) / 3) (31 / 20) 2 (by norm_num)
      norm_num at *; linarith

/-- The samples in a period of the tones: a second. -/
abbrev period : Nat := 48000

/-- The tone of band `b`. -/
def tone (b : Nat) : ZMod period := (toneHz b : ZMod period)

theorem tone_val {b : Nat} (h : b < 31) : (tone b).val = toneHz b := by
  have := (tones_checked b h).2.1
  rw [tone, val_natCast, Nat.mod_eq_of_lt (by simp only [period]; omega)]

theorem tone_sum_ne {b c : Nat} (hb : b < 31) (hc : c < 31) : tone b + tone c ≠ 0 := by
  obtain ⟨b0, b1, _⟩ := tones_checked b hb
  obtain ⟨c0, c1, _⟩ := tones_checked c hc
  intro zero
  rw [tone, tone, ← Nat.cast_add, natCast_eq_zero_iff] at zero
  have := Nat.le_of_dvd (by omega) zero
  simp only [period] at this
  omega

theorem tone_ne {b c : Nat} (hb : b < 31) (hc : c < 31) (ne : b ≠ c) : tone b - tone c ≠ 0 := by
  intro same
  have : (tone b).val = (tone c).val := by rw [sub_eq_zero.mp same]
  rw [tone_val hb, tone_val hc] at this
  exact ne ((tones_checked b hb).2.2 c hc this)

/-- The tones together, each at full scale. -/
noncomputable def tones (t : ZMod period) : ℝ := ∑ b ∈ range 31, (turn t (tone b)).re

theorem turn_re (t k : ZMod period) : (((turn t k).re : ℝ) : ℂ) = (turn t k + turn t (-k)) / 2 := by
  rw [Complex.re_eq_add_conj, turn_conj]
  simp [turn]

theorem spectrum_tones {c : Nat} (hc : c < 31) : spectrum tones (tone c) = (period : ℂ) / 2 := by
  have each : ∀ b ∈ range 31, ∑ t, turn (-t) (tone c) * ((turn t (tone b)).re : ℂ) =
      if b = c then (period : ℂ) / 2 else 0 := by
    intro b hb
    have hb : b < 31 := by simpa using hb
    have shift : ∀ t k : ZMod period, turn (-t) (tone c) * turn t k = turn t (k - tone c) := by
      intro t k
      rw [turn, turn, turn, ← AddChar.map_add_eq_mul]
      congr 1; ring
    have terms : ∀ t : ZMod period, turn (-t) (tone c) * ((turn t (tone b)).re : ℂ) =
        (turn t (tone b - tone c) + turn t (-tone b - tone c)) / 2 := by
      intro t
      rw [turn_re, mul_div_assoc', mul_add, shift, shift]
    simp only [terms, ← Finset.sum_div, Finset.sum_add_distrib, turn_sum]
    rw [if_neg (show -tone b - tone c ≠ 0 by
      rw [← neg_add']; exact neg_ne_zero.mpr (tone_sum_ne hb hc))]
    split_ifs with h1 h2 h2
    · rw [add_zero]
    · exact absurd h1 (tone_ne hb hc h2)
    · exact absurd (by rw [h2, sub_self]) h1
    · simp
  unfold spectrum tones
  simp only [Complex.ofReal_sum, Finset.mul_sum]
  rw [Finset.sum_comm, Finset.sum_congr rfl each, Finset.sum_ite_eq', if_pos (by simpa using hc)]

theorem tones_energy : ∑ t, tones t ^ 2 = 31 * period / 2 := by
  have mirror : ∀ t k : ZMod period, (turn t k).re = (turn (-t) k).re := by
    intro t k
    rw [← turn_conj, Complex.conj_re]
  have total : ∑ t, tones t ^ 2 = ∑ b ∈ range 31, (spectrum tones (tone b)).re := by
    unfold spectrum
    simp only [Complex.re_sum, Complex.mul_re, Complex.ofReal_im, Complex.ofReal_re, mul_zero, sub_zero]
    rw [Finset.sum_comm]
    refine Finset.sum_congr rfl fun t _ => ?_
    rw [← Finset.sum_mul, pow_two]
    congr 1
    exact Finset.sum_congr rfl fun b _ => mirror t (tone b)
  rw [total, Finset.sum_congr rfl fun b hb => by rw [spectrum_tones (by simpa using hb)]]
  have : ((period : ℂ) / 2).re = (period : ℝ) / 2 := by
    rw [show ((period : ℂ) / 2) = (((period : ℝ) / 2 : ℝ) : ℂ) by push_cast; rfl, Complex.ofReal_re]
  rw [this, Finset.sum_const, card_range, nsmul_eq_mul]
  push_cast; ring

/-! ### The noise -/

/-! The samples are found by arithmetic on fractions, since what fills the hole of a free value must be computable. -/

/-- The angle of one sample period at one turn a second, as a fraction. -/
def angle : ℚ := 2 * (314159265358979323846 / 10 ^ 20) / 48000

/-- Nearly the cosine and the sine of `n` times the angle. -/
def circle : Nat → ℚ × ℚ
  | 0 => (1, 0)
  | n + 1 =>
    let z := circle n
    let c := 1 - angle ^ 2 / 2
    let s := angle - angle ^ 3 / 6
    (z.1 * c - z.2 * s, z.1 * s + z.2 * c)

/-- One step around the circle. -/
noncomputable def oneStep : ℂ := ((1 - angle ^ 2 / 2 : ℚ) : ℂ) + ((angle - angle ^ 3 / 6 : ℚ) : ℂ) * Complex.I

theorem circle_pow (n : Nat) : ((circle n).1 : ℂ) + ((circle n).2 : ℂ) * Complex.I = oneStep ^ n := by
  induction n with
  | zero => simp [circle]
  | succ n ih =>
    rw [pow_succ, ← ih, circle, oneStep]
    push_cast
    ring_nf
    rw [Complex.I_sq]
    ring

theorem circle_re (n : Nat) : ((circle n).1 : ℝ) = (oneStep ^ n).re := by
  rw [← circle_pow]; simp

theorem oneStep_small : ‖oneStep‖ ≤ 1 := by
  have sq : ‖oneStep‖ ^ 2 = ((1 - angle ^ 2 / 2 : ℚ) : ℝ) ^ 2 + ((angle - angle ^ 3 / 6 : ℚ) : ℝ) ^ 2 := by
    rw [← Complex.normSq_eq_norm_sq, oneStep, ← Complex.ofReal_ratCast, ← Complex.ofReal_ratCast,
      Complex.normSq_add_mul_I]
  have le : ((1 - angle ^ 2 / 2 : ℚ) : ℝ) ^ 2 + ((angle - angle ^ 3 / 6 : ℚ) : ℝ) ^ 2 ≤ 1 := by
    have : (1 - angle ^ 2 / 2) ^ 2 + (angle - angle ^ 3 / 6) ^ 2 ≤ 1 := by norm_num [angle]
    exact_mod_cast this
  exact (sq_le_one_iff₀ (norm_nonneg _)).mp (by rw [sq]; exact le)

/-- The true step. -/
noncomputable def trueStep : ℂ := Complex.exp ((2 * Real.pi / 48000 : ℝ) * Complex.I)

theorem oneStep_near : ‖oneStep - trueStep‖ ≤ 1 / 10 ^ 15 := by
  set x : ℝ := (angle : ℝ) with x_eq
  set y : ℝ := 2 * Real.pi / 48000 with y_eq
  have value : x = 2 * (314159265358979323846 / 10 ^ 20) / 48000 := by rw [x_eq]; norm_num [angle]
  have pos : 0 ≤ x := by rw [value]; norm_num
  have small : x ≤ 14 / 10 ^ 5 := by rw [value]; norm_num
  have abs_x : |x| = x := abs_of_nonneg pos
  have le1 : |x| ≤ 1 := by rw [abs_x]; linarith
  have fourth := pow_le_pow_left₀ pos small 4
  have fifth := pow_le_pow_left₀ pos small 5
  have c : |Real.cos x - (1 - x ^ 2 / 2)| ≤ 1 / 10 ^ 16 := by
    refine (Real.cos_bound le1).trans ?_
    rw [abs_x]; norm_num at fourth ⊢; linarith
  have s : |Real.sin x - (x - x ^ 3 / 6)| ≤ 1 / 10 ^ 16 := by
    refine (Real.sin_bound le1).trans ?_
    rw [abs_x]; norm_num at fifth ⊢; linarith
  have moved : ‖Complex.exp (x * Complex.I) - Complex.exp (y * Complex.I)‖ ≤ 1 / 10 ^ 16 := by
    have p1 := Real.pi_gt_d20
    have p2 := Real.pi_lt_d20
    have close : |x - y| ≤ 1 / 10 ^ 16 := by
      rw [value, y_eq, abs_le]; constructor <;> norm_num at * <;> linarith
    have split : Complex.exp (x * Complex.I) - Complex.exp (y * Complex.I) =
        (Complex.exp (Complex.I * (x - y : ℝ)) - 1) * Complex.exp (y * Complex.I) := by
      rw [sub_mul, ← Complex.exp_add, one_mul]
      congr 2
      push_cast; ring
    rw [split, norm_mul, Complex.norm_exp_ofReal_mul_I, mul_one]
    exact (Real.norm_exp_I_mul_ofReal_sub_one_le).trans (by rw [Real.norm_eq_abs]; exact close)
  have taylor : ‖oneStep - Complex.exp (x * Complex.I)‖ ≤ 2 / 10 ^ 16 := by
    rw [Complex.exp_mul_I, ← Complex.ofReal_cos, ← Complex.ofReal_sin, oneStep]
    have split : (((1 - angle ^ 2 / 2 : ℚ) : ℂ) + ((angle - angle ^ 3 / 6 : ℚ) : ℂ) * Complex.I) -
        ((Real.cos x : ℂ) + (Real.sin x : ℂ) * Complex.I) =
        (((1 - x ^ 2 / 2) - Real.cos x : ℝ) : ℂ) + (((x - x ^ 3 / 6) - Real.sin x : ℝ) : ℂ) * Complex.I := by
      rw [x_eq]; push_cast; ring
    rw [split]
    refine (norm_add_le _ _).trans ?_
    rw [norm_mul, Complex.norm_real, Complex.norm_real, Complex.norm_I, mul_one, Real.norm_eq_abs, Real.norm_eq_abs,
      abs_sub_comm, abs_sub_comm (x - x ^ 3 / 6)]
    linarith
  have := norm_sub_le_norm_sub_add_norm_sub oneStep (Complex.exp (x * Complex.I)) (Complex.exp (y * Complex.I))
  change ‖oneStep - Complex.exp (y * Complex.I)‖ ≤ _
  linarith

theorem circle_near (n : Nat) : |((circle n).1 : ℝ) - (trueStep ^ n).re| ≤ n / 10 ^ 15 := by
  have norms : ‖oneStep ^ n - trueStep ^ n‖ ≤ n / 10 ^ 15 := by
    induction n with
    | zero => simp
    | succ n ih =>
      have split : oneStep ^ (n + 1) - trueStep ^ (n + 1) =
          oneStep ^ n * (oneStep - trueStep) + (oneStep ^ n - trueStep ^ n) * trueStep := by ring
      have one : ‖trueStep‖ = 1 := Complex.norm_exp_ofReal_mul_I _
      rw [split]
      refine (norm_add_le _ _).trans ?_
      rw [norm_mul, norm_mul, one, mul_one, norm_pow]
      have a := mul_le_mul (pow_le_one₀ (norm_nonneg _) oneStep_small (n := n)) oneStep_near (norm_nonneg _) zero_le_one
      push_cast
      linarith
  rw [circle_re, ← Complex.sub_re]
  exact (Complex.abs_re_le_norm _).trans norms

theorem turn_pow (t k : ZMod period) : turn t k = trueStep ^ (t * k).val := by
  have := stdAddChar_coe (N := period) ((t * k).val : ℤ)
  rw [Int.cast_natCast, natCast_zmod_val] at this
  rw [turn, this, trueStep, ← Complex.exp_nat_mul]
  congr 1
  simp only [period]; push_cast; ring

/-- The amplitude of each tone at a test level, in 24-bit steps: the largest that the level admits. -/
def toneSteps (level : Level) : Nat :=
  Nat.findGreatest (fun a => a ^ 40 * (31 ^ 20 * 10 ^ (-level).toNat) ≤ fullScale ^ 40 * 2 ^ 20) 2200000

/-- The amplitude of each tone as a real. -/
noncomputable def toneAmplitude (level : Level) : ℝ := toneSteps level

/-- The noise: the tones, each sample rounded. -/
def noiseAt (level : Level) (t : ZMod period) : Int :=
  round (toneSteps level * ∑ b ∈ range 31, (circle (t * tone b).val).1)

/-- The noise as a periodic sequence of reals. -/
def noise (level : Level) (t : ZMod period) : ℝ := noiseAt level t

theorem toneSteps_admitted (level : Level) :
    toneSteps level ^ 40 * (31 ^ 20 * 10 ^ (-level).toNat) ≤ fullScale ^ 40 * 2 ^ 20 :=
  Nat.findGreatest_spec (P := fun a => a ^ 40 * (31 ^ 20 * 10 ^ (-level).toNat) ≤ fullScale ^ 40 * 2 ^ 20)
    (Nat.zero_le _) (by rw [zero_pow (by norm_num), zero_mul]; exact Nat.zero_le _)

theorem toneSteps_most (level : Level) : toneSteps level ≤ 2200000 := Nat.findGreatest_le _

theorem toneSteps_greatest (level : Level) :
    fullScale ^ 40 * 2 ^ 20 < (toneSteps level + 1) ^ 40 * (31 ^ 20 * 10 ^ (-level).toNat) := by
  rcases Nat.lt_or_ge (toneSteps level) 2200000 with lt | ge
  · exact not_le.mp (Nat.findGreatest_is_greatest
      (P := fun a => a ^ 40 * (31 ^ 20 * 10 ^ (-level).toNat) ≤ fullScale ^ 40 * 2 ^ 20) (Nat.lt_succ_self _) lt)
  · have whole := toneSteps_admitted level
    have same : toneSteps level = 2200000 := le_antisymm (toneSteps_most level) ge
    rw [same] at whole
    have : 2200000 ^ 40 * 31 ^ 20 ≤ fullScale ^ 40 * 2 ^ 20 := by
      refine le_trans ?_ whole
      rw [← mul_assoc]
      exact Nat.le_mul_of_pos_right _ (pow_pos (by norm_num) _)
    norm_num [fullScale] at this

theorem toneAmplitude_least {level : Level} (low : -120 ≤ level) : 2000 ≤ toneAmplitude level := by
  unfold toneAmplitude
  have : 2000 ≤ toneSteps level := by
    refine Nat.le_findGreatest (by norm_num) ?_
    have small : (-120 : Int) ≤ level := low
    have tens : 10 ^ (-level : Int).toNat ≤ 10 ^ 120 := Nat.pow_le_pow_right (by norm_num) (by omega)
    refine (Nat.mul_le_mul_left _ (Nat.mul_le_mul_left _ tens)).trans ?_
    norm_num [fullScale]
  exact_mod_cast this

variable {level : Level}

theorem noise_near (t : ZMod period) : |noise level t - toneAmplitude level * tones t| ≤ 3 / 5 := by
  set sum : ℚ := ∑ b ∈ range 31, (circle (t * tone b).val).1 with sum_eq
  have rounded : |((toneSteps level * sum : ℚ) : ℝ) - noise level t| ≤ 1 / 2 := by
    have := abs_sub_round (toneSteps level * sum)
    unfold noise noiseAt
    rw [← sum_eq]
    have real : ((|toneSteps level * sum - round (toneSteps level * sum)| : ℚ) : ℝ) ≤ ((1 / 2 : ℚ) : ℝ) :=
      Rat.cast_le.mpr this
    push_cast at real ⊢
    exact real
  have close : |(sum : ℝ) - tones t| ≤ 31 * (1 / 10 ^ 10) := by
    rw [sum_eq, tones]
    push_cast
    rw [← Finset.sum_sub_distrib]
    refine (Finset.abs_sum_le_sum_abs _ _).trans ?_
    have each : ∀ b ∈ range 31, |((circle (t * tone b).val).1 : ℝ) - (turn t (tone b)).re| ≤ 1 / 10 ^ 10 := by
      intro b _
      rw [turn_pow]
      refine (circle_near _).trans ?_
      have : ((t * tone b).val : ℝ) ≤ 48000 := by exact_mod_cast (ZMod.val_lt (t * tone b)).le
      norm_num at *; linarith
    refine (Finset.sum_le_sum each).trans (le_of_eq ?_)
    rw [Finset.sum_const, card_range, nsmul_eq_mul]; norm_num
  have most : toneAmplitude level ≤ 2200000 := by
    unfold toneAmplitude; exact_mod_cast toneSteps_most level
  have pos : 0 ≤ toneAmplitude level := Nat.cast_nonneg _
  have scaled : |toneAmplitude level * (sum : ℝ) - toneAmplitude level * tones t| ≤ 1 / 10 := by
    rw [← mul_sub, abs_mul, abs_of_nonneg pos]
    refine (mul_le_mul most close (abs_nonneg _) (by norm_num)).trans ?_
    norm_num
  have cast : ((toneSteps level * sum : ℚ) : ℝ) = toneAmplitude level * (sum : ℝ) := by
    unfold toneAmplitude; push_cast; rfl
  rw [cast] at rounded
  rw [abs_le] at *
  constructor <;> linarith [rounded.1, rounded.2, scaled.1, scaled.2]

/-- The tone of each band in the noise. -/
theorem noise_tone {c : Nat} (hc : c < 31) :
    (toneAmplitude level - 6 / 5) * period / 2 ≤ ‖spectrum (noise level) (tone c)‖ := by
  have split : spectrum (noise level) (tone c) = toneAmplitude level * spectrum tones (tone c) +
      ∑ t, turn (-t) (tone c) * ((noise level t - toneAmplitude level * tones t : ℝ) : ℂ) := by
    unfold spectrum
    rw [Finset.mul_sum, ← Finset.sum_add_distrib]
    exact Finset.sum_congr rfl fun t _ => by push_cast; ring
  have rest : ‖∑ t, turn (-t) (tone c) * ((noise level t - toneAmplitude level * tones t : ℝ) : ℂ)‖ ≤
      3 / 5 * period := by
    refine (norm_sum_le _ _).trans ?_
    have : ∀ t ∈ Finset.univ, ‖turn (-t) (tone c) * ((noise level t - toneAmplitude level * tones t : ℝ) : ℂ)‖ ≤ 3 / 5
        := by
      intro t _
      rw [norm_mul, turn, stdAddChar_apply, Circle.norm_coe, one_mul, Complex.norm_real]
      exact noise_near t
    refine (Finset.sum_le_sum this).trans (le_of_eq ?_)
    rw [Finset.sum_const, Finset.card_univ, ZMod.card, nsmul_eq_mul]; ring
  have main : toneAmplitude level * (period / 2) ≤ ‖(toneAmplitude level : ℂ) * spectrum tones (tone c)‖ := by
    rw [spectrum_tones hc, norm_mul, Complex.norm_real, norm_div]
    simp only [Complex.norm_natCast, Complex.norm_ofNat]
    exact mul_le_mul_of_nonneg_right (le_abs_self _) (by positivity)
  rw [split]
  have := norm_sub_le_norm_add ((toneAmplitude level : ℂ) * spectrum tones (tone c))
    (∑ t, turn (-t) (tone c) * ((noise level t - toneAmplitude level * tones t : ℝ) : ℂ))
  linarith

/-- The band filters as reals. -/
noncomputable def bandFilter (b : Fin 31) (k : Nat) : ℝ := (bandTaps b k : ℝ)

/-- How many taps a band filter has. -/
def bandSize : Nat := 2 * degree + 1

theorem bandFilter_outside (b : Fin 31) (j : Nat) (far : bandSize ≤ j) : bandFilter b j = 0 := band_taps_beyond far

/-- The energy that a period of the noise holds in each band, at least. -/
noncomputable def bandLeast (level : Level) : ℝ := period / 2 * ((1 - 1 / 5000) * (toneAmplitude level - 6 / 5)) ^ 2

/-- The energy of a period of the noise. -/
noncomputable def periodEnergy (level : Level) : ℝ := ∑ t, noise level t ^ 2

theorem band_least (low : -120 ≤ level) (b : Fin 31) :
    bandLeast level ≤ ∑ t, filtered (bandFilter b) bandSize (noise level) t ^ 2 := by
  have ne : tone b ≠ -tone b := fun same => tone_sum_ne b.isLt b.isLt (by nth_rw 1 [same]; ring)
  have passed := filtered_tone (bandFilter_outside b) (noise level) ne
  have place : (48000 * (tone b.val).val / (period : ℕ) : ℝ) = toneHz b := by
    rw [tone_val b.isLt]; simp only [period]; push_cast; field_simp
  rw [place] at passed
  obtain ⟨from_, upto⟩ := toneHz_inside b.isLt
  have full : 1 - 1 / 5000 ≤ response (bandFilter b) (toneHz b) := band_full b.isLt from_ upto
  have tone_ := noise_tone (level := level) b.isLt
  have a := toneAmplitude_least low
  have both : (1 - 1 / 5000) * ((toneAmplitude level - 6 / 5) * period / 2) ≤
      response (bandFilter b) (toneHz b) * ‖spectrum (noise level) (tone b)‖ :=
    mul_le_mul full tone_ (by have : (0 : ℝ) ≤ (period : ℕ) := by positivity
                              nlinarith) ((by norm_num : (0 : ℝ) ≤ 1 - 1 / 5000).trans full)
  have sq := pow_le_pow_left₀ (by
    have : (0 : ℝ) ≤ (period : ℕ) := by positivity
    have : 0 ≤ (toneAmplitude level - 6 / 5) * period := mul_nonneg (by linarith) this
    norm_num; linarith) both 2
  have p : ((period : ℕ) : ℝ) = 48000 := by norm_num [period]
  unfold bandLeast
  rw [p] at passed sq ⊢
  linarith

theorem all_bands (level : Level) : ∑ b, ∑ t, filtered (bandFilter b) bandSize (noise level) t ^ 2 ≤ periodEnergy level
    := filtered_share bandFilter_outside bands_whole _

/-- The noise's energy, from above. -/
theorem periodEnergy_most (low : -120 ≤ level) : periodEnergy level ≤ 501 / 500 * (31 * bandLeast level) := by
  have a := toneAmplitude_least low
  have each : ∀ t, noise level t ^ 2 ≤ (1 + 1 / 10000) * (toneAmplitude level * tones t) ^ 2 + 10001 * (9 / 25) := by
    intro t
    obtain ⟨l, r⟩ := abs_le.mp (noise_near (level := level) t)
    set e := noise level t - toneAmplitude level * tones t
    have : noise level t = toneAmplitude level * tones t + e := by ring
    rw [this]
    have small : e ^ 2 ≤ 9 / 25 := by nlinarith
    nlinarith [sq_nonneg (toneAmplitude level * tones t / 100 - 100 * e)]
  have total : periodEnergy level ≤ (1 + 1 / 10000) * (toneAmplitude level ^ 2 * (31 * period / 2)) +
      period * (10001 * (9 / 25)) := by
    unfold periodEnergy
    refine (Finset.sum_le_sum fun t _ => each t).trans (le_of_eq ?_)
    rw [Finset.sum_add_distrib, ← Finset.mul_sum]
    simp only [mul_pow]
    rw [← Finset.mul_sum, tones_energy, Finset.sum_const, Finset.card_univ, ZMod.card, nsmul_eq_mul]
  unfold bandLeast
  have p : ((period : ℕ) : ℝ) = 48000 := by norm_num [period]
  rw [p] at total ⊢
  nlinarith

theorem periodEnergy_least (low : -120 ≤ level) : 31 * bandLeast level ≤ periodEnergy level := by
  refine le_trans ?_ (all_bands level)
  have := Finset.sum_le_sum fun (b : Fin 31) (_ : b ∈ Finset.univ) => band_least low b
  simpa using this

/-! ### Stretches of the noise -/

theorem one_period (f : ZMod period → ℝ) (n : Nat) : ∑ m ∈ range period, f ((n + m : ℕ) : ZMod period) = ∑ t, f t := by
  rw [← sum_over_period period fun m => f ((n + m : ℕ) : ZMod period)]
  rw [← Equiv.sum_comp (Equiv.addLeft ((n : ℕ) : ZMod period)) f]
  refine Finset.sum_congr rfl fun t _ => ?_
  rw [Nat.cast_add, natCast_zmod_val, Equiv.coe_addLeft]

theorem whole_periods (f : ZMod period → ℝ) (n q : Nat) :
    ∑ m ∈ range (q * period), f ((n + m : ℕ) : ZMod period) = q * ∑ t, f t := by
  induction q with
  | zero => simp
  | succ q ih =>
    rw [Nat.succ_mul, Finset.sum_range_add, ih]
    simp only [← Nat.add_assoc]
    rw [one_period f (n + q * period)]
    push_cast; ring

theorem periods_within {f : ZMod period → ℝ} (pos : ∀ t, 0 ≤ f t) (n m : Nat) :
    ((m / period : ℕ) : ℝ) * ∑ t, f t ≤ ∑ k ∈ range m, f ((n + k : ℕ) : ZMod period) ∧
    ∑ k ∈ range m, f ((n + k : ℕ) : ZMod period) ≤ ((m / period + 1 : ℕ) : ℝ) * ∑ t, f t := by
  rw [← whole_periods f n, ← whole_periods f n]
  have le1 : m / period * period ≤ m := Nat.div_mul_le_self _ _
  have le2 : m ≤ (m / period + 1) * period := by
    rw [Nat.add_mul, one_mul]; exact (Nat.lt_div_mul_add (by norm_num [period])).le
  exact ⟨Finset.sum_le_sum_of_subset_of_nonneg (Finset.range_mono le1) fun _ _ _ => pos _,
    Finset.sum_le_sum_of_subset_of_nonneg (Finset.range_mono le2) fun _ _ _ => pos _⟩

/-- The noise as the generator gives it. -/
def samples (level : Level) (n : Nat) : Int := noiseAt level (n : ZMod period)

theorem stretch_length (n size : Nat) : (stretch (samples level) n size).length = size := by simp [stretch]

theorem stretch_getD {n size k : Nat} (h : k < size) :
    (((stretch (samples level) n size).getD k 0 : Int) : ℝ) = noise level ((n + k : ℕ) : ZMod period) := by
  rw [List.getD_eq_getElem _ _ (by simpa [stretch] using h)]
  simp [stretch, samples, noise]

theorem stretch_energy (n size : Nat) : (energy (stretch (samples level) n size) : ℝ) =
    ∑ k ∈ range size, noise level ((n + k : ℕ) : ZMod period) ^ 2 := by
  rw [energy_sum, stretch_length]
  exact Finset.sum_congr rfl fun k hk => by rw [stretch_getD (by simpa using hk)]

/-- Once a filter is full it makes of the noise what it makes of the periodic sequence. -/
theorem stretch_convolved (b : Fin 31) {n size m : Nat} (full : bandSize ≤ m) (h : m < size) :
    convolved (bandFilter b) (stretch (samples level) n size) m =
      filtered (bandFilter b) bandSize (noise level) ((n + m : ℕ) : ZMod period) := by
  unfold convolved filtered
  rw [← Finset.sum_subset (Finset.range_mono (show bandSize ≤ m + 1 by omega))]
  · refine Finset.sum_congr rfl fun k hk => ?_
    have : k < bandSize := by simpa using hk
    rw [stretch_getD (by omega), ← Nat.cast_sub (by omega), Nat.add_sub_assoc (by omega)]
  · intro k _ hk
    rw [bandFilter_outside b k (by simpa using hk), zero_mul]

theorem stretch_passed (low : -120 ≤ level) (b : Fin 31) {n size : Nat} (long : bandSize ≤ size) :
    (((size - bandSize) / period : ℕ) : ℝ) * bandLeast level ≤
      passedEnergy (bandFilter b) (stretch (samples level) n size) := by
  have periods := (periods_within (f := fun t => filtered (bandFilter b) bandSize (noise level) t ^ 2)
    (fun _ => sq_nonneg _) (n + bandSize) (size - bandSize)).1
  refine (mul_le_mul_of_nonneg_left (band_least low b) (Nat.cast_nonneg _)).trans (periods.trans ?_)
  unfold passedEnergy
  rw [stretch_length]
  have tail : ∑ k ∈ range (size - bandSize),
      filtered (bandFilter b) bandSize (noise level) ((n + bandSize + k : ℕ) : ZMod period) ^ 2 =
      ∑ k ∈ range (size - bandSize), convolved (bandFilter b) (stretch (samples level) n size) (bandSize + k) ^ 2 := by
    refine Finset.sum_congr rfl fun k hk => ?_
    have : k < size - bandSize := by simpa using hk
    rw [stretch_convolved b (by omega) (by omega), Nat.add_assoc]
  rw [tail, show range size = range (bandSize + (size - bandSize)) by congr 1; omega, Finset.sum_range_add]
  exact le_add_of_nonneg_left (Finset.sum_nonneg fun _ _ => sq_nonneg _)

/-! ### The gear -/

theorem bandLeast_pos (low : -120 ≤ level) : 1 ≤ bandLeast level := by
  have a := toneAmplitude_least low
  have p : ((period : ℕ) : ℝ) = 48000 := by norm_num [period]
  unfold bandLeast
  rw [p]
  nlinarith

/-- Real bounds as the powers that stand for level steps. -/
theorem powers_within {x y : Nat} (one : (x : ℝ) ≤ 28 / 25 * y) (two : (y : ℝ) ≤ 28 / 25 * x) : withinStep x y := by
  have step : ((28 / 25 : ℝ)) ^ 20 ≤ 10 := by norm_num
  have power : ∀ {u v : Nat}, (u : ℝ) ≤ 28 / 25 * v → u ^ 20 ≤ v ^ 20 * 10 := by
    intro u v le
    have := pow_le_pow_left₀ (by positivity) le 20
    rw [mul_pow] at this
    have : (u : ℝ) ^ 20 ≤ (v : ℝ) ^ 20 * 10 := by
      refine this.trans ?_
      rw [mul_comm]
      exact mul_le_mul_of_nonneg_left step (by positivity)
    exact_mod_cast this
  exact ⟨power one, power two⟩

/-- The energy of what taps make of samples, as a fraction. -/
def tapsEnergy (taps : Nat → ℚ) (xs : List Int) : ℚ :=
  ∑ n ∈ range xs.length, (∑ k ∈ range (n + 1), taps k * xs.getD (n - k) 0) ^ 2

theorem tapsEnergy_cast (taps : Nat → ℚ) (xs : List Int) :
    ((tapsEnergy taps xs : ℚ) : ℝ) = passedEnergy (fun k => (taps k : ℝ)) xs := by
  unfold tapsEnergy passedEnergy convolved
  push_cast; rfl

/-- The energy of samples in a band, rounded down. -/
def bandEnergy (band : Nat) (xs : List Int) : Nat := if band < 31 then ⌊tapsEnergy (bandTaps band) xs⌋₊ else 0

theorem passedEnergy_nonneg (h : Nat → ℝ) (xs : List Int) : 0 ≤ passedEnergy h xs :=
  Finset.sum_nonneg fun _ _ => sq_nonneg _

theorem bandEnergy_near (b : Fin 31) (xs : List Int) : (bandEnergy b xs : ℝ) ≤ passedEnergy (bandFilter b) xs ∧
    passedEnergy (bandFilter b) xs < bandEnergy b xs + 1 := by
  have same : passedEnergy (bandFilter b) xs = ((tapsEnergy (bandTaps b) xs : ℚ) : ℝ) := (tapsEnergy_cast _ _).symm
  have pos : 0 ≤ tapsEnergy (bandTaps b) xs := Finset.sum_nonneg fun _ _ => sq_nonneg _
  rw [same, bandEnergy, if_pos b.isLt]
  exact ⟨by exact_mod_cast Nat.floor_le pos, by exact_mod_cast Nat.lt_floor_add_one (tapsEnergy (bandTaps b) xs)⟩

theorem bandEnergy_share (band : Nat) (xs : List Int) : bandEnergy band xs ≤ energy xs := by
  rcases Nat.lt_or_ge band 31 with lt | ge
  · have all := passedEnergy_share bandFilter_outside bands_whole xs
    have one := Finset.single_le_sum (f := fun b : Fin 31 => passedEnergy (bandFilter b) xs)
      (fun b _ => passedEnergy_nonneg _ _) (Finset.mem_univ ⟨band, lt⟩)
    have := (bandEnergy_near ⟨band, lt⟩ xs).1.trans (one.trans all)
    exact_mod_cast this
  · simp [bandEnergy, Nat.not_lt.mpr ge]

theorem bandEnergy_grows (band : Nat) (xs ys : List Int) : bandEnergy band xs ≤ bandEnergy band (xs ++ ys) := by
  unfold bandEnergy
  split_ifs with h
  · refine Nat.floor_le_floor ?_
    unfold tapsEnergy
    rw [List.length_append, Finset.sum_range_add]
    refine le_add_of_le_of_nonneg (le_of_eq (Finset.sum_congr rfl fun n hn => ?_))
      (Finset.sum_nonneg fun _ _ => sq_nonneg _)
    have inside : n < xs.length := by simpa using hn
    congr 1
    refine Finset.sum_congr rfl fun k _ => ?_
    rw [List.getD_append _ _ _ _ (by omega)]
  · exact le_rfl

theorem periods_split (m n : Nat) : (m + n) / period ≤ n / period + (m / period + 1) := by
  simp only [period]; omega

/-- The shares of the bands in numbers: `z` is the least that a band holds, and `e` little more than 31 of it. -/
theorem shares_equal {e own others y z k : ℝ} (all : own + others ≤ e) (rest : 30 * z ≤ others) (mine : z ≤ own)
    (most : e ≤ 501 / 500 * (31 * y)) (close : y ≤ 100001 / 99999 * z) (large : 999 ≤ z) (near1 : k ≤ own)
    (near2 : own < k + 1) : 31 * k ≤ 28 / 25 * e ∧ e ≤ 28 / 25 * (31 * k) := by
  constructor <;> linarith

/-- Every band holds an equal share of a long stretch of the noise. -/
theorem noise_equal (low : -120 ≤ level) : ∃ long : Nat, ∀ (size n : Nat) (b : Fin 31), long ≤ size →
    withinStep (31 * bandEnergy b (stretch (samples level) n size)) (energy (stretch (samples level) n size)) := by
  set d := bandSize / period + 1 with d_eq
  refine ⟨bandSize + 100000 * (d + 1) * period, fun size n b long => ?_⟩
  set xs := stretch (samples level) n size with xs_eq
  set q := size / period with q_eq
  have le : bandSize ≤ size := by omega
  have most : (energy xs : ℝ) ≤ (q + 1) * periodEnergy level := by
    have := (periods_within (f := fun t => noise level t ^ 2) (fun _ => sq_nonneg _) n size).2
    rw [stretch_energy, ← Nat.cast_add_one]
    exact this
  have count : q ≤ (size - bandSize) / period + d := by
    have := periods_split bandSize (size - bandSize)
    rwa [Nat.add_sub_cancel' le] at this
  have many : 100000 * (d + 1) ≤ q := by
    exact (Nat.le_div_iff_mul_le (Nat.pos_of_neZero period)).mpr (le_trans (Nat.le_add_left _ _) long)
  have each : ∀ c : Fin 31, ((q : ℝ) - d) * bandLeast level ≤ passedEnergy (bandFilter c) xs := by
    intro c
    refine le_trans (mul_le_mul_of_nonneg_right ?_ (zero_le_one.trans (bandLeast_pos low))) (stretch_passed low c le)
    have : (q : ℝ) ≤ ((size - bandSize) / period : ℕ) + d := by exact_mod_cast count
    linarith
  have least := bandLeast_pos low
  have upper := periodEnergy_most low
  have manyR : 100000 * ((d : ℝ) + 1) ≤ q := by exact_mod_cast many
  have d0 : (0 : ℝ) ≤ d := by positivity
  obtain ⟨near1, near2⟩ := bandEnergy_near b xs
  have all := passedEnergy_share bandFilter_outside bands_whole xs
  have others : 30 * (((q : ℝ) - d) * bandLeast level) ≤
      ∑ c ∈ Finset.univ.erase b, passedEnergy (bandFilter c) xs := by
    refine le_trans (le_of_eq ?_) (Finset.sum_le_sum fun c _ => each c)
    rw [Finset.sum_const, Finset.card_erase_of_mem (Finset.mem_univ b), Finset.card_univ, Fintype.card_fin,
      nsmul_eq_mul]
    norm_num
  rw [← Finset.add_sum_erase _ _ (Finset.mem_univ b)] at all
  have mine := each b
  have bound : (energy xs : ℝ) ≤ 501 / 500 * (31 * (((q : ℝ) + 1) * bandLeast level)) := by
    refine (most.trans (mul_le_mul_of_nonneg_left upper (by linarith))).trans (le_of_eq ?_)
    ring
  have close : ((q : ℝ) + 1) * bandLeast level ≤ 100001 / 99999 * (((q : ℝ) - d) * bandLeast level) := by
    rw [← mul_assoc]
    refine mul_le_mul_of_nonneg_right ?_ (by linarith)
    linarith
  have large : 999 ≤ ((q : ℝ) - d) * bandLeast level := by
    have : (999 : ℝ) ≤ q - d := by linarith
    nlinarith
  obtain ⟨one, two⟩ := shares_equal all others (each b) bound close large near1 near2
  exact powers_within (by push_cast; exact one) (by push_cast; exact two)

/-- An energy within 28/25 of a level's lies within a level step of it. -/
theorem level_within {h : ℝ} {k full e : ℕ} (h0 : 0 ≤ h) (g : h ^ 20 * 10 ^ k = 1)
    (one : (full : ℝ) * h ≤ 28 / 25 * e) (two : (e : ℝ) ≤ 28 / 25 * (full * h)) :
    full ^ 20 ≤ e ^ 20 * 10 ^ (k + 1) ∧ e ^ 20 * 10 ^ k ≤ full ^ 20 * 10 := by
  have step : ((28 / 25 : ℝ)) ^ 20 ≤ 10 := by norm_num
  have f0 : (0 : ℝ) ≤ full := Nat.cast_nonneg _
  have e0 : (0 : ℝ) ≤ e := Nat.cast_nonneg _
  have tens : (0 : ℝ) ≤ 10 ^ k := pow_nonneg (by norm_num) _
  constructor
  · have power := pow_le_pow_left₀ (mul_nonneg f0 h0) one 20
    rw [mul_pow, mul_pow] at power
    have real : (full : ℝ) ^ 20 ≤ (e : ℝ) ^ 20 * (10 : ℝ) ^ (k + 1) := by
      calc (full : ℝ) ^ 20 = (full : ℝ) ^ 20 * h ^ 20 * (10 : ℝ) ^ k := by rw [mul_assoc, g, mul_one]
        _ ≤ (28 / 25) ^ 20 * (e : ℝ) ^ 20 * (10 : ℝ) ^ k := mul_le_mul_of_nonneg_right power tens
        _ ≤ 10 * (e : ℝ) ^ 20 * (10 : ℝ) ^ k :=
          mul_le_mul_of_nonneg_right (mul_le_mul_of_nonneg_right step (pow_nonneg e0 _)) tens
        _ = _ := by rw [pow_succ]; ring
    exact_mod_cast real
  · have power := pow_le_pow_left₀ e0 two 20
    rw [mul_pow, mul_pow] at power
    have real : (e : ℝ) ^ 20 * (10 : ℝ) ^ k ≤ (full : ℝ) ^ 20 * 10 := by
      calc (e : ℝ) ^ 20 * (10 : ℝ) ^ k
          ≤ (28 / 25) ^ 20 * ((full : ℝ) ^ 20 * h ^ 20) * (10 : ℝ) ^ k := mul_le_mul_of_nonneg_right power tens
        _ ≤ 10 * ((full : ℝ) ^ 20 * h ^ 20) * (10 : ℝ) ^ k :=
          mul_le_mul_of_nonneg_right (mul_le_mul_of_nonneg_right step
            (mul_nonneg (pow_nonneg f0 _) (pow_nonneg h0 _))) tens
        _ = (full : ℝ) ^ 20 * (h ^ 20 * (10 : ℝ) ^ k) * 10 := by ring
        _ = _ := by rw [g, mul_one]
    exact_mod_cast real

/-- The amplitude of the tones stands by its level, `h` the factor of an energy of level −k. -/
theorem toneAmplitude_within {h : ℝ} {k : Nat} (h0 : 0 ≤ h) (g : h ^ 20 * 10 ^ k = 1) :
    toneAmplitude (-k) ^ 2 * 31 ≤ 2 * (fullScale : ℝ) ^ 2 * h ∧
    2 * (fullScale : ℝ) ^ 2 * h ≤ (toneAmplitude (-k) + 1) ^ 2 * 31 := by
  have f0 : (0 : ℝ) ≤ fullScale := Nat.cast_nonneg _
  have a0 : 0 ≤ toneAmplitude (-k) := Nat.cast_nonneg _
  have h20 : 0 ≤ h ^ 20 := pow_nonneg h0 _
  have toNat : (-(-k : Int)).toNat = k := by omega
  have low := toneSteps_admitted (-k)
  have high := toneSteps_greatest (-k)
  rw [toNat] at low high
  have lowR : toneAmplitude (-k) ^ 40 * (31 ^ 20 * 10 ^ k) ≤ (fullScale : ℝ) ^ 40 * 2 ^ 20 := by
    unfold toneAmplitude; exact_mod_cast low
  have highR : (fullScale : ℝ) ^ 40 * 2 ^ 20 ≤ (toneAmplitude (-k) + 1) ^ 40 * (31 ^ 20 * 10 ^ k) := by
    unfold toneAmplitude; exact_mod_cast high.le
  generalize toneAmplitude (-k) = a at *
  generalize (fullScale : ℝ) = f at *
  constructor
  · refine le_of_pow_le_pow_left₀ (n := 20) (by norm_num)
      (mul_nonneg (mul_nonneg (by norm_num) (sq_nonneg _)) h0) ?_
    calc (a ^ 2 * 31) ^ 20 = a ^ 40 * (31 ^ 20 * 10 ^ k) * h ^ 20 := by
          rw [show a ^ 40 * (31 ^ 20 * 10 ^ k) * h ^ 20 = a ^ 40 * 31 ^ 20 * (h ^ 20 * 10 ^ k) by ring, g]; ring
      _ ≤ f ^ 40 * 2 ^ 20 * h ^ 20 := mul_le_mul_of_nonneg_right lowR h20
      _ = _ := by ring
  · refine le_of_pow_le_pow_left₀ (n := 20) (by norm_num) (mul_nonneg (sq_nonneg _) (by norm_num)) ?_
    calc (2 * f ^ 2 * h) ^ 20 = f ^ 40 * 2 ^ 20 * h ^ 20 := by ring
      _ ≤ (a + 1) ^ 40 * (31 ^ 20 * 10 ^ k) * h ^ 20 := mul_le_mul_of_nonneg_right highR h20
      _ = (a + 1) ^ 40 * 31 ^ 20 * (h ^ 20 * 10 ^ k) := by ring
      _ = _ := by rw [g]; ring

/-- The energy of any second of the noise lies within a level step of its test level. -/
theorem noise_level {k : Nat} (low : k ≤ 120) (n : Nat) :
    fullSecond ^ 20 ≤ energy (stretch (samples (-k)) n secondPeriods) ^ 20 * 10 ^ (k + 1) ∧
    energy (stretch (samples (-k)) n secondPeriods) ^ 20 * 10 ^ k ≤ fullSecond ^ 20 * 10 := by
  have lowLevel : (-120 : Int) ≤ -k := by omega
  have size : secondPeriods = period := by decide
  have whole : (energy (stretch (samples (-k)) n secondPeriods) : ℝ) = periodEnergy (-k) := by
    rw [stretch_energy, size, one_period fun t => noise (-k) t ^ 2]; rfl
  have full : (fullSecond : ℝ) = 48000 * (fullScale : ℝ) ^ 2 := by
    unfold fullSecond; rw [size]; push_cast; ring
  have a := toneAmplitude_least lowLevel
  have least := periodEnergy_least lowLevel
  have most := periodEnergy_most lowLevel
  have p : ((period : ℕ) : ℝ) = 48000 := by norm_num [period]
  have g : (amplitude ((-k : Int) : ℝ) ^ 2) ^ 20 * 10 ^ k = 1 := by
    rw [← pow_mul, amplitude_pow, ← zpow_natCast, ← zpow_add₀ (by norm_num)]; simp
  obtain ⟨lower, upper⟩ := toneAmplitude_within (sq_nonneg _) g
  have one : (fullSecond : ℝ) * amplitude ((-k : Int) : ℝ) ^ 2 ≤ 28 / 25 * periodEnergy (-k) := by
    rw [full, mul_assoc]
    unfold bandLeast at least
    rw [p] at least
    nlinarith
  have two : periodEnergy (-k) ≤ 28 / 25 * (fullSecond * amplitude ((-k : Int) : ℝ) ^ 2) := by
    rw [full, mul_assoc]
    unfold bandLeast at most
    rw [p] at most
    nlinarith
  rw [← whole] at one two
  exact level_within (sq_nonneg _) g one two

/-- There is such gear. -/
def someGear : AlignmentGear where
  noise := samples
  energyIn := bandEnergy
  level := fun _ n _ high => noise_level high n
  equal := fun k _ high => noise_equal (show (-120 : Int) ≤ -(k : Int) by omega)
  share := bandEnergy_share
  grows := bandEnergy_grows
  filters := ⟨bandFilter, fun b => summable_of_ne_finset_zero (s := range bandSize) fun k hk => by
      rw [bandFilter_outside b k (by simpa using hk), abs_zero],
    band_meets, fun b xs => by
      obtain ⟨one, two⟩ := bandEnergy_near b xs
      rw [abs_lt]; constructor <;> linarith⟩

end Sys2Proof.Config.Witness
end

