-- ==== Sys2Proof/Config/Alignment.lean ====
section
/-!
DEFINITION. The part's test signal generator and band analyser (R84, R86): a free value that carries the laws of
`AlignmentGear`.
-/

namespace Sys2Proof.Config

/-- FREE VALUE. The part's own generator and analyser: the manual gives neither the noise's samples nor the band filters
(00 section 3; log entries 14 and 15). -/
opaque partGear [Inhabited AlignmentGear] : AlignmentGear

/-- The part's generator and analyser. The gear that fills the hole only shows that the laws can be met: nothing can be
proved of the part's but the laws. -/
def gear : AlignmentGear := @partGear ⟨Witness.someGear⟩

end Sys2Proof.Config
end

