-- ==== Sys2Proof/Config/Equaliser.lean ====
section
/-!
DEFINITION. The part's EQ filters (R64, R65): a free value that carries the laws of `EqFilters`.
-/

namespace Sys2Proof.Config

/-- FREE VALUE. The part's own EQ filters: the realisation "belongs to the part" (R64; log entry 13). -/
opaque partFilters [Inhabited EqFilters] : EqFilters

/-- The part's EQ filters. The filters that fill the hole only show that the laws can be met: nothing can be proved of
the part's but the laws. -/
def eqFilters : EqFilters := @partFilters ⟨Witness.filters⟩

end Sys2Proof.Config
end

