-- ==== Sys2Proof/Machine/Tables.lean ====
section
/-!
DEFINITION. Helpers over the part's tables and lists: updating one entry, walking the indexes in order, finding an
index from a byte, and the difference of two time-base readings (R1).
-/

namespace Sys2Proof.Machine

/-- The entry `i` of a table changed by `f`, every other entry as it stands. -/
def modifyAt {α : Type} {n : Nat} (v : Vector α n) (i : Fin n) (f : α → α) : Vector α n :=
  v.set i (f v[i])

/-- Every entry of a table changed by `f`, which also sees the index. -/
def mapAt {α : Type} {n : Nat} (f : Fin n → α → α) (v : Vector α n) : Vector α n :=
  (List.finRange n).foldl (fun w i => modifyAt w i (f i)) v

/-- The index that a number names in a table of `n` entries, if any. -/
def toIndex (n k : Nat) : Option (Fin n) :=
  if h : k < n then some ⟨k, h⟩ else none

/-- The table's entries whose index is in range, as a list in index order. -/
def indexes (n : Nat) : List (Fin n) := List.finRange n

/-- The difference of two time-base readings, modulo 2^32 (R1). -/
def elapsed (now start : Word) : Nat := (now - start).toNat

/-- A counter that rises by one and stops at a top (R16, R107, R178, R179). -/
def riseTo (top n : Nat) : Nat := if n < top then n + 1 else n

/-- The value when every check passes, else the first failure (the form of every ordered list of refusals). -/
def firstFailure {α : Type} : List (Bool × α) → Option α
  | [] => none
  | (bad, r) :: rest => if bad then some r else firstFailure rest

/-- Whether a list holds an element twice. -/
def hasRepeat {α : Type} [DecidableEq α] : List α → Bool
  | [] => false
  | x :: xs => xs.contains x || hasRepeat xs

/-- The values of all the options, if each holds one. -/
def allSome {α : Type} : List (Option α) → Option (List α)
  | [] => some []
  | none :: _ => none
  | some x :: rest => (allSome rest).map (x :: ·)

end Sys2Proof.Machine
end

