-- ==== Sys2Proof/Machine/Frames.lean ====
section
/-!
DEFINITION. Frames as bytes (chapter 11): the check word (R3), the header fields, the classification of R4, BLOCK
payloads, and the frames that the unit builds (R14, R15, R181, R182).
-/

namespace Sys2Proof.Machine

/-! ### Bytes -/

/-- A number in two bytes, most significant first (chapter 11, opening). -/
def bytes2 (n : Nat) : List Byte := [BitVec.ofNat 8 (n / 256), BitVec.ofNat 8 n]

/-- A signed value in one byte, two's complement. -/
def signed1 (x : Int) : List Byte := [BitVec.ofInt 8 x]

/-- A signed value in two bytes, two's complement. -/
def signed2 (x : Int) : List Byte := bytes2 (BitVec.ofInt 16 x).toNat

/-- A 32-bit value in four bytes, most significant first. -/
def bytes4 (w : Word) : List Byte := bytes2 (w.toNat / 65536) ++ bytes2 (w.toNat % 65536)

/-- A sample in three bytes, two's complement (section 11.2). -/
def bytes3 (x : Int) : List Byte :=
  let w := (BitVec.ofInt 24 x).toNat
  [BitVec.ofNat 8 (w / 65536), BitVec.ofNat 8 (w / 256), BitVec.ofNat 8 w]

/-- The number that two bytes carry. -/
def nat2 (hi lo : Byte) : Nat := hi.toNat * 256 + lo.toNat

/-- The number that four bytes carry. -/
def nat4 (a b c d : Byte) : Nat := nat2 a b * 65536 + nat2 c d

/-- A flag in one byte: 1 for set. -/
def flagByte (b : Bool) : Byte := if b then 1#8 else 0#8

/-- An index in one byte, 255 for none (chapter 11, opening). -/
def indexByte {n : Nat} (i : Option (Fin n)) : Byte :=
  match i with
  | none => 255#8
  | some k => BitVec.ofNat 8 k.val

/-- A list of flags as a number, the first flag in bit 0. -/
def flagBits : List Bool → Nat
  | [] => 0
  | b :: rest => (if b then 1 else 0) + 2 * flagBits rest

/-! ### The check word (R3) -/

/-- The remainder after more bits of the frame: generator x^16 + x^12 + x^5 + 1. -/
def crcBits : List Bool → BitVec 16 → BitVec 16
  | [], c => c
  | b :: rest, c =>
    if c.msb != b then crcBits rest ((c <<< 1) ^^^ 0x1021#16) else crcBits rest (c <<< 1)

/-- The bits of a byte, most significant first. -/
def byteBits (b : Byte) : List Bool := [7, 6, 5, 4, 3, 2, 1, 0].map b.getLsbD

/-- The check word of header and payload bytes: it starts at all ones and is not inverted at the end. -/
def checkWord (bytes : List Byte) : BitVec 16 := crcBits (bytes.flatMap byteBits) 0xFFFF#16

/-- A frame with the check word that its bytes call for (R15). -/
def sealFrame (header : Vector Byte 8) (payload : List Byte) : Frame :=
  ⟨header, payload, checkWord (header.toList ++ payload)⟩

end Sys2Proof.Machine

namespace Sys2Proof

/-! ### Header fields (section 11.1) -/

/-- Header byte 0: the kind. -/
def Frame.kind (f : Frame) : Nat := f.header[0].toNat
/-- Header byte 1, high nibble: the unit. -/
def Frame.unitNibble (f : Frame) : Nat := f.header[1].toNat / 16
/-- Header byte 1, low nibble: the screen of a BLOCK. -/
def Frame.screenNibble (f : Frame) : Nat := f.header[1].toNat % 16
/-- Header bytes 2 and 3: the payload length. -/
def Frame.length (f : Frame) : Nat := Machine.nat2 f.header[2] f.header[3]
/-- Header bytes 4 to 7 of a BLOCK: the position. -/
def Frame.position (f : Frame) : Word :=
  BitVec.ofNat 32 (Machine.nat4 f.header[4] f.header[5] f.header[6] f.header[7])
/-- Payload byte 0 of a BLOCK: the flags. -/
def Frame.blockFlags (f : Frame) : Byte := f.payload.getD 0 0#8
/-- The RUN flag (section 11.2). -/
def Frame.run (f : Frame) : Bool := f.blockFlags.getLsbD 0
/-- The MATRIX flag (section 11.2). -/
def Frame.matrix (f : Frame) : Bool := f.blockFlags.getLsbD 1
/-- Payload byte 1 of a BLOCK: the channel count. -/
def Frame.channelCount (f : Frame) : Nat := (f.payload.getD 1 0#8).toNat
/-- The position, if the block carries one (section 4.3). -/
def Frame.validPosition (f : Frame) : Option Word :=
  if f.position = noPosition then none else some f.position

/-- The command of a COMMAND frame (section 11.1): byte 7 and the low nibble of byte 1 are reserved (R182). -/
def Frame.command (f : Frame) : Machine.Command :=
  ⟨f.header[4], f.header[5], f.header[6], f.payload⟩

/-! ### Checking and classifying (R3, R4) -/

/-- The frame's bytes agree with its check word, and its payload with its length (R2, R3). -/
def Frame.intact (f : Frame) : Bool :=
  f.payload.length == f.length && Machine.checkWord (f.header.toList ++ f.payload) == f.check

/-- The conditions of R4 on a BLOCK. -/
def Frame.goodBlock (f : Frame) : Bool :=
  f.kind == 1 && decide (f.unitNibble ≤ 7) && decide (f.screenNibble ≤ 7) &&
    decide (1 ≤ f.channelCount) && decide (f.channelCount ≤ 16) && f.length == 2 + 96 * f.channelCount

/-- The conditions of R4 on a COMMAND. -/
def Frame.goodCommand (f : Frame) : Bool :=
  f.kind == 2 && (decide (f.unitNibble ≤ 7) || f.unitNibble == 15)

/-- The conditions of R4 on a REPLY or a NOTICE. -/
def Frame.goodReport (f : Frame) : Bool :=
  (f.kind == 3 || (f.kind == 4 && f.length == 9)) && decide (f.unitNibble ≤ 7)

/-- An intact frame passes the classification of R4 on this lane. -/
def Frame.classified (f : Frame) (lane : Lane) : Bool :=
  decide (f.length ≤ 1600) &&
    match lane with
    | .aIn => f.goodBlock || f.goodCommand
    | .bIn => f.goodReport

end Sys2Proof

namespace Sys2Proof.Machine

/-! ### BLOCK payloads (section 11.2) -/

/-- The samples of a payload in the order in which they travel. -/
def readSamples : List Byte → List Int
  | a :: b :: c :: rest => (BitVec.ofNat 24 (nat2 a b * 256 + c.toNat)).toInt :: readSamples rest
  | _ => []

/-- A list cut into `k` pieces of `n`. -/
def chunks {α : Type} (n : Nat) : Nat → List α → List (List α)
  | 0, _ => []
  | k + 1, xs => xs.take n :: chunks n k (xs.drop n)

/-- The block's sample periods, each with its samples by channel. -/
def blockPeriodsOf (f : Frame) : List (List Int) :=
  chunks f.channelCount Config.blockPeriods (readSamples (f.payload.drop 2))

/-- A BLOCK frame (sections 11.1, 11.2): header byte 1, position, flags byte, channel count, and the samples
period by period. -/
def blockFrame (address : Byte) (position : Word) (flags : Byte) (count : Nat) (samples : List Int) : Frame :=
  let payload := flags :: BitVec.ofNat 8 count :: samples.flatMap bytes3
  let p := position.toNat
  let l := 2 + 96 * count
  sealFrame #v[1#8, address, BitVec.ofNat 8 (l / 256), BitVec.ofNat 8 l, BitVec.ofNat 8 (p / 16777216),
    BitVec.ofNat 8 (p / 65536), BitVec.ofNat 8 (p / 256), BitVec.ofNat 8 p] payload

/-- A block of `count` silent channels. -/
def silentFrame (address : Byte) (position : Word) (flags : Byte) (count : Nat) : Frame :=
  blockFrame address position flags count (List.replicate (Config.blockPeriods * count) 0)

/-- Header byte 1 of a frame of this unit for a screen. -/
def addressByte (unit : Fin 8) (screen : Nat) : Byte := BitVec.ofNat 8 (unit.val * 16 + screen)

/-! ### REPLY frames -/

/-- The result codes (R162). -/
def Result.code : Result → Byte
  | .ok => 0#8
  | .accepted => 1#8
  | .badCommand => 2#8
  | .badLength => 3#8
  | .badValue => 4#8
  | .badIndex => 5#8
  | .badState => 6#8
  | .inUse => 7#8
  | .busy => 8#8
  | .stopActive => 9#8
  | .full => 10#8

/-- The REPLY frame of a reply (section 11.1, R9). -/
def replyFrame (unit : Fin 8) (r : Reply) : Frame :=
  let l := r.payload.length
  sealFrame #v[3#8, addressByte unit 0, BitVec.ofNat 8 (l / 256), BitVec.ofNat 8 l, r.tag, r.code,
    r.result.code, r.mask] r.payload

/-! ### NOTICE frames (sections 10.2, 11.3) -/

/-- The number of a notice's kind (R176). -/
def NoticeBody.kind : NoticeBody → Nat
  | .unitReady .. => 0
  | .showStart .. => 1
  | .showEnd .. => 2
  | .sourceLost .. => 3
  | .sourceRestored .. => 4
  | .blockGap .. => 5
  | .formatMismatch .. => 6
  | .formatTaken .. => 7
  | .eqSwapped .. => 8
  | .alignProgress .. => 9
  | .alignDone .. => 10
  | .alignAborted .. => 11
  | .monitorRaised .. => 12
  | .monitorLatched .. => 13
  | .monitorCleared .. => 14
  | .cueFired .. => 15
  | .cueSkipped .. => 16
  | .cueHeld .. => 17
  | .goReleased .. => 18
  | .goCancelled .. => 19
  | .cueNotice .. => 20
  | .lineEdge .. => 21
  | .noticesLost .. => 22
  | .houseState .. => 23

/-- The index by which a source stands in a notice (R121). -/
def Source.index : Source → Nat
  | .entry _ e => e.val
  | .link k => k.val

/-- The code of a source kind, ENTRY 0 or LINK 1 (section 11.3). -/
def Source.code : Source → Nat
  | .entry .. => 0
  | .link .. => 1

/-- The code of an action (section 11.4). -/
def Action.code : Action → Nat
  | .lineSet .. => 1
  | .linePulse .. => 2
  | .fader .. => 3
  | .mute .. => 4
  | .formatArm .. => 5
  | .formatTake .. => 6
  | .eqSwap => 7
  | .timerStart .. => 8
  | .timerStop .. => 9
  | .linkOn .. => 10
  | .linkOff .. => 11
  | .goOut => 12
  | .houseStop => 13
  | .notice .. => 14

/-- The subject of a notice (R176). -/
def NoticeBody.subject : NoticeBody → Option Nat
  | .formatMismatch f _ => some f.val
  | .formatTaken f _ _ => some f.val
  | .alignProgress c _ _ _ _ => some c.val
  | .monitorRaised m _ => some m.val
  | .monitorLatched m _ => some m.val
  | .monitorCleared m _ _ => some m.val
  | .cueFired s _ _ _ => some s.index
  | .cueSkipped s _ _ _ => some s.index
  | .cueHeld s _ _ => some s.index
  | .cueNotice s _ => some s.index
  | .lineEdge l _ => some l.val
  | _ => none

/-- The codes of the readiness reasons (section 11.3). -/
def ReadyReason.code : ReadyReason → Nat
  | .powerOn => 0
  | .keepTables => 1
  | .clear => 2

/-- The codes of FORMAT_MISMATCH (section 11.3). -/
def Mismatch.code : Mismatch → Nat
  | .kind => 1
  | .count => 2
  | .kindAndCount => 3

/-- The codes of a channel's result (section 11.3). -/
def AlignResult.code : AlignResult → Nat
  | .pending => 0
  | .converged => 1
  | .notConverged => 2
  | .noSignal => 3
  | .clipped => 4
  | .aborted => 5
  | .skipped => 6

/-- The codes of the abort reasons (section 11.3). -/
def AbortReason.code : AbortReason → Nat
  | .showStarted => 1
  | .houseStop => 2
  | .command => 3
  | .noSource => 4
  | .reset => 5

/-- The codes of the skip reasons (section 11.3). -/
def SkipReason.code : SkipReason → Nat
  | .off => 1
  | .align => 2
  | .invalid => 3
  | .nothingPending => 4
  | .swapBusy => 5
  | .jump => 6
  | .houseStop => 7
  | .heldFull => 8

/-- The code of a bank, A 0 or B 1 (section 11.3). -/
def BankName.code : BankName → Nat
  | .a => 0
  | .b => 1

/-- The bits of a source set, LINE in bit 0 to CUE in bit 4 (section 11.3). -/
def SourceSet.bits (s : SourceSet) : Nat := flagBits [s.line, s.boothInput, s.command, s.monitor, s.cue]

/-- A detail of four bytes. -/
def detail4 (b0 b1 b2 b3 : Nat) : Word := BitVec.ofNat 32 (b0 * 16777216 + b1 * 65536 + b2 * 256 + b3)

/-- A detail of two bytes and a two-byte value. -/
def detail2 (b0 b1 w : Nat) : Word := BitVec.ofNat 32 (b0 * 16777216 + b1 * 65536 + w)

/-- The detail of a notice (R176, section 11.3); none is absent. -/
def NoticeBody.detail : NoticeBody → Option Word
  | .unitReady r stop => some (detail4 r.code stop.toNat 0 0)
  | .showStart p => p
  | .showEnd l => some (BitVec.ofInt 32 l)
  | .sourceLost p => p
  | .sourceRestored p => p
  | .blockGap d => some d
  | .formatMismatch _ what => some (BitVec.ofNat 32 what.code)
  | .formatTaken _ released cut => some (detail4 released.val cut.toNat 0 0)
  | .eqSwapped live early => some (detail4 live.code early.toNat 0 0)
  | .alignProgress _ r used limited dev => some (detail2 r.code (used + 128 * limited.toNat) dev)
  | .alignDone n c => some (detail4 n c 0 0)
  | .alignAborted r p => some (detail4 r.code p 0 0)
  | .monitorRaised _ l => some (BitVec.ofInt 32 l)
  | .monitorLatched _ l => some (BitVec.ofInt 32 l)
  | .monitorCleared _ ack l => some (detail2 ack.toNat 0 (BitVec.ofInt 16 l).toNat)
  | .cueFired s a rel _ => some (detail4 s.code a.code rel.toNat 0)
  | .cueSkipped s a rel why => some (detail4 s.code a.code rel.toNat why.code)
  | .cueHeld s a n => some (detail4 s.code a.code 0 n)
  | .goReleased n => some (BitVec.ofNat 32 n)
  | .goCancelled n byStop => some (detail4 n byStop.toNat 0 0)
  | .cueNotice _ c => some (BitVec.ofNat 32 c.toNat)
  | .lineEdge _ active => some (BitVec.ofNat 32 active.toNat)
  | .noticesLost n => some (BitVec.ofNat 32 n)
  | .houseState set n => some (detail4 set.bits n 0 0)

/-- The REHEARSAL flag: set on a CUE_FIRED of a rehearsed action alone (R175). -/
def NoticeBody.rehearsal : NoticeBody → Bool
  | .cueFired _ _ _ r => r
  | _ => false

/-- The NOTICE frame of a notice (sections 11.1, 11.3, R182). -/
def noticeFrame (unit : Fin 8) (n : Notice) : Frame :=
  let screen : Byte := match n.screen with
    | none => 15#8
    | some s => BitVec.ofNat 8 s.val
  let subject := n.body.subject.getD 65535
  let flags := n.body.rehearsal.toNat + 2 * n.body.detail.isNone.toNat
  sealFrame #v[4#8, addressByte unit 0, 0#8, 9#8, BitVec.ofNat 8 n.body.kind, screen,
    BitVec.ofNat 8 (subject / 256), BitVec.ofNat 8 subject]
    (bytes4 n.stamp ++ bytes4 (n.body.detail.getD 0#32) ++ [BitVec.ofNat 8 flags])

end Sys2Proof.Machine
end

