-- ==== Sys2Proof/Machine/Defaults.lean ====
section
/-!
DEFINITION. The values that the records take at a reset or when a screen goes OFF (R19, R20, R48, R67, R76, R78, R97,
R142, R150, R159, R177).
-/

namespace Sys2Proof.Machine

/-- A meter reading −240 with empty windows (R20). -/
def restMeter : Meter := ⟨silence, silence, silence, [], 0, 0, []⟩

/-- A steering meter with an empty window (R60). -/
def restSteerMeter : SteerMeter := ⟨silence, []⟩

/-- The memories of a bank whose nine stages are at rest (log entry 13). -/
def restStages : List (List Int) := List.replicate 9 []

/-- The channel record of an OFF screen (R20). -/
def restChannel : Channel := ⟨0, 0, [], ⟨restStages, restStages⟩, ⟨false, false, false⟩, restMeter⟩

/-- The screen record of an OFF screen (R19), with the two fields that R19 excepts. -/
def offScreen (rehearsal : Bool) (live : BankName) : Screen where
  state := .off
  channelCount := none
  micChannel := none
  stopPolicy := .mute
  stopFadeMs := 2000
  resumePolicy := .auto
  catchupWindow := 750
  fader := ⟨0, 0, 0, none⟩
  ceiling := 100
  mutes := ⟨true, false, false, false, false⟩
  stopFade := none
  activeFormat := none
  pendingFormat := none
  outgoingFormat := none
  formatFade := none
  steering := ⟨none, none, 0⟩
  eqLive := live
  eqSwap := none
  lastPosition := none
  sourceLost := false
  lastArrival := 0#32
  arrivalPosition := noPosition
  silentBase := 0#32
  silentPhase := 1
  rehearsal := rehearsal
  mismatchReported := false
  showPeakLong := silence
  channels := Vector.replicate 16 restChannel
  inputs := Vector.replicate 16 restMeter
  sum := restMeter
  steerSum := restSteerMeter
  steerDiff := restSteerMeter

/-- An invalid format entry (R48): eight spaces, DISCRETE, one input, no terms, no matrix part. -/
def invalidFormat : FormatEntry := ⟨false, Vector.replicate 8 32#8, .discrete, 1, [], none, 0⟩

/-- A section of type NONE (R65). -/
def noSection : EqSection := ⟨.none, 0, 0, 0⟩

/-- A FLAT bank (R67). -/
def flatBank : EqBank := ⟨Vector.replicate 31 0, Vector.replicate 8 noSection, .flat, 0⟩

/-- An invalid target curve (R76). -/
def invalidCurve : Curve := ⟨false, 0, 30, Vector.replicate 31 0, 1⟩

/-- An empty dwell accumulator (R85). -/
def emptyAcc : DwellAcc := ⟨Vector.replicate 31 0, 0, 0, false, []⟩

/-- The empty run record (R78). -/
def emptyRun : RunRecord where
  present := false
  screen := 0
  curve := 0
  mode := .measureOnly
  passesMax := 1
  settleMs := 100
  dwellMs := 500
  testLevel := -120
  fromFlat := false
  channels := []
  position := 0
  pass := 0
  engine := .idle
  phaseStart := 0#32
  outcome := .aborted .reset
  acc := emptyAcc
  results := []

/-- The empty content of a monitor entry (R97). -/
def emptyContent : MonitorContent where
  screen := 0
  point := .sum
  measure := .peak
  condition := .above
  a := 0
  b := 0
  partner := none
  holdMs := 0
  releaseMs := 0
  latch := false
  watch := ⟨false, false, false⟩
  action := .none
  notify := false

/-- A monitor entry after power-on reset (R97). -/
def emptyMonitor : Monitor := ⟨false, false, emptyContent, .off, none, none, false, 0⟩

/-- An empty cue list (R142). -/
def emptyCueList : CueList := ⟨[], 0⟩

/-- A cue link after power-on reset (R142). -/
def emptyLink : CueLink := ⟨false, false, .command, none, .notice 0#8, 0, .once, false⟩

/-- A timer after power-on reset (R142). -/
def emptyTimer : Timer := ⟨false, 1, .once, 0#32⟩

/-- The empty source set. -/
def noSources : SourceSet := ⟨false, false, false, false, false⟩

/-- The House Stop Controller with its power-on settings (R150), on wires at these levels (R144, R151, R152). -/
def powerOnHouse (hstop go : Bool) : House where
  set := { noSources with line := hstop }
  lineInput := true
  lineOutput := false
  goInput := true
  goLevel := false
  drive := false
  hstopOthers := hstop
  hstopSensed := hstop
  hstopSince := 0#32
  goPulse := none
  goOthers := go
  goSensed := go
  goSince := 0#32

/-- A booth line after power-on reset with this level on its pin (R159): INPUT, ACTIVE_HIGH, so high reads ACTIVE. -/
def powerOnLine (level : Bool) : BoothLine where
  mode := .input
  polarity := .activeHigh
  filter := .ms2
  owner := none
  statusScreen := 0
  statusSet := ⟨true, false, false, false, false⟩
  alarmMonitor := 0
  latch := false
  filtered := some level
  train := none
  external := level
  since := 0#32

/-- The kinds that cannot be masked: UNIT_READY, NOTICES_LOST and HOUSE_STATE (R170, R177). -/
def unmaskable : Word := 0xC00001#32

/-- The notice mask after power-on reset (R177): all twenty-four kinds but CUE_FIRED (15) and LINE_EDGE (21). -/
def powerOnMask : Word := 0xDF7FFF#32

/-- The link statistics, all zero (R16). -/
def zeroStats : LinkStats := ⟨0, 0, 0, 0, 0, Vector.replicate 8 0⟩

end Sys2Proof.Machine
end

