-- ==== Sys2Proof/Machine/State.lean ====
section
/-!
DEFINITION. The state of one MD816, whole and as plain data, and the state right after power-on reset. INVENTORY.md
lists every field with its rule and its reset value.
-/

namespace Sys2Proof.Machine

/-- The state of one unit. -/
structure State where
  /-- RESETN is asserted (R17). -/
  inReset : Bool
  /-- The unit address (R5). -/
  unit : Fin 8
  /-- The command intake queue, oldest first (R8). -/
  intake : List Command
  /-- The reply list, oldest first (R9). -/
  replies : List Reply
  /-- The forward buffer, oldest first (R10). -/
  forward : List Frame
  /-- The arbiter's record (R12). -/
  lastChosen : Requester
  /-- The frame being sent on A-out (R11). -/
  aOut : Option Frame
  /-- The outgoing order of B-out, oldest first (R13). -/
  bOutOrder : List Frame
  /-- The frame being sent on B-out (R13). -/
  bOut : Option Frame
  /-- The link statistics (R16). -/
  stats : LinkStats
  /-- The command the Management Unit is executing (section 9.1); an execution is one event (R160), so none stands
  between steps. -/
  executing : Option Command
  /-- The time base (R1). -/
  timeBase : Word
  /-- The screen paths (chapter 2). -/
  screens : Vector Screen 8
  /-- The Format Table (chapter 3). -/
  formats : Vector FormatEntry 32
  /-- The EQ banks (chapter 4). -/
  eq : Vector (Vector ChannelBanks 16) 8
  /-- The target curves (section 4.6). -/
  curves : Vector Curve 4
  /-- The run record (chapter 5). -/
  run : RunRecord
  /-- The monitor table (chapter 6). -/
  monitors : Vector Monitor 48
  /-- The cue lists (section 7.3). -/
  cueLists : Vector CueList 8
  /-- The cue links (section 7.4). -/
  links : Vector CueLink 32
  /-- The timers (section 7.5). -/
  timers : Vector Timer 8
  /-- The held list, oldest first (section 7.6). -/
  held : List HeldAction
  /-- The House Stop Controller (chapter 8). -/
  house : House
  /-- The booth lines (section 8.7). -/
  lines : Vector BoothLine 16
  /-- The Notice Queue, oldest first (R178). -/
  notices : List Notice
  /-- The count of lost notices (R178). -/
  lostCount : Nat
  /-- The house-state slot (R179). -/
  slot : Option HouseSlot
  /-- The notice mask, kind k in bit k (R177). -/
  mask : Word
  /-- The MODEL's own: how many blocks of test noise the generator has given, the argument of its free sequence (log
  entry 27). -/
  fresh : Nat
  /-- The rows that wait, first in first out. -/
  pending : List Instr
  deriving DecidableEq, Repr

/-- Why the machine can stop. It never does: the manual gives every row an effect in every state, so no meaning of
this model raises a fault (safe: there is none to lean on). -/
inductive Fault where
  deriving DecidableEq, Repr

/-- Why a row has no meaning. -/
inductive Refusal where
  /-- Raised by an arm of exec for a row that has no meaning yet; safe. No arm raises it. -/
  | notModelled (mnemonic : String)
  deriving DecidableEq, Repr

/-- The state of a unit with these straps and pin levels when every block has taken its power-on values and before
UNIT_READY is filed (R17, R173, and the reset statement of each block). `lines` gives the level at each booth line's
pin, HSTOP and GO whether the wire is asserted. -/
def State.powerOn (straps : Fin 8) (hstop go : Bool) (lines : Vector BoothLine 16) : State where
  inReset := false
  unit := straps
  intake := []
  replies := []
  forward := []
  lastChosen := .forwardBuffer
  aOut := none
  bOutOrder := []
  bOut := none
  stats := zeroStats
  executing := none
  timeBase := 0#32
  screens := Vector.replicate 8 (offScreen false .a)
  formats := Vector.replicate 32 invalidFormat
  eq := Vector.replicate 8 (Vector.replicate 16 ⟨flatBank, flatBank⟩)
  curves := Vector.replicate 4 invalidCurve
  run := emptyRun
  monitors := Vector.replicate 48 emptyMonitor
  cueLists := Vector.replicate 8 emptyCueList
  links := Vector.replicate 32 emptyLink
  timers := Vector.replicate 8 emptyTimer
  held := []
  house := powerOnHouse hstop go
  lines := lines
  notices := []
  lostCount := 0
  slot := none
  mask := powerOnMask
  fresh := 0
  pending := []

/-- The UNIT_READY notice of a power-on reset on released wires (R173, R176). -/
def readyAtReset : Notice := ⟨.unitReady .powerOn false, none, 0#32⟩

/-- The machine right after power-on reset: straps 0, HSTOP and GO released, every booth line's pin low (DESIGN
CHOICE, log entry 5). UNIT_READY has been filed, and the idle lane A-out took it at once (R11, R12; log entry 7). -/
def State.reset : State :=
  { State.powerOn 0 false false (Vector.replicate 16 (powerOnLine false)) with
    aOut := some (noticeFrame 0 readyAtReset)
    lastChosen := .noticeSide }

end Sys2Proof.Machine
end

