-- ==== Sys2Proof/Machine/Ops.lean ====
section
/-!
DEFINITION. The named operations over the state that the rows share: updating one entry of a table, filing notices
and the A-out arbiter (R11, R12, R175 to R179), lane B-out (R13), the mute causes and ceilings that follow the monitors
(R41, R44), the fader (R40, R41), a screen's change of state (R108, R109), format references (R51), and house stop
entry, release and drive (R143 to R148).
-/

namespace Sys2Proof.Machine

/-! ### One entry of a table -/

/-- Screen `i` changed. -/
def State.onScreen (s : State) (i : Fin 8) (f : Screen → Screen) : State :=
  { s with screens := modifyAt s.screens i f }
/-- Channel `c` of screen `i` changed. -/
def State.onChannel (s : State) (i : Fin 8) (c : Fin 16) (f : Channel → Channel) : State :=
  s.onScreen i fun x => { x with channels := modifyAt x.channels c f }
/-- Format entry `k` changed. -/
def State.onFormat (s : State) (k : Fin 32) (f : FormatEntry → FormatEntry) : State :=
  { s with formats := modifyAt s.formats k f }
/-- The banks of channel `c` of screen `i` changed. -/
def State.onBanks (s : State) (i : Fin 8) (c : Fin 16) (f : ChannelBanks → ChannelBanks) : State :=
  { s with eq := modifyAt s.eq i fun x => modifyAt x c f }
/-- Monitor `m` changed. -/
def State.onMonitor (s : State) (m : Fin 48) (f : Monitor → Monitor) : State :=
  { s with monitors := modifyAt s.monitors m f }
/-- The cue list of screen `i` changed. -/
def State.onCueList (s : State) (i : Fin 8) (f : CueList → CueList) : State :=
  { s with cueLists := modifyAt s.cueLists i f }
/-- Link `k` changed. -/
def State.onLink (s : State) (k : Fin 32) (f : CueLink → CueLink) : State :=
  { s with links := modifyAt s.links k f }
/-- Timer `t` changed. -/
def State.onTimer (s : State) (t : Fin 8) (f : Timer → Timer) : State :=
  { s with timers := modifyAt s.timers t f }
/-- Booth line `l` changed. -/
def State.onLine (s : State) (l : Fin 16) (f : BoothLine → BoothLine) : State :=
  { s with lines := modifyAt s.lines l f }
/-- The run record changed. -/
def State.onRun (s : State) (f : RunRecord → RunRecord) : State := { s with run := f s.run }
/-- The House Stop Controller changed, with nothing that follows from it. -/
def State.onHouse (s : State) (f : House → House) : State := { s with house := f s.house }

/-! ### The A-out arbiter (R11, R12) -/

/-- The notice side has a frame to offer. -/
def State.noticeReady (s : State) : Bool := s.slot.isSome || !s.notices.isEmpty

/-- The notice side is chosen: the house-state slot first, with the source set as it stands now (R179), else the head
of the queue, whose place a NOTICES_LOST notice takes when notices have been lost (R178). -/
def sendNotice (s : State) : State :=
  match s.slot with
  | some h =>
    { s with
      slot := none
      lastChosen := .noticeSide
      aOut := some (noticeFrame s.unit ⟨.houseState s.house.set h.count, none, h.stamp⟩) }
  | none =>
    match s.notices with
    | [] => s
    | n :: rest =>
      { s with
        notices := if s.lostCount = 0 then rest else rest ++ [⟨.noticesLost s.lostCount, none, s.timeBase⟩]
        lostCount := 0
        lastChosen := .noticeSide
        aOut := some (noticeFrame s.unit n) }

/-- The forward buffer is chosen. -/
def sendForward (s : State) : State :=
  match s.forward with
  | [] => s
  | f :: rest => { s with forward := rest, lastChosen := .forwardBuffer, aOut := some f }

/-- A choice of the arbiter for the idle lane (R12). -/
def chooseFrame (s : State) : State :=
  match s.replies with
  | r :: rest => { s with replies := rest, aOut := some (replyFrame s.unit r) }
  | [] =>
    if s.noticeReady && (s.forward.isEmpty || s.lastChosen == .forwardBuffer) then sendNotice s
    else sendForward s

/-- A choice if the lane is idle (R11). -/
def offerAOut (s : State) : State :=
  if s.aOut.isNone && !s.inReset then chooseFrame s else s

/-! ### Filing notices (R175, R178, R179) -/

/-- The kind of a notice is enabled in the mask. -/
def State.enabledKind (s : State) (kind : Nat) : Bool := s.mask.getLsbD kind

/-- A created notice is offered to the Notice Queue (R178). -/
def offerNotice (n : Notice) (s : State) : State :=
  if s.notices.length < Config.noticeCapacity then { s with notices := s.notices ++ [n] }
  else { s with lostCount := riseTo Config.counterTop s.lostCount }

/-- A block files a notice (R175); the idle lane takes it at once (R11). -/
def file (screen : Option (Fin 8)) (body : NoticeBody) (s : State) : State :=
  if s.enabledKind body.kind then offerAOut (offerNotice ⟨body, screen, s.timeBase⟩ s) else s

/-- The house-state slot is filled (R179); an idle lane takes it in the same event (R11). -/
def fillSlot (s : State) : State :=
  offerAOut { s with slot := some ⟨match s.slot with
    | none => 1
    | some h => riseTo 255 h.count, s.timeBase⟩ }

/-- A reply is appended (R9). -/
def appendReply (r : Reply) (s : State) : State := offerAOut { s with replies := s.replies ++ [r] }

/-! ### Lane B-out (R13) -/

/-- The idle lane takes the oldest frame of the outgoing order (log entry 8). -/
def offerBOut (s : State) : State :=
  match s.bOut, s.bOutOrder with
  | none, f :: rest => if s.inReset then s else { s with bOut := some f, bOutOrder := rest }
  | _, _ => s

/-- A frame joins the outgoing order at the tail (R13). -/
def joinBOut (f : Frame) (s : State) : State := offerBOut { s with bOutOrder := s.bOutOrder ++ [f] }

/-! ### The fader (R40, R41) -/

/-- The position of a ramp `t` ms after its start: the whole part of |b − a|·t/T steps from a towards b. -/
def Ramp.positionAt (r : Ramp) (t : Nat) : Nat :=
  let t := min t r.duration
  if r.origin ≤ r.dest then r.origin + (r.dest - r.origin) * t / r.duration
  else r.origin - (r.origin - r.dest) * t / r.duration

/-- The fader's position at a time-base reading. -/
def Fader.position (f : Fader) (now : Word) : Nat :=
  match f.ramp with
  | none => f.rest
  | some r => r.positionAt (elapsed now r.start)

/-- The ramp in flight is replaced by one from the current position to the effective target over `ms`; none is in
flight when `ms` is 0 or the position stands there already (R40). -/
def Fader.rampTo (f : Fader) (now : Word) (effective ms : Nat) : Fader :=
  let p := f.position now
  if ms = 0 ∨ p = effective then { f with effective := effective, rest := effective, ramp := none }
  else { f with effective := effective, rest := p, ramp := some ⟨p, effective, now, ms⟩ }

/-- A request for a target over a time (R40). -/
def Fader.request (f : Fader) (now : Word) (ceiling target ms : Nat) : Fader :=
  ({ f with requested := target }).rampTo now (min target ceiling) ms

/-- The ceiling becomes `ceiling` (R41): a changed effective target is approached at one step in 20 ms. -/
def Fader.underCeiling (f : Fader) (now : Word) (ceiling : Nat) : Fader :=
  let effective := min f.requested ceiling
  if effective = f.effective then f
  else
    let p := f.position now
    f.rampTo now effective (Config.ceilingStepMs * (p - effective + (effective - p)))

/-! ### What follows from the monitors (R41, R44) -/

/-- The monitor holds its action: RAISED, RELEASING or LATCHED (R111). -/
def MonitorState.acting : MonitorState → Bool
  | .raised => true
  | .releasing => true
  | .latched => true
  | _ => false

/-- An enabled monitor of this screen that holds its action. -/
def Monitor.actsOn (m : Monitor) (i : Fin 8) : Bool := m.enabled && m.content.screen == i && m.state.acting

/-- Some monitor mutes the screen (R44). -/
def State.mutesScreen (s : State) (i : Fin 8) : Bool :=
  s.monitors.toList.any fun m => m.actsOn i && m.content.action == .muteScreen

/-- Some monitor mutes the channel (R44). -/
def State.mutesChannel (s : State) (i : Fin 8) (c : Fin 16) : Bool :=
  s.monitors.toList.any fun m =>
    m.actsOn i && m.content.action == .muteChannel && m.content.point == .output c

/-- The ceiling that a monitor sets on the screen. -/
def Monitor.ceilingOn (m : Monitor) (i : Fin 8) : Nat :=
  match m.content.action with
  | .faderCeiling c => if m.actsOn i then c else 100
  | _ => 100

/-- The screen's ceiling (R41). -/
def State.ceilingOf (s : State) (i : Fin 8) : Nat :=
  s.monitors.toList.foldl (fun c m => min c (m.ceilingOn i)) 100

/-- The screen path derives its MONITOR causes and its ceiling again (R41, R44, R104). -/
def deriveMonitors (i : Fin 8) (s : State) : State :=
  let ceiling := s.ceilingOf i
  s.onScreen i fun x =>
    { x with
      ceiling := ceiling
      fader := x.fader.underCeiling s.timeBase ceiling
      mutes := { x.mutes with monitor := s.mutesScreen i }
      channels := mapAt (fun c ch => { ch with mutes := { ch.mutes with monitor := s.mutesChannel i c } })
        x.channels }

/-! ### A change of a screen's state (section 2.3, R108, R109) -/

/-- The screen state is in the watch set; OFF and ALIGN never are (R108). -/
def WatchSet.holds (w : WatchSet) : ScreenState → Bool
  | .dark => w.dark
  | .inShow => w.inShow
  | .stopped => w.stopped
  | _ => false

/-- A monitor is judged against its watch set when its screen's state is `st` (R108, R109). -/
def Monitor.judge (m : Monitor) (st : ScreenState) : Monitor :=
  if m.enabled then
    if m.content.watch.holds st then
      if m.state = .suspended then { m with state := .clear, mark := none, prev := none } else m
    else { m with state := .suspended, mark := none, prev := none }
  else m

/-- The monitors of screen `i` are judged against the state `st`. -/
def judgeMonitors (i : Fin 8) (st : ScreenState) (s : State) : State :=
  { s with monitors := mapAt (fun _ m => if m.content.screen = i then m.judge st else m) s.monitors }

/-- Screen `i` enters a state, and its monitors are judged (R108). -/
def enterState (i : Fin 8) (st : ScreenState) (s : State) : State :=
  deriveMonitors i (judgeMonitors i st (s.onScreen i fun x => { x with state := st }))

/-! ### Meter windows (R34) -/

/-- A meter with its SHORT and LONG windows emptied (log entry 17). -/
def Meter.restart (m : Meter) : Meter := { restMeter with peak := m.peak }

/-- The windows of every meter of a screen emptied (R34, R60). -/
def Screen.restartMeters (x : Screen) : Screen :=
  { x with
    channels := mapAt (fun _ c => { c with meter := c.meter.restart }) x.channels
    inputs := mapAt (fun _ m => m.restart) x.inputs
    sum := x.sum.restart
    steerSum := restSteerMeter
    steerDiff := restSteerMeter }

/-- The windows of screen `i` are emptied, and with them the previous readings of its monitors (R34, R100). -/
def emptyWindows (i : Fin 8) (s : State) : State :=
  { s.onScreen i Screen.restartMeters with
    monitors := mapAt (fun _ m => if m.content.screen = i then { m with prev := none } else m) s.monitors }

/-! ### Format references (R51) -/

/-- A reference to a format is added. -/
def addUse (k : Option (Fin 32)) (s : State) : State :=
  match k with
  | none => s
  | some k => s.onFormat k fun f => { f with useCount := f.useCount + 1 }

/-- A reference to a format is released. -/
def dropUse (k : Option (Fin 32)) (s : State) : State :=
  match k with
  | none => s
  | some k => s.onFormat k fun f => { f with useCount := f.useCount - 1 }

/-! ### Going OFF (R19, R20, R28) -/

/-- Screen `i` goes OFF: its references are released, its record takes the OFF values but for `rehearsal` and
`eq_live`, its cursor returns to 0 and its monitors are judged. -/
def goOff (i : Fin 8) (s : State) : State :=
  let x := s.screens[i]
  let s := dropUse x.activeFormat (dropUse x.pendingFormat (dropUse x.outgoingFormat s))
  let s := s.onScreen i fun x => offScreen x.rehearsal x.eqLive
  judgeMonitors i .off (s.onCueList i fun l => { l with cursor := 0 })

/-! ### Overtaking a run (R83, R93) -/

/-- The ALIGN cause is removed from every channel of a screen. -/
def Screen.clearAlign (x : Screen) : Screen :=
  { x with channels := mapAt (fun _ c => { c with mutes := { c.mutes with align := false } }) x.channels }

/-- The results of a run overtaken at a list position (R93). -/
def abortResults (position : Nat) (results : List ChannelResult) : List ChannelResult :=
  results.mapIdx fun k r =>
    if k = position then { r with result := .aborted }
    else if position < k then { r with result := .skipped }
    else r

/-- The run is overtaken: everything of R93 but its notice. -/
def endRun (reason : AbortReason) (s : State) : State :=
  (s.onRun fun r =>
    { r with
      outcome := .aborted reason
      results := abortResults r.position r.results
      pass := 0
      engine := .idle
      acc := emptyAcc }).onScreen s.run.screen Screen.clearAlign

/-- The run is overtaken and ALIGN_ABORTED is filed (R93). -/
def overtakeRun (reason : AbortReason) (s : State) : State :=
  file (some s.run.screen) (.alignAborted reason s.run.position) (endRun reason s)

/-! ### Stopping and resuming a screen (R26, R27) -/

/-- Screen `i` is stopped under its policy, MUTE or FADE (R26). -/
def stopScreen (i : Fin 8) (s : State) : State :=
  let now := s.timeBase
  enterState i .stopped (s.onScreen i fun x =>
    if x.stopPolicy = .fade ∧ x.stopFadeMs ≠ 0 then { x with stopFade := some now }
    else { x with mutes := { x.mutes with stop := true } })

/-- Screen `i` acts on a house stop entry (R26). -/
def houseStopsScreen (s : State) (i : Fin 8) : State :=
  let x := s.screens[i]
  match x.state with
  | .dark | .inShow => if x.stopPolicy = .exempt then s else stopScreen i s
  | .inAlign =>
    let s := overtakeRun .houseStop s
    if x.stopPolicy = .exempt then enterState i .dark s else stopScreen i s
  | _ => s

/-- Screen `i` returns from STOPPED to DARK (R27). -/
def resumeScreen (i : Fin 8) (s : State) : State :=
  enterState i .dark (s.onScreen i fun x =>
    { x with stopFade := none, mutes := { x.mutes with stop := false } })

/-- Screen `i` acts on a house release (R27, R148). -/
def houseReleasesScreen (s : State) (i : Fin 8) : State :=
  let x := s.screens[i]
  if x.state = .stopped ∧ x.resumePolicy = .auto then resumeScreen i s else s

/-! ### The held list emptied (R138) -/

/-- The held list is emptied without execution. -/
def cancelHeld (byHouseStop : Bool) (s : State) : State :=
  if s.held.isEmpty then s
  else file none (.goCancelled s.held.length byHouseStop) { s with held := [] }

/-! ### The house stop source set, entry and release (R143 to R148) -/

/-- The set is empty: no house stop is in force. -/
def SourceSet.isEmpty (x : SourceSet) : Bool := !(x.line || x.boothInput || x.command || x.monitor || x.cue)

/-- The house stop source set is non-empty. -/
def State.stopActive (s : State) : Bool := !s.house.set.isEmpty

/-- A booth line in STOP_INPUT mode is active (R143). -/
def State.boothInputActive (s : State) : Bool :=
  s.lines.toList.any fun l => l.mode == .stopInput && l.filtered == some true

/-- HSTOP is asserted at the pin. -/
def House.hstopPin (h : House) : Bool := h.hstopOthers || h.drive

/-- GO is asserted at the pin. -/
def House.goPin (h : House) : Bool := h.goOthers || h.goPulse.isSome

/-- The drive and LINE judged after a change (R143, R145): the drive follows its sources; at its end the line is read
without the filter; LINE follows its condition. -/
def House.settle (h : House) (now : Word) : House :=
  let drive := h.lineOutput && (h.set.command || h.set.monitor || h.set.cue || h.set.boothInput)
  let sensed := if h.drive && !drive then h.hstopOthers else h.hstopSensed
  { h with
    drive := drive
    hstopSensed := sensed
    hstopSince := if (h.hstopOthers || drive) = h.hstopPin then h.hstopSince else now
    set := { h.set with line := h.lineInput && sensed && !drive } }

/-- House stop entry (R146); `trig` makes a trigger occur. -/
def houseEntry (trig : Trigger → State → State) (s : State) : State :=
  trig .houseStop (fillSlot (cancelHeld true ((indexes 8).foldl houseStopsScreen s)))

/-- House release (R148). -/
def houseRelease (trig : Trigger → State → State) (s : State) : State :=
  trig .houseRelease (fillSlot ((indexes 8).foldl houseReleasesScreen s))

/-- One change of the controller, taken whole (R143): the drive and LINE follow it, and an entry or a release is
carried through; a widening or a narrowing reaches nothing else. -/
def houseChange (trig : Trigger → State → State) (f : House → House) (s : State) : State :=
  let before := s.house.set
  let s := s.onHouse fun h => (f h).settle s.timeBase
  let after := s.house.set
  if before.isEmpty && !after.isEmpty then houseEntry trig s
  else if !before.isEmpty && after.isEmpty then houseRelease trig s
  else s

/-- BOOTH_INPUT is judged again (R143, R156). -/
def judgeBoothInput (trig : Trigger → State → State) (s : State) : State :=
  let active := s.boothInputActive
  houseChange trig (fun h => { h with set := { h.set with boothInput := active } }) s

end Sys2Proof.Machine
end

