-- ==== Sys2Proof/Machine/Flags.lean ====
section
/-!
DEFINITION. Named sets as bits (section 11.4, R170), the silence of the mute stage (R42), and the levels of the booth
lines (R154, R155).
-/

namespace Sys2Proof.Machine

/-! ### Sets in a byte -/

/-- A status set from its byte (section 11.4): OFF bit 0, DARK 1, SHOW 2, ALIGN 3, STOPPED 4; none where the set is
empty or a bit names no state. -/
def readStatusSet (b : Byte) : Option StatusSet :=
  if 0 < b.toNat ∧ b.toNat < 32 then
    some ⟨b.getLsbD 0, b.getLsbD 1, b.getLsbD 2, b.getLsbD 3, b.getLsbD 4⟩
  else none

/-- A watch set from its byte (R102): the same bits, DARK, SHOW and STOPPED alone. -/
def readWatchSet (b : Byte) : Option WatchSet :=
  match readStatusSet b with
  | none => none
  | some x => if x.off || x.inAlign then none else some ⟨x.dark, x.inShow, x.stopped⟩

/-- The byte of a status set. -/
def StatusSet.bits (x : StatusSet) : Nat := flagBits [x.off, x.dark, x.inShow, x.inAlign, x.stopped]

/-- The byte of a watch set. -/
def WatchSet.bits (x : WatchSet) : Nat := flagBits [false, x.dark, x.inShow, false, x.stopped]

/-- The byte of a screen's mute causes, in the order of the record (section 2.1; log entry 19). -/
def ScreenMutes.bits (x : ScreenMutes) : Nat := flagBits [x.unconfigured, x.stop, x.cue, x.command, x.monitor]

/-- The byte of a channel's mute causes, in the order of the record (section 2.2; log entry 19). -/
def ChannelMutes.bits (x : ChannelMutes) : Nat := flagBits [x.align, x.command, x.monitor]

/-- A status set holds a screen state (R155). -/
def StatusSet.holds (x : StatusSet) : ScreenState → Bool
  | .off => x.off
  | .dark => x.dark
  | .inShow => x.inShow
  | .inAlign => x.inAlign
  | .stopped => x.stopped

/-- A written mask names only notice kinds (R170, R183). -/
def maskNamesKinds (mask : Word) : Bool := mask.toNat < 16777216

/-- A written mask as it reads: the kinds that cannot be masked read as enabled (R170). -/
def normalMask (mask : Word) : Word := mask ||| unmaskable

/-! ### Silence (R42) -/

/-- A screen's mute cause set is non-empty. -/
def ScreenMutes.any (x : ScreenMutes) : Bool := x.unconfigured || x.stop || x.cue || x.command || x.monitor

/-- A channel's mute cause set is non-empty. -/
def ChannelMutes.any (x : ChannelMutes) : Bool := x.align || x.command || x.monitor

/-! ### Booth line levels (R154, R155) -/

/-- A pin level read through the polarity: ACTIVE or not. -/
def Polarity.reads (p : Polarity) (high : Bool) : Bool :=
  match p with
  | .activeHigh => high
  | .activeLow => !high

/-- What a line is driven to, true for ACTIVE; none where it is not driven (R155, R159). -/
def State.lineDrive (s : State) (l : BoothLine) : Option Bool :=
  if s.inReset then none
  else match l.mode with
    | .input => none
    | .stopInput => none
    | .output => some l.latch
    | .screenStatus => some (l.statusSet.holds s.screens[l.statusScreen].state)
    | .alarm => some s.monitors[l.alarmMonitor].state.acting

/-- The level at a line's pin, true for HIGH (R155, R158). -/
def State.linePin (s : State) (l : BoothLine) : Bool :=
  match s.lineDrive l with
  | none => l.external
  | some active => l.polarity.reads active

/-- The time a change of an input line must last (section 8.7). -/
def LineFilter.ms : LineFilter → Nat
  | .none => 0
  | .ms2 => 2
  | .ms20 => 20

/-- The line is in a mode that reads its pin (R156). -/
def LineMode.isInput : LineMode → Bool
  | .input => true
  | .stopInput => true
  | _ => false

end Sys2Proof.Machine
end

