-- ==== Sys2Proof/Machine/Requests.lean ====
section
/-!
DEFINITION. The requests that a command and a cue action make in the same way (R120): fader, mutes, format arm and
take, EQ swap, timers, links, booth line latches and trains, and the GO pulse; with the ends of the crossfades.
-/

namespace Sys2Proof.Machine

/-- A fader request (R40). -/
def requestFader (i : Fin 8) (target ms : Nat) (s : State) : State :=
  s.onScreen i fun x => { x with fader := x.fader.request s.timeBase x.ceiling target ms }

/-- The CUE cause added or removed (R43, R120). -/
def setCueMute (i : Fin 8) (on : Bool) (s : State) : State :=
  s.onScreen i fun x => { x with mutes := { x.mutes with cue := on } }

/-! ### Formats (R51, R54 to R58) -/

/-- No term of the format names an output at or beyond the channel count (R21, R54). -/
def FormatEntry.fits (f : FormatEntry) (count : Nat) : Bool := f.terms.all fun t => decide (t.output.val < count)

/-- The number of output channels in use. -/
def Screen.count (x : Screen) : Nat := x.channelCount.getD 0

/-- The pending format becomes the one named, or none (R54). -/
def armFormat (i : Fin 8) (k : Option (Fin 32)) (s : State) : State :=
  let s := addUse k (dropUse s.screens[i].pendingFormat s)
  s.onScreen i fun x => { x with pendingFormat := k }

/-- The format crossfade ends: the outgoing format is released and FORMAT_TAKEN is filed (R57, R58). -/
def endFormatFade (i : Fin 8) (cutShort : Bool) (s : State) : State :=
  let x := s.screens[i]
  let s := dropUse x.outgoingFormat s
  let s := s.onScreen i fun x => { x with outgoingFormat := none, formatFade := none }
  match x.activeFormat, x.outgoingFormat with
  | some active, some released => file (some i) (.formatTaken active released cutShort) s
  | _, _ => s

/-- The pending format is taken over a crossfade of `ms` (R55, R58). -/
def takeFormat (i : Fin 8) (ms : Nat) (s : State) : State :=
  let s := if s.screens[i].formatFade.isSome then endFormatFade i true s else s
  let s := s.onScreen i fun x =>
    { x with
      outgoingFormat := x.activeFormat
      activeFormat := x.pendingFormat
      pendingFormat := none
      steering := ⟨none, none, 0⟩
      mismatchReported := false
      formatFade := some ⟨s.timeBase, ms⟩ }
  if ms = 0 then endFormatFade i false s else s

/-! ### EQ swap (R71, R73, R74) -/

/-- The other bank. -/
def BankName.other : BankName → BankName
  | .a => .b
  | .b => .a

/-- The banks of a screen exchange their roles and the swap crossfade begins (R71). -/
def swapBanks (i : Fin 8) (s : State) : State :=
  s.onScreen i fun x => { x with eqLive := x.eqLive.other, eqSwap := some ⟨s.timeBase, x.eqLive⟩ }

/-- The swap crossfade ends and EQ_SWAPPED is filed (R73, R74). -/
def endSwap (i : Fin 8) (early : Bool) (s : State) : State :=
  let s := s.onScreen i fun x => { x with eqSwap := none }
  file (some i) (.eqSwapped s.screens[i].eqLive early) s

/-! ### Timers and links (R129, R133) -/

/-- A timer is started or restarted (R133). -/
def startTimer (t : Fin 8) (interval : Nat) (mode : RunMode) (s : State) : State :=
  s.onTimer t fun _ => ⟨true, interval, mode, s.timeBase⟩

/-- A timer is stopped; its interval and mode are kept (R133). -/
def stopTimer (t : Fin 8) (s : State) : State := s.onTimer t fun x => { x with running := false }

/-- A link's enabled flag is set or cleared (R129). -/
def setLink (k : Fin 32) (on : Bool) (s : State) : State := s.onLink k fun l => { l with enabled := on }

/-! ### Booth line latches and trains (R157) -/

/-- A latch is written; a train in flight on the line is cancelled. -/
def writeLatch (l : Fin 16) (active : Bool) (s : State) : State :=
  s.onLine l fun x => { x with latch := active, train := none }

/-- A pulse train is started, replacing any in flight. -/
def startTrain (l : Fin 16) (count onMs offMs : Nat) (s : State) : State :=
  s.onLine l fun x => { x with latch := true, train := some ⟨count, true, s.timeBase, onMs, offMs⟩ }

/-! ### The GO pulse (R153) -/

/-- The controller changed where only GO is concerned; the GO filter times from a change of the pin's level. -/
def goChange (f : House → House) (s : State) : State :=
  s.onHouse fun h =>
    let h' := f h
    { h' with goSince := if h'.goPin = h.goPin then h'.goSince else s.timeBase }

/-- A GO pulse is requested: one in flight runs on unchanged (R153). -/
def requestGoPulse (s : State) : State :=
  if s.house.goPulse.isSome then s else goChange (fun h => { h with goPulse := some s.timeBase }) s

end Sys2Proof.Machine
end

