-- ==== Sys2Proof/Machine/Levels.lean ====
section
/-!
DEFINITION. Levels and gains as numbers: an energy as a level reading (R33), the amplitude factor of a gain (section
3.2, R30), and the meters' taking of a block (R33 to R35, R60).
-/

namespace Sys2Proof.Machine

/-! ### Readings (R33) -/

/-- The energy `num / den` reaches the level −240 + k once it is rounded, a value halfway going to the higher:
20·log10 of it is at least −240 + k − 1/2. -/
def reachesStep (num den k : Nat) : Bool := decide (den ^ 40 ≤ num ^ 40 * 10 ^ (481 - 2 * k))

/-- The largest step of 0 to 240 that a condition holds for, bit by bit. -/
def highestStep (holds : Nat → Bool) : Nat :=
  [128, 64, 32, 16, 8, 4, 2, 1].foldl (fun k b => if k + b ≤ 240 && holds (k + b) then k + b else k) 0

/-- The reading of an energy `num / den` relative to full scale: 20·log10 of it in level steps, rounded to the nearest,
held within −240..0 (R33, R35). The mean over no sample periods, which the manual gives no value, reads −240 (log entry
33). -/
def levelOf (num den : Nat) : Level :=
  if den = 0 then silence else silence + (highestStep (reachesStep num den) : Nat)

/-- The square of full scale. -/
def fullSquare : Nat := Config.fullScale * Config.fullScale

/-- The square of a sample. -/
def square (x : Int) : Nat := x.natAbs * x.natAbs

/-- The largest of a list. -/
def largest (xs : List Nat) : Nat := xs.foldl max 0

/-- A meter takes a block whose sample periods have these squares (R33): `scale` is the square that reads 0. -/
def Meter.take (m : Meter) (scale : Nat) (squares : List Nat) : Meter :=
  let energy := squares.sum
  let window := (energy :: m.window).take Config.shortBlocks
  let full := m.secondBlocks + 1 = Config.secondBlocks
  let seconds := if full then ((m.secondEnergy + energy) :: m.seconds).take Config.longSeconds else m.seconds
  { peak := levelOf (largest squares) scale
    short := levelOf window.sum (window.length * Config.blockPeriods * scale)
    long := if full then
        levelOf seconds.sum (seconds.length * (Config.secondBlocks * Config.blockPeriods) * scale)
      else m.long
    window := window
    secondEnergy := if full then 0 else m.secondEnergy + energy
    secondBlocks := if full then 0 else m.secondBlocks + 1
    seconds := seconds }

/-- A steering meter takes a block (R60). -/
def SteerMeter.take (m : SteerMeter) (scale : Nat) (squares : List Nat) : SteerMeter :=
  let window := (squares.sum :: m.window).take Config.shortBlocks
  ⟨levelOf window.sum (window.length * Config.blockPeriods * scale), window⟩

/-! ### Gains -/

/-- A quotient that need not be whole (log entry 11). -/
def quotient (num : Int) (den : Nat) : Int :=
  let q := num / (den : Int)
  if q * den = num then q else if Config.quotientRoundsUp num den then q + 1 else q

/-- `f` is at most the amplitude factor of `k` third-steps, 10^(k/120), in units of 2^-`fractionBits`. -/
def factorAtLeast (k : Int) (f : Nat) : Bool :=
  if 0 ≤ k then decide (f ^ 120 ≤ 10 ^ k.toNat * 2 ^ (120 * Config.fractionBits))
  else decide (f ^ 120 * 10 ^ (-k).toNat ≤ 2 ^ (120 * Config.fractionBits))

/-- `f` is that factor exactly. -/
def factorExact (k : Int) (f : Nat) : Bool :=
  if 0 ≤ k then f ^ 120 == 10 ^ k.toNat * 2 ^ (120 * Config.fractionBits)
  else f ^ 120 * 10 ^ (-k).toNat == 2 ^ (120 * Config.fractionBits)

/-- The bits of a factor, the highest first. -/
def factorBits : List Nat := ((List.range 42).map fun b => 2 ^ b).reverse

/-- The amplitude factor of `k` third-steps in units of 2^-`fractionBits`, rounded down or up (log entry 11). -/
def gainFactor (k : Int) : Int :=
  let f := factorBits.foldl (fun f b => if factorAtLeast k (f + b) then f + b else f) 0
  if factorExact k f then f else if Config.gainRoundsUp k then f + 1 else f

/-- The fader law in third-steps (R30); none where the position is off. -/
def faderGain (p : Nat) : Option Int :=
  if p = 0 then none
  else if p < 40 then some (6 * (-10 - 2 * (40 - (p : Int))))
  else some (2 * ((p : Int) - 70))

/-- The largest and the smallest 24-bit value (R31). -/
def limitSample (x : Int) : Int :=
  if 8388607 < x then 8388607 else if x < -8388608 then -8388608 else x

end Sys2Proof.Machine
end

