-- ==== Sys2Proof/Machine/Audio.lean ====
section
/-!
DEFINITION. The audio chain of one block (R31): decode with routing, steering row and crossfade (R49, R50, R56), fader,
trim, EQ (R64, R72), delay (R32), the meter point and the mute stage (R42, R45), and the steering (R61, R62).
-/

namespace Sys2Proof.Machine

/-- The samples of one channel of a block; a channel it does not carry is silent. -/
def channelSamples (periods : List (List Int)) (c : Nat) : List Int := periods.map fun p => p.getD c 0

/-! ### Decode, fader and trim (R30, R49, R50) -/

/-- The steering row of a state (R49). -/
def MatrixPart.row (m : MatrixPart) : Option Direction → List RowPair
  | none => m.neutral
  | some .left => m.left
  | some .centre => m.centre
  | some .right => m.right
  | some .surround => m.surround

/-- The offset that a row gives an output: 0 where it names none. -/
def rowOffset (row : List RowPair) (o : Fin 16) : Level :=
  match row.find? fun p => p.output == o with
  | none => 0
  | some p => p.offset

/-- The row that shapes an output under a format with this steering state (R49). -/
def FormatEntry.rowFor (f : FormatEntry) (state : Option Direction) : List RowPair :=
  match f.matrix with
  | none => []
  | some m => m.row state

/-- The factor by which each input reaches output `o` through decode, fader and trim (R49, R30; log entry 16): pairs
of input and factor. `gain` is the gain of fader and trim in third-steps, none where the fader is off. -/
def routingFactors (f : FormatEntry) (state : Option Direction) (o : Fin 16) (gain : Option Int) :
    List (Nat × Int) :=
  let offset := rowOffset (f.rowFor state) o
  match gain with
  | none => []
  | some g =>
    if offset = silence then []
    else (f.terms.filter fun t => t.output == o && t.gain != silence).map fun t =>
      let k := gainFactor (3 * (t.gain + offset) + g)
      (t.input.val, if t.invert then -k else k)

/-- One sample of an output. -/
def mixPeriod (factors : List (Nat × Int)) (period : List Int) : Int :=
  factors.foldl (fun acc x => acc + x.2 * period.getD x.1 0) 0

/-- Two signals in a crossfade of length `d`, `t` after its start (R56, R72). -/
def crossfade (t d : Nat) (incoming outgoing : List Int) : List Int :=
  (incoming.zip outgoing).map fun x => quotient (x.1 * min t d + x.2 * ((d - min t d : Nat) : Int)) d

/-- The gain of fader and trim in third-steps. -/
def Screen.faderAndTrim (x : Screen) (now : Word) (c : Fin 16) : Option Int :=
  (faderGain (x.fader.position now)).map (· + 3 * x.channels[c].trim)

/-- The samples of output `c` after decode, fader and trim, for a screen that is not in ALIGN. -/
def decodeChannel (s : State) (x : Screen) (periods : List (List Int)) (c : Fin 16) : List Int :=
  let gain := x.faderAndTrim s.timeBase c
  let under := fun (k : Fin 32) state => periods.map (mixPeriod (routingFactors s.formats[k] state c gain))
  match x.activeFormat with
  | none => periods.map fun _ => 0
  | some active =>
    let incoming := under active x.steering.state
    match x.formatFade, x.outgoingFormat with
    | some fade, some outgoing => crossfade (elapsed s.timeBase fade.start) fade.duration incoming (under outgoing none)
    | _, _ => incoming

/-- The channel under test of the run in flight (section 5.3). -/
def RunRecord.underTest (r : RunRecord) : Option (Fin 16) := r.channels[r.position]?

/-- The samples of output `c` after the trim stage: in ALIGN the noise on the channel under test and silence on every
other (R31, R84). `fresh` counts the blocks of noise, so the noise runs on from block to block (log entries 14 and
27). -/
def trimStage (s : State) (x : Screen) (periods : List (List Int)) (c : Fin 16) : List Int :=
  if x.state = .inAlign then
    if s.run.underTest = some c then
      let factor := gainFactor (3 * x.channels[c].trim)
      (List.range Config.blockPeriods).map fun k =>
        Config.gear.noise s.run.testLevel (Config.blockPeriods * s.fresh + k) * factor
    else periods.map fun _ => 0
  else decodeChannel s x periods c

/-! ### EQ (R64, R72) -/

/-- The section adds nothing: NONE, or a bell or shelf of gain 0 (R65). -/
def EqSection.isFlat (x : EqSection) : Bool :=
  match x.type with
  | .none => true
  | .peak => x.gain == 0
  | .lowShelf => x.gain == 0
  | .highShelf => x.gain == 0
  | .lowCut => false
  | .highCut => false

/-- The cascade of a bank: the graphic first, then sections 0 to 7 in index order (R64). A stage that adds nothing has
no filter: a graphic whose 31 gains are all 0, and a section as `EqSection.isFlat` says. -/
def EqBank.stages (b : EqBank) : List (Option Config.EqFilter) :=
  let graphic := if b.graphic.toList.all (· == 0) then none else some (Config.eqFilters.graphic b.graphic.toList)
  graphic :: b.sections.toList.map fun x =>
    if x.isFlat then none else some (Config.eqFilters.parametric x.type x.freq x.gain x.q)

/-- A block passed through stages in their order, each reading what the one before gives; the block that leaves the
last and the memories after. A stage without a filter passes it unchanged and is at rest. -/
def passStages : List (Option Config.EqFilter) → List (List Int) → List Int → List Int × List (List Int)
  | [], _, xs => (xs, [])
  | stage :: rest, memories, xs =>
    let (ys, memory) := match stage with
      | none => (xs, [])
      | some filter => filter (memories.headD []) xs
    let (zs, after) := passStages rest memories.tail ys
    (zs, memory :: after)

/-- The bank of a name. -/
def ChannelBanks.bank (x : ChannelBanks) : BankName → EqBank
  | .a => x.a
  | .b => x.b

/-- The memories of the bank of a name. -/
def EqMemory.bank (x : EqMemory) : BankName → List (List Int)
  | .a => x.a
  | .b => x.b

/-- The memories of the bank of a name replaced. -/
def EqMemory.setBank (x : EqMemory) (name : BankName) (memories : List (List Int)) : EqMemory :=
  match name with
  | .a => { x with a := memories }
  | .b => { x with b := memories }

/-- The EQ stage of channel `c`: its samples and its filters' memories after (R31, R72). It passes its live bank, the
channel under test its staging bank, and during a swap crossfade both; a bank that a block does not pass is at rest
after it (log entry 13). -/
def eqStage (s : State) (i : Fin 8) (x : Screen) (c : Fin 16) (xs : List Int) : List Int × EqMemory :=
  let through := fun name => passStages (s.eq[i][c].bank name).stages (x.channels[c].eqMemory.bank name) xs
  let rest : EqMemory := ⟨restStages, restStages⟩
  let alone := fun name => ((through name).1, rest.setBank name (through name).2)
  if x.state = .inAlign ∧ s.run.underTest = some c then alone x.eqLive.other
  else match x.eqSwap with
    | none => alone x.eqLive
    | some swap =>
      let incoming := through x.eqLive
      let outgoing := through swap.outgoing
      (crossfade (elapsed s.timeBase swap.start) Config.swapMs incoming.1 outgoing.1,
        (rest.setBank x.eqLive incoming.2).setBank swap.outgoing outgoing.2)

/-! ### Delay, meter point and mute stage (R31, R32, R42, R45) -/

/-- The block's samples appended to a delay line, newest first. -/
def extendLine (line xs : List Int) : List Int := xs.reverse ++ line

/-- The block's worth of samples that lie `delay` periods earlier; what the line does not list is silence. -/
def readLine (line : List Int) (delay : Nat) : List Int :=
  ((List.range Config.blockPeriods).map fun k => line.getD (delay + k) 0).reverse

/-- What a block leaves of a channel at the meter point: its samples there, its delay line and its filters' memories. -/
structure PassedChannel where
  samples : List Int
  line : List Int
  eqMemory : EqMemory
  deriving DecidableEq, Repr

/-- A channel's block from decode to the meter point, where each sample is limited to the 24-bit range (R31). -/
def meterPoint (s : State) (i : Fin 8) (x : Screen) (periods : List (List Int)) (c : Fin 16) : PassedChannel :=
  let (xs, eqMemory) := eqStage s i x c (trimStage s x periods c)
  let line := extendLine x.channels[c].line xs
  { samples := (readLine line x.channels[c].delay).map fun v => limitSample (quotient v (2 ^ Config.fractionBits))
    line := line.take Config.delayPeriods
    eqMemory := eqMemory }

/-- The mute stage: silence under any cause, else the stop fade's factor (R42, R45). -/
def muteStage (now : Word) (x : Screen) (c : Fin 16) (xs : List Int) : List Int :=
  if x.mutes.any || x.channels[c].mutes.any then xs.map fun _ => 0
  else match x.stopFade with
    | none => xs
    | some start =>
      let t := min (elapsed now start) x.stopFadeMs
      xs.map fun v => quotient (v * ((x.stopFadeMs - t : Nat) : Int)) x.stopFadeMs

/-! ### Steering (R60 to R62) -/

/-- A dominance value clamped to −120..+120 (R60). -/
def clampDominance (x : Int) : Int := max (-120) (min 120 x)

/-- The strength of a direction (R60). -/
def strength (lr cs : Int) : Direction → Int
  | .left => lr
  | .right => -lr
  | .centre => cs
  | .surround => -cs

/-- The candidate of an update (R61). -/
def steerCandidate (enter : Nat) (lr cs : Int) : Option Direction :=
  let horizontal : Direction := if 0 ≤ lr then .left else .right
  let depth : Direction := if 0 ≤ cs then .centre else .surround
  let h := strength lr cs horizontal
  let d := strength lr cs depth
  if (enter : Int) ≤ d ∧ ((enter : Int) ≤ h → h ≤ d) then some depth
  else if (enter : Int) ≤ h then some horizontal
  else none

/-- The exit test (R61). -/
def steerJudge (exit : Nat) (lr cs : Int) (state : Option Direction) : Option Direction :=
  match state with
  | none => none
  | some d => if strength lr cs d < exit then none else some d

/-- One steering update from the two dominance values (R61, R62). -/
def Steering.update (x : Steering) (m : MatrixPart) (lr cs : Int) : Steering :=
  let state := steerJudge m.exit lr cs x.state
  let candidate := steerCandidate m.enter lr cs
  let counter :=
    if candidate = none ∨ candidate = state then 0
    else if candidate = x.candidate ∧ 0 < x.counter then x.counter + 1
    else 1
  if candidate.isSome ∧ counter = m.hold then ⟨candidate, candidate, 0⟩ else ⟨state, candidate, counter⟩

/-- The steering of a screen after its meters have taken a block (R61, R63). -/
def Screen.steer (x : Screen) (formats : Vector FormatEntry 32) : Screen :=
  match x.activeFormat with
  | none => x
  | some k =>
    match formats[k].matrix with
    | none => x
    | some m =>
      let lr := clampDominance (x.inputs[0].short - x.inputs[1].short)
      let cs := clampDominance (x.steerSum.short - x.steerDiff.short)
      { x with steering := x.steering.update m lr cs }

end Sys2Proof.Machine
end

