-- ==== Sys2Proof/Machine/Cues.lean ====
section
/-!
DEFINITION. The Cue Engine (chapter 7): the execution of an action (R119 to R121, R141), the held list and its release
(R136, R137), cue links and their triggers (R130, R131), and the cue list's taking of a block (R125, R126).
-/

namespace Sys2Proof.Machine

/-! ### Executing an action -/

/-- The first skip test that applies to an action aimed at screen `i` (R119). -/
def skipReason (a : Action) (i : Fin 8) (s : State) : Option SkipReason :=
  let x := s.screens[i]
  let isOff := x.state == .off
  let inAlign := x.state == .inAlign
  match a with
  | .fader .. => firstFailure [(isOff, .off), (inAlign, .align)]
  | .mute .. => firstFailure [(isOff, .off), (inAlign, .align)]
  | .formatArm none => firstFailure [(isOff, .off)]
  | .formatArm (some k) =>
    firstFailure [(isOff, .off), (!s.formats[k].valid || !s.formats[k].fits x.count, .invalid)]
  | .formatTake _ => firstFailure [(isOff, .off), (inAlign, .align), (x.pendingFormat.isNone, .nothingPending)]
  | .eqSwap => firstFailure [(isOff, .off), (inAlign, .align), (x.eqSwap.isSome, .swapBusy)]
  | .linkOn k => firstFailure [(!s.links[k].loaded, .invalid)]
  | .linkOff k => firstFailure [(!s.links[k].loaded, .invalid)]
  | _ => none

/-- The action is one that the rehearsal of owner `o` holds back (R141). -/
def heldBackBy (a : Action) (i o : Fin 8) (s : State) : Bool :=
  match a with
  | .fader .. => i == o
  | .mute .. => i == o
  | .formatTake _ => i == o
  | .eqSwap => i == o
  | .lineSet l _ => s.lines[l].owner == some o
  | .linePulse l _ _ _ => s.lines[l].owner == some o
  | .goOut => true
  | .houseStop => true
  | _ => false

/-- The action is rehearsed and not performed (R141). -/
def isRehearsed (a : Action) (i : Fin 8) (owner : Option (Fin 8)) (s : State) : Bool :=
  match owner with
  | none => false
  | some o => s.screens[o].rehearsal && heldBackBy a i o s

/-- The effect of a performed action (R120). -/
def perform (trig : Trigger → State → State) (source : Source) (owner : Option (Fin 8)) (i : Fin 8) (a : Action)
    (s : State) : State :=
  match a with
  | .lineSet l active => writeLatch l active s
  | .linePulse l count onMs offMs => startTrain l count onMs offMs s
  | .fader target ms => requestFader i target ms s
  | .mute on => setCueMute i on s
  | .formatArm k => armFormat i k s
  | .formatTake ms => takeFormat i ms s
  | .eqSwap => swapBanks i s
  | .timerStart t interval mode => startTimer t interval mode s
  | .timerStop t => stopTimer t s
  | .linkOn k => setLink k true s
  | .linkOff k => setLink k false s
  | .goOut => requestGoPulse s
  | .houseStop => houseChange trig (fun h => { h with set := { h.set with cue := true } }) s
  | .notice code => file owner (.cueNotice source code) s

/-- An action is executed: skip tests, then rehearsal, then its performance; its notice comes before its effects
(R119). -/
def executeAction (trig : Trigger → State → State) (source : Source) (owner : Option (Fin 8)) (i : Fin 8)
    (a : Action) (released : Bool) (s : State) : State :=
  match skipReason a i s with
  | some why => file owner (.cueSkipped source a released why) s
  | none =>
    if isRehearsed a i owner s then file owner (.cueFired source a released true) s
    else perform trig source owner i a (file owner (.cueFired source a released false) s)

/-- A source with its held flag set fires (R136). -/
def holdAction (trig : Trigger → State → State) (source : Source) (owner : Option (Fin 8)) (i : Fin 8) (a : Action)
    (s : State) : State :=
  if s.stopActive then file owner (.cueSkipped source a false .houseStop) s
  else if s.house.goLevel && s.house.goInput && s.house.goSensed then executeAction trig source owner i a false s
  else if Config.heldCapacity ≤ s.held.length then file owner (.cueSkipped source a false .heldFull) s
  else
    let held := s.held ++ [⟨source, a, i, owner, s.timeBase⟩]
    file owner (.cueHeld source a held.length) { s with held := held }

/-- The action of a fired source is executed or held (R121). -/
def fireAction (trig : Trigger → State → State) (source : Source) (owner : Option (Fin 8)) (i : Fin 8) (a : Action)
    (held : Bool) (s : State) : State :=
  if held then holdAction trig source owner i a s else executeAction trig source owner i a false s

/-! ### Links and triggers -/

/-- Link `k` fires; a ONCE link then disables itself (R121). -/
def fireLink (trig : Trigger → State → State) (s : State) (k : Fin 32) : State :=
  let l := s.links[k]
  let s := fireAction trig (.link k) l.owner l.target l.action l.held s
  if l.mode = .once then setLink k false s else s

/-- The links that a trigger matches, in ascending index (R130). -/
def State.matching (s : State) (t : Trigger) : List (Fin 32) :=
  (indexes 32).filter fun k => s.links[k].enabled && s.links[k].trigger == t

/-- A trigger occurs, and so do the triggers that its links' actions cause, up to a depth of nesting (R130, R131). -/
def occursWithin : Nat → Trigger → State → State
  | 0, _, s => s
  | depth + 1, t, s => (s.matching t).foldl (fireLink (occursWithin depth)) s

/-- A trigger occurs. One HOUSE_STOP can nest in it and none in that (R131), so the depth is never reached (log entry
23). -/
def occurs (t : Trigger) (s : State) : State := occursWithin 3 t s

/-! ### GO (R137) -/

/-- An action taken out of the held list is executed. -/
def releaseHeld (s : State) (h : HeldAction) : State :=
  executeAction occurs h.source h.owner h.target h.action true s

/-- A GO event: the held list is released in order, and then the GO trigger occurs (R137). -/
def goEvent (s : State) : State :=
  let items := s.held
  let s := items.foldl releaseHeld { s with held := [] }
  occurs .go (if items.isEmpty then s else file none (.goReleased items.length) s)

/-! ### Cue lists (R125, R126) -/

/-- The index of the first entry that meets a condition, or the list's end. -/
def CueList.firstWhere (l : CueList) (p : CueEntry → Bool) : Nat := (l.entries.takeWhile fun e => !p e).length

/-- The first entry whose position is greater than the last position, or 0 when it is absent (R125). -/
def CueList.cursorFor (l : CueList) (last : Option Word) : Nat :=
  match last with
  | none => 0
  | some q => l.firstWhere fun e => decide (q < e.position)

/-- The cursor as it is placed for a block at `p` (R125). -/
def CueList.placed (l : CueList) (last : Option Word) (p : Word) : Nat :=
  match last with
  | none => l.firstWhere fun e => decide (p ≤ e.position)
  | some q => if p < q then l.firstWhere fun e => decide (p ≤ e.position) else l.cursor

/-- Entry `e` of a screen's list fires, and CUE(s, e) occurs (R121). -/
def fireEntry (i : Fin 8) (e : Fin 64) (entry : CueEntry) (s : State) : State :=
  occurs (.cue i e) (fireAction occurs (.entry i e) (some i) i entry.action entry.held s)

/-- The entry at index `k` is processed for a block at `p`, if it is due (R126). -/
def processEntry (i : Fin 8) (p : Word) (entries : List CueEntry) (s : State) (k : Fin 64) : State :=
  match entries[k.val]? with
  | none => s
  | some entry =>
    if entry.position ≤ p then
      if entry.position.toNat + s.screens[i].catchupWindow < p.toNat then
        file (some i) (.cueSkipped (.entry i k) entry.action false .jump) s
      else fireEntry i k entry s
    else s

/-- The cue list of screen `i` takes a block at position `p` (R125, R126). The set of entries to process is fixed when
the block is taken. -/
def takeCues (i : Fin 8) (p : Word) (s : State) : State :=
  let l := s.cueLists[i]
  let start := l.placed s.screens[i].lastPosition p
  let s := ((indexes 64).filter fun k => decide (start ≤ k.val)).foldl (processEntry i p l.entries) s
  s.onCueList i fun l => { l with cursor := l.cursorFor (some p) }

end Sys2Proof.Machine
end

