-- ==== Sys2Proof/Machine/Monitors.lean ====
section
/-!
DEFINITION. The Level Monitor Unit (chapter 6): readings (R98), conditions (R99 to R101), the monitor states (R105 to
R107) and the evaluation at a meter update (R104, R111 to R114).
-/

namespace Sys2Proof.Machine

/-! ### Readings and conditions -/

/-- The reading of a meter that a measure chooses (R98). -/
def Meter.reading (m : Meter) : Measure → Level
  | .peak => m.peak
  | .short => m.short
  | .long => m.long

/-- The reading of a monitor's content (R98). -/
def State.reading (s : State) (c : MonitorContent) : Level :=
  let x := s.screens[c.screen]
  if x.state = .off then silence
  else match c.point with
    | .input k => x.inputs[k].reading c.measure
    | .output o => if o.val < x.count then x.channels[o].meter.reading c.measure else silence
    | .sum => x.sum.reading c.measure

/-- The condition of monitor `m`, judged on the reading `l` (R99 to R101). -/
def State.conditionHolds (s : State) (m : Monitor) (l : Level) : Bool :=
  let c := m.content
  match c.condition with
  | .above => decide (c.a < l)
  | .below => decide (l < c.a)
  | .outside => decide (l < c.a ∨ c.b < l)
  | .inside => decide (c.a ≤ l ∧ l ≤ c.b)
  | .jump =>
    match m.prev with
    | none => false
    | some p => decide (c.a < l - p)
  | .track =>
    match c.partner with
    | none => false
    | some k =>
      let q := s.monitors[k]
      q.loaded && q.content.screen == c.screen && decide (c.a < ((l - s.reading q.content).natAbs : Int))

/-! ### The states (R105 to R107) -/

/-- What an evaluation or an acknowledgement made happen, with the reading. -/
inductive MonitorEvent where
  | raised (reading : Level)
  | latched (reading : Level)
  | cleared (acknowledged : Bool) (reading : Level)
  deriving DecidableEq, Repr

/-- The monitor is raised (R107). -/
def Monitor.raise (m : Monitor) (l : Level) : Monitor × Option MonitorEvent :=
  ({ m with state := .raised, mark := none, tripped := true, raiseCount := riseTo 255 m.raiseCount },
    some (.raised l))

/-- The monitor enters its end state (R106). -/
def Monitor.letGo (m : Monitor) (l : Level) : Monitor × Option MonitorEvent :=
  if m.content.latch then ({ m with state := .latched, mark := none }, some (.latched l))
  else ({ m with state := .clear, mark := none }, some (.cleared false l))

/-- The time since the time mark. -/
def Monitor.sinceMark (m : Monitor) (now : Word) : Nat :=
  match m.mark with
  | none => 0
  | some t => elapsed now t

/-- The move of a monitor at an evaluation (R105 to R107). -/
def Monitor.move (m : Monitor) (now : Word) (holds : Bool) (l : Level) : Monitor × Option MonitorEvent :=
  match m.state, holds with
  | .clear, true => if m.content.holdMs = 0 then m.raise l else ({ m with state := .pending, mark := some now }, none)
  | .pending, false => ({ m with state := .clear, mark := none }, none)
  | .pending, true => if m.content.holdMs ≤ m.sinceMark now then m.raise l else (m, none)
  | .raised, false =>
    if m.content.releaseMs = 0 then m.letGo l else ({ m with state := .releasing, mark := some now }, none)
  | .releasing, true => ({ m with state := .raised, mark := none }, none)
  | .releasing, false => if m.content.releaseMs ≤ m.sinceMark now then m.letGo l else (m, none)
  | _, _ => (m, none)

/-- The monitor is evaluated at a meter update of screen `i` (R104). -/
def Monitor.evaluatedOn (m : Monitor) (i : Fin 8) : Bool :=
  m.enabled && m.content.screen == i && m.state != .off && m.state != .suspended

/-- One evaluation: the move, and then the previous reading (R100). -/
def State.evaluate (s : State) (m : Monitor) : Monitor × Option MonitorEvent :=
  let l := s.reading m.content
  let (m', e) := m.move s.timeBase (s.conditionHolds m l) l
  ({ m' with prev := some l }, e)

/-- The notice of an event (R113). -/
def MonitorEvent.notice (k : Fin 48) : MonitorEvent → NoticeBody
  | .raised l => .monitorRaised k l
  | .latched l => .monitorLatched k l
  | .cleared ack l => .monitorCleared k ack l

/-- The trigger of an event (R114). -/
def MonitorEvent.trigger (k : Fin 48) : MonitorEvent → Option Trigger
  | .raised _ => some (.monitorRaised k)
  | .latched _ => none
  | .cleared _ _ => some (.monitorCleared k)

/-- The notice and then the trigger of one monitor's event (R104, R113, R114). -/
def reportEvent (s : State) (x : Fin 48 × MonitorEvent) : State :=
  let c := s.monitors[x.1].content
  let s := if c.notify then file (some c.screen) (x.2.notice x.1) s else s
  match x.2.trigger x.1 with
  | none => s
  | some t => occurs t s

/-- The event of each evaluated monitor of screen `i`, in ascending index. -/
def State.monitorEvents (s : State) (i : Fin 8) : List (Fin 48 × MonitorEvent) :=
  (indexes 48).filterMap fun k =>
    let m := s.monitors[k]
    if m.evaluatedOn i then (s.evaluate m).2.map (k, ·) else none

/-- The event raises a HOUSE_STOP monitor. -/
def raisesHouseStop (s : State) (x : Fin 48 × MonitorEvent) : Bool :=
  match x.2 with
  | .raised _ => s.monitors[x.1].content.action == .houseStop
  | _ => false

/-- The monitors of screen `i` are evaluated at a meter update, and the results are handed on in the order of R104. -/
def evaluateMonitors (i : Fin 8) (s : State) : State :=
  let events := s.monitorEvents i
  let t := { s with monitors := mapAt (fun _ m => if m.evaluatedOn i then (s.evaluate m).1 else m) s.monitors }
  let t := deriveMonitors i t
  let t := if events.any (raisesHouseStop s) then
      houseChange occurs (fun h => { h with set := { h.set with monitor := true } }) t
    else t
  events.foldl reportEvent t

end Sys2Proof.Machine
end

