-- ==== Sys2Proof/Machine/Align.lean ====
section
/-!
DEFINITION. The Alignment Engine (chapter 5): the start of a run (R81 to R83), the dwell's gathering (R86), the end of
SETTLE and DWELL (R85 to R90), and the finishing of channels and runs (R91, R92).
-/

namespace Sys2Proof.Machine

/-! ### Banks of a run (R82, R89) -/

/-- The staging bank of a channel changed; `f` also sees the live bank. -/
def ChannelBanks.onStaging (x : ChannelBanks) (live : BankName) (f : EqBank → EqBank → EqBank) : ChannelBanks :=
  match live with
  | .a => { x with b := f x.a x.b }
  | .b => { x with a := f x.b x.a }

/-- The staging bank that a CORRECT run starts from (R82). -/
def fillStaging (fromFlat : Bool) (live _staging : EqBank) : EqBank :=
  if fromFlat then { live with graphic := Vector.replicate 31 0, origin := .copied, passStamp := 0 }
  else { live with origin := .copied }

/-- The staging banks of the listed channels are filled (R82). -/
def fillListed (i : Fin 8) (fromFlat : Bool) (channels : List (Fin 16)) (s : State) : State :=
  channels.foldl (fun s c => s.onBanks i c fun x => x.onStaging s.screens[i].eqLive (fillStaging fromFlat)) s

/-! ### Starting (R81, R83) -/

/-- The result of a channel that a run has not begun (R81). -/
def pendingResult (c : Fin 16) : ChannelResult := ⟨c, .pending, 0, false, Vector.replicate 31 silence, 0⟩

/-- The ALIGN cause on every channel below the count except the one under test (R83). -/
def Screen.alignAllBut (x : Screen) (test : Option (Fin 16)) : Screen :=
  let muted := fun (c : Fin 16) => decide (c.val < x.count) && test != some c
  { x with channels := mapAt (fun c ch => { ch with mutes := { ch.mutes with align := muted c } }) x.channels }

/-- The parameters of a run as ALIGN_START carries them (R80). -/
structure RunRequest where
  curve : Fin 4
  mode : AlignMode
  passesMax : Nat
  settleMs : Nat
  dwellMs : Nat
  testLevel : Level
  fromFlat : Bool
  channels : List (Fin 16)
  deriving DecidableEq, Repr

/-- The run record as an accepted ALIGN_START rebuilds it; the engine enters SETTLE last (R81). -/
def rebuiltRun (i : Fin 8) (q : RunRequest) (now : Word) : RunRecord where
  present := true
  screen := i
  curve := q.curve
  mode := q.mode
  passesMax := q.passesMax
  settleMs := q.settleMs
  dwellMs := q.dwellMs
  testLevel := q.testLevel
  fromFlat := q.fromFlat
  channels := q.channels
  position := 0
  pass := 1
  engine := .settle
  phaseStart := now
  outcome := .running
  acc := emptyAcc
  results := q.channels.map pendingResult

/-- An accepted ALIGN_START is carried through (R81). -/
def startRun (i : Fin 8) (q : RunRequest) (s : State) : State :=
  let s := if s.screens[i].eqSwap.isSome then endSwap i true s else s
  let s := enterState i .inAlign (s.onRun fun _ => rebuiltRun i q s.timeBase)
  let s := if q.mode = .correct then fillListed i q.fromFlat q.channels s else s
  s.onScreen i fun x => x.alignAllBut q.channels.head?

/-! ### Gathering (R86) -/

/-- The energy that further samples add in a band to those gathered before them: the energy that all of them hold
there, less that of the earlier ones (log entry 15). -/
def bandShare (band : Nat) (gathered xs : List Int) : Nat :=
  Config.gear.energyIn band (gathered ++ xs) - Config.gear.energyIn band gathered

/-- The accumulator takes a block's microphone samples (R86). -/
def DwellAcc.take (a : DwellAcc) (xs : List Int) : DwellAcc where
  bands := mapAt (fun b e => e + bandShare b.val a.gathered xs) a.bands
  total := a.total + (xs.map square).sum
  samples := a.samples + xs.length
  fullScale := a.fullScale || xs.any fun v => v == 8388607 || v == -8388608
  gathered := a.gathered ++ xs

/-- The microphone's samples of a block: 32 zero samples where the block does not carry that input (R86). -/
def Screen.micSamples (x : Screen) (periods : List (List Int)) : List Int :=
  match x.micChannel with
  | none => periods.map fun _ => 0
  | some c => channelSamples periods c.val

/-- The engine gathers a block taken during a DWELL (R86). -/
def gatherDwell (i : Fin 8) (periods : List (List Int)) (s : State) : State :=
  if s.screens[i].state = .inAlign ∧ s.run.engine = .dwell then
    s.onRun fun r => { r with acc := r.acc.take (s.screens[i].micSamples periods) }
  else s

/-! ### Finishing a channel and a run (R91, R92) -/

/-- The result at the list position changed. -/
def RunRecord.onResult (r : RunRecord) (f : ChannelResult → ChannelResult) : RunRecord :=
  { r with results := r.results.modify r.position f }

/-- The run completes (R92). -/
def completeRun (s : State) : State :=
  let i := s.run.screen
  let s := (s.onRun fun r => { r with outcome := .complete, pass := 0 }).onScreen i Screen.clearAlign
  let s := (enterState i .dark s).onRun fun r => { r with engine := .idle }
  let converged := s.run.results.countP fun r => r.result == .converged
  occurs (.alignDone i) (file (some i) (.alignDone s.run.channels.length converged) s)

/-- A SETTLE begins (R81, R90, R91). -/
def enterSettle (pass : Nat) (s : State) : State :=
  s.onRun fun r => { r with pass := pass, engine := .settle, phaseStart := s.timeBase }

/-- The channel under test is finished with a result (R91). -/
def finishChannel (result : AlignResult) (s : State) : State :=
  let s := s.onRun fun r => r.onResult fun x => { x with result := result }
  let i := s.run.screen
  let s := match s.run.results[s.run.position]? with
    | none => s
    | some x => file (some i) (.alignProgress x.channel x.result x.passesUsed x.limited x.deviation) s
  let s := s.onRun fun r => { r with position := r.position + 1 }
  match s.run.underTest with
  | none => completeRun s
  | some c => enterSettle 1 (s.onScreen i fun x => x.alignAllBut (some c))

/-! ### Evaluating a pass (R87 to R90) -/

/-- The mean of differences rounded to the nearest integer, a value halfway going away from zero (R88). -/
def meanAway (total : Int) (count : Nat) : Int :=
  let m : Int := ((2 * total.natAbs + count) / (2 * count) : Nat)
  if 0 ≤ total then m else -m

/-- The bands of a curve's range. -/
def Curve.range (c : Curve) : List (Fin 31) :=
  (indexes 31).filter fun b => decide (c.low ≤ b.val ∧ b.val ≤ c.high)

/-- The deviations from a curve, band by band; 0 outside its range (R88). -/
def Curve.deviations (c : Curve) (m : Vector Level 31) : Vector Int 31 :=
  let differences := c.range.map fun b => m[b] - c.targets[b]
  let offset := meanAway differences.sum differences.length
  mapAt (fun b l => if c.low ≤ b.val ∧ b.val ≤ c.high then l - c.targets[b] - offset else 0) m

/-- The largest magnitude of the deviations (R88). -/
def largestDeviation (d : Vector Int 31) : Nat := largest (d.toList.map Int.natAbs)

/-- A gain limited to −48..+24 (R89). -/
def limitGain (g : Int) : Level := max (-48) (min 24 g)

/-- The correction of a pass written into the staging graphic (R89). -/
def correctBank (d : Vector Int 31) (passesUsed : Nat) (bank : EqBank) : EqBank :=
  { bank with
    graphic := mapAt (fun b g => limitGain (g - d[b])) bank.graphic
    origin := .aligned
    passStamp := passesUsed }

/-- The limit cuts some band of the correction (R89). -/
def correctionLimited (d : Vector Int 31) (bank : EqBank) : Bool :=
  (indexes 31).any fun b => limitGain (bank.graphic[b] - d[b]) != bank.graphic[b] - d[b]

/-- The staging bank of a channel. -/
def State.stagingBank (s : State) (i : Fin 8) (c : Fin 16) : EqBank := s.eq[i][c].bank s.screens[i].eqLive.other

/-- The correction of a pass that has not converged (R89). -/
def writeCorrection (c : Fin 16) (d : Vector Int 31) (s : State) : State :=
  let i := s.run.screen
  let limited := correctionLimited d (s.stagingBank i c)
  let used := match s.run.results[s.run.position]? with
    | none => 0
    | some r => r.passesUsed
  let s := s.onBanks i c fun x => x.onStaging s.screens[i].eqLive fun _ bank => correctBank d used bank
  s.onRun fun r => r.onResult fun x => { x with limited := x.limited || limited }

/-- The pass is compared with the curve, corrected and ended (R88 to R90). -/
def judgePass (c : Fin 16) (m : Vector Level 31) (s : State) : State :=
  let curve := s.curves[s.run.curve]
  let d := curve.deviations m
  let deviation := largestDeviation d
  let s := s.onRun fun r => r.onResult fun x => { x with deviation := deviation }
  if deviation ≤ curve.tolerance then finishChannel .converged s
  else if s.run.mode = .correct then
    let s := writeCorrection c d s
    if s.run.pass < s.run.passesMax then enterSettle (s.run.pass + 1) s else finishChannel .notConverged s
  else finishChannel .notConverged s

/-- The DWELL ends and its pass is evaluated (R86, R87). One that gathered no block reads −240 throughout, so its
channel is NO_SIGNAL: the manual gives the mean of no samples no value (log entry 33). -/
def evaluatePass (c : Fin 16) (s : State) : State :=
  let a := s.run.acc
  let scale := a.samples * fullSquare
  let m := mapAt (fun b _ => levelOf a.bands[b] scale) (Vector.replicate 31 silence)
  let s := s.onRun fun r => r.onResult fun x => { x with passesUsed := x.passesUsed + 1, bandLevels := m }
  if levelOf a.total scale < -200 then finishChannel .noSignal s
  else if a.fullScale then finishChannel .clipped s
  else judgePass c m s

/-! ### The rows SETTLE_END and DWELL_END -/

/-- A SETTLE is in progress and its time has come (R85). -/
def dueSettleEnd (s : State) : Bool :=
  s.run.engine == .settle && decide (s.run.settleMs ≤ elapsed s.timeBase s.run.phaseStart)

/-- The SETTLE ends (R85). -/
def settleEnds (s : State) : State :=
  s.onRun fun r => { r with engine := .dwell, phaseStart := s.timeBase, acc := emptyAcc }

/-- A DWELL is in progress and its time has come (R86). -/
def dueDwellEnd (s : State) : Bool :=
  s.run.engine == .dwell && decide (s.run.dwellMs ≤ elapsed s.timeBase s.run.phaseStart)

/-- The DWELL ends (R86). -/
def dwellEnds (s : State) : State :=
  match s.run.underTest with
  | none => s
  | some c => evaluatePass c s

end Sys2Proof.Machine
end

