-- ==== Sys2Proof/Machine/Operands.lean ====
section
/-!
DEFINITION. How a command is read and answered: payload fields (section 11.4, R183), payload lengths (R165), screen
selectors (R164), the application to every screen (R166 to R168), and one whole execution (R160, R162, R163).
-/

namespace Sys2Proof.Machine

/-! ### Fields of a payload -/

/-- Payload byte `k`. -/
def Command.byte (c : Command) (k : Nat) : Byte := c.payload.getD k 0#8
/-- Payload byte `k` as a number. -/
def Command.num (c : Command) (k : Nat) : Nat := (c.byte k).toNat
/-- Payload bytes `k` and `k + 1` as a number. -/
def Command.num2 (c : Command) (k : Nat) : Nat := nat2 (c.byte k) (c.byte (k + 1))
/-- Four payload bytes as a number. -/
def Command.num4 (c : Command) (k : Nat) : Nat := nat4 (c.byte k) (c.byte (k + 1)) (c.byte (k + 2)) (c.byte (k + 3))
/-- Payload byte `k` as a signed number. -/
def Command.int (c : Command) (k : Nat) : Int := (c.byte k).toInt
/-- A signed number in two bytes. -/
def signedPair (hi lo : Byte) : Int := (BitVec.ofNat 16 (nat2 hi lo)).toInt
/-- Payload bytes `k` and `k + 1` as a signed number. -/
def Command.int2 (c : Command) (k : Nat) : Int := signedPair (c.byte k) (c.byte (k + 1))

/-- A flag or a choice of on or off: 0 or 1 (section 11.4). -/
def readFlag (b : Byte) : Option Bool :=
  if b = 0#8 then some false else if b = 1#8 then some true else none

/-- An index byte into a table of `n` entries. -/
def readIndex (n : Nat) (b : Byte) : Option (Fin n) := toIndex n b.toNat

/-- An index byte where 255 stands for none. -/
def readOptional (n : Nat) (b : Byte) : Option (Option (Fin n)) :=
  if b = 255#8 then some none else (readIndex n b).map some

/-- A level within a range. -/
def readLevel (low high x : Int) : Option Level := if low ≤ x ∧ x ≤ high then some x else none

/-- A number within a range. -/
def readRange (low high x : Nat) : Option Nat := if low ≤ x ∧ x ≤ high then some x else none

/-- The code chosen from a list, the first value standing for 0 (section 11.4). -/
def readCode {α : Type} (values : List α) (b : Byte) : Option α := values[b.toNat]?

/-- A vector of a list that has its length. -/
def toVector {α : Type} (n : Nat) (xs : List α) : Option (Vector α n) :=
  if h : xs.toArray.size = n then some ⟨xs.toArray, h⟩ else none

/-- The signed bytes of 31 bands from payload byte `k`, each within −48..+24. -/
def Command.bands (c : Command) (k : Nat) : Option (Vector Level 31) :=
  match allSome (((c.payload.drop k).take 31).map fun b => readLevel (-48) 24 b.toInt) with
  | none => none
  | some xs => toVector 31 xs

/-! ### Action records and triggers (sections 7.1, 11.4, R118, R130) -/

/-- ONCE or REPEAT. -/
def readRunMode (b : Byte) : Option RunMode := readCode [.once, .repeating] b

/-- The action of an action record; none where a code or parameter breaks R118. -/
def readActionKind (r : List Byte) : Option Action :=
  let b := fun k => r.getD k 0#8
  match (b 0).toNat with
  | 1 => do
    let line ← readIndex 16 (b 2)
    let active ← readFlag (b 3)
    pure (.lineSet line active)
  | 2 => do
    let line ← readIndex 16 (b 2)
    let count ← readRange 1 255 (b 3).toNat
    let onMs ← readRange 1 10000 (nat2 (b 4) (b 5))
    let offMs ← readRange 1 10000 (nat2 (b 6) (b 7))
    pure (.linePulse line count onMs offMs)
  | 3 => do
    let target ← readRange 0 100 (b 2).toNat
    let ms ← readRange 0 60000 (nat2 (b 4) (b 5))
    pure (.fader target ms)
  | 4 => (readFlag (b 2)).map .mute
  | 5 => (readOptional 32 (b 2)).map .formatArm
  | 6 => (readRange 0 2000 (nat2 (b 4) (b 5))).map .formatTake
  | 7 => some .eqSwap
  | 8 => do
    let timer ← readIndex 8 (b 2)
    let mode ← readRunMode (b 3)
    let interval ← readRange 1 86400000 (nat4 (b 4) (b 5) (b 6) (b 7))
    pure (.timerStart timer interval mode)
  | 9 => (readIndex 8 (b 2)).map .timerStop
  | 10 => (readIndex 32 (b 2)).map .linkOn
  | 11 => (readIndex 32 (b 2)).map .linkOff
  | 12 => some .goOut
  | 13 => some .houseStop
  | 14 => some (.notice (b 2))
  | _ => none

/-- The screen actions (R118). -/
def Action.onScreen : Action → Bool
  | .fader .. => true
  | .mute .. => true
  | .formatArm .. => true
  | .formatTake .. => true
  | .eqSwap => true
  | _ => false

/-- The action record of a link: the action, and its own screen where it is a screen action (R118, R183). -/
def readLinkAction (r : List Byte) : Option (Action × Fin 8) := do
  let a ← readActionKind r
  if a.onScreen then
    let target ← readIndex 8 (r.getD 1 0#8)
    pure (a, target)
  else pure (a, 0)

/-- The trigger of a link (R130). -/
def readTrigger (kind parameter entry : Byte) : Option Trigger :=
  match kind.toNat with
  | 1 => (readIndex 8 parameter).map .showStart
  | 2 => (readIndex 8 parameter).map .showEnd
  | 3 => (readIndex 48 parameter).map .monitorRaised
  | 4 => (readIndex 48 parameter).map .monitorCleared
  | 5 => (readIndex 8 parameter).map .timer
  | 6 => (readIndex 16 parameter).map .lineActive
  | 7 => (readIndex 16 parameter).map .lineInactive
  | 8 => some .go
  | 9 => do
    let s ← readIndex 8 parameter
    let e ← readIndex 64 entry
    pure (.cue s e)
  | 10 => some .houseStop
  | 11 => some .houseRelease
  | 12 => (readIndex 8 parameter).map .alignDone
  | 13 => some .command
  | _ => none

/-! ### Answers -/

/-- What an execution answers: the result, the refused-screen mask and the payload (R162). -/
structure Answer where
  result : Result
  mask : BitVec 8
  payload : List Byte
  deriving DecidableEq, Repr

/-- The mask with the flag of one screen set. -/
def screenFlag (i : Fin 8) : BitVec 8 := 1#8 <<< i.val

/-- A unit-class command, or a command applied to no screen: the check and, where it passes, the effect with its
reply payload (R162, R163). -/
def applyUnit (check : State → Option Result) (effect : State → State × List Byte) (s : State) : State × Answer :=
  match check s with
  | some r => (s, ⟨r, 0#8, []⟩)
  | none =>
    let (t, p) := effect s
    (t, ⟨.ok, 0#8, p⟩)

/-- The application to one screen (R167): a refusal sets that screen's flag. -/
def applyScreen (success : Result) (check : Fin 8 → State → Option Result)
    (effect : Fin 8 → State → State × List Byte) (i : Fin 8) (s : State) : State × Answer :=
  match check i s with
  | some r => (s, ⟨r, screenFlag i, []⟩)
  | none =>
    let (t, p) := effect i s
    (t, ⟨success, 0#8, p⟩)

/-- The application to a list of screens in turn (R166), with each screen's refusal, if any, and its section of the
reply. A refused screen's section is `size` bytes of 0 (R168). -/
def applyList (size : Nat) (check : Fin 8 → State → Option Result) (effect : Fin 8 → State → State × List Byte) :
    List (Fin 8) → State → State × List (Option Result × List Byte)
  | [], s => (s, [])
  | i :: rest, s =>
    match check i s with
    | some r =>
      let (t, outs) := applyList size check effect rest s
      (t, (some r, List.replicate size 0#8) :: outs)
    | none =>
      let (u, p) := effect i s
      let (t, outs) := applyList size check effect rest u
      (t, (none, p) :: outs)

/-- The answer to an application to every screen (R167, R168): OK if any screen accepted, else the refusal of the
lowest-numbered one. -/
def summary (outs : List (Option Result × List Byte)) : Answer where
  result := if outs.any (·.1.isNone) then .ok else (outs.filterMap (·.1)).headD .ok
  mask := BitVec.ofNat 8 (flagBits (outs.map (·.1.isSome)))
  payload := outs.flatMap (·.2)

/-- The selector classes (R164). -/
inductive SelectorClass where
  | unit
  | screen
  | oneScreen
  deriving DecidableEq, Repr

/-- The selector suits the class (R164). -/
def SelectorClass.accepts (k : SelectorClass) (selector : Byte) : Bool :=
  match k with
  | .unit => selector == 14#8
  | .screen => decide (selector.toNat ≤ 7) || selector == 15#8
  | .oneScreen => decide (selector.toNat ≤ 7)

/-- The generic checks after the code's: length, then selector (R163). -/
def genericCheck (k : SelectorClass) (lengthSuits : Bool) (c : Command) : Option Result :=
  firstFailure [(!lengthSuits, .badLength), (!k.accepts c.selector, .badValue)]

/-- A command of the unit class. -/
def unitCommand (lengthSuits : Bool) (check : State → Option Result) (effect : State → State × List Byte)
    (c : Command) (s : State) : State × Answer :=
  match genericCheck .unit lengthSuits c with
  | some r => (s, ⟨r, 0#8, []⟩)
  | none => applyUnit check effect s

/-- A command of the screen class, whose accepted reply carries `size` bytes for a screen (R164, R168). -/
def screenCommand (lengthSuits : Bool) (size : Nat) (check : Fin 8 → State → Option Result)
    (effect : Fin 8 → State → State × List Byte) (c : Command) (s : State) : State × Answer :=
  match genericCheck .screen lengthSuits c with
  | some r => (s, ⟨r, 0#8, []⟩)
  | none =>
    match toIndex 8 c.selector.toNat with
    | some i => applyScreen .ok check effect i s
    | none =>
      let (t, outs) := applyList size check effect (indexes 8) s
      (t, summary outs)

/-- A command of the one-screen class, whose acceptance gives ACCEPTED (R162, R164). -/
def oneScreenCommand (lengthSuits : Bool) (check : Fin 8 → State → Option Result)
    (effect : Fin 8 → State → State) (c : Command) (s : State) : State × Answer :=
  match genericCheck .oneScreen lengthSuits c with
  | some r => (s, ⟨r, 0#8, []⟩)
  | none =>
    match toIndex 8 c.selector.toNat with
    | some i => applyScreen .accepted check (fun i s => (effect i s, [])) i s
    | none => (s, ⟨.badValue, 0#8, []⟩)

/-! ### One whole execution (R8, R160) -/

/-- The Management Unit can take a command: it is idle and the reply list has room (R8). Nothing is executed while
RESETN is asserted (log entry 3). -/
def State.canExecute (s : State) : Bool :=
  !s.inReset && s.executing.isNone && decide (s.replies.length < Config.replyCapacity)

/-- A command executed as one event, at the end of which its reply is appended (R160); `after` is what follows the reply
in the same event (R173). The Management Unit is idle before the event and after it. -/
def executeThen (after : Answer → State → State) (body : Command → State → State × Answer) (c : Command)
    (s : State) : State :=
  let (t, a) := body c s
  after a (appendReply ⟨c.tag, c.code, a.result, a.mask, a.payload⟩ t)

/-- A command executed with nothing after its reply. -/
def execute (body : Command → State → State × Answer) (c : Command) (s : State) : State :=
  executeThen (fun _ s => s) body c s

/-- A command row: the execution of that command where the Management Unit can take one (log entry 6). -/
def commandRow (body : Command → State → State × Answer) (c : Command) (s : State) : State :=
  if s.canExecute then execute body c s else s

/-- The command that a row's operands spell with a code. -/
def commandOf (code : Byte) (a : CmdArgs) : Command := ⟨a.tag, code, a.selector, a.payload⟩

/-- What every row's meaning answers. -/
abbrev Answered := Host.Outcome State Fault Refusal

/-- An event row: nothing happens while RESETN is asserted (R17; log entry 3). -/
def eventRow (f : State → State) (s : State) : State := if s.inReset then s else f s

/-- A timed row: it has its effect when its time has come, and none before (log entry 2). -/
def timedRow (due : State → Bool) (f : State → State) (s : State) : State :=
  eventRow (fun s => if due s then f s else s) s

/-- The command that a row spells when the row is one form or one scope of it. -/
def formCommandOf (code form : Byte) (a : CmdArgs) : Command := ⟨a.tag, code, a.selector, form :: a.payload⟩

end Sys2Proof.Machine
end

