-- ==== Sys2Proof/Machine/ScreenCommands.lean ====
section
/-!
DEFINITION. The screen commands (chapter 2): SCREEN_SETUP, SCREEN_CLOSE, SCREEN_STATUS, SCREEN_RESUME, FADER_SET,
MUTE_SET, REHEARSAL_SET and CHANNEL_SETUP.
-/

namespace Sys2Proof.Machine

/-- A screen state is OFF. -/
def State.isOff (s : State) (i : Fin 8) : Bool := s.screens[i].state == .off
/-- A screen state is ALIGN. -/
def State.isAligning (s : State) (i : Fin 8) : Bool := s.screens[i].state == .inAlign

/-! ### SCREEN_SETUP (R21) -/

/-- The values of SCREEN_SETUP less its format. -/
structure SetupValues where
  count : Nat
  mic : Option (Fin 16)
  stopPolicy : StopPolicy
  resumePolicy : ResumePolicy
  stopFadeMs : Nat
  catchup : Nat
  deriving DecidableEq, Repr

/-- The values of the payload; none where one is out of range (R21, check 2). Omitted values are 2000 and 750. -/
def readSetup (c : Command) : Option SetupValues := do
  let count ← readRange 1 16 (c.num 0)
  let mic ← readOptional 16 (c.byte 2)
  let stopPolicy ← readCode [.mute, .fade, .exempt] (c.byte 3)
  let resumePolicy ← readCode [.auto, .manual] (c.byte 4)
  let stopFadeMs ← readRange 0 5000 (if 7 ≤ c.payload.length then c.num2 5 else 2000)
  let catchup ← readRange 0 15000 (if 9 ≤ c.payload.length then c.num2 7 else 750)
  pure ⟨count, mic, stopPolicy, resumePolicy, stopFadeMs, catchup⟩

/-- The initial format, where its entry is valid (R21, check 3). -/
def readSetupFormat (c : Command) (s : State) : Option (Fin 32) :=
  (readIndex 32 (c.byte 1)).filter fun k => s.formats[k].valid

/-- The checks of R21. -/
def checkSetup (c : Command) (i : Fin 8) (s : State) : Option Result :=
  let fits := match readSetup c, readSetupFormat c s with
    | some v, some k => s.formats[k].fits v.count
    | _, _ => false
  firstFailure [(!s.isOff i, .badState), ((readSetup c).isNone, .badValue),
    ((readSetupFormat c s).isNone, .badIndex), (!fits, .badValue)]

/-- The screen record that an accepted SCREEN_SETUP makes (R21). -/
def Screen.setUp (x : Screen) (v : SetupValues) (k : Fin 32) (now : Word) : Screen :=
  { x with
    channelCount := some v.count
    micChannel := v.mic
    stopPolicy := v.stopPolicy
    resumePolicy := v.resumePolicy
    stopFadeMs := v.stopFadeMs
    catchupWindow := v.catchup
    mutes := { x.mutes with unconfigured := false }
    activeFormat := some k
    fader := ⟨70, 70, min 70 x.ceiling, none⟩
    lastArrival := now
    arrivalPosition := noPosition }

/-- An accepted SCREEN_SETUP (R21): DARK, and then STOPPED where the house is stopped and the policy is not EXEMPT. -/
def setUpScreen (i : Fin 8) (v : SetupValues) (k : Fin 32) (s : State) : State :=
  let s := addUse (some k) (s.onScreen i fun x => x.setUp v k s.timeBase)
  let s := emptyWindows i (enterState i .dark s)
  if s.stopActive && v.stopPolicy != .exempt then stopScreen i s else s

/-- The effect of SCREEN_SETUP. -/
def effectSetup (c : Command) (i : Fin 8) (s : State) : State × List Byte :=
  match readSetup c, readSetupFormat c s with
  | some v, some k => (setUpScreen i v k s, [])
  | _, _ => (s, [])

/-- SCREEN_SETUP as the Management Unit executes it (R21, R165). -/
def cmdScreenSetup (c : Command) : State → State × Answer :=
  screenCommand ([5, 7, 9].contains c.payload.length) 0 (checkSetup c) (effectSetup c) c

/-- SCREEN_SETUP. -/
def execScreenSetup (a : CmdArgs) (s : State) : Answered := .next (commandRow cmdScreenSetup (commandOf 16#8 a) s)

/-! ### SCREEN_CLOSE (R28) -/

/-- The checks of R28. -/
def checkClose (i : Fin 8) (s : State) : Option Result :=
  match s.screens[i].state with
  | .off => some .badState
  | .inShow => some .badState
  | .inAlign => some .busy
  | _ => none

/-- SCREEN_CLOSE as the Management Unit executes it (R28). -/
def cmdScreenClose (c : Command) : State → State × Answer :=
  screenCommand c.payload.isEmpty 0 checkClose (fun i s => (goOff i s, [])) c

/-- SCREEN_CLOSE. -/
def execScreenClose (a : CmdArgs) (s : State) : Answered := .next (commandRow cmdScreenClose (commandOf 17#8 a) s)

/-! ### SCREEN_STATUS (R47) -/

/-- The codes of the screen states, in the order of section 2.1. -/
def ScreenState.code : ScreenState → Nat
  | .off => 0
  | .dark => 1
  | .inShow => 2
  | .inAlign => 3
  | .stopped => 4

/-- The codes of the stop policies (section 11.4). -/
def StopPolicy.code : StopPolicy → Nat
  | .mute => 0
  | .fade => 1
  | .exempt => 2

/-- The codes of the resume policies (section 11.4). -/
def ResumePolicy.code : ResumePolicy → Nat
  | .auto => 0
  | .manual => 1

/-- The codes of the steering states, in the order of section 2.1. -/
def steeringCode : Option Direction → Nat
  | none => 0
  | some .left => 1
  | some .centre => 2
  | some .right => 3
  | some .surround => 4

/-- A number in one byte. -/
def bytes1 (n : Nat) : List Byte := [BitVec.ofNat 8 n]

/-- The three readings of a meter. -/
def Meter.bytes (m : Meter) : List Byte := signed2 m.peak ++ signed2 m.short ++ signed2 m.long

/-- A channel in SCREEN_STATUS (R47). -/
def Channel.bytes (c : Channel) : List Byte :=
  signed1 c.trim ++ bytes2 c.delay ++ bytes1 c.mutes.bits ++ c.meter.bytes

/-- A screen record in SCREEN_STATUS, in the order of R47 (log entry 19). -/
def Screen.bytes (x : Screen) (now : Word) : List Byte :=
  bytes1 x.state.code ++ bytes1 x.count ++ [indexByte x.micChannel] ++ bytes1 x.stopPolicy.code ++
  bytes1 x.resumePolicy.code ++ bytes2 x.stopFadeMs ++ bytes2 x.catchupWindow ++
  bytes1 (x.fader.position now) ++ bytes1 x.fader.requested ++ bytes1 x.fader.effective ++ bytes1 x.ceiling ++
  [flagByte x.fader.ramp.isSome] ++ bytes1 x.mutes.bits ++ [flagByte x.stopFade.isSome] ++
  [indexByte x.activeFormat, indexByte x.pendingFormat, indexByte x.outgoingFormat, flagByte x.formatFade.isSome] ++
  bytes1 (steeringCode x.steering.state) ++ bytes1 x.eqLive.code ++ [flagByte x.eqSwap.isSome] ++
  bytes4 (x.lastPosition.getD noPosition) ++ [flagByte x.sourceLost, flagByte x.rehearsal,
    flagByte x.mismatchReported] ++ signed2 x.showPeakLong ++
  x.channels.toList.flatMap Channel.bytes ++ x.sum.bytes

/-- The length of a screen's section of a SCREEN_STATUS reply. -/
def statusSize : Nat := 198

/-- SCREEN_STATUS as the Management Unit executes it (R47). -/
def cmdScreenStatus (c : Command) : State → State × Answer :=
  screenCommand c.payload.isEmpty statusSize (fun _ _ => none)
    (fun i s => (s, s.screens[i].bytes s.timeBase)) c

/-- SCREEN_STATUS. -/
def execScreenStatus (a : CmdArgs) (s : State) : Answered := .next (commandRow cmdScreenStatus (commandOf 18#8 a) s)

/-! ### SCREEN_RESUME (R27) -/

/-- The checks of R27. -/
def checkResume (i : Fin 8) (s : State) : Option Result :=
  firstFailure [(s.screens[i].state != .stopped, .badState), (s.stopActive, .stopActive)]

/-- SCREEN_RESUME as the Management Unit executes it (R27). -/
def cmdScreenResume (c : Command) : State → State × Answer :=
  screenCommand c.payload.isEmpty 0 checkResume (fun i s => (resumeScreen i s, [])) c

/-- SCREEN_RESUME. -/
def execScreenResume (a : CmdArgs) (s : State) : Answered := .next (commandRow cmdScreenResume (commandOf 19#8 a) s)

/-! ### FADER_SET (R40) -/

/-- The target and time of FADER_SET. -/
def readFader (c : Command) : Option (Nat × Nat) := do
  let target ← readRange 0 100 (c.num 0)
  let ms ← readRange 0 60000 (c.num2 1)
  pure (target, ms)

/-- The checks of R40. -/
def checkFader (c : Command) (i : Fin 8) (s : State) : Option Result :=
  firstFailure [(s.isOff i, .badState), (s.isAligning i, .busy), ((readFader c).isNone, .badValue)]

/-- The effect of FADER_SET. -/
def effectFader (c : Command) (i : Fin 8) (s : State) : State × List Byte :=
  match readFader c with
  | none => (s, [])
  | some x => (requestFader i x.1 x.2 s, [])

/-- FADER_SET as the Management Unit executes it (R40). -/
def cmdFaderSet (c : Command) : State → State × Answer :=
  screenCommand (c.payload.length == 3) 0 (checkFader c) (effectFader c) c

/-- FADER_SET. -/
def execFaderSet (a : CmdArgs) (s : State) : Answered := .next (commandRow cmdFaderSet (commandOf 20#8 a) s)

/-! ### MUTE_SET (R43) -/

/-- The channel of MUTE_SET, none for the word SCREEN, and on or off. -/
def readMute (c : Command) : Option (Option (Fin 16) × Bool) := do
  let channel ← readOptional 16 (c.byte 0)
  let on ← readFlag (c.byte 1)
  pure (channel, on)

/-- A channel named by a command is in use on the screen, or none is named. -/
def Screen.hasChannel (x : Screen) : Option (Fin 16) → Bool
  | none => true
  | some k => decide (k.val < x.count)

/-- The checks of R43: the screen in service, then the channel. The on or off byte, which R43 does not order, is a value
that comes before the state (R163). -/
def checkMute (c : Command) (i : Fin 8) (s : State) : Option Result :=
  let bad := match readMute c with
    | none => true
    | some x => !s.screens[i].hasChannel x.1
  firstFailure [((readFlag (c.byte 1)).isNone, .badValue), (s.isOff i, .badState), (bad, .badValue)]

/-- COMMAND is added to or removed from the set named (R43). -/
def setCommandMute (i : Fin 8) (channel : Option (Fin 16)) (on : Bool) (s : State) : State :=
  match channel with
  | none => s.onScreen i fun x => { x with mutes := { x.mutes with command := on } }
  | some k => s.onChannel i k fun ch => { ch with mutes := { ch.mutes with command := on } }

/-- The effect of MUTE_SET. -/
def effectMute (c : Command) (i : Fin 8) (s : State) : State × List Byte :=
  match readMute c with
  | none => (s, [])
  | some x => (setCommandMute i x.1 x.2 s, [])

/-- MUTE_SET as the Management Unit executes it (R43). -/
def cmdMuteSet (c : Command) : State → State × Answer :=
  screenCommand (c.payload.length == 2) 0 (checkMute c) (effectMute c) c

/-- MUTE_SET. -/
def execMuteSet (a : CmdArgs) (s : State) : Answered := .next (commandRow cmdMuteSet (commandOf 21#8 a) s)

/-! ### REHEARSAL_SET (R46) -/

/-- The check of R46. -/
def checkRehearsal (c : Command) (_ : Fin 8) (_ : State) : Option Result :=
  if (readFlag (c.byte 0)).isNone then some .badValue else none

/-- The effect of REHEARSAL_SET (R46). -/
def effectRehearsal (c : Command) (i : Fin 8) (s : State) : State × List Byte :=
  match readFlag (c.byte 0) with
  | none => (s, [])
  | some on => (s.onScreen i fun x => { x with rehearsal := on }, [])

/-- REHEARSAL_SET as the Management Unit executes it (R46). -/
def cmdRehearsalSet (c : Command) : State → State × Answer :=
  screenCommand (c.payload.length == 1) 0 (checkRehearsal c) (effectRehearsal c) c

/-- REHEARSAL_SET. -/
def execRehearsalSet (a : CmdArgs) (s : State) : Answered :=
  .next (commandRow cmdRehearsalSet (commandOf 22#8 a) s)

/-! ### CHANNEL_SETUP (R32) -/

/-- The channel, trim and delay of CHANNEL_SETUP. -/
def readChannelSetup (c : Command) : Option (Fin 16 × Level × Nat) := do
  let channel ← readIndex 16 (c.byte 0)
  let trim ← readLevel (-48) 24 (c.int 1)
  let delay ← readRange 0 4800 (c.num2 2)
  pure (channel, trim, delay)

/-- The checks of R32. -/
def checkChannelSetup (c : Command) (i : Fin 8) (s : State) : Option Result :=
  let bad := match readChannelSetup c with
    | none => true
    | some x => !s.screens[i].hasChannel (some x.1)
  firstFailure [(s.isOff i, .badState), (s.isAligning i, .busy), (bad, .badValue)]

/-- The effect of CHANNEL_SETUP (R32). -/
def effectChannelSetup (c : Command) (i : Fin 8) (s : State) : State × List Byte :=
  match readChannelSetup c with
  | none => (s, [])
  | some x => (s.onChannel i x.1 fun ch => { ch with trim := x.2.1, delay := x.2.2 }, [])

/-- CHANNEL_SETUP as the Management Unit executes it (R32). -/
def cmdChannelSetup (c : Command) : State → State × Answer :=
  screenCommand (c.payload.length == 4) 0 (checkChannelSetup c) (effectChannelSetup c) c

/-- CHANNEL_SETUP. -/
def execChannelSetup (a : CmdArgs) (s : State) : Answered :=
  .next (commandRow cmdChannelSetup (commandOf 23#8 a) s)

end Sys2Proof.Machine
end

