-- ==== Sys2Proof/Machine/EqCommands.lean ====
section
/-!
DEFINITION. The commands of the EQ Bank Store (chapter 4): EQ_LOAD in both forms, EQ_COPY, EQ_SWAP, EQ_READ and
CURVE_LOAD.
-/

namespace Sys2Proof.Machine

/-- The screen's banks cannot be written or swapped: it is in ALIGN, or a swap crossfade is in flight (R68 to R71). -/
def State.eqBusy (s : State) (i : Fin 8) : Bool := s.isAligning i || s.screens[i].eqSwap.isSome

/-- The staging bank of a channel changed. -/
def onStagingBank (i : Fin 8) (c : Fin 16) (f : EqBank → EqBank) (s : State) : State :=
  s.onBanks i c fun x => x.onStaging s.screens[i].eqLive fun _ bank => f bank

/-! ### EQ_LOAD in its graphic form (R68) -/

/-- The checks of R68. -/
def checkEqGraphic (c : Command) (i : Fin 8) (s : State) : Option Result :=
  firstFailure [((readIndex 16 (c.byte 1)).isNone, .badIndex), (s.eqBusy i, .busy), ((c.bands 2).isNone, .badValue)]

/-- The effect of EQ_LOAD in its graphic form (R68). -/
def effectEqGraphic (c : Command) (i : Fin 8) (s : State) : State × List Byte :=
  match readIndex 16 (c.byte 1), c.bands 2 with
  | some k, some g =>
    (onStagingBank i k (fun b => { b with graphic := g, origin := .loaded, passStamp := 0 }) s, [])
  | _, _ => (s, [])

/-- EQ_LOAD in its graphic form, its form byte among its payload (R68). -/
def cmdEqLoadGraphic (c : Command) : State → State × Answer :=
  screenCommand (c.payload.length == 33) 0 (checkEqGraphic c) (effectEqGraphic c) c

/-- EQ_LOAD_GRAPHIC. -/
def execEqLoadGraphic (a : CmdArgs) (s : State) : Answered :=
  .next (commandRow cmdEqLoadGraphic (formCommandOf 48#8 0#8 a) s)

/-! ### EQ_LOAD in its section form (R69) -/

/-- The types of a section in the order of their codes (section 11.4). -/
def sectionTypes : List SectionType := [.none, .peak, .lowShelf, .highShelf, .lowCut, .highCut]

/-- A section as the bank stores it: the fields that R65 stores as 0 are 0. -/
def storedSection (t : SectionType) (freq : Nat) (gain : Level) (q : Nat) : EqSection :=
  match t with
  | .none => ⟨.none, 0, 0, 0⟩
  | .lowCut => ⟨.lowCut, freq, 0, q⟩
  | .highCut => ⟨.highCut, freq, 0, q⟩
  | t => ⟨t, freq, gain, q⟩

/-- The section of the payload; none where a value is out of range (R69, check 3). -/
def readSection (c : Command) : Option EqSection := do
  let t ← readCode sectionTypes (c.byte 3)
  let freq ← readRange 0 119 (c.num 4)
  let gain ← readLevel (-48) 24 (c.int 5)
  let q ← readRange 0 31 (c.num 6)
  pure (storedSection t freq gain q)

/-- The channel and section index of the payload (R69, check 1). -/
def readSectionPlace (c : Command) : Option (Fin 16 × Fin 8) := do
  let channel ← readIndex 16 (c.byte 1)
  let k ← readIndex 8 (c.byte 2)
  pure (channel, k)

/-- The checks of R69. -/
def checkEqSection (c : Command) (i : Fin 8) (s : State) : Option Result :=
  firstFailure [((readSectionPlace c).isNone, .badIndex), (s.eqBusy i, .busy), ((readSection c).isNone, .badValue)]

/-- The effect of EQ_LOAD in its section form (R69). -/
def effectEqSection (c : Command) (i : Fin 8) (s : State) : State × List Byte :=
  match readSectionPlace c, readSection c with
  | some p, some x =>
    (onStagingBank i p.1 (fun b =>
      { b with sections := b.sections.set p.2 x, origin := .loaded, passStamp := 0 }) s, [])
  | _, _ => (s, [])

/-- EQ_LOAD in its section form, its form byte among its payload (R69). -/
def cmdEqLoadSection (c : Command) : State → State × Answer :=
  screenCommand (c.payload.length == 7) 0 (checkEqSection c) (effectEqSection c) c

/-- EQ_LOAD_SECTION. -/
def execEqLoadSection (a : CmdArgs) (s : State) : Answered :=
  .next (commandRow cmdEqLoadSection (formCommandOf 48#8 1#8 a) s)

/-- The checks of EQ_LOAD with a form byte that names no form: the channel, which both forms carry in byte 1, and then
the form (R163, R165; log entry 20). -/
def checkEqForm (c : Command) (_ : Fin 8) (_ : State) : Option Result :=
  firstFailure [((readIndex 16 (c.byte 1)).isNone, .badIndex), (true, .badValue)]

/-- EQ_LOAD as the Management Unit executes it, by its form byte: another form is judged against the shortest form's
length and then refused (R165). -/
def cmdEqLoad (c : Command) : State → State × Answer :=
  if c.payload.head? = some 0#8 then cmdEqLoadGraphic c
  else if c.payload.head? = some 1#8 then cmdEqLoadSection c
  else screenCommand (c.payload.length == 7) 0 (checkEqForm c) (fun _ s => (s, [])) c

/-! ### EQ_COPY (R70) -/

/-- The check of R70. -/
def checkEqBusy (i : Fin 8) (s : State) : Option Result := if s.eqBusy i then some .busy else none

/-- The live banks of a screen copied into the staging banks (R70). -/
def copyBanks (i : Fin 8) (s : State) : State :=
  (indexes 16).foldl (fun s c => s.onBanks i c fun x =>
    x.onStaging s.screens[i].eqLive fun live _ => { live with origin := .copied }) s

/-- EQ_COPY as the Management Unit executes it (R70). -/
def cmdEqCopy (c : Command) : State → State × Answer :=
  screenCommand c.payload.isEmpty 0 checkEqBusy (fun i s => (copyBanks i s, [])) c

/-- EQ_COPY. -/
def execEqCopy (a : CmdArgs) (s : State) : Answered := .next (commandRow cmdEqCopy (commandOf 49#8 a) s)

/-! ### EQ_SWAP (R71) -/

/-- The checks of R71. -/
def checkSwap (i : Fin 8) (s : State) : Option Result :=
  firstFailure [(s.isOff i, .badState), (s.eqBusy i, .busy)]

/-- EQ_SWAP as the Management Unit executes it (R71). -/
def cmdEqSwap (c : Command) : State → State × Answer :=
  screenCommand c.payload.isEmpty 0 checkSwap (fun i s => (swapBanks i s, [])) c

/-- EQ_SWAP. -/
def execEqSwap (a : CmdArgs) (s : State) : Answered := .next (commandRow cmdEqSwap (commandOf 50#8 a) s)

/-! ### EQ_READ (R75) -/

/-- The codes of the origins, in the order of section 4.1. -/
def Origin.code : Origin → Nat
  | .flat => 0
  | .loaded => 1
  | .copied => 2
  | .aligned => 3

/-- The codes of the section types (section 11.4). -/
def SectionType.code : SectionType → Nat
  | .none => 0
  | .peak => 1
  | .lowShelf => 2
  | .highShelf => 3
  | .lowCut => 4
  | .highCut => 5

/-- A section as EQ_READ returns it. -/
def EqSection.bytes (x : EqSection) : List Byte :=
  bytes1 x.type.code ++ bytes1 x.freq ++ signed1 x.gain ++ bytes1 x.q

/-- A bank as EQ_READ returns it, in the order of R75 (log entry 19). -/
def EqBank.bytes (b : EqBank) : List Byte :=
  b.graphic.toList.flatMap signed1 ++ b.sections.toList.flatMap EqSection.bytes ++ bytes1 b.origin.code ++
    bytes1 b.passStamp

/-- The bank of the payload. -/
def readBank (b : Byte) : Option BankName := readCode [.a, .b] b

/-- The checks of R75. -/
def checkEqRead (c : Command) (_ : Fin 8) (_ : State) : Option Result :=
  firstFailure [((readIndex 16 (c.byte 0)).isNone, .badIndex), ((readBank (c.byte 1)).isNone, .badValue)]

/-- The reply of EQ_READ (R75). -/
def effectEqRead (c : Command) (i : Fin 8) (s : State) : State × List Byte :=
  match readIndex 16 (c.byte 0), readBank (c.byte 1) with
  | some k, some name =>
    (s, (s.eq[i][k].bank name).bytes ++ bytes1 s.screens[i].eqLive.code ++ [flagByte s.screens[i].eqSwap.isSome])
  | _, _ => (s, [])

/-- The length of a screen's section of an EQ_READ reply. -/
def bankSize : Nat := 67

/-- EQ_READ as the Management Unit executes it (R75). -/
def cmdEqRead (c : Command) : State → State × Answer :=
  screenCommand (c.payload.length == 2) bankSize (checkEqRead c) (effectEqRead c) c

/-- EQ_READ. -/
def execEqRead (a : CmdArgs) (s : State) : Answered := .next (commandRow cmdEqRead (commandOf 51#8 a) s)

/-! ### CURVE_LOAD (R76, R77) -/

/-- The curve is in use by a running alignment (R76). -/
def curveInUse (k : Option (Fin 4)) (s : State) : Bool := k == some s.run.curve && s.run.outcome == .running

/-- The curve that CURVE_LOAD writes; none where a value is out of range (R77). -/
def readCurve (c : Command) : Option Curve := do
  let valid ← readFlag (c.byte 1)
  if valid then
    let low ← readRange 0 30 (c.num 2)
    let high ← readRange low 30 (c.num 3)
    let targets ← c.bands 4
    let tolerance ← readRange 1 24 (c.num 35)
    pure ⟨true, low, high, targets, tolerance⟩
  else pure invalidCurve

/-- The checks of R77. A valid flag other than 0 and 1, which R77 does not list, is a value that comes after the index
and before the state (R163, R183). -/
def checkCurveLoad (c : Command) (s : State) : Option Result :=
  let k := readIndex 4 (c.byte 0)
  firstFailure [(k.isNone, .badIndex), ((readFlag (c.byte 1)).isNone, .badValue), (curveInUse k s, .inUse),
    ((readCurve c).isNone, .badValue)]

/-- The effect of CURVE_LOAD (R77). -/
def effectCurveLoad (c : Command) (s : State) : State × List Byte :=
  match readIndex 4 (c.byte 0), readCurve c with
  | some k, some x => ({ s with curves := s.curves.set k x }, [])
  | _, _ => (s, [])

/-- CURVE_LOAD as the Management Unit executes it (R77). -/
def cmdCurveLoad (c : Command) : State → State × Answer :=
  unitCommand (c.payload.length == 36) (checkCurveLoad c) (effectCurveLoad c) c

/-- CURVE_LOAD. -/
def execCurveLoad (a : CmdArgs) (s : State) : Answered := .next (commandRow cmdCurveLoad (commandOf 52#8 a) s)

end Sys2Proof.Machine
end

