-- ==== Sys2Proof/Machine/AlignCommands.lean ====
section
/-!
DEFINITION. The commands of the Alignment Engine (chapter 5): ALIGN_START, ALIGN_ABORT and ALIGN_READ.
-/

namespace Sys2Proof.Machine

/-! ### ALIGN_START (R80, R81) -/

/-- The curve of the payload, where it is valid (R80, check 5). -/
def readRunCurve (c : Command) (s : State) : Option (Fin 4) :=
  (readIndex 4 (c.byte 0)).filter fun k => s.curves[k].valid

/-- The mode and parameters of a run without its channels (R80, check 6). -/
structure RunParameters where
  mode : AlignMode
  passesMax : Nat
  settleMs : Nat
  dwellMs : Nat
  testLevel : Level
  fromFlat : Bool
  deriving DecidableEq, Repr

/-- The parameters of the payload (R80, check 6). -/
def readRunParameters (c : Command) : Option RunParameters := do
  let mode ← readCode [.measureOnly, .correct] (c.byte 1)
  let passesMax ← readRange 1 8 (c.num 2)
  let settleMs ← readRange 100 2000 (c.num2 3)
  let dwellMs ← readRange 500 10000 (c.num2 5)
  let testLevel ← readLevel (-120) (-20) (c.int 7)
  let fromFlat ← readFlag (c.byte 8)
  pure ⟨mode, passesMax, settleMs, dwellMs, testLevel, fromFlat⟩

/-- The channel list of the payload for a screen of `count` channels (R80, check 7). -/
def readRunChannels (c : Command) (count : Nat) : Option (List (Fin 16)) := do
  let n ← readRange 1 16 (c.num 9)
  let channels ← allSome (((c.payload.drop 10).take n).map (readIndex 16))
  if !hasRepeat channels && channels.all fun k => decide (k.val < count) then pure channels else none

/-- The checks of R80. -/
def checkAlignStart (c : Command) (i : Fin 8) (s : State) : Option Result :=
  let x := s.screens[i]
  firstFailure [
    (s.run.engine != .idle, .busy),
    (s.stopActive, .stopActive),
    (x.state != .dark, .badState),
    (x.micChannel.isNone, .badState),
    ((readRunCurve c s).isNone, .badIndex),
    ((readRunParameters c).isNone, .badValue),
    ((readRunChannels c x.count).isNone, .badValue)]

/-- The effect of ALIGN_START (R81). -/
def effectAlignStart (c : Command) (i : Fin 8) (s : State) : State :=
  match readRunCurve c s, readRunParameters c, readRunChannels c s.screens[i].count with
  | some curve, some p, some channels =>
    startRun i ⟨curve, p.mode, p.passesMax, p.settleMs, p.dwellMs, p.testLevel, p.fromFlat, channels⟩ s
  | _, _, _ => s

/-- The length of ALIGN_START suits the count it carries (R165). -/
def alignLengthSuits (c : Command) : Bool :=
  decide (10 ≤ c.payload.length) && c.payload.length == 10 + c.num 9

/-- ALIGN_START as the Management Unit executes it (R80, R81). -/
def cmdAlignStart (c : Command) : State → State × Answer :=
  oneScreenCommand (alignLengthSuits c) (checkAlignStart c) (effectAlignStart c) c

/-- ALIGN_START. -/
def execAlignStart (a : CmdArgs) (s : State) : Answered := .next (commandRow cmdAlignStart (commandOf 64#8 a) s)

/-! ### ALIGN_ABORT (R95) -/

/-- The check of R95. -/
def checkAlignAbort (i : Fin 8) (s : State) : Option Result := if s.isAligning i then none else some .badState

/-- The effect of ALIGN_ABORT (R94, R95). -/
def abortByCommand (i : Fin 8) (s : State) : State := enterState i .dark (overtakeRun .command s)

/-- ALIGN_ABORT as the Management Unit executes it (R95). -/
def cmdAlignAbort (c : Command) : State → State × Answer :=
  screenCommand c.payload.isEmpty 0 checkAlignAbort (fun i s => (abortByCommand i s, [])) c

/-- ALIGN_ABORT. -/
def execAlignAbort (a : CmdArgs) (s : State) : Answered := .next (commandRow cmdAlignAbort (commandOf 65#8 a) s)

/-! ### ALIGN_READ (R79) -/

/-- The codes of the modes (section 11.4). -/
def AlignMode.code : AlignMode → Nat
  | .measureOnly => 0
  | .correct => 1

/-- The codes of the engine states, in the order of section 5.1. -/
def EngineState.code : EngineState → Nat
  | .idle => 0
  | .settle => 1
  | .dwell => 2

/-- The outcome and its reason: RUNNING 0, COMPLETE 1, ABORTED 2 with the reason of section 11.3 (log entry 19). -/
def RunOutcome.bytes : RunOutcome → List Byte
  | .running => [0#8, 0#8]
  | .complete => [1#8, 0#8]
  | .aborted r => [2#8] ++ bytes1 r.code

/-- A channel's result as ALIGN_READ returns it. -/
def ChannelResult.bytes (r : ChannelResult) : List Byte :=
  bytes1 r.channel.val ++ bytes1 r.result.code ++ bytes1 r.passesUsed ++ [flagByte r.limited] ++
    r.bandLevels.toList.flatMap signed2 ++ bytes2 r.deviation

/-- The time elapsed in the phase, 0 when IDLE (R79). -/
def RunRecord.phaseElapsed (r : RunRecord) (now : Word) : Nat :=
  if r.engine = .idle then 0 else elapsed now r.phaseStart

/-- The run record as ALIGN_READ returns it, in the order of R79 (log entry 19). -/
def RunRecord.bytes (r : RunRecord) (now : Word) : List Byte :=
  [flagByte r.present] ++ bytes1 r.screen.val ++ bytes1 r.curve.val ++ bytes1 r.mode.code ++ bytes1 r.passesMax ++
  bytes2 r.settleMs ++ bytes2 r.dwellMs ++ signed1 r.testLevel ++ [flagByte r.fromFlat] ++
  bytes1 r.channels.length ++ r.channels.flatMap (fun c => bytes1 c.val) ++ bytes1 r.position ++ bytes1 r.pass ++
  bytes1 r.engine.code ++ bytes2 (r.phaseElapsed now) ++ r.outcome.bytes ++ r.results.flatMap ChannelResult.bytes

/-- ALIGN_READ as the Management Unit executes it (R79). -/
def cmdAlignRead (c : Command) : State → State × Answer :=
  unitCommand c.payload.isEmpty (fun _ => none) (fun s => (s, s.run.bytes s.timeBase)) c

/-- ALIGN_READ. -/
def execAlignRead (a : CmdArgs) (s : State) : Answered := .next (commandRow cmdAlignRead (commandOf 66#8 a) s)

end Sys2Proof.Machine
end

