-- ==== Sys2Proof/Machine/FormatCommands.lean ====
section
/-!
DEFINITION. The format commands (chapter 3): FORMAT_LOAD, FORMAT_CLEAR, FORMAT_ARM, FORMAT_TAKE and FORMAT_READ.
-/

namespace Sys2Proof.Machine

/-! ### The payload of FORMAT_LOAD (section 11.4, R52, R165) -/

/-- The bytes hold exactly `n` counted rows of 3-byte pairs. -/
def rowsFit : Nat → List Byte → Bool
  | 0, xs => xs.isEmpty
  | _ + 1, [] => false
  | n + 1, p :: xs => decide (3 * p.toNat ≤ xs.length) && rowsFit n (xs.drop (3 * p.toNat))

/-- The length of FORMAT_LOAD suits the counts it carries; a kind that is neither is judged as DISCRETE (R165,
R183). -/
def formatLengthSuits (c : Command) : Bool :=
  let body := 12 + 5 * c.num 11
  decide (12 ≤ c.payload.length) &&
    (if c.num 9 = 1 then decide (body + 4 ≤ c.payload.length) && rowsFit 5 (c.payload.drop (body + 4))
    else c.payload.length == body)

/-- A routing term from its five bytes. -/
def readTerm (b : List Byte) : Option RoutingTerm := do
  let output ← readIndex 16 (b.getD 0 0#8)
  let input ← readIndex 16 (b.getD 1 0#8)
  let gain ← readLevel (-240) 0 (signedPair (b.getD 2 0#8) (b.getD 3 0#8))
  let invert ← readFlag (b.getD 4 0#8)
  pure ⟨output, input, gain, invert⟩

/-- A pair of a steering row from its three bytes. -/
def readPair (b : List Byte) : Option RowPair := do
  let output ← readIndex 16 (b.getD 0 0#8)
  let offset ← readLevel (-240) 24 (signedPair (b.getD 1 0#8) (b.getD 2 0#8))
  pure ⟨output, offset⟩

/-- A steering row of at most 16 pairs with no output twice (R52). -/
def readRow (p : Nat) (bytes : List Byte) : Option (List RowPair) := do
  let pairs ← allSome ((chunks 3 p bytes).map readPair)
  if p ≤ 16 && !hasRepeat (pairs.map (·.output)) then pure pairs else none

/-- The bytes of the rows, one list for each of `n` rows, each with its count. -/
def splitRows : Nat → List Byte → List (Nat × List Byte)
  | 0, _ => []
  | _ + 1, [] => []
  | n + 1, p :: xs => (p.toNat, xs.take (3 * p.toNat)) :: splitRows n (xs.drop (3 * p.toNat))

/-- The matrix part from its bytes (R52). -/
def readMatrix (b : List Byte) : Option MatrixPart := do
  let enter ← readRange 2 40 (b.getD 0 0#8).toNat
  let exit ← readRange 1 39 (b.getD 1 0#8).toNat
  let hold ← readRange 1 3000 (nat2 (b.getD 2 0#8) (b.getD 3 0#8))
  let rows ← allSome ((splitRows 5 (b.drop 4)).map fun r => readRow r.1 r.2)
  match rows with
  | [neutral, left, centre, right, surround] =>
    if exit < enter then pure ⟨enter, exit, hold, neutral, left, centre, right, surround⟩ else none
  | _ => none

/-- The matrix part that a kind calls for: present for MATRIX, absent for DISCRETE. -/
def readMatrixPart (c : Command) : FormatKind → Option (Option MatrixPart)
  | .discrete => some none
  | .matrix => (readMatrix (c.payload.drop (12 + 5 * c.num 11))).map some

/-- A label of eight characters of code 32–126. -/
def readLabel (bytes : List Byte) : Option (Vector Byte 8) :=
  if bytes.all fun b => decide (32 ≤ b.toNat ∧ b.toNat ≤ 126) then toVector 8 bytes else none

/-- The content of FORMAT_LOAD; none where it breaks R52. -/
def readFormat (c : Command) : Option FormatEntry := do
  let label ← readLabel ((c.payload.drop 1).take 8)
  let kind ← readCode [.discrete, .matrix] (c.byte 9)
  let inputs ← readRange 1 16 (c.num 10)
  let count ← readRange 1 64 (c.num 11)
  let terms ← allSome ((chunks 5 count (c.payload.drop 12)).map readTerm)
  let matrix ← readMatrixPart c kind
  if !hasRepeat (terms.map fun t => (t.output, t.input)) && (kind != .matrix || inputs == 2) then
    pure ⟨true, label, kind, inputs, terms, matrix, 0⟩
  else none

/-! ### FORMAT_LOAD (R52) -/

/-- A format entry is referred to (R51). -/
def formatInUse (k : Option (Fin 32)) (s : State) : Bool :=
  match k with
  | none => false
  | some k => decide (0 < s.formats[k].useCount)

/-- The invert byte of every routing term that the payload carries is 0 or 1. -/
def invertsAreFlags (c : Command) : Bool :=
  (chunks 5 (c.num 11) (c.payload.drop 12)).all fun b => (readFlag (b.getD 4 0#8)).isSome

/-- The checks of R52. The invert bytes, which R52 does not list, are values that come after the index and before the
state (R163, R183). -/
def checkFormatLoad (c : Command) (s : State) : Option Result :=
  let k := readIndex 32 (c.byte 0)
  firstFailure [(k.isNone, .badIndex), (!invertsAreFlags c, .badValue), (formatInUse k s, .inUse),
    ((readFormat c).isNone, .badValue)]

/-- The effect of FORMAT_LOAD (R52). -/
def effectFormatLoad (c : Command) (s : State) : State × List Byte :=
  match readIndex 32 (c.byte 0), readFormat c with
  | some k, some f => (s.onFormat k fun _ => f, [])
  | _, _ => (s, [])

/-- FORMAT_LOAD as the Management Unit executes it (R52). -/
def cmdFormatLoad (c : Command) : State → State × Answer :=
  unitCommand (formatLengthSuits c) (checkFormatLoad c) (effectFormatLoad c) c

/-- FORMAT_LOAD. -/
def execFormatLoad (a : CmdArgs) (s : State) : Answered := .next (commandRow cmdFormatLoad (commandOf 32#8 a) s)

/-! ### FORMAT_CLEAR and FORMAT_READ (R53) -/

/-- The checks of FORMAT_CLEAR (R53). -/
def checkFormatClear (c : Command) (s : State) : Option Result :=
  let k := readIndex 32 (c.byte 0)
  firstFailure [(k.isNone, .badIndex), (formatInUse k s, .inUse)]

/-- The effect of FORMAT_CLEAR (R53). -/
def effectFormatClear (c : Command) (s : State) : State × List Byte :=
  match readIndex 32 (c.byte 0) with
  | none => (s, [])
  | some k => (s.onFormat k fun _ => invalidFormat, [])

/-- FORMAT_CLEAR as the Management Unit executes it (R53). -/
def cmdFormatClear (c : Command) : State → State × Answer :=
  unitCommand (c.payload.length == 1) (checkFormatClear c) (effectFormatClear c) c

/-- FORMAT_CLEAR. -/
def execFormatClear (a : CmdArgs) (s : State) : Answered := .next (commandRow cmdFormatClear (commandOf 33#8 a) s)

/-- A routing term as FORMAT_READ returns it. -/
def RoutingTerm.bytes (t : RoutingTerm) : List Byte :=
  bytes1 t.output.val ++ bytes1 t.input.val ++ signed2 t.gain ++ [flagByte t.invert]

/-- A steering row as FORMAT_READ returns it. -/
def rowBytes (row : List RowPair) : List Byte :=
  bytes1 row.length ++ row.flatMap fun p => bytes1 p.output.val ++ signed2 p.offset

/-- The matrix part as FORMAT_READ returns it. -/
def MatrixPart.bytes (m : MatrixPart) : List Byte :=
  bytes1 m.enter ++ bytes1 m.exit ++ bytes2 m.hold ++
    [m.neutral, m.left, m.centre, m.right, m.surround].flatMap rowBytes

/-- The codes of the kinds (section 11.4). -/
def FormatKind.code : FormatKind → Nat
  | .discrete => 0
  | .matrix => 1

/-- A format entry as FORMAT_READ returns it, in the order of R53 (log entry 19). -/
def FormatEntry.bytes (f : FormatEntry) : List Byte :=
  [flagByte f.valid] ++ f.label.toList ++ bytes1 f.kind.code ++ bytes1 f.inputsExpected ++
  bytes1 f.terms.length ++ f.terms.flatMap RoutingTerm.bytes ++
  (match f.matrix with
    | none => []
    | some m => m.bytes) ++ bytes1 f.useCount

/-- The check of FORMAT_READ (R53). -/
def checkFormatRead (c : Command) (_ : State) : Option Result :=
  if (readIndex 32 (c.byte 0)).isNone then some .badIndex else none

/-- The reply of FORMAT_READ (R53). -/
def effectFormatRead (c : Command) (s : State) : State × List Byte :=
  match readIndex 32 (c.byte 0) with
  | none => (s, [])
  | some k => (s, s.formats[k].bytes)

/-- FORMAT_READ as the Management Unit executes it (R53). -/
def cmdFormatRead (c : Command) : State → State × Answer :=
  unitCommand (c.payload.length == 1) (checkFormatRead c) (effectFormatRead c) c

/-- FORMAT_READ. -/
def execFormatRead (a : CmdArgs) (s : State) : Answered := .next (commandRow cmdFormatRead (commandOf 36#8 a) s)

/-! ### FORMAT_ARM (R54) -/

/-- The checks of R54. -/
def checkArm (c : Command) (i : Fin 8) (s : State) : Option Result :=
  match readOptional 32 (c.byte 0) with
  | none => firstFailure [(s.isOff i, .badState), (true, .badIndex)]
  | some none => firstFailure [(s.isOff i, .badState)]
  | some (some k) => firstFailure [(s.isOff i, .badState), (!s.formats[k].valid, .badIndex),
      (!s.formats[k].fits s.screens[i].count, .badValue)]

/-- The effect of FORMAT_ARM (R54). -/
def effectArm (c : Command) (i : Fin 8) (s : State) : State × List Byte :=
  match readOptional 32 (c.byte 0) with
  | none => (s, [])
  | some k => (armFormat i k s, [])

/-- FORMAT_ARM as the Management Unit executes it (R54). -/
def cmdFormatArm (c : Command) : State → State × Answer :=
  screenCommand (c.payload.length == 1) 0 (checkArm c) (effectArm c) c

/-- FORMAT_ARM. -/
def execFormatArm (a : CmdArgs) (s : State) : Answered := .next (commandRow cmdFormatArm (commandOf 34#8 a) s)

/-! ### FORMAT_TAKE (R55) -/

/-- The checks of R55. -/
def checkTake (c : Command) (i : Fin 8) (s : State) : Option Result :=
  firstFailure [(s.isOff i, .badState), (decide (2000 < c.num2 0), .badValue), (s.isAligning i, .badState),
    (s.screens[i].pendingFormat.isNone, .badState)]

/-- FORMAT_TAKE as the Management Unit executes it (R55). -/
def cmdFormatTake (c : Command) : State → State × Answer :=
  screenCommand (c.payload.length == 2) 0 (checkTake c) (fun i s => (takeFormat i (c.num2 0) s, [])) c

/-- FORMAT_TAKE. -/
def execFormatTake (a : CmdArgs) (s : State) : Answered := .next (commandRow cmdFormatTake (commandOf 35#8 a) s)

end Sys2Proof.Machine
end

