-- ==== Sys2Proof/Machine/MonitorCommands.lean ====
section
/-!
DEFINITION. The commands of the Level Monitor Unit (chapter 6): MONITOR_LOAD, MONITOR_ENABLE, MONITOR_DISABLE,
MONITOR_ACK and MONITOR_STATUS.
-/

namespace Sys2Proof.Machine

/-! ### MONITOR_LOAD (R102) -/

/-- The point of the payload; the channel byte is ignored for SUM (R183). -/
def readPoint (kind channel : Byte) : Option MonitorPoint :=
  match kind.toNat with
  | 0 => (readIndex 16 channel).map .input
  | 1 => (readIndex 16 channel).map .output
  | 2 => some .sum
  | _ => none

/-- The condition codes (section 11.4). -/
def conditions : List Condition := [.above, .below, .outside, .inside, .jump, .track]

/-- The thresholds as stored for a condition; none where they break R99 to R101. B is stored as 0 where it is unused
(R102). -/
def readThresholds (condition : Condition) (a b : Int) : Option (Level × Level) :=
  let level := fun (x : Int) => decide (-240 ≤ x ∧ x ≤ 0)
  match condition with
  | .above => if level a then some (a, 0) else none
  | .below => if level a then some (a, 0) else none
  | .outside => if level a && level b && decide (a < b) then some (a, b) else none
  | .inside => if level a && level b && decide (a ≤ b) then some (a, b) else none
  | .jump => if 1 ≤ a ∧ a ≤ 240 then some (a, 0) else none
  | .track => if 1 ≤ a ∧ a ≤ 240 then some (a, 0) else none

/-- The partner as stored: a loaded entry of the same screen other than the one being loaded for TRACK, absent for
every other condition (R102). -/
def readPartner (s : State) (k : Fin 48) (screen : Fin 8) (condition : Condition) (b : Byte) :
    Option (Option (Fin 48)) :=
  if condition = .track then do
    let p ← readIndex 48 b
    if p ≠ k ∧ s.monitors[p].loaded ∧ s.monitors[p].content.screen = screen then pure (some p) else none
  else some none

/-- The action of the payload; the ceiling bits are ignored for any action but FADER_CEILING, and MUTE_CHANNEL calls
for an OUTPUT point (R102, R183). -/
def readMonitorAction (code last : Byte) (point : MonitorPoint) : Option MonitorAction :=
  match code.toNat with
  | 0 => some .none
  | 1 => match point with
    | .output _ => some .muteChannel
    | _ => none
  | 2 => some .muteScreen
  | 3 => (readRange 0 100 (last.toNat % 128)).map .faderCeiling
  | 4 => some .houseStop
  | _ => none

/-- The content of MONITOR_LOAD for entry `k`; none where it breaks R102. -/
def readMonitor (s : State) (k : Fin 48) (c : Command) : Option MonitorContent := do
  let screen ← readIndex 8 (c.byte 1)
  let point ← readPoint (c.byte 2) (c.byte 3)
  let measure ← readCode [.peak, .short, .long] (c.byte 4)
  let condition ← readCode conditions (c.byte 5)
  let thresholds ← readThresholds condition (c.int2 7) (c.int2 9)
  let partner ← readPartner s k screen condition (c.byte 11)
  let holdMs ← readRange 0 60000 (c.num2 12)
  let releaseMs ← readRange 0 60000 (c.num2 14)
  let latch ← readFlag (c.byte 16)
  let watch ← readWatchSet (c.byte 17)
  let action ← readMonitorAction (c.byte 18) (c.byte 19) point
  pure ⟨screen, point, measure, condition, thresholds.1, thresholds.2, partner, holdMs, releaseMs, latch, watch,
    action, decide (128 ≤ c.num 19)⟩

/-- The monitor that a payload names in byte 0. -/
def readMonitorIndex (c : Command) : Option (Fin 48) := readIndex 48 (c.byte 0)

/-- The checks of R102. A point code above 2, which R102 does not list, is a value that comes after the index and before
the state (R163, R183). -/
def checkMonitorLoad (c : Command) (s : State) : Option Result :=
  match readMonitorIndex c with
  | none => some .badIndex
  | some k =>
    firstFailure [(decide (2 < c.num 2), .badValue), (s.monitors[k].enabled, .inUse),
      ((readMonitor s k c).isNone, .badValue)]

/-- An entry as an accepted MONITOR_LOAD leaves it: loaded, disabled and OFF, its trip record cleared (R102, R115). -/
def loadedMonitor (content : MonitorContent) : Monitor := ⟨true, false, content, .off, none, none, false, 0⟩

/-- The effect of MONITOR_LOAD (R102); the screen path derives its causes again (R44). -/
def effectMonitorLoad (c : Command) (s : State) : State × List Byte :=
  match readMonitorIndex c with
  | none => (s, [])
  | some k =>
    match readMonitor s k c with
    | none => (s, [])
    | some content => (deriveMonitors content.screen (s.onMonitor k fun _ => loadedMonitor content), [])

/-- MONITOR_LOAD as the Management Unit executes it (R102). -/
def cmdMonitorLoad (c : Command) : State → State × Answer :=
  unitCommand (c.payload.length == 20) (checkMonitorLoad c) (effectMonitorLoad c) c

/-- MONITOR_LOAD. -/
def execMonitorLoad (a : CmdArgs) (s : State) : Answered := .next (commandRow cmdMonitorLoad (commandOf 80#8 a) s)

/-! ### MONITOR_ENABLE and MONITOR_DISABLE (R103) -/

/-- The checks of MONITOR_ENABLE (R103). -/
def checkMonitorEnable (c : Command) (s : State) : Option Result :=
  match readMonitorIndex c with
  | none => some .badIndex
  | some k => if s.monitors[k].loaded then none else some .badState

/-- The monitor is enabled: CLEAR where its screen's state is in its watch set, else SUSPENDED (R103, R108). -/
def Monitor.enable (m : Monitor) (st : ScreenState) : Monitor :=
  { m with
    enabled := true
    state := if m.content.watch.holds st then .clear else .suspended
    mark := none
    prev := none }

/-- The effect of MONITOR_ENABLE (R103). -/
def effectMonitorEnable (c : Command) (s : State) : State × List Byte :=
  match readMonitorIndex c with
  | none => (s, [])
  | some k =>
    let m := s.monitors[k]
    if m.enabled then (s, [])
    else (deriveMonitors m.content.screen (s.onMonitor k fun m => m.enable s.screens[m.content.screen].state), [])

/-- MONITOR_ENABLE as the Management Unit executes it (R103). -/
def cmdMonitorEnable (c : Command) : State → State × Answer :=
  unitCommand (c.payload.length == 1) (checkMonitorEnable c) (effectMonitorEnable c) c

/-- MONITOR_ENABLE. -/
def execMonitorEnable (a : CmdArgs) (s : State) : Answered :=
  .next (commandRow cmdMonitorEnable (commandOf 81#8 a) s)

/-- The check of a command that names a monitor in any state. -/
def checkMonitorIndex (c : Command) (_ : State) : Option Result :=
  if (readMonitorIndex c).isNone then some .badIndex else none

/-- The monitor is disabled (R103). -/
def Monitor.disable (m : Monitor) : Monitor := { m with enabled := false, state := .off, mark := none, prev := none }

/-- The effect of MONITOR_DISABLE (R103). -/
def effectMonitorDisable (c : Command) (s : State) : State × List Byte :=
  match readMonitorIndex c with
  | none => (s, [])
  | some k =>
    let m := s.monitors[k]
    if m.enabled then (deriveMonitors m.content.screen (s.onMonitor k Monitor.disable), []) else (s, [])

/-- MONITOR_DISABLE as the Management Unit executes it (R103). -/
def cmdMonitorDisable (c : Command) : State → State × Answer :=
  unitCommand (c.payload.length == 1) (checkMonitorIndex c) (effectMonitorDisable c) c

/-- MONITOR_DISABLE. -/
def execMonitorDisable (a : CmdArgs) (s : State) : Answered :=
  .next (commandRow cmdMonitorDisable (commandOf 82#8 a) s)

/-! ### MONITOR_ACK (R107) -/

/-- The checks of MONITOR_ACK (R107). -/
def checkMonitorAck (c : Command) (s : State) : Option Result :=
  match readMonitorIndex c with
  | none => some .badIndex
  | some k => if s.monitors[k].state = .latched then none else some .badState

/-- A latched monitor is acknowledged (R107, R113, R114). -/
def acknowledge (k : Fin 48) (s : State) : State :=
  let content := s.monitors[k].content
  let l := s.reading content
  let s := deriveMonitors content.screen (s.onMonitor k fun m => { m with state := .clear, mark := none })
  reportEvent s (k, .cleared true l)

/-- The effect of MONITOR_ACK (R107). -/
def effectMonitorAck (c : Command) (s : State) : State × List Byte :=
  match readMonitorIndex c with
  | none => (s, [])
  | some k => (acknowledge k s, [])

/-- MONITOR_ACK as the Management Unit executes it (R107). -/
def cmdMonitorAck (c : Command) : State → State × Answer :=
  unitCommand (c.payload.length == 1) (checkMonitorAck c) (effectMonitorAck c) c

/-- MONITOR_ACK. -/
def execMonitorAck (a : CmdArgs) (s : State) : Answered := .next (commandRow cmdMonitorAck (commandOf 83#8 a) s)

/-! ### MONITOR_STATUS (R116) -/

/-- The codes of the points (section 11.4) with their channel, 0 for SUM. -/
def MonitorPoint.bytes : MonitorPoint → List Byte
  | .input k => [0#8] ++ bytes1 k.val
  | .output k => [1#8] ++ bytes1 k.val
  | .sum => [2#8, 0#8]

/-- The codes of the measures (section 11.4). -/
def Measure.code : Measure → Nat
  | .peak => 0
  | .short => 1
  | .long => 2

/-- The codes of the conditions (section 11.4). -/
def Condition.code : Condition → Nat
  | .above => 0
  | .below => 1
  | .outside => 2
  | .inside => 3
  | .jump => 4
  | .track => 5

/-- The codes of the actions, and the ceiling, 0 where there is none (section 11.4, R183). -/
def MonitorAction.codes : MonitorAction → Nat × Nat
  | .none => (0, 0)
  | .muteChannel => (1, 0)
  | .muteScreen => (2, 0)
  | .faderCeiling c => (3, c)
  | .houseStop => (4, 0)

/-- The content as MONITOR_STATUS returns it: bytes 1 to 19 of MONITOR_LOAD (log entry 19). -/
def MonitorContent.bytes (c : MonitorContent) : List Byte :=
  bytes1 c.screen.val ++ c.point.bytes ++ bytes1 c.measure.code ++ bytes1 c.condition.code ++ [0#8] ++
  signed2 c.a ++ signed2 c.b ++ [indexByte c.partner] ++ bytes2 c.holdMs ++ bytes2 c.releaseMs ++
  [flagByte c.latch] ++ bytes1 c.watch.bits ++ bytes1 c.action.codes.1 ++
  bytes1 (c.action.codes.2 + 128 * c.notify.toNat)

/-- The codes of the monitor states, in the order of section 6.1. -/
def MonitorState.code : MonitorState → Nat
  | .off => 0
  | .clear => 1
  | .pending => 2
  | .raised => 3
  | .releasing => 4
  | .latched => 5
  | .suspended => 6

/-- A monitor as MONITOR_STATUS returns it, in the order of R116 (log entry 19). -/
def monitorBytes (s : State) (m : Monitor) : List Byte :=
  [flagByte m.loaded, flagByte m.enabled] ++ m.content.bytes ++ bytes1 m.state.code ++
  bytes4 (BitVec.ofNat 32 (m.sinceMark s.timeBase)) ++
  signed2 (if m.loaded then s.reading m.content else silence) ++ [flagByte m.tripped] ++ bytes1 m.raiseCount

/-- The monitors that MONITOR_STATUS names: one, or all forty-eight for 255. -/
def readMonitors (c : Command) : Option (List (Fin 48)) :=
  if c.byte 0 = 255#8 then some (indexes 48) else (readMonitorIndex c).map fun k => [k]

/-- The checks of MONITOR_STATUS (R116, R163). -/
def checkMonitorStatus (c : Command) (_ : State) : Option Result :=
  firstFailure [((readMonitors c).isNone, .badIndex), ((readFlag (c.byte 1)).isNone, .badValue)]

/-- A monitor with its trip record cleared (R115). -/
def Monitor.clearTrip (m : Monitor) : Monitor := { m with tripped := false, raiseCount := 0 }

/-- The effect of MONITOR_STATUS: the values, and then the clearing that is asked for (R116). -/
def effectMonitorStatus (c : Command) (s : State) : State × List Byte :=
  let named := (readMonitors c).getD []
  let values := named.flatMap fun k => monitorBytes s s.monitors[k]
  (if readFlag (c.byte 1) = some true then named.foldl (fun s k => s.onMonitor k Monitor.clearTrip) s else s, values)

/-- MONITOR_STATUS as the Management Unit executes it (R116). -/
def cmdMonitorStatus (c : Command) : State → State × Answer :=
  unitCommand (c.payload.length == 2) (checkMonitorStatus c) (effectMonitorStatus c) c

/-- MONITOR_STATUS. -/
def execMonitorStatus (a : CmdArgs) (s : State) : Answered :=
  .next (commandRow cmdMonitorStatus (commandOf 84#8 a) s)

end Sys2Proof.Machine
end

