-- ==== Sys2Proof/Machine/CueCommands.lean ====
section
/-!
DEFINITION. The commands of the Cue Engine (chapter 7): CUELIST_LOAD, CUELIST_CLEAR, LINK_LOAD, LINK_ENABLE,
LINK_DISABLE, TIMER_START, TIMER_STOP, TIMER_READ, CUE_FIRE, GO_CANCEL and HELD_READ.
-/

namespace Sys2Proof.Machine

/-! ### CUELIST_LOAD (R123) -/

/-- A cue entry from its thirteen bytes (section 11.4); none where it breaks R118 or R122. -/
def readEntry (b : List Byte) : Option CueEntry := do
  let position := BitVec.ofNat 32 (nat4 (b.getD 0 0#8) (b.getD 1 0#8) (b.getD 2 0#8) (b.getD 3 0#8))
  let held ← readFlag (b.getD 4 0#8)
  let action ← readActionKind (b.drop 5)
  if position = noPosition then none else pure ⟨position, held, action⟩

/-- The mode of CUELIST_LOAD: true for APPEND (section 11.4). -/
def readAppend (b : Byte) : Option Bool := readCode [false, true] b

/-- The positions rise strictly (R122). -/
def risesStrictly : List CueEntry → Bool
  | [] => true
  | [_] => true
  | a :: b :: rest => decide (a.position < b.position) && risesStrictly (b :: rest)

/-- The resulting list of a load; none where a value is out of range or the positions do not rise (R123, check 2). -/
def resultingList (c : Command) (old : List CueEntry) : Option (List CueEntry) := do
  let append ← readAppend (c.byte 0)
  let series ← allSome ((chunks 13 (c.num 1) (c.payload.drop 2)).map readEntry)
  let result := if append then old ++ series else series
  if risesStrictly result then pure result else none

/-- The checks of R123. -/
def checkCuelistLoad (c : Command) (i : Fin 8) (s : State) : Option Result :=
  if s.isAligning i then some .busy
  else match resultingList c s.cueLists[i].entries with
    | none => some .badValue
    | some entries => if Config.cueCapacity < entries.length then some .full else none

/-- The effect of CUELIST_LOAD (R123): the list with its cursor, and in the reply the entry count and the cursor, a byte
each, a width that the manual does not give (log entry 19). -/
def effectCuelistLoad (c : Command) (i : Fin 8) (s : State) : State × List Byte :=
  match resultingList c s.cueLists[i].entries with
  | none => (s, [])
  | some entries =>
    let l : CueList := ⟨entries, (CueList.mk entries 0).cursorFor s.screens[i].lastPosition⟩
    (s.onCueList i fun _ => l, bytes1 entries.length ++ bytes1 l.cursor)

/-- The length of CUELIST_LOAD suits the count it carries (R165). -/
def cuelistLengthSuits (c : Command) : Bool :=
  decide (2 ≤ c.payload.length) && c.payload.length == 2 + 13 * c.num 1

/-- CUELIST_LOAD as the Management Unit executes it (R123). -/
def cmdCuelistLoad (c : Command) : State → State × Answer :=
  screenCommand (cuelistLengthSuits c) 2 (checkCuelistLoad c) (effectCuelistLoad c) c

/-- CUELIST_LOAD. -/
def execCuelistLoad (a : CmdArgs) (s : State) : Answered := .next (commandRow cmdCuelistLoad (commandOf 96#8 a) s)

/-! ### CUELIST_CLEAR (R124) -/

/-- The check of R124. -/
def checkCuelistClear (i : Fin 8) (s : State) : Option Result := if s.isAligning i then some .busy else none

/-- CUELIST_CLEAR as the Management Unit executes it (R124). -/
def cmdCuelistClear (c : Command) : State → State × Answer :=
  screenCommand c.payload.isEmpty 0 checkCuelistClear (fun i s => (s.onCueList i fun _ => emptyCueList, [])) c

/-- CUELIST_CLEAR. -/
def execCuelistClear (a : CmdArgs) (s : State) : Answered :=
  .next (commandRow cmdCuelistClear (commandOf 97#8 a) s)

/-! ### LINK_LOAD (R128) -/

/-- The link that a payload names in byte 0. -/
def readLinkIndex (c : Command) : Option (Fin 32) := readIndex 32 (c.byte 0)

/-- The content of LINK_LOAD; none where it breaks R128. -/
def readLink (c : Command) : Option CueLink := do
  let trigger ← readTrigger (c.byte 1) (c.byte 2) (c.byte 3)
  let owner ← readOptional 8 (c.byte 4)
  let mode ← readRunMode (c.byte 5)
  let held ← readFlag (c.byte 6)
  let action ← readLinkAction (c.payload.drop 7)
  if trigger = .go ∧ action.1 = .goOut then none
  else pure ⟨true, false, trigger, owner, action.1, action.2, mode, held⟩

/-- The checks of R128. -/
def checkLinkLoad (c : Command) (s : State) : Option Result :=
  match readLinkIndex c with
  | none => some .badIndex
  | some k => firstFailure [(s.links[k].enabled, .inUse), ((readLink c).isNone, .badValue)]

/-- The effect of LINK_LOAD (R128). -/
def effectLinkLoad (c : Command) (s : State) : State × List Byte :=
  match readLinkIndex c, readLink c with
  | some k, some l => (s.onLink k fun _ => l, [])
  | _, _ => (s, [])

/-- LINK_LOAD as the Management Unit executes it (R128). -/
def cmdLinkLoad (c : Command) : State → State × Answer :=
  unitCommand (c.payload.length == 15) (checkLinkLoad c) (effectLinkLoad c) c

/-- LINK_LOAD. -/
def execLinkLoad (a : CmdArgs) (s : State) : Answered := .next (commandRow cmdLinkLoad (commandOf 98#8 a) s)

/-! ### LINK_ENABLE and LINK_DISABLE (R129) -/

/-- The checks of LINK_ENABLE (R129). -/
def checkLinkEnable (c : Command) (s : State) : Option Result :=
  match readLinkIndex c with
  | none => some .badIndex
  | some k => if s.links[k].loaded then none else some .badState

/-- The enabled flag of the link named is written (R129). -/
def effectLinkFlag (on : Bool) (c : Command) (s : State) : State × List Byte :=
  match readLinkIndex c with
  | none => (s, [])
  | some k => (setLink k on s, [])

/-- LINK_ENABLE as the Management Unit executes it (R129). -/
def cmdLinkEnable (c : Command) : State → State × Answer :=
  unitCommand (c.payload.length == 1) (checkLinkEnable c) (effectLinkFlag true c) c

/-- LINK_ENABLE. -/
def execLinkEnable (a : CmdArgs) (s : State) : Answered := .next (commandRow cmdLinkEnable (commandOf 99#8 a) s)

/-- The check of LINK_DISABLE (R129). -/
def checkLinkIndex (c : Command) (_ : State) : Option Result :=
  if (readLinkIndex c).isNone then some .badIndex else none

/-- LINK_DISABLE as the Management Unit executes it (R129). -/
def cmdLinkDisable (c : Command) : State → State × Answer :=
  unitCommand (c.payload.length == 1) (checkLinkIndex c) (effectLinkFlag false c) c

/-- LINK_DISABLE. -/
def execLinkDisable (a : CmdArgs) (s : State) : Answered := .next (commandRow cmdLinkDisable (commandOf 100#8 a) s)

/-! ### TIMER_START, TIMER_STOP and TIMER_READ (R133, R135) -/

/-- The timer that a payload names in byte 0. -/
def readTimerIndex (c : Command) : Option (Fin 8) := readIndex 8 (c.byte 0)

/-- The interval and mode of TIMER_START. -/
def readTimerSetting (c : Command) : Option (Nat × RunMode) := do
  let interval ← readRange 1 86400000 (c.num4 1)
  let mode ← readRunMode (c.byte 5)
  pure (interval, mode)

/-- The checks of TIMER_START (R133, R163). -/
def checkTimerStart (c : Command) (_ : State) : Option Result :=
  firstFailure [((readTimerIndex c).isNone, .badIndex), ((readTimerSetting c).isNone, .badValue)]

/-- The effect of TIMER_START (R133). -/
def effectTimerStart (c : Command) (s : State) : State × List Byte :=
  match readTimerIndex c, readTimerSetting c with
  | some t, some x => (startTimer t x.1 x.2 s, [])
  | _, _ => (s, [])

/-- TIMER_START as the Management Unit executes it (R133). -/
def cmdTimerStart (c : Command) : State → State × Answer :=
  unitCommand (c.payload.length == 6) (checkTimerStart c) (effectTimerStart c) c

/-- TIMER_START. -/
def execTimerStart (a : CmdArgs) (s : State) : Answered := .next (commandRow cmdTimerStart (commandOf 101#8 a) s)

/-- The check of a command that names a timer. -/
def checkTimerIndex (c : Command) (_ : State) : Option Result :=
  if (readTimerIndex c).isNone then some .badIndex else none

/-- The effect of TIMER_STOP (R133). -/
def effectTimerStop (c : Command) (s : State) : State × List Byte :=
  match readTimerIndex c with
  | none => (s, [])
  | some t => (stopTimer t s, [])

/-- TIMER_STOP as the Management Unit executes it (R133). -/
def cmdTimerStop (c : Command) : State → State × Answer :=
  unitCommand (c.payload.length == 1) (checkTimerIndex c) (effectTimerStop c) c

/-- TIMER_STOP. -/
def execTimerStop (a : CmdArgs) (s : State) : Answered := .next (commandRow cmdTimerStop (commandOf 102#8 a) s)

/-- The codes of ONCE and REPEAT (section 11.4). -/
def RunMode.code : RunMode → Nat
  | .once => 0
  | .repeating => 1

/-- The elapsed time of a timer (R135). -/
def Timer.elapsedAt (x : Timer) (now : Word) : Nat := if x.running then elapsed now x.start else 0

/-- A timer as TIMER_READ returns it, in the order of R135 (log entry 19). -/
def Timer.bytes (x : Timer) (now : Word) : List Byte :=
  [flagByte x.running] ++ bytes4 (BitVec.ofNat 32 x.interval) ++ bytes1 x.mode.code ++
    bytes4 (BitVec.ofNat 32 (x.elapsedAt now))

/-- The reply of TIMER_READ (R135). -/
def effectTimerRead (c : Command) (s : State) : State × List Byte :=
  match readTimerIndex c with
  | none => (s, [])
  | some t => (s, s.timers[t].bytes s.timeBase)

/-- TIMER_READ as the Management Unit executes it (R135). -/
def cmdTimerRead (c : Command) : State → State × Answer :=
  unitCommand (c.payload.length == 1) (checkTimerIndex c) (effectTimerRead c) c

/-- TIMER_READ. -/
def execTimerRead (a : CmdArgs) (s : State) : Answered := .next (commandRow cmdTimerRead (commandOf 103#8 a) s)

/-! ### CUE_FIRE (R132) -/

/-- The checks of R132. -/
def checkCueFire (c : Command) (s : State) : Option Result :=
  match readLinkIndex c with
  | none => some .badIndex
  | some k => if s.links[k].enabled && s.links[k].trigger == .command then none else some .badState

/-- The effect of CUE_FIRE (R132). -/
def effectCueFire (c : Command) (s : State) : State × List Byte :=
  match readLinkIndex c with
  | none => (s, [])
  | some k => (fireLink occurs s k, [])

/-- CUE_FIRE as the Management Unit executes it (R132). -/
def cmdCueFire (c : Command) : State → State × Answer :=
  unitCommand (c.payload.length == 1) (checkCueFire c) (effectCueFire c) c

/-- CUE_FIRE. -/
def execCueFire (a : CmdArgs) (s : State) : Answered := .next (commandRow cmdCueFire (commandOf 104#8 a) s)

/-! ### GO_CANCEL (R138) -/

/-- GO_CANCEL as the Management Unit executes it (R138). The number removed takes one byte of the reply, a width that
the manual does not give (log entry 19). -/
def cmdGoCancel (c : Command) : State → State × Answer :=
  unitCommand c.payload.isEmpty (fun _ => none) (fun s => (cancelHeld false s, bytes1 s.held.length)) c

/-- GO_CANCEL. -/
def execGoCancel (a : CmdArgs) (s : State) : Answered := .next (commandRow cmdGoCancel (commandOf 106#8 a) s)

/-! ### HELD_READ (R140) -/

/-- The parameters of an action in bytes 2 to 7 of its record (section 11.4). -/
def Action.parameters : Action → List Byte
  | .lineSet l active => bytes1 l.val ++ [flagByte active, 0#8, 0#8, 0#8, 0#8]
  | .linePulse l count onMs offMs => bytes1 l.val ++ bytes1 count ++ bytes2 onMs ++ bytes2 offMs
  | .fader target ms => bytes1 target ++ [0#8] ++ bytes2 ms ++ [0#8, 0#8]
  | .mute on => [flagByte on, 0#8, 0#8, 0#8, 0#8, 0#8]
  | .formatArm k => [indexByte k, 0#8, 0#8, 0#8, 0#8, 0#8]
  | .formatTake ms => [0#8, 0#8] ++ bytes2 ms ++ [0#8, 0#8]
  | .eqSwap => List.replicate 6 0#8
  | .timerStart t interval mode => bytes1 t.val ++ bytes1 mode.code ++ bytes4 (BitVec.ofNat 32 interval)
  | .timerStop t => bytes1 t.val ++ List.replicate 5 0#8
  | .linkOn k => bytes1 k.val ++ List.replicate 5 0#8
  | .linkOff k => bytes1 k.val ++ List.replicate 5 0#8
  | .goOut => List.replicate 6 0#8
  | .houseStop => List.replicate 6 0#8
  | .notice code => [code] ++ List.replicate 5 0#8

/-- The screen byte of an action record: the own screen of a link's screen action, else 0 (section 11.4, R183). -/
def HeldAction.screenByte (h : HeldAction) : Nat :=
  match h.source with
  | .entry .. => 0
  | .link _ => if h.action.onScreen then h.target.val else 0

/-- The screen of a held action's list, 255 for a link (log entry 19). -/
def Source.listByte : Source → Byte
  | .entry s _ => BitVec.ofNat 8 s.val
  | .link _ => 255#8

/-- A held action as HELD_READ returns it: its source, action record, owner and time (R140; log entry 19). -/
def HeldAction.bytes (h : HeldAction) : List Byte :=
  bytes1 h.source.code ++ [h.source.listByte] ++ bytes1 h.source.index ++ bytes1 h.action.code ++
    bytes1 h.screenByte ++ h.action.parameters ++ [indexByte h.owner] ++ bytes4 h.time

/-- The Cue Engine's state as HELD_READ returns it, in the order of R140: one count byte before the held actions, then
the enabled flags of the thirty-two links as one value of 4 bytes, that of link k in bit k, then the entry count and the
cursor of each list. R140 gives no layout: this packing is the model's choice (log entry 19). -/
def heldBytes (s : State) : List Byte :=
  bytes1 s.held.length ++ s.held.flatMap HeldAction.bytes ++
  bytes4 (BitVec.ofNat 32 (flagBits (s.links.toList.map (·.enabled)))) ++
  s.cueLists.toList.flatMap fun l => bytes1 l.entries.length ++ bytes1 l.cursor

/-- HELD_READ as the Management Unit executes it (R140). -/
def cmdHeldRead (c : Command) : State → State × Answer :=
  unitCommand c.payload.isEmpty (fun _ => none) (fun s => (s, heldBytes s)) c

/-- HELD_READ. -/
def execHeldRead (a : CmdArgs) (s : State) : Answered := .next (commandRow cmdHeldRead (commandOf 107#8 a) s)

end Sys2Proof.Machine
end

