-- ==== Sys2Proof/Machine/HouseCommands.lean ====
section
/-!
DEFINITION. The commands of the House Stop Controller and of the booth lines (chapter 8): GO_PULSE, HOUSE_SETUP,
HOUSE_STOP, HOUSE_RELEASE, HOUSE_STATUS, LINE_SETUP, LINE_SET and LINE_READ.
-/

namespace Sys2Proof.Machine

/-! ### GO_PULSE (R153) -/

/-- GO_PULSE as the Management Unit executes it: the reply says whether a pulse was begun (R153), in one byte, 1 for
begun and 0 for ignored, a code that the manual does not give (log entry 19). -/
def cmdGoPulse (c : Command) : State → State × Answer :=
  unitCommand c.payload.isEmpty (fun _ => none)
    (fun s => (requestGoPulse s, [flagByte s.house.goPulse.isNone])) c

/-- GO_PULSE. -/
def execGoPulse (a : CmdArgs) (s : State) : Answered := .next (commandRow cmdGoPulse (commandOf 105#8 a) s)

/-! ### HOUSE_SETUP (R150) -/

/-- The four settings of HOUSE_SETUP; the last is `go_mode`, EDGE 0 or LEVEL 1. -/
def readHouseSetup (c : Command) : Option (Bool × Bool × Bool × Bool) := do
  let lineInput ← readFlag (c.byte 0)
  let lineOutput ← readFlag (c.byte 1)
  let goInput ← readFlag (c.byte 2)
  let goLevel ← readCode [false, true] (c.byte 3)
  pure (lineInput, lineOutput, goInput, goLevel)

/-- The check of R150. -/
def checkHouseSetup (c : Command) (_ : State) : Option Result :=
  if (readHouseSetup c).isNone then some .badValue else none

/-- The effect of HOUSE_SETUP: the drive, then LINE, judged as one change (R150). DESIGN CHOICE (log entry 35): all four
settings stand before the change is carried through, so a held link that the release itself fires is held or executed by
the new `go_input_enable` and `go_mode` (R136). -/
def effectHouseSetup (c : Command) (s : State) : State × List Byte :=
  match readHouseSetup c with
  | none => (s, [])
  | some (lineInput, lineOutput, goInput, goLevel) =>
    (houseChange occurs (fun h =>
      { h with lineInput := lineInput, lineOutput := lineOutput, goInput := goInput, goLevel := goLevel }) s, [])

/-- HOUSE_SETUP as the Management Unit executes it (R150). -/
def cmdHouseSetup (c : Command) : State → State × Answer :=
  unitCommand (c.payload.length == 4) (checkHouseSetup c) (effectHouseSetup c) c

/-- HOUSE_SETUP. -/
def execHouseSetup (a : CmdArgs) (s : State) : Answered := .next (commandRow cmdHouseSetup (commandOf 112#8 a) s)

/-! ### HOUSE_STOP, HOUSE_RELEASE and HOUSE_STATUS (R149) -/

/-- COMMAND is added to the source set (R149). -/
def stopHouse (s : State) : State := houseChange occurs (fun h => { h with set := { h.set with command := true } }) s

/-- COMMAND, MONITOR and CUE are removed in one change (R149). -/
def releaseHouse (s : State) : State :=
  houseChange occurs (fun h => { h with set := { h.set with command := false, monitor := false, cue := false } }) s

/-- A state with the source set as it stands in the payload (R149). -/
def withSet (s : State) : State × List Byte := (s, bytes1 s.house.set.bits)

/-- HOUSE_STOP as the Management Unit executes it (R149). -/
def cmdHouseStop (c : Command) : State → State × Answer :=
  unitCommand c.payload.isEmpty (fun _ => none) (fun s => withSet (stopHouse s)) c

/-- HOUSE_STOP. -/
def execHouseStop (a : CmdArgs) (s : State) : Answered := .next (commandRow cmdHouseStop (commandOf 113#8 a) s)

/-- HOUSE_RELEASE as the Management Unit executes it (R149). -/
def cmdHouseRelease (c : Command) : State → State × Answer :=
  unitCommand c.payload.isEmpty (fun _ => none) (fun s => withSet (releaseHouse s)) c

/-- HOUSE_RELEASE. -/
def execHouseRelease (a : CmdArgs) (s : State) : Answered :=
  .next (commandRow cmdHouseRelease (commandOf 114#8 a) s)

/-- The controller as HOUSE_STATUS returns it, in the order of R149. DESIGN CHOICE (log entry 19): each flag and each
sensed level takes a byte, a sensed level 1 where it is asserted and 0 where it is released, codes that the manual does
not give. -/
def House.bytes (h : House) : List Byte :=
  bytes1 h.set.bits ++ [flagByte h.drive, flagByte h.hstopSensed, flagByte h.lineInput, flagByte h.lineOutput,
    flagByte h.goInput, flagByte h.goLevel, flagByte h.goSensed, flagByte h.goPulse.isSome]

/-- HOUSE_STATUS as the Management Unit executes it (R149). -/
def cmdHouseStatus (c : Command) : State → State × Answer :=
  unitCommand c.payload.isEmpty (fun _ => none) (fun s => (s, s.house.bytes)) c

/-- HOUSE_STATUS. -/
def execHouseStatus (a : CmdArgs) (s : State) : Answered :=
  .next (commandRow cmdHouseStatus (commandOf 115#8 a) s)

/-! ### LINE_SETUP (R154) -/

/-- The line that a payload names in byte 0. -/
def readLineIndex (c : Command) : Option (Fin 16) := readIndex 16 (c.byte 0)

/-- The values of LINE_SETUP. -/
structure LineValues where
  mode : LineMode
  polarity : Polarity
  filter : LineFilter
  owner : Option (Fin 8)
  statusScreen : Fin 8
  statusSet : StatusSet
  alarmMonitor : Fin 48
  deriving DecidableEq, Repr

/-- The modes in the order of their codes (section 11.4). -/
def lineModes : List LineMode := [.input, .stopInput, .output, .screenStatus, .alarm]

/-- The values of the payload; none where one breaks R154. -/
def readLineValues (c : Command) : Option LineValues := do
  let mode ← readCode lineModes (c.byte 1)
  let polarity ← readCode [.activeHigh, .activeLow] (c.byte 2)
  let filter ← readCode [.none, .ms2, .ms20] (c.byte 3)
  let owner ← readOptional 8 (c.byte 4)
  let statusScreen ← readIndex 8 (c.byte 5)
  let statusSet ← readStatusSet (c.byte 6)
  let alarmMonitor ← readIndex 48 (c.byte 7)
  pure ⟨mode, polarity, filter, owner, statusScreen, statusSet, alarmMonitor⟩

/-- The checks of R154. -/
def checkLineSetup (c : Command) (_ : State) : Option Result :=
  firstFailure [((readLineIndex c).isNone, .badIndex), ((readLineValues c).isNone, .badValue)]

/-- A line record with the values of LINE_SETUP; an input mode takes the pin's reading at once (R154). -/
def BoothLine.setUp (l : BoothLine) (v : LineValues) : BoothLine :=
  { l with
    mode := v.mode
    polarity := v.polarity
    filter := v.filter
    owner := v.owner
    statusScreen := v.statusScreen
    statusSet := v.statusSet
    alarmMonitor := v.alarmMonitor
    filtered := if v.mode.isInput then some (v.polarity.reads l.external) else none }

/-- A line is set up, and BOOTH_INPUT is judged again (R154). -/
def setUpLine (l : Fin 16) (v : LineValues) (s : State) : State :=
  judgeBoothInput occurs (s.onLine l fun x => x.setUp v)

/-- The effect of LINE_SETUP (R154). -/
def effectLineSetup (c : Command) (s : State) : State × List Byte :=
  match readLineIndex c, readLineValues c with
  | some l, some v => (setUpLine l v s, [])
  | _, _ => (s, [])

/-- LINE_SETUP as the Management Unit executes it (R154). -/
def cmdLineSetup (c : Command) : State → State × Answer :=
  unitCommand (c.payload.length == 8) (checkLineSetup c) (effectLineSetup c) c

/-- LINE_SETUP. -/
def execLineSetup (a : CmdArgs) (s : State) : Answered := .next (commandRow cmdLineSetup (commandOf 116#8 a) s)

/-! ### LINE_SET (R157) -/

/-- The checks of LINE_SET (R157). -/
def checkLineSet (c : Command) (_ : State) : Option Result :=
  firstFailure [((readLineIndex c).isNone, .badIndex), ((readFlag (c.byte 1)).isNone, .badValue)]

/-- The effect of LINE_SET (R157). -/
def effectLineSet (c : Command) (s : State) : State × List Byte :=
  match readLineIndex c, readFlag (c.byte 1) with
  | some l, some active => (writeLatch l active s, [])
  | _, _ => (s, [])

/-- LINE_SET as the Management Unit executes it (R157). -/
def cmdLineSet (c : Command) : State → State × Answer :=
  unitCommand (c.payload.length == 2) (checkLineSet c) (effectLineSet c) c

/-- LINE_SET. -/
def execLineSet (a : CmdArgs) (s : State) : Answered := .next (commandRow cmdLineSet (commandOf 117#8 a) s)

/-! ### LINE_READ (R158) -/

/-- The codes of the modes (section 11.4). -/
def LineMode.code : LineMode → Nat
  | .input => 0
  | .stopInput => 1
  | .output => 2
  | .screenStatus => 3
  | .alarm => 4

/-- The codes of the polarities (section 11.4). -/
def Polarity.code : Polarity → Nat
  | .activeHigh => 0
  | .activeLow => 1

/-- The codes of the filters (section 11.4). -/
def LineFilter.code : LineFilter → Nat
  | .none => 0
  | .ms2 => 1
  | .ms20 => 2

/-- A filtered state in a byte, 255 where the line keeps none (log entry 19). -/
def filteredByte : Option Bool → Byte
  | none => 255#8
  | some b => flagByte b

/-- A train in LINE_READ: whether it is in flight, its remaining count and its phase, ON 0 or OFF 1 (log entry 19). -/
def trainBytes : Option Train → List Byte
  | none => [0#8, 0#8, 0#8]
  | some x => [1#8] ++ bytes1 x.remaining ++ [flagByte !x.on]

/-- A line as LINE_READ returns it, in the order of R158. The level at the pin is HIGH 1 and LOW 0, a code that the
manual does not give (log entry 19). -/
def lineBytes (s : State) (l : BoothLine) : List Byte :=
  bytes1 l.mode.code ++ bytes1 l.polarity.code ++ bytes1 l.filter.code ++ [indexByte l.owner] ++
  bytes1 l.statusScreen.val ++ bytes1 l.statusSet.bits ++ bytes1 l.alarmMonitor.val ++
  [flagByte (s.linePin l), flagByte l.latch, filteredByte l.filtered] ++ trainBytes l.train

/-- The lines that LINE_READ names: one, or all sixteen for 255. -/
def readLines (c : Command) : Option (List (Fin 16)) :=
  if c.byte 0 = 255#8 then some (indexes 16) else (readLineIndex c).map fun l => [l]

/-- The check of LINE_READ (R158). -/
def checkLineRead (c : Command) (_ : State) : Option Result :=
  if (readLines c).isNone then some .badIndex else none

/-- The reply of LINE_READ (R158). -/
def effectLineRead (c : Command) (s : State) : State × List Byte :=
  (s, ((readLines c).getD []).flatMap fun l => lineBytes s s.lines[l])

/-- LINE_READ as the Management Unit executes it (R158). -/
def cmdLineRead (c : Command) : State → State × Answer :=
  unitCommand (c.payload.length == 1) (checkLineRead c) (effectLineRead c) c

/-- LINE_READ. -/
def execLineRead (a : CmdArgs) (s : State) : Answered := .next (commandRow cmdLineRead (commandOf 118#8 a) s)

end Sys2Proof.Machine
end

