-- ==== Sys2Proof/Machine/Blocks.lean ====
section
/-!
DEFINITION. A screen path's taking of a block (R22 to R25, R36, R38, R39, R59), its source timeout (R37), and the ends
of its fader ramp, stop fade and crossfades (R40, R45, R57, R73).
-/

namespace Sys2Proof.Machine

/-! ### Stage 1: arrival (R22, R38) -/

/-- The arrival record takes the block, and a lost source is restored (R22, R38). -/
def noteArrival (i : Fin 8) (f : Frame) (s : State) : State :=
  let lost := s.screens[i].sourceLost
  let s := s.onScreen i fun x =>
    { x with lastArrival := s.timeBase, arrivalPosition := f.position, sourceLost := false }
  if lost then file (some i) (.sourceRestored f.validPosition) s else s

/-! ### Stage 2: the RUN flag (R23 to R25) -/

/-- Show start (R24). -/
def startShow (i : Fin 8) (position : Option Word) (s : State) : State :=
  let s := emptyWindows i (enterState i .inShow s)
  let s := s.onScreen i fun x =>
    { x with showPeakLong := silence, mismatchReported := false, lastPosition := none }
  let s := s.onCueList i fun l => { l with cursor := 0 }
  occurs (.showStart i) (file (some i) (.showStart position) s)

/-- Show end (R25). -/
def endShow (i : Fin 8) (s : State) : State :=
  let peak := s.screens[i].showPeakLong
  occurs (.showEnd i) (file (some i) (.showEnd peak) (enterState i .dark s))

/-- The RUN flag acts on the screen's state (R23). -/
def actOnRun (i : Fin 8) (run : Bool) (position : Option Word) (s : State) : State :=
  match s.screens[i].state, run with
  | .dark, true => startShow i position s
  | .inShow, false => endShow i s
  | .inAlign, true => startShow i position (enterState i .dark (overtakeRun .showStarted s))
  | _, _ => s

/-! ### Stage 3: the position (R22, R39) -/

/-- The gap check (R39). -/
def checkGap (i : Fin 8) (p : Word) (s : State) : State :=
  match s.screens[i].lastPosition with
  | none => s
  | some q =>
    if p = q + 1 then s
    else
      let gaps := modifyAt s.stats.gaps i (riseTo Config.counterTop)
      file (some i) (.blockGap (p - (q + 1))) { s with stats := { s.stats with gaps := gaps } }

/-- The position of a block is handled (R22). -/
def handlePosition (i : Fin 8) (position : Option Word) (s : State) : State :=
  match s.screens[i].state, position with
  | .inShow, some p => (takeCues i p (checkGap i p s)).onScreen i fun x => { x with lastPosition := some p }
  | _, _ => s

/-! ### Stage 4: mismatch, audio and meters (R31, R34 to R36, R59) -/

/-- The disagreement of a block with a format (R59). -/
def mismatchOf (f : FormatEntry) (isMatrix : Bool) (count : Nat) : Option Mismatch :=
  let kind := isMatrix != (f.kind == .matrix)
  let few := decide (count < f.inputsExpected)
  if kind && few then some .kindAndCount else if kind then some .kind else if few then some .count else none

/-- The comparison of R59. -/
def checkMismatch (i : Fin 8) (f : Frame) (s : State) : State :=
  let x := s.screens[i]
  match x.activeFormat with
  | none => s
  | some k =>
    if x.state = .inShow ∧ x.mismatchReported = false then
      match mismatchOf s.formats[k] f.matrix f.channelCount with
      | none => s
      | some what =>
        file (some i) (.formatMismatch k what) (s.onScreen i fun x => { x with mismatchReported := true })
    else s

/-- The sums of the squares of the channels' samples, period by period (R35). -/
def sumSquares (channels : List (List Int)) : List Nat :=
  channels.foldl (fun acc xs => acc.zipWith (fun a v => a + square v) xs) (List.replicate Config.blockPeriods 0)

/-- The output channels in use. -/
def Screen.inUse (x : Screen) : List (Fin 16) := (indexes 16).filter fun c => decide (c.val < x.count)

/-- The meters of a screen take a block: its inputs, and its channels at the meter point (R34, R35, R60). `points` has
one entry for each channel in use. -/
def Screen.meterBlock (x : Screen) (periods : List (List Int)) (points : List (List Int)) : Screen :=
  let a := channelSamples periods 0
  let b := channelSamples periods 1
  { x with
    channels := mapAt (fun c ch => match points[c.val]? with
      | none => ch
      | some xs => { ch with meter := ch.meter.take fullSquare (xs.map square) }) x.channels
    inputs := mapAt (fun c m => m.take fullSquare ((channelSamples periods c.val).map square)) x.inputs
    sum := x.sum.take fullSquare (sumSquares points)
    steerSum := x.steerSum.take (4 * fullSquare) (a.zipWith (fun u v => square (u + v)) b)
    steerDiff := x.steerDiff.take (4 * fullSquare) (a.zipWith (fun u v => square (u - v)) b) }

/-- The delay lines and filter memories of the channels in use as a block has left them. -/
def Screen.setStages (x : Screen) (passed : List PassedChannel) : Screen :=
  { x with
    channels := mapAt (fun c ch => match passed[c.val]? with
      | none => ch
      | some p => { ch with line := p.line, eqMemory := p.eqMemory }) x.channels }

/-- `show_peak_long` takes a higher LONG reading of the sum in SHOW (R36). -/
def Screen.takeShowPeak (x : Screen) : Screen :=
  if x.state = .inShow then { x with showPeakLong := max x.showPeakLong x.sum.long } else x

/-- The screen whose channels in use a block has left so: its stages, its meters, `show_peak_long`, and then the
steering, which reads the meters (R34, R36). The steering moves before the monitors read the same update: the manual
orders neither before the other (log entry 18). -/
def Screen.passed (x : Screen) (formats : Vector FormatEntry 32) (periods : List (List Int))
    (channels : List PassedChannel) : Screen :=
  (((x.setStages channels).meterBlock periods (channels.map (·.samples))).takeShowPeak).steer formats

/-- The audio of a block passes the chain; the frame's samples, period by period, and the screen as it leaves it (R31,
R34). A block of test noise is counted (log entry 27). The mute stage is read before the monitors are (R112; log entry
18). -/
def passChain (i : Fin 8) (f : Frame) (s : State) : State × List Int :=
  let x := s.screens[i]
  let periods := blockPeriodsOf f
  let channels := x.inUse.map (meterPoint s i x periods)
  let out := (x.inUse.zip channels).map fun p => muteStage s.timeBase x p.1 p.2.samples
  let samples := (List.range Config.blockPeriods).flatMap fun k => out.map fun xs => xs.getD k 0
  let counted := { s with fresh := if x.state = ScreenState.inAlign then s.fresh + 1 else s.fresh }
  (gatherDwell i periods (counted.onScreen i fun x => x.passed s.formats periods channels), samples)

/-! ### A block taken whole (R22) -/

/-- The flags byte of a processed block: RUN as it arrived, all else 0 (R14, R182). -/
def processedFlags (f : Frame) : Byte := flagByte f.run

/-- A block is taken by the path of a screen that is not OFF (R22). The monitors are evaluated after the steering has
moved on the same meter update, so a format that a monitor's trigger takes resets what this block moved (R34, R63; log
entry 18). -/
def takeBlock (i : Fin 8) (f : Frame) (s : State) : State :=
  let s := noteArrival i f s
  let s := checkMismatch i f (handlePosition i f.validPosition (actOnRun i f.run f.validPosition s))
  let (s, samples) := passChain i f s
  let count := s.screens[i].count
  joinBOut (blockFrame f.header[1] f.position (processedFlags f) count samples) (evaluateMonitors i s)

/-- A BLOCK frame handed to a screen path: an OFF screen returns the block in its shape, silent (R6, R14). -/
def handBlock (i : Fin 8) (f : Frame) (s : State) : State :=
  if s.screens[i].state = .off then
    joinBOut (silentFrame f.header[1] f.position f.blockFlags f.channelCount) s
  else takeBlock i f s

/-! ### Source timeout (R37) -/

/-- The source of screen `i` is to be lost (R37). -/
def dueSourceLost (i : Fin 8) (s : State) : Bool :=
  let x := s.screens[i]
  x.state != .off && !x.sourceLost && decide (Config.timeoutMs ≤ elapsed s.timeBase x.lastArrival)

/-- The position of the last arrival, absent where it is 4294967295 (R176). -/
def Screen.lastKnown (x : Screen) : Option Word :=
  if x.arrivalPosition = noPosition then none else some x.arrivalPosition

/-- A silent block is made during a source timeout (R14, R37). -/
def makeSilent (i : Fin 8) (s : State) : State :=
  let x := s.screens[i]
  joinBOut (silentFrame (addressByte s.unit i.val) x.arrivalPosition 0#8 x.count) s

/-- The source of screen `i` is lost (R37, R94). -/
def loseSource (i : Fin 8) (s : State) : State :=
  let s := s.onScreen i fun x => { x with sourceLost := true, silentBase := s.timeBase, silentPhase := 1 }
  let s := file (some i) (.sourceLost s.screens[i].lastKnown) s
  let s := makeSilent i s
  if s.screens[i].state = .inAlign then enterState i .dark (overtakeRun .noSource s) else s

/-- The time of the next silent block has come: 2k/3 ms past the loss, rounded down (R37; log entry 26). -/
def dueSilentBlock (i : Fin 8) (s : State) : Bool :=
  let x := s.screens[i]
  x.state != .off && x.sourceLost && decide (2 * x.silentPhase / 3 ≤ elapsed s.timeBase x.silentBase)

/-- The next silent block is made (R37). -/
def nextSilent (i : Fin 8) (s : State) : State :=
  (makeSilent i s).onScreen i fun x =>
    if x.silentPhase < 3 then { x with silentPhase := x.silentPhase + 1 }
    else { x with silentPhase := 1, silentBase := x.silentBase + 2#32 }

/-! ### Ends of ramps, fades and crossfades -/

/-- The fader ramp has reached its end (R40). -/
def dueRampEnd (i : Fin 8) (s : State) : Bool :=
  match s.screens[i].fader.ramp with
  | none => false
  | some r => decide (r.duration ≤ elapsed s.timeBase r.start)

/-- The fader ramp ends (R40). -/
def Fader.finish (f : Fader) : Fader :=
  match f.ramp with
  | none => f
  | some r => { f with rest := r.dest, ramp := none }

/-- The stop fade has reached its end (R45). -/
def dueStopFadeEnd (i : Fin 8) (s : State) : Bool :=
  match s.screens[i].stopFade with
  | none => false
  | some start => decide (s.screens[i].stopFadeMs ≤ elapsed s.timeBase start)

/-- The stop fade ends: STOP is added and the fade is cleared (R45). -/
def finishStopFade (i : Fin 8) (s : State) : State :=
  s.onScreen i fun x => { x with stopFade := none, mutes := { x.mutes with stop := true } }

/-- The format crossfade has reached its end (R57). -/
def dueFormatFadeEnd (i : Fin 8) (s : State) : Bool :=
  match s.screens[i].formatFade with
  | none => false
  | some fade => decide (fade.duration ≤ elapsed s.timeBase fade.start)

/-- The swap crossfade has reached its end (R73). -/
def dueSwapEnd (i : Fin 8) (s : State) : Bool :=
  match s.screens[i].eqSwap with
  | none => false
  | some swap => decide (Config.swapMs ≤ elapsed s.timeBase swap.start)

end Sys2Proof.Machine
end

