-- ==== Sys2Proof/Machine/Link.lean ====
section
/-!
DEFINITION. The rows of the Link Interface Unit (chapter 1): frames that arrive, frames that have been sent, RESETN, and
the power-on reset (R17, R173).
-/

namespace Sys2Proof.Machine

/-! ### Arriving frames (R3 to R10) -/

/-- The link statistics changed. -/
def State.onStats (s : State) (f : LinkStats → LinkStats) : State := { s with stats := f s.stats }

/-- A command joins the intake queue, or is dropped (R8). -/
def joinIntake (c : Command) (s : State) : State :=
  if s.intake.length < Config.intakeCapacity then { s with intake := s.intake ++ [c] }
  else s.onStats fun x => { x with cmdDropped := riseTo Config.counterTop x.cmdDropped }

/-- A frame joins the forward buffer, or is dropped (R10). -/
def joinForward (f : Frame) (s : State) : State :=
  if s.forward.length < Config.forwardCapacity then offerAOut { s with forward := s.forward ++ [f] }
  else s.onStats fun x => { x with fwdDropped := riseTo Config.counterTop x.fwdDropped }

/-- A BLOCK frame that passes R4 is handed to its path or passed on (R6). -/
def routeBlock (f : Frame) (s : State) : State :=
  if f.unitNibble = s.unit.val then
    match toIndex 8 f.screenNibble with
    | some i => handBlock i f s
    | none => s
  else joinBOut f s

/-- A COMMAND frame that passes R4 is queued, passed on, or both (R6, R7). -/
def routeCommand (f : Frame) (s : State) : State :=
  if f.unitNibble = s.unit.val then joinIntake f.command s
  else if f.unitNibble = 15 then joinBOut f (joinIntake f.command s)
  else joinBOut f s

/-- A classified frame goes where its lane and kind take it (R6, R10). -/
def routeFrame (lane : Lane) (f : Frame) (s : State) : State :=
  match lane with
  | .aIn => if f.kind = 1 then routeBlock f s else routeCommand f s
  | .bIn => joinForward f s

/-- A frame arrives, whole or cut off (R2 to R4): it is counted, checked, classified and taken. -/
def receive (lane : Lane) (cutOff : Bool) (f : Frame) (s : State) : State :=
  let s := s.onStats fun x => { x with framesIn := riseTo Config.counterTop x.framesIn }
  if cutOff || !f.intact then s.onStats fun x => { x with checkErrors := riseTo Config.counterTop x.checkErrors }
  else if !f.classified lane then s.onStats fun x => { x with badFrames := riseTo Config.counterTop x.badFrames }
  else routeFrame lane f s

/-- BLOCK_ARRIVAL (R6). -/
def execBlockArrival (f : Frame) (s : State) : Answered := .next (eventRow (receive .aIn false f) s)

/-- COMMAND_ARRIVAL (R8). -/
def execCommandArrival (f : Frame) (s : State) : Answered := .next (eventRow (receive .aIn false f) s)

/-- FORWARD_ARRIVAL (R10). -/
def execForwardArrival (f : Frame) (s : State) : Answered := .next (eventRow (receive .bIn false f) s)

/-- DISCARDED_FRAME (R3, R4). -/
def execDiscardedFrame (lane : Lane) (cutOff : Bool) (f : Frame) (s : State) : Answered :=
  .next (eventRow (receive lane cutOff f) s)

/-! ### Frames that have been sent (R11 to R13) -/

/-- A_OUT_FRAME_SENT: the lane is done with its frame and the arbiter chooses again (R11). -/
def execAOutFrameSent (s : State) : Answered := .next (eventRow (fun s => offerAOut { s with aOut := none }) s)

/-- B_OUT_FRAME_SENT: the lane is done with its frame and takes the oldest of the outgoing order (R13). -/
def execBOutFrameSent (s : State) : Answered := .next (eventRow (fun s => offerBOut { s with bOut := none }) s)

/-! ### RESETN (R17, R159, R173) -/

/-- RESETN_ASSERT: the lanes stop, and a frame being sent is cut off (R17); HSTOP and GO are released and no booth line
is driven (R151, R153, R159). Every other piece of state waits for the release. -/
def execResetnAssert (s : State) : Answered :=
  .next { s with
    inReset := true
    aOut := none
    bOut := none
    house := { s.house with drive := false, goPulse := none } }

/-- UNIT_READY is filed (R173). -/
def fileReady (reason : ReadyReason) (s : State) : State := file none (.unitReady reason s.stopActive) s

/-- A booth line as power-on finds it: in INPUT mode, read from its pin at once (R159). -/
def BoothLine.powerOn (l : BoothLine) : BoothLine := powerOnLine l.external

/-- Every block's power-on values, with the levels that the wires have (R17, R144, R151, R152, R159); the model's queue
and its count of taken blocks go on (log entries 4 and 27). -/
def powerOnState (straps : Fin 8) (s : State) : State :=
  { State.powerOn straps s.house.hstopOthers s.house.goOthers (mapAt (fun _ l => l.powerOn) s.lines) with
    fresh := s.fresh
    pending := s.pending }

/-- POWER_ON_RESET: RESETN is released (R17, R173). -/
def execPowerOnReset (straps : Fin 8) (s : State) : Answered := .next (fileReady .powerOn (powerOnState straps s))

end Sys2Proof.Machine
end

