-- ==== Sys2Proof/Machine/Management.lean ====
section
/-!
DEFINITION. The unit commands (chapter 9): UNIT_INFO, UNIT_RESET in both scopes, NOTICE_MASK and LINK_STATS; and
COMMAND_TAKE, by which the Management Unit takes the head of the intake queue and executes it (R8, R160).
-/

namespace Sys2Proof.Machine

/-! ### UNIT_INFO (R169) -/

/-- The family name: MIDARON and a space. -/
def familyName : List Byte := [77#8, 73#8, 68#8, 65#8, 82#8, 79#8, 78#8, 32#8]

/-- The capacities in the order of R169. -/
def capacities : List Nat :=
  [8, 16, 32, 64, 4, 48, Config.cueCapacity, 32, 8, Config.heldCapacity, 16, Config.noticeCapacity,
    Config.intakeCapacity, Config.replyCapacity, Config.forwardCapacity]

/-- The payload of UNIT_INFO's reply, in the order of R169 (log entry 19). -/
def infoBytes (s : State) : List Byte :=
  familyName ++ bytes2 816 ++ bytes1 1 ++ bytes1 s.unit.val ++ bytes4 s.timeBase ++ capacities.flatMap bytes1

/-- UNIT_INFO as the Management Unit executes it (R169). -/
def cmdUnitInfo (c : Command) : State → State × Answer :=
  unitCommand c.payload.isEmpty (fun _ => none) (fun s => (s, infoBytes s)) c

/-- UNIT_INFO. -/
def execUnitInfo (a : CmdArgs) (s : State) : Answered := .next (commandRow cmdUnitInfo (commandOf 1#8 a) s)

/-! ### NOTICE_MASK (R170) -/

/-- The mask of the payload. -/
def readMask (c : Command) : Word := BitVec.ofNat 32 (c.num4 1)

/-- The check of R170. -/
def checkNoticeMask (c : Command) (_ : State) : Option Result :=
  if (readFlag (c.byte 0)).isNone || !maskNamesKinds (readMask c) then some .badValue else none

/-- The effect of NOTICE_MASK (R170). -/
def effectNoticeMask (c : Command) (s : State) : State × List Byte :=
  let mask := if readFlag (c.byte 0) = some true then normalMask (readMask c) else s.mask
  ({ s with mask := mask }, bytes4 mask)

/-- NOTICE_MASK as the Management Unit executes it (R170). -/
def cmdNoticeMask (c : Command) : State → State × Answer :=
  unitCommand (c.payload.length == 5) (checkNoticeMask c) (effectNoticeMask c) c

/-- NOTICE_MASK. -/
def execNoticeMask (a : CmdArgs) (s : State) : Answered := .next (commandRow cmdNoticeMask (commandOf 3#8 a) s)

/-! ### LINK_STATS (R171) -/

/-- The counters in the order of R171. -/
def LinkStats.bytes (x : LinkStats) : List Byte :=
  ([x.framesIn, x.checkErrors, x.badFrames, x.cmdDropped, x.fwdDropped] ++ x.gaps.toList).flatMap bytes2

/-- The check of R171. -/
def checkLinkStats (c : Command) (_ : State) : Option Result :=
  if (readFlag (c.byte 0)).isNone then some .badValue else none

/-- The effect of LINK_STATS (R16, R171). -/
def effectLinkStats (c : Command) (s : State) : State × List Byte :=
  (if readFlag (c.byte 0) = some true then { s with stats := zeroStats } else s, s.stats.bytes)

/-- LINK_STATS as the Management Unit executes it (R171). -/
def cmdLinkStats (c : Command) : State → State × Answer :=
  unitCommand (c.payload.length == 1) (checkLinkStats c) (effectLinkStats c) c

/-- LINK_STATS. -/
def execLinkStats (a : CmdArgs) (s : State) : Answered := .next (commandRow cmdLinkStats (commandOf 4#8 a) s)

/-! ### UNIT_RESET (R172) -/

/-- The scopes of UNIT_RESET. -/
inductive Scope where
  | keepTables
  | clear
  deriving DecidableEq, Repr

/-- Steps 1 and 2: the time base is 0 and a run in flight is overtaken without its notice (R96). -/
def resetRun (s : State) : State :=
  let s := { s with timeBase := 0#32 }
  if s.run.engine = .idle then s else endRun .reset s

/-- Step 3: every screen goes OFF (R19, R20). -/
def resetScreens (scope : Scope) (s : State) : State :=
  let s := (indexes 8).foldl (fun s i => goOff i s) s
  match scope with
  | .keepTables => s
  | .clear => { s with screens := mapAt (fun _ x => { x with rehearsal := false, eqLive := .a }) s.screens }

/-- Steps 4 to 6: formats, banks, curves and the run record (R48, R67, R76, R78). -/
def resetTables (scope : Scope) (s : State) : State :=
  match scope with
  | .keepTables => { s with formats := mapAt (fun _ f => { f with useCount := 0 }) s.formats, run := emptyRun }
  | .clear =>
    { s with
      formats := Vector.replicate 32 invalidFormat
      eq := Vector.replicate 8 (Vector.replicate 16 ⟨flatBank, flatBank⟩)
      curves := Vector.replicate 4 invalidCurve
      run := emptyRun }

/-- A monitor after UNIT_RESET(KEEP_TABLES) (R97). -/
def Monitor.rest (m : Monitor) : Monitor :=
  { m with
    state := if m.enabled then .suspended else .off
    mark := none
    prev := none
    tripped := false
    raiseCount := 0 }

/-- Step 7: the monitor table (R97). -/
def resetMonitors (scope : Scope) (s : State) : State :=
  match scope with
  | .keepTables => { s with monitors := mapAt (fun _ m => m.rest) s.monitors }
  | .clear => { s with monitors := Vector.replicate 48 emptyMonitor }

/-- Step 8: the Cue Engine (R142). -/
def resetCues (scope : Scope) (s : State) : State :=
  match scope with
  | .keepTables =>
    { s with
      cueLists := mapAt (fun _ l => { l with cursor := 0 }) s.cueLists
      timers := mapAt (fun _ t => { t with running := false, start := 0#32 }) s.timers
      held := [] }
  | .clear =>
    { s with
      cueLists := Vector.replicate 8 emptyCueList
      links := Vector.replicate 32 emptyLink
      timers := Vector.replicate 8 emptyTimer
      held := [] }

/-- A booth line after UNIT_RESET(KEEP_TABLES) (R159); its filter times afresh. -/
def BoothLine.rest (l : BoothLine) : BoothLine :=
  { l with
    latch := l.latch && l.train.isNone
    train := none
    filtered := if l.mode.isInput then some (l.polarity.reads l.external) else none
    since := 0#32 }

/-- Step 9: the booth lines (R159). -/
def resetLines (scope : Scope) (s : State) : State :=
  match scope with
  | .keepTables => { s with lines := mapAt (fun _ l => l.rest) s.lines }
  | .clear => { s with lines := mapAt (fun _ l => l.powerOn) s.lines }

/-- The settings of the controller after a reset (R150). -/
def House.resetSettings (scope : Scope) (h : House) : House :=
  match scope with
  | .keepTables => h
  | .clear => { h with lineInput := true, lineOutput := false, goInput := true, goLevel := false }

/-- The controller after a reset (R151): the latched sources are emptied, the drive ends with the line judged, LINE and
BOOTH_INPUT are judged again, the drive is taken up from the set so formed, the GO pulse ends, and the filters time
afresh (R144, R152, R153). -/
def House.reset (h : House) (booth : Bool) : House :=
  let sensed := if h.drive then h.hstopOthers else h.hstopSensed
  let drive := h.lineOutput && booth
  { h with
    set := { noSources with boothInput := booth, line := h.lineInput && sensed && !drive }
    drive := drive
    hstopSensed := sensed
    hstopSince := 0#32
    goPulse := none
    goSince := 0#32 }

/-- Step 10: the House Stop Controller (R151). -/
def resetHouse (scope : Scope) (s : State) : State :=
  s.onHouse fun h => (h.resetSettings scope).reset s.boothInputActive

/-- Step 11: the notice mask (R177). -/
def resetMask (scope : Scope) (s : State) : State :=
  match scope with
  | .keepTables => s
  | .clear => { s with mask := powerOnMask }

/-- Steps 12 and 13: the Notice Queue and the link interface (R18, R180). -/
def resetLink (s : State) : State :=
  { s with
    notices := []
    lostCount := 0
    slot := none
    replies := []
    stats := zeroStats
    lastChosen := .forwardBuffer }

/-- UNIT_RESET, step by step (R172). -/
def resetUnit (scope : Scope) (s : State) : State :=
  resetLink (resetMask scope (resetHouse scope (resetLines scope (resetCues scope (resetMonitors scope
    (resetTables scope (resetScreens scope (resetRun s))))))))

/-- The code of a scope, in the order of R172. -/
def Scope.code : Scope → Nat
  | .keepTables => 0
  | .clear => 1

/-- The reason that UNIT_READY carries after a scope (R173). -/
def Scope.reason : Scope → ReadyReason
  | .keepTables => .keepTables
  | .clear => .clear

/-- UNIT_RESET in a scope as the Management Unit executes it; the reply carries the scope (R172, R173). -/
def cmdUnitResetIn (scope : Scope) (c : Command) : State → State × Answer :=
  unitCommand (c.payload.length == 1) (fun _ => none) (fun s => (resetUnit scope s, bytes1 scope.code)) c

/-- UNIT_READY follows the reply of an accepted UNIT_RESET (R173). -/
def readyAfter (scope : Scope) (a : Answer) (s : State) : State :=
  if a.result = .ok then fileReady scope.reason s else s

/-- UNIT_RESET_KEEP_TABLES. -/
def execUnitResetKeepTables (a : CmdArgs) (s : State) : Answered :=
  .next (if s.canExecute then
      executeThen (readyAfter .keepTables) (cmdUnitResetIn .keepTables) (formCommandOf 2#8 0#8 a) s
    else s)

/-- UNIT_RESET_CLEAR. -/
def execUnitResetClear (a : CmdArgs) (s : State) : Answered :=
  .next (if s.canExecute then executeThen (readyAfter .clear) (cmdUnitResetIn .clear) (formCommandOf 2#8 1#8 a) s
    else s)

/-- UNIT_RESET by its scope byte: another scope is refused BAD_VALUE (R172). -/
def executeUnitReset (c : Command) (s : State) : State :=
  if c.payload.head? = some 0#8 then executeThen (readyAfter .keepTables) (cmdUnitResetIn .keepTables) c s
  else if c.payload.head? = some 1#8 then executeThen (readyAfter .clear) (cmdUnitResetIn .clear) c s
  else execute (fun c => unitCommand (c.payload.length == 1) (fun _ => some .badValue) (fun s => (s, [])) c) c s

/-! ### COMMAND_TAKE (R8, R160) -/

/-- A command code that section 9.4 does not list (R163). -/
def cmdUnknown (_ : Command) (s : State) : State × Answer := (s, ⟨.badCommand, 0#8, []⟩)

/-- What a command code executes, UNIT_RESET apart (section 9.4). -/
def bodyOf (code : Nat) : Command → State → State × Answer :=
  match code with
  | 1 => cmdUnitInfo
  | 3 => cmdNoticeMask
  | 4 => cmdLinkStats
  | 16 => cmdScreenSetup
  | 17 => cmdScreenClose
  | 18 => cmdScreenStatus
  | 19 => cmdScreenResume
  | 20 => cmdFaderSet
  | 21 => cmdMuteSet
  | 22 => cmdRehearsalSet
  | 23 => cmdChannelSetup
  | 32 => cmdFormatLoad
  | 33 => cmdFormatClear
  | 34 => cmdFormatArm
  | 35 => cmdFormatTake
  | 36 => cmdFormatRead
  | 48 => cmdEqLoad
  | 49 => cmdEqCopy
  | 50 => cmdEqSwap
  | 51 => cmdEqRead
  | 52 => cmdCurveLoad
  | 64 => cmdAlignStart
  | 65 => cmdAlignAbort
  | 66 => cmdAlignRead
  | 80 => cmdMonitorLoad
  | 81 => cmdMonitorEnable
  | 82 => cmdMonitorDisable
  | 83 => cmdMonitorAck
  | 84 => cmdMonitorStatus
  | 96 => cmdCuelistLoad
  | 97 => cmdCuelistClear
  | 98 => cmdLinkLoad
  | 99 => cmdLinkEnable
  | 100 => cmdLinkDisable
  | 101 => cmdTimerStart
  | 102 => cmdTimerStop
  | 103 => cmdTimerRead
  | 104 => cmdCueFire
  | 105 => cmdGoPulse
  | 106 => cmdGoCancel
  | 107 => cmdHeldRead
  | 112 => cmdHouseSetup
  | 113 => cmdHouseStop
  | 114 => cmdHouseRelease
  | 115 => cmdHouseStatus
  | 116 => cmdLineSetup
  | 117 => cmdLineSet
  | 118 => cmdLineRead
  | _ => cmdUnknown

/-- A command taken from the intake queue is executed (R160). -/
def executeCommand (c : Command) (s : State) : State :=
  if c.code = 2#8 then executeUnitReset c s else execute (bodyOf c.code.toNat) c s

/-- The Management Unit takes the head of the intake queue where R8 lets it. -/
def takeCommand (s : State) : State :=
  match s.intake with
  | [] => s
  | c :: rest => if s.canExecute then executeCommand c { s with intake := rest } else s

/-- COMMAND_TAKE (R8). -/
def execCommandTake (s : State) : Answered := .next (takeCommand s)

end Sys2Proof.Machine
end

