-- ==== Sys2Proof/Machine/Times.lean ====
section
/-!
DEFINITION. The rows that the time base brings about in the screen paths, the Alignment Engine, the timers and the pulse
trains: each has its effect when its time has come (R1).
-/

namespace Sys2Proof.Machine

/-- SOURCE_LOST (R37). -/
def execSourceLost (i : Fin 8) (s : State) : Answered := .next (timedRow (dueSourceLost i) (loseSource i) s)

/-- SILENT_BLOCK (R37). -/
def execSilentBlock (i : Fin 8) (s : State) : Answered := .next (timedRow (dueSilentBlock i) (nextSilent i) s)

/-- FADER_RAMP_END (R40). -/
def execFaderRampEnd (i : Fin 8) (s : State) : Answered :=
  .next (timedRow (dueRampEnd i) (fun s => s.onScreen i fun x => { x with fader := x.fader.finish }) s)

/-- STOP_FADE_END (R45). -/
def execStopFadeEnd (i : Fin 8) (s : State) : Answered := .next (timedRow (dueStopFadeEnd i) (finishStopFade i) s)

/-- FORMAT_CROSSFADE_END (R57). -/
def execFormatCrossfadeEnd (i : Fin 8) (s : State) : Answered :=
  .next (timedRow (dueFormatFadeEnd i) (endFormatFade i false) s)

/-- SWAP_CROSSFADE_END (R73). -/
def execSwapCrossfadeEnd (i : Fin 8) (s : State) : Answered := .next (timedRow (dueSwapEnd i) (endSwap i false) s)

/-- SETTLE_END (R85). -/
def execSettleEnd (s : State) : Answered := .next (timedRow dueSettleEnd settleEnds s)

/-- DWELL_END (R86). -/
def execDwellEnd (s : State) : Answered := .next (timedRow dueDwellEnd dwellEnds s)

/-! ### Timers (R134) -/

/-- The timer runs and has reached its interval (R134). -/
def dueTimer (t : Fin 8) (s : State) : Bool :=
  s.timers[t].running && decide (s.timers[t].interval ≤ elapsed s.timeBase s.timers[t].start)

/-- A timer as its expiry leaves it: its start takes the expiry's reading (R134). -/
def Timer.expire (x : Timer) (now : Word) : Timer :=
  match x.mode with
  | .once => { x with running := false }
  | .repeating => { x with start := now }

/-- The timer expires: first its state, then the trigger (R134). -/
def expireTimer (t : Fin 8) (s : State) : State := occurs (.timer t) (s.onTimer t fun x => x.expire s.timeBase)

/-- TIMER_EXPIRY (R134). -/
def execTimerExpiry (t : Fin 8) (s : State) : Answered := .next (timedRow (dueTimer t) (expireTimer t) s)

/-! ### Pulse trains (R157) -/

/-- The length of the phase in progress. -/
def Train.phaseMs (x : Train) : Nat := if x.on then x.onMs else x.offMs

/-- A phase of the line's train has reached its end (R157). -/
def dueTrain (l : Fin 16) (s : State) : Bool :=
  match s.lines[l].train with
  | none => false
  | some x => decide (x.phaseMs ≤ elapsed s.timeBase x.start)

/-- A line as the end of a phase leaves it (R157, steps 2 and 3). -/
def BoothLine.endPhase (l : BoothLine) (now : Word) : BoothLine :=
  match l.train with
  | none => l
  | some x =>
    if x.on then
      if x.remaining ≤ 1 then { l with latch := false, train := none }
      else { l with latch := false, train := some { x with remaining := x.remaining - 1, on := false, start := now } }
    else { l with latch := true, train := some { x with on := true, start := now } }

/-- PULSE_PHASE_END (R157). -/
def execPulsePhaseEnd (l : Fin 16) (s : State) : Answered :=
  .next (timedRow (dueTrain l) (fun s => s.onLine l fun x => x.endPhase s.timeBase) s)

end Sys2Proof.Machine
end

