-- ==== Sys2Proof/Machine/Wires.lean ====
section
/-!
DEFINITION. The rows of the wired lines: the pins of HSTOP, GO and the booth lines and their filters (R144, R152, R156),
and the end of the GO pulse (R153).
-/

namespace Sys2Proof.Machine

/-! ### HSTOP (R144) -/

/-- Another unit pulls HSTOP, or lets go: the filter times from a change of the pin's level. -/
def House.hstopMoves (h : House) (asserted : Bool) (now : Word) : House :=
  { h with
    hstopOthers := asserted
    hstopSince := if (asserted || h.drive) = h.hstopPin then h.hstopSince else now }

/-- HSTOP_PIN_CHANGE (R144). -/
def execHstopPinChange (asserted : Bool) (s : State) : Answered :=
  .next (s.onHouse fun h => h.hstopMoves asserted s.timeBase)

/-- The pin has held a level other than the sensed one for 1 ms (R144). -/
def dueHstop (s : State) : Bool :=
  s.house.hstopPin != s.house.hstopSensed &&
    decide (Config.wireFilterMs ≤ elapsed s.timeBase s.house.hstopSince)

/-- The sensed HSTOP level takes the pin's, and LINE follows (R143, R144). -/
def takeHstop (s : State) : State := houseChange occurs (fun h => { h with hstopSensed := h.hstopPin }) s

/-- HSTOP_SENSED_CHANGE (R144). -/
def execHstopSensedChange (s : State) : Answered := .next (timedRow dueHstop takeHstop s)

/-! ### GO (R152, R153) -/

/-- GO_PIN_CHANGE (R152). -/
def execGoPinChange (asserted : Bool) (s : State) : Answered :=
  .next (goChange (fun h => { h with goOthers := asserted }) s)

/-- The pin has held a level other than the sensed one for 1 ms (R152). -/
def dueGo (s : State) : Bool :=
  s.house.goPin != s.house.goSensed && decide (Config.wireFilterMs ≤ elapsed s.timeBase s.house.goSince)

/-- The sensed GO level takes the pin's; an assertion with `go_input_enable` 1 is a GO event (R152). -/
def takeGo (s : State) : State :=
  let s := s.onHouse fun h => { h with goSensed := h.goPin }
  if s.house.goSensed && s.house.goInput then goEvent s else s

/-- GO_SENSED_CHANGE (R152). -/
def execGoSensedChange (s : State) : Answered := .next (timedRow dueGo takeGo s)

/-- This unit's own pulse has run its 10 ms (R153). -/
def dueGoPulse (s : State) : Bool :=
  match s.house.goPulse with
  | none => false
  | some start => decide (Config.goPulseMs ≤ elapsed s.timeBase start)

/-- GO_PULSE_END (R153). -/
def execGoPulseEnd (s : State) : Answered :=
  .next (timedRow dueGoPulse (goChange fun h => { h with goPulse := none }) s)

/-! ### Booth lines (R156) -/

/-- What an input line's pin reads (R156). -/
def BoothLine.reading (l : BoothLine) : Bool := l.polarity.reads l.external

/-- The booth puts a level on a line's pin: the filter times from a change. -/
def BoothLine.moves (l : BoothLine) (high : Bool) (now : Word) : BoothLine :=
  { l with external := high, since := if high = l.external then l.since else now }

/-- The line's filtered state is to change: its pin has read otherwise for the filter time (R156). -/
def dueLine (l : Fin 16) (s : State) : Bool :=
  let x := s.lines[l]
  x.mode.isInput && x.filtered != some x.reading && decide (x.filter.ms ≤ elapsed s.timeBase x.since)

/-- The line's filtered state takes its pin's reading, with what follows in its mode (R156). -/
def takeLine (l : Fin 16) (s : State) : State :=
  let active := s.lines[l].reading
  let s := s.onLine l fun x => { x with filtered := some active }
  match s.lines[l].mode with
  | .input =>
    occurs (if active then .lineActive l else .lineInactive l) (file none (.lineEdge l active) s)
  | .stopInput => judgeBoothInput occurs s
  | _ => s

/-- LINE_PIN_CHANGE: with filter NONE the change is taken at once (R156). -/
def execLinePinChange (l : Fin 16) (high : Bool) (s : State) : Answered :=
  let s := s.onLine l fun x => x.moves high s.timeBase
  .next (if s.lines[l].filter = .none then timedRow (dueLine l) (takeLine l) s else s)

/-- LINE_FILTER_CHANGE (R156). -/
def execLineFilterChange (l : Fin 16) (s : State) : Answered := .next (timedRow (dueLine l) (takeLine l) s)

end Sys2Proof.Machine
end

