-- ==== Sys2Proof/Machine/Clock.lean ====
section
/-!
DEFINITION. What the part does by itself when no row waits: the rows whose time has come, in an order that the model
fixes (log entry 10), and otherwise the next millisecond of the time base (R1; log entry 1).
-/

namespace Sys2Proof.Machine

/-- The head of the intake queue can be taken (R8). -/
def dueCommand (s : State) : Bool := !s.intake.isEmpty && s.canExecute

/-- The rows of one table entry each whose time has come. -/
def dueAmong {n : Nat} (due : Fin n → State → Bool) (row : Fin n → Instr) (s : State) : List Instr :=
  ((indexes n).filter fun i => due i s).map row

/-- A row of its own whose time has come. -/
def dueSingle (due : State → Bool) (row : Instr) (s : State) : List Instr := if due s then [row] else []

/-- The rows whose time has come. -/
def dueRows (s : State) : List Instr :=
  dueSingle dueCommand .commandTake s ++
  dueAmong dueRampEnd .faderRampEnd s ++
  dueAmong dueStopFadeEnd .stopFadeEnd s ++
  dueAmong dueFormatFadeEnd .formatCrossfadeEnd s ++
  dueAmong dueSwapEnd .swapCrossfadeEnd s ++
  dueSingle dueSettleEnd .settleEnd s ++
  dueSingle dueDwellEnd .dwellEnd s ++
  dueAmong dueTrain .pulsePhaseEnd s ++
  dueSingle dueGoPulse .goPulseEnd s ++
  dueAmong dueTimer .timerExpiry s ++
  dueSingle dueHstop .hstopSensedChange s ++
  dueSingle dueGo .goSensedChange s ++
  dueAmong dueLine .lineFilterChange s ++
  dueAmong dueSourceLost .sourceLost s ++
  dueAmong dueSilentBlock .silentBlock s

/-- The time base counts a millisecond (R1). -/
def countMillisecond (s : State) : State := { s with timeBase := s.timeBase + 1#32 }

/-- What happens when no row waits: while RESETN is asserted nothing, else the rows whose time has come are put in the
queue, and where there is none the time base counts on (log entry 1). -/
def passTime (s : State) : State :=
  if s.inReset then s
  else match dueRows s with
    | [] => countMillisecond s
    | rows => { s with pending := rows }

end Sys2Proof.Machine
end

