-- ==== Sys2Proof/Machine/Dispatch.lean ====
section
/-!
DEFINITION. The meaning of each row: one arm per constructor of Instr, in the table's order.
-/

namespace Sys2Proof.Machine

/-- The effect of a row on everything but the queue. -/
def exec (i : Instr) (s : State) : Host.Outcome State Fault Refusal :=
  match i with
  | .blockArrival f => Sys2Proof.Machine.execBlockArrival f s
  | .commandArrival f => Sys2Proof.Machine.execCommandArrival f s
  | .forwardArrival f => Sys2Proof.Machine.execForwardArrival f s
  | .aOutFrameSent => Sys2Proof.Machine.execAOutFrameSent s
  | .bOutFrameSent => Sys2Proof.Machine.execBOutFrameSent s
  | .commandTake => Sys2Proof.Machine.execCommandTake s
  | .resetnAssert => Sys2Proof.Machine.execResetnAssert s
  | .powerOnReset straps => Sys2Proof.Machine.execPowerOnReset straps s
  | .sourceLost screen => Sys2Proof.Machine.execSourceLost screen s
  | .silentBlock screen => Sys2Proof.Machine.execSilentBlock screen s
  | .faderRampEnd screen => Sys2Proof.Machine.execFaderRampEnd screen s
  | .stopFadeEnd screen => Sys2Proof.Machine.execStopFadeEnd screen s
  | .formatCrossfadeEnd screen => Sys2Proof.Machine.execFormatCrossfadeEnd screen s
  | .swapCrossfadeEnd screen => Sys2Proof.Machine.execSwapCrossfadeEnd screen s
  | .settleEnd => Sys2Proof.Machine.execSettleEnd s
  | .dwellEnd => Sys2Proof.Machine.execDwellEnd s
  | .timerExpiry timer => Sys2Proof.Machine.execTimerExpiry timer s
  | .pulsePhaseEnd line => Sys2Proof.Machine.execPulsePhaseEnd line s
  | .goPulseEnd => Sys2Proof.Machine.execGoPulseEnd s
  | .hstopPinChange asserted => Sys2Proof.Machine.execHstopPinChange asserted s
  | .hstopSensedChange => Sys2Proof.Machine.execHstopSensedChange s
  | .goPinChange asserted => Sys2Proof.Machine.execGoPinChange asserted s
  | .goSensedChange => Sys2Proof.Machine.execGoSensedChange s
  | .linePinChange line high => Sys2Proof.Machine.execLinePinChange line high s
  | .lineFilterChange line => Sys2Proof.Machine.execLineFilterChange line s
  | .unitInfo a => Sys2Proof.Machine.execUnitInfo a s
  | .unitResetKeepTables a => Sys2Proof.Machine.execUnitResetKeepTables a s
  | .unitResetClear a => Sys2Proof.Machine.execUnitResetClear a s
  | .noticeMask a => Sys2Proof.Machine.execNoticeMask a s
  | .linkStats a => Sys2Proof.Machine.execLinkStats a s
  | .screenSetup a => Sys2Proof.Machine.execScreenSetup a s
  | .screenClose a => Sys2Proof.Machine.execScreenClose a s
  | .screenStatus a => Sys2Proof.Machine.execScreenStatus a s
  | .screenResume a => Sys2Proof.Machine.execScreenResume a s
  | .faderSet a => Sys2Proof.Machine.execFaderSet a s
  | .muteSet a => Sys2Proof.Machine.execMuteSet a s
  | .rehearsalSet a => Sys2Proof.Machine.execRehearsalSet a s
  | .channelSetup a => Sys2Proof.Machine.execChannelSetup a s
  | .formatLoad a => Sys2Proof.Machine.execFormatLoad a s
  | .formatClear a => Sys2Proof.Machine.execFormatClear a s
  | .formatArm a => Sys2Proof.Machine.execFormatArm a s
  | .formatTake a => Sys2Proof.Machine.execFormatTake a s
  | .formatRead a => Sys2Proof.Machine.execFormatRead a s
  | .eqLoadGraphic a => Sys2Proof.Machine.execEqLoadGraphic a s
  | .eqLoadSection a => Sys2Proof.Machine.execEqLoadSection a s
  | .eqCopy a => Sys2Proof.Machine.execEqCopy a s
  | .eqSwap a => Sys2Proof.Machine.execEqSwap a s
  | .eqRead a => Sys2Proof.Machine.execEqRead a s
  | .curveLoad a => Sys2Proof.Machine.execCurveLoad a s
  | .alignStart a => Sys2Proof.Machine.execAlignStart a s
  | .alignAbort a => Sys2Proof.Machine.execAlignAbort a s
  | .alignRead a => Sys2Proof.Machine.execAlignRead a s
  | .monitorLoad a => Sys2Proof.Machine.execMonitorLoad a s
  | .monitorEnable a => Sys2Proof.Machine.execMonitorEnable a s
  | .monitorDisable a => Sys2Proof.Machine.execMonitorDisable a s
  | .monitorAck a => Sys2Proof.Machine.execMonitorAck a s
  | .monitorStatus a => Sys2Proof.Machine.execMonitorStatus a s
  | .cuelistLoad a => Sys2Proof.Machine.execCuelistLoad a s
  | .cuelistClear a => Sys2Proof.Machine.execCuelistClear a s
  | .linkLoad a => Sys2Proof.Machine.execLinkLoad a s
  | .linkEnable a => Sys2Proof.Machine.execLinkEnable a s
  | .linkDisable a => Sys2Proof.Machine.execLinkDisable a s
  | .timerStart a => Sys2Proof.Machine.execTimerStart a s
  | .timerStop a => Sys2Proof.Machine.execTimerStop a s
  | .timerRead a => Sys2Proof.Machine.execTimerRead a s
  | .cueFire a => Sys2Proof.Machine.execCueFire a s
  | .goPulse a => Sys2Proof.Machine.execGoPulse a s
  | .goCancel a => Sys2Proof.Machine.execGoCancel a s
  | .heldRead a => Sys2Proof.Machine.execHeldRead a s
  | .houseSetup a => Sys2Proof.Machine.execHouseSetup a s
  | .houseStop a => Sys2Proof.Machine.execHouseStop a s
  | .houseRelease a => Sys2Proof.Machine.execHouseRelease a s
  | .houseStatus a => Sys2Proof.Machine.execHouseStatus a s
  | .lineSetup a => Sys2Proof.Machine.execLineSetup a s
  | .lineSet a => Sys2Proof.Machine.execLineSet a s
  | .lineRead a => Sys2Proof.Machine.execLineRead a s
  | .discardedFrame lane cutOff f => Sys2Proof.Machine.execDiscardedFrame lane cutOff f s

end Sys2Proof.Machine
end

