-- ==== Sys2Proof/Machine/Step.lean ====
section
/-!
DEFINITION. One step: the row at the front of the queue, or the passing of time where none waits (log entry 1).
-/

namespace Sys2Proof.Machine

/-- One step of the block. -/
def step (s : State) : Host.Outcome State Fault Refusal :=
  match s.pending with
  | [] => .next (passTime s)
  | i :: rest => exec i { s with pending := rest }

/-- The state with a row put at the front of its queue. -/
def State.withFirst (s : State) (i : Instr) : State := { s with pending := i :: s.pending }

/-- The state with the row that a word spells put at the front of its queue; unchanged where the word spells none,
which is every word (log entry 22). -/
def State.withFetchWord (s : State) (nbits w : Nat) : State :=
  match decodeTableWord nbits w with
  | none => s
  | some i => s.withFirst i

end Sys2Proof.Machine
end

