-- ==== Sys2Proof/Safety.lean ====
section
/-!
DEFINITION. What the statements of Certificates/Slice0 speak of: the payloads and replies of commands, frames that join
a lane, and the invariants of the machine.
-/

namespace Sys2Proof

open Machine

/-! ### Command rows -/

/-- The row names one screen by its selector (section 4.5). -/
abbrev CmdArgs.names (a : CmdArgs) (i : Fin 8) : Prop := a.selector = BitVec.ofNat 8 i.val

/-- The row carries the selector of a command that acts on no screen (R164). -/
abbrev CmdArgs.namesNone (a : CmdArgs) : Prop := a.selector = 14#8

/-- The row names every screen of the unit (R164). -/
abbrev CmdArgs.namesAll (a : CmdArgs) : Prop := a.selector = 15#8

/-- The command that a command row spells; none for a row that is an event. -/
def Instr.command : Instr → Option Command
  | .unitInfo a => some (commandOf 1#8 a)
  | .unitResetKeepTables a => some (formCommandOf 2#8 0#8 a)
  | .unitResetClear a => some (formCommandOf 2#8 1#8 a)
  | .noticeMask a => some (commandOf 3#8 a)
  | .linkStats a => some (commandOf 4#8 a)
  | .screenSetup a => some (commandOf 16#8 a)
  | .screenClose a => some (commandOf 17#8 a)
  | .screenStatus a => some (commandOf 18#8 a)
  | .screenResume a => some (commandOf 19#8 a)
  | .faderSet a => some (commandOf 20#8 a)
  | .muteSet a => some (commandOf 21#8 a)
  | .rehearsalSet a => some (commandOf 22#8 a)
  | .channelSetup a => some (commandOf 23#8 a)
  | .formatLoad a => some (commandOf 32#8 a)
  | .formatClear a => some (commandOf 33#8 a)
  | .formatArm a => some (commandOf 34#8 a)
  | .formatTake a => some (commandOf 35#8 a)
  | .formatRead a => some (commandOf 36#8 a)
  | .eqLoadGraphic a => some (formCommandOf 48#8 0#8 a)
  | .eqLoadSection a => some (formCommandOf 48#8 1#8 a)
  | .eqCopy a => some (commandOf 49#8 a)
  | .eqSwap a => some (commandOf 50#8 a)
  | .eqRead a => some (commandOf 51#8 a)
  | .curveLoad a => some (commandOf 52#8 a)
  | .alignStart a => some (commandOf 64#8 a)
  | .alignAbort a => some (commandOf 65#8 a)
  | .alignRead a => some (commandOf 66#8 a)
  | .monitorLoad a => some (commandOf 80#8 a)
  | .monitorEnable a => some (commandOf 81#8 a)
  | .monitorDisable a => some (commandOf 82#8 a)
  | .monitorAck a => some (commandOf 83#8 a)
  | .monitorStatus a => some (commandOf 84#8 a)
  | .cuelistLoad a => some (commandOf 96#8 a)
  | .cuelistClear a => some (commandOf 97#8 a)
  | .linkLoad a => some (commandOf 98#8 a)
  | .linkEnable a => some (commandOf 99#8 a)
  | .linkDisable a => some (commandOf 100#8 a)
  | .timerStart a => some (commandOf 101#8 a)
  | .timerStop a => some (commandOf 102#8 a)
  | .timerRead a => some (commandOf 103#8 a)
  | .cueFire a => some (commandOf 104#8 a)
  | .goPulse a => some (commandOf 105#8 a)
  | .goCancel a => some (commandOf 106#8 a)
  | .heldRead a => some (commandOf 107#8 a)
  | .houseSetup a => some (commandOf 112#8 a)
  | .houseStop a => some (commandOf 113#8 a)
  | .houseRelease a => some (commandOf 114#8 a)
  | .houseStatus a => some (commandOf 115#8 a)
  | .lineSetup a => some (commandOf 116#8 a)
  | .lineSet a => some (commandOf 117#8 a)
  | .lineRead a => some (commandOf 118#8 a)
  | _ => none

/-- How many entries the table has that a unit-class row's first payload byte indexes. -/
def Instr.indexLimit : Instr → Option Nat
  | .formatLoad _ => some 32
  | .formatClear _ => some 32
  | .formatRead _ => some 32
  | .curveLoad _ => some 4
  | .monitorLoad _ => some 48
  | .monitorEnable _ => some 48
  | .monitorDisable _ => some 48
  | .monitorAck _ => some 48
  | .monitorStatus _ => some 48
  | .linkLoad _ => some 32
  | .linkEnable _ => some 32
  | .linkDisable _ => some 32
  | .timerStart _ => some 8
  | .timerStop _ => some 8
  | .timerRead _ => some 8
  | .cueFire _ => some 32
  | .lineSetup _ => some 16
  | .lineSet _ => some 16
  | .lineRead _ => some 16
  | _ => none

end Sys2Proof

namespace Sys2Proof.Machine

/-! ### Commands and their replies -/

/-- The reply of an executed command, appended (R9, R162). -/
def answered (a : CmdArgs) (code : Byte) (result : Result) (mask : BitVec 8) (payload : List Byte) (s : State) :
    State :=
  appendReply ⟨a.tag, code, result, mask, payload⟩ s

/-- A number in one byte, an index or `none` in one byte. -/
def byteOf (n : Nat) : Byte := BitVec.ofNat 8 n

/-- Two payloads of one length that agree in every bit that is read: `mask` has the bits of each byte that the chosen
codes use (R183). -/
def readAlike (mask p q : List Byte) : Prop :=
  p.length = q.length ∧ p.zipWith (· &&& ·) mask = q.zipWith (· &&& ·) mask

/-! ### Frames that join a lane -/

/-- A frame that joins B-out: an idle lane takes it, a busy one leaves it at the tail of the outgoing order (R13). -/
def joinedBOut (f : Frame) (s : State) : State :=
  if s.bOut = none then { s with bOut := some f } else { s with bOutOrder := s.bOutOrder ++ [f] }

/-- The whole frame passes its lane's tests (R3, R4). -/
abbrev Frame.passes (f : Frame) (lane : Lane) : Prop := f.intact = true ∧ f.classified lane = true

/-! ### Screens and formats -/

/-- The five fixed bytes of SCREEN_SETUP (section 11.4). -/
def setupPayload (n : Nat) (k : Fin 32) (mic : Option (Fin 16)) (sp : StopPolicy) (rp : ResumePolicy) : List Byte :=
  [byteOf n, byteOf k.val, indexByte mic, byteOf sp.code, byteOf rp.code]

/-- How many of a screen's references name a format (R51). -/
def Screen.uses (x : Screen) (k : Fin 32) : Nat :=
  ([x.activeFormat, x.pendingFormat, x.outgoingFormat].filter (· == some k)).length

/-- How many references of all screens name a format (R51). -/
def State.uses (s : State) (k : Fin 32) : Nat := (s.screens.toList.map (·.uses k)).sum

/-- The pending format taken over a crossfade of `ms` (R55). -/
def takenFormat (i : Fin 8) (ms : Nat) (s : State) : State :=
  s.onScreen i fun x =>
    { x with
      outgoingFormat := x.activeFormat
      activeFormat := x.pendingFormat
      pendingFormat := none
      steering := ⟨none, none, 0⟩
      mismatchReported := false
      formatFade := some ⟨s.timeBase, ms⟩ }

/-- A format crossfade ended, by its time or cut short (R57, R58). -/
def endedCrossfade (i : Fin 8) (cutShort : Bool) (active released : Fin 32) (s : State) : State :=
  file (some i) (.formatTaken active released cutShort)
    ((s.onFormat released fun f => { f with useCount := f.useCount - 1 }).onScreen i fun x =>
      { x with outgoingFormat := none, formatFade := none })

/-- The content that R52 asks of a matrix part. -/
def MatrixPart.ok (m : MatrixPart) : Prop :=
  2 ≤ m.enter ∧ m.enter ≤ 40 ∧ 1 ≤ m.exit ∧ m.exit ≤ 39 ∧ m.exit < m.enter ∧ 1 ≤ m.hold ∧ m.hold ≤ 3000 ∧
  ∀ row ∈ [m.neutral, m.left, m.centre, m.right, m.surround],
    row.length ≤ 16 ∧ (row.map (·.output)).Nodup ∧ ∀ p ∈ row, -240 ≤ p.offset ∧ p.offset ≤ 24

/-- The content that R52 asks of a format. -/
def FormatEntry.ok (f : FormatEntry) : Prop :=
  (∀ b ∈ f.label.toList, 32 ≤ b.toNat ∧ b.toNat ≤ 126) ∧
  1 ≤ f.inputsExpected ∧ f.inputsExpected ≤ 16 ∧
  1 ≤ f.terms.length ∧ f.terms.length ≤ 64 ∧ (∀ t ∈ f.terms, -240 ≤ t.gain ∧ t.gain ≤ 0) ∧
  (f.terms.map fun t => (t.output, t.input)).Nodup ∧
  match f.kind with
  | .discrete => f.matrix = none
  | .matrix => f.inputsExpected = 2 ∧ ∃ m, f.matrix = some m ∧ m.ok

/-- The payload of FORMAT_LOAD for an entry (section 11.4). -/
def formatPayload (k : Fin 32) (f : FormatEntry) : List Byte :=
  byteOf k.val :: f.label.toList ++ [byteOf f.kind.code, byteOf f.inputsExpected, byteOf f.terms.length] ++
    f.terms.flatMap RoutingTerm.bytes ++
    (match f.matrix with
      | none => []
      | some m => m.bytes)

/-! ### Room equalisation and alignment -/

/-- The staging bank of a channel changed, its live bank as it stands (R66). -/
def withStaging (live : BankName) (f : EqBank → EqBank) (x : ChannelBanks) : ChannelBanks :=
  match live with
  | .a => { a := x.a, b := f x.b }
  | .b => { a := f x.a, b := x.b }

/-- A swap crossfade ended, by its time or early (R73, R74). -/
def endedSwap (i : Fin 8) (early : Bool) (s : State) : State :=
  file (some i) (.eqSwapped s.screens[i].eqLive early) (s.onScreen i fun x => { x with eqSwap := none })

/-- The payload of ALIGN_START (section 11.4). -/
def alignPayload (q : RunRequest) : List Byte :=
  [byteOf q.curve.val, byteOf q.mode.code, byteOf q.passesMax] ++ bytes2 q.settleMs ++ bytes2 q.dwellMs ++
    signed1 q.testLevel ++ [flagByte q.fromFlat, byteOf q.channels.length] ++ q.channels.map fun c => byteOf c.val

/-- The parameters and channel list that R80 admits on a screen of `count` channels. -/
def RunRequest.ok (q : RunRequest) (count : Nat) : Prop :=
  1 ≤ q.passesMax ∧ q.passesMax ≤ 8 ∧ 100 ≤ q.settleMs ∧ q.settleMs ≤ 2000 ∧ 500 ≤ q.dwellMs ∧ q.dwellMs ≤ 10000 ∧
  -120 ≤ q.testLevel ∧ q.testLevel ≤ -20 ∧ q.channels ≠ [] ∧ q.channels.length ≤ 16 ∧ q.channels.Nodup ∧
  ∀ c ∈ q.channels, c.val < count

/-! ### Level monitors -/

/-- The content that R99 to R102 admit for entry `k`. -/
def MonitorContent.ok (c : MonitorContent) (s : State) (k : Fin 48) : Prop :=
  (match c.condition with
    | .above => -240 ≤ c.a ∧ c.a ≤ 0 ∧ c.b = 0 ∧ c.partner = none
    | .below => -240 ≤ c.a ∧ c.a ≤ 0 ∧ c.b = 0 ∧ c.partner = none
    | .outside => -240 ≤ c.a ∧ c.a < c.b ∧ c.b ≤ 0 ∧ c.partner = none
    | .inside => -240 ≤ c.a ∧ c.a ≤ c.b ∧ c.b ≤ 0 ∧ c.partner = none
    | .jump => 1 ≤ c.a ∧ c.a ≤ 240 ∧ c.b = 0 ∧ c.partner = none
    | .track => 1 ≤ c.a ∧ c.a ≤ 240 ∧ c.b = 0 ∧ ∃ p, c.partner = some p ∧ p ≠ k ∧
        s.monitors[p].loaded = true ∧ s.monitors[p].content.screen = c.screen) ∧
  c.holdMs ≤ 60000 ∧ c.releaseMs ≤ 60000 ∧ c.watch ≠ ⟨false, false, false⟩ ∧
  (c.action = .muteChannel → ∃ o, c.point = .output o) ∧ (∀ v, c.action = .faderCeiling v → v ≤ 100)

/-- The bits of MONITOR_LOAD that the content's codes use (R183). -/
def MonitorContent.readMask (c : MonitorContent) : List Byte :=
  let channel := if c.point = .sum then 0#8 else 255#8
  let b := if c.condition = .outside ∨ c.condition = .inside then 255#8 else 0#8
  let partner := if c.condition = .track then 255#8 else 0#8
  let last := if c.action.codes.1 = 3 then 255#8 else 128#8
  [255#8, 255#8, 255#8, channel, 255#8, 255#8, 0#8, 255#8, 255#8, b, b, partner, 255#8, 255#8, 255#8, 255#8, 255#8,
    255#8, 255#8, last]

/-- What holds of the condition of monitor `m` on the reading `l` (R99 to R101). -/
def State.conditionTrue (s : State) (m : Monitor) (l : Level) : Prop :=
  match m.content.condition with
  | .above => m.content.a < l
  | .below => l < m.content.a
  | .outside => l < m.content.a ∨ m.content.b < l
  | .inside => m.content.a ≤ l ∧ l ≤ m.content.b
  | .jump => ∃ p, m.prev = some p ∧ m.content.a < l - p
  | .track => ∃ k, m.content.partner = some k ∧ s.monitors[k].loaded = true ∧
      s.monitors[k].content.screen = m.content.screen ∧
      (m.content.a < l - s.reading s.monitors[k].content ∨ m.content.a < s.reading s.monitors[k].content - l)

/-- A monitor as a raise leaves it (R107). -/
def raisedMonitor (m : Monitor) : Monitor :=
  { m with state := .raised, mark := none, tripped := true, raiseCount := min 255 (m.raiseCount + 1) }

/-- A monitor as its end state leaves it (R106). -/
def endedMonitor (m : Monitor) : Monitor :=
  { m with state := if m.content.latch then .latched else .clear, mark := none }

/-! ### The Cue Engine -/

/-- The ranges of R118. -/
def Action.ok : Action → Prop
  | .linePulse _ count onMs offMs => 1 ≤ count ∧ count ≤ 255 ∧ 1 ≤ onMs ∧ onMs ≤ 10000 ∧ 1 ≤ offMs ∧ offMs ≤ 10000
  | .fader target ms => target ≤ 100 ∧ ms ≤ 60000
  | .formatTake ms => ms ≤ 2000
  | .timerStart _ interval _ => 1 ≤ interval ∧ interval ≤ 86400000
  | _ => True

/-- The eight bytes of an action record (section 11.4). -/
def actionRecord (a : Action) (screen : Fin 8) : List Byte :=
  byteOf a.code :: byteOf screen.val :: a.parameters

/-- The bits of an action's six parameter bytes that its code uses (section 11.4, R183). -/
def Action.parameterMask : Action → List Byte
  | .lineSet .. => [255#8, 255#8, 0#8, 0#8, 0#8, 0#8]
  | .linePulse .. => List.replicate 6 255#8
  | .fader .. => [255#8, 0#8, 255#8, 255#8, 0#8, 0#8]
  | .formatTake _ => [0#8, 0#8, 255#8, 255#8, 0#8, 0#8]
  | .timerStart .. => List.replicate 6 255#8
  | .eqSwap => List.replicate 6 0#8
  | .goOut => List.replicate 6 0#8
  | .houseStop => List.replicate 6 0#8
  | _ => 255#8 :: List.replicate 5 0#8

/-- The bits of a cue entry that its action uses: byte 1 of the action record is ignored in a list (R183). -/
def CueEntry.readMask (e : CueEntry) : List Byte := List.replicate 6 255#8 ++ 0#8 :: e.action.parameterMask

/-- The thirteen bytes of a cue entry (section 11.4). -/
def CueEntry.bytes (e : CueEntry) : List Byte :=
  bytes4 e.position ++ [flagByte e.held] ++ actionRecord e.action 0

/-- The positions of a list rise strictly and none is "no position" (R122). -/
def cueOrder (entries : List CueEntry) : Prop :=
  entries.Pairwise (fun x y => x.position < y.position) ∧ ∀ e ∈ entries, e.position ≠ noPosition

/-- The kind, parameter and entry bytes of a trigger (section 11.4). -/
def Trigger.bytes : Trigger → List Byte
  | .showStart s => [1#8, byteOf s.val, 0#8]
  | .showEnd s => [2#8, byteOf s.val, 0#8]
  | .monitorRaised m => [3#8, byteOf m.val, 0#8]
  | .monitorCleared m => [4#8, byteOf m.val, 0#8]
  | .timer t => [5#8, byteOf t.val, 0#8]
  | .lineActive l => [6#8, byteOf l.val, 0#8]
  | .lineInactive l => [7#8, byteOf l.val, 0#8]
  | .go => [8#8, 0#8, 0#8]
  | .cue s e => [9#8, byteOf s.val, byteOf e.val]
  | .houseStop => [10#8, 0#8, 0#8]
  | .houseRelease => [11#8, 0#8, 0#8]
  | .alignDone s => [12#8, byteOf s.val, 0#8]
  | .command => [13#8, 0#8, 0#8]

/-- The bits of LINK_LOAD that the trigger's kind and the action use (R183). -/
def CueLink.readMask (l : CueLink) : List Byte :=
  let noParameter := l.trigger = .go ∨ l.trigger = .houseStop ∨ l.trigger = .houseRelease ∨ l.trigger = .command
  let parameter := if noParameter then 0#8 else 255#8
  let entry := match l.trigger with
    | .cue .. => 255#8
    | _ => 0#8
  let screen := if l.action.onScreen then 255#8 else 0#8
  [255#8, 255#8, parameter, entry, 255#8, 255#8, 255#8, 255#8, screen] ++ l.action.parameterMask

/-- The payload of LINK_LOAD (section 11.4). -/
def linkPayload (k : Fin 32) (l : CueLink) : List Byte :=
  byteOf k.val :: l.trigger.bytes ++ [indexByte l.owner, byteOf l.mode.code, flagByte l.held] ++
    actionRecord l.action l.target

/-- What R119 skips an action for, in its order. -/
def skipOf (a : Action) (i : Fin 8) (s : State) : Option SkipReason :=
  let x := s.screens[i]
  match a with
  | .fader .. => if x.state = .off then some .off else if x.state = .inAlign then some .align else none
  | .mute .. => if x.state = .off then some .off else if x.state = .inAlign then some .align else none
  | .formatArm k => if x.state = .off then some .off
      else match k with
        | none => none
        | some j => if s.formats[j].valid && s.formats[j].terms.all (fun t => decide (t.output.val < x.count)) then none
          else some .invalid
  | .formatTake _ => if x.state = .off then some .off else if x.state = .inAlign then some .align
      else if x.pendingFormat = none then some .nothingPending else none
  | .eqSwap => if x.state = .off then some .off else if x.state = .inAlign then some .align
      else if x.eqSwap = none then none else some .swapBusy
  | .linkOn k => if s.links[k].loaded = true then none else some .invalid
  | .linkOff k => if s.links[k].loaded = true then none else some .invalid
  | _ => none

/-- The cases of R141 in which the owner's rehearsal holds an action back. -/
def rehearsedBy (a : Action) (i o : Fin 8) (s : State) : Prop :=
  s.screens[o].rehearsal = true ∧
  match a with
  | .fader .. => i = o
  | .mute .. => i = o
  | .formatTake _ => i = o
  | .eqSwap => i = o
  | .lineSet l _ => s.lines[l].owner = some o
  | .linePulse l _ _ _ => s.lines[l].owner = some o
  | .goOut => True
  | .houseStop => True
  | _ => False

/-! ### House stop, GO and booth lines -/

/-- The state with the controller changed by `f` and its drive and LINE judged (R143, R145). -/
def settled (f : House → House) (s : State) : State := { s with house := (f s.house).settle s.timeBase }

/-- A house stop entry's steps: the screens, the held list, the slot, the trigger (R146). -/
def entered (s : State) : State :=
  occurs .houseStop (fillSlot (cancelHeld true ((indexes 8).foldl houseStopsScreen s)))

/-- A house release's steps: the screens, the slot, the trigger (R148). -/
def released (s : State) : State := occurs .houseRelease (fillSlot ((indexes 8).foldl houseReleasesScreen s))

/-- A change of the controller with the entry or release that it makes (R143, R146, R148). -/
def changed (f : House → House) (s : State) : State :=
  let t := settled f s
  if s.stopActive = false ∧ t.stopActive = true then entered t
  else if s.stopActive = true ∧ t.stopActive = false then released t
  else t

/-- The payload of LINE_SETUP (section 11.4). -/
def linePayload (l : Fin 16) (v : LineValues) : List Byte :=
  [byteOf l.val, byteOf v.mode.code, byteOf v.polarity.code, byteOf v.filter.code, indexByte v.owner,
    byteOf v.statusScreen.val, byteOf v.statusSet.bits, byteOf v.alarmMonitor.val]

/-! ### Management commands -/

/-- The codes of the summary table (section 9.4). -/
def commandCodes : List Nat :=
  [1, 2, 3, 4, 16, 17, 18, 19, 20, 21, 22, 23, 32, 33, 34, 35, 36, 48, 49, 50, 51, 52, 64, 65, 66, 80, 81, 82, 83, 84,
    96, 97, 98, 99, 100, 101, 102, 103, 104, 105, 106, 107, 112, 113, 114, 115, 116, 117, 118]

/-- The selector class of a command code (section 9.4). -/
def classOf (code : Nat) : SelectorClass :=
  if code = 64 then .oneScreen
  else if code ∈ [16, 17, 18, 19, 20, 21, 22, 23, 34, 35, 48, 49, 50, 51, 65, 96, 97] then .screen
  else .unit

/-- The payload length suits the command (R165, section 11.4; a command without a layout there has its rule's
fields). -/
def Command.lengthSuits (c : Command) : Bool :=
  let n := c.payload.length
  let code := c.code.toNat
  if code ∈ [1, 17, 18, 19, 49, 50, 65, 66, 97, 105, 106, 107, 113, 114, 115] then n == 0
  else if code ∈ [2, 4, 22, 33, 34, 36, 81, 82, 83, 99, 100, 102, 103, 104, 118] then n == 1
  else if code ∈ [21, 35, 51, 84, 117] then n == 2
  else if code = 20 then n == 3
  else if code ∈ [23, 112] then n == 4
  else if code = 3 then n == 5
  else if code = 16 then n == 5 || n == 7 || n == 9
  else if code = 101 then n == 6
  else if code = 116 then n == 8
  else if code = 98 then n == 15
  else if code = 80 then n == 20
  else if code = 52 then n == 36
  else if code = 48 then n == (if c.byte 0 = 0#8 ∧ n ≠ 0 then 33 else 7)
  else if code = 32 then formatLengthSuits c
  else if code = 64 then decide (10 ≤ n) && n == 10 + c.num 9
  else decide (2 ≤ n) && n == 2 + 13 * c.num 1

/-! ### The invariants -/

/-- The queues and lists keep to their capacities, and notices are lost only while the Notice Queue is full (R8, R9,
R10, R136, R178). -/
def State.queuesWithinCapacity (s : State) : Prop :=
  s.intake.length ≤ 8 ∧ s.replies.length ≤ 8 ∧ s.forward.length ≤ 8 ∧ s.notices.length ≤ 64 ∧ s.held.length ≤ 16 ∧
  s.lostCount ≤ 65535 ∧ (0 < s.lostCount → s.notices.length = 64)

/-- A lane is idle only while nothing waits for it (R11, R13). -/
def State.lanesNeverWait (s : State) : Prop :=
  s.inReset = false →
    (s.aOut = none → s.replies = [] ∧ s.slot = none ∧ s.notices = [] ∧ s.forward = []) ∧
    (s.bOut = none → s.bOutOrder = [])

/-- The kinds that cannot be masked read as enabled (R170, R177). -/
def State.maskKeepsItsKinds (s : State) : Prop := ∀ k ∈ [0, 22, 23], s.mask.getLsbD k = true

/-- An enabled monitor is SUSPENDED exactly when its screen's state is outside its watch set, and a disabled one is OFF
(R103, R108). -/
def State.monitorsFollowWatchSets (s : State) : Prop :=
  ∀ m : Fin 48,
    if s.monitors[m].enabled = true then
      s.monitors[m].state ≠ .off ∧ (s.monitors[m].state = .suspended ↔
        s.monitors[m].content.watch.holds s.screens[s.monitors[m].content.screen].state = false)
    else s.monitors[m].state = .off

/-- The MONITOR causes and ceilings are the ones derived from the monitors, and no effective target stands above its
ceiling (R41, R44). -/
def State.causesFollowTheMonitors (s : State) : Prop :=
  ∀ i : Fin 8, s.screens[i].mutes.monitor = s.mutesScreen i ∧ s.screens[i].ceiling = s.ceilingOf i ∧
    s.screens[i].fader.effective = min s.screens[i].fader.requested s.screens[i].ceiling ∧
    ∀ c : Fin 16, s.screens[i].channels[c].mutes.monitor = s.mutesChannel i c

/-- The Alignment Engine is IDLE exactly when no screen is in ALIGN; else the one screen in ALIGN is the run's (R78). -/
def State.engineHoldsItsScreen (s : State) : Prop :=
  ∀ i : Fin 8, s.screens[i].state = .inAlign ↔ s.run.engine ≠ .idle ∧ s.run.screen = i

/-- Each format's use count is the number of references to it, and a screen holds no outgoing format outside a crossfade
and none at all when OFF (R19, R51, R57). -/
def State.useCountsAreTrue (s : State) : Prop :=
  (∀ k : Fin 32, s.formats[k].useCount = s.uses k) ∧
  ∀ i : Fin 8, (s.screens[i].formatFade = none → s.screens[i].outgoingFormat = none) ∧
    (s.screens[i].state = .off → s.screens[i].activeFormat = none ∧ s.screens[i].pendingFormat = none ∧
      s.screens[i].outgoingFormat = none)

/-- Each cue list rises strictly, holds at most 64 entries, and its cursor stands at the first entry past the screen's
last position, or at the list's end, or at 0 without one (R122, R125). -/
def State.cursorsStandRight (s : State) : Prop :=
  ∀ i : Fin 8, cueOrder s.cueLists[i].entries ∧ s.cueLists[i].entries.length ≤ 64 ∧
    match s.screens[i].lastPosition with
    | none => s.cueLists[i].cursor = 0
    | some q => s.cueLists[i].cursor ≤ s.cueLists[i].entries.length ∧
        ∀ (k : Nat) (e : CueEntry), s.cueLists[i].entries[k]? = some e → (k < s.cueLists[i].cursor ↔ e.position ≤ q)

/-- While the house is stopped nothing is held (R136). -/
def State.nothingIsHeldInAStop (s : State) : Prop := s.stopActive = true → s.held = []

/-- The drive, LINE and BOOTH_INPUT hold under their conditions (R143, R145). -/
def State.houseIsSettled (s : State) : Prop :=
  s.inReset = false →
    (s.house.drive = true ↔ s.house.lineOutput = true ∧ (s.house.set.command = true ∨ s.house.set.monitor = true ∨
      s.house.set.cue = true ∨ s.house.set.boothInput = true)) ∧
    (s.house.set.line = true ↔ s.house.lineInput = true ∧ s.house.hstopSensed = true ∧ s.house.drive = false) ∧
    (s.house.set.boothInput = true ↔
      ∃ l : Fin 16, s.lines[l].mode = .stopInput ∧ s.lines[l].filtered = some true)

/-- An invariant that every step keeps. -/
def StepKeeps (inv : State → Prop) : Prop := ∀ s t : State, inv s → step s = .next t → inv t

end Sys2Proof.Machine
end

