-- ==== Sys2Proof/Certificates/Slice0/Obligations.lean ====
section
/-!
DEFINITION. The statements for the provers. Each docstring names the rules of spec/ that its statement rests on; where
one says that a clause is the model's choice, it names the log entry. What they share of the model's own: a command row
is one execution, under way only where the Management Unit can take a command (log entry 6); a timed row before its time
changes nothing (log entry 2); an idle lane takes a frame in the event that offers it (log entries 7 and 8); and a frame
is a whole row (log entry 9).
-/

open Sys2Proof Sys2Proof.Machine

/-! ### Steps and time -/

/-- A step takes the row at the front of the queue and runs it on the state with the queue's rest. -/
def Obligations.StepRunsTheFrontRow : Prop :=
  ∀ (i : Instr) (s : State) (rest : List Instr),
    step { s with pending := i :: rest } = exec i { s with pending := rest }

/-- Where no row waits: nothing happens while RESETN is asserted; else the rows whose time has come are queued, and
where there is none the time base counts one millisecond and wraps (R1; the tick in an idle step is the model's
choice, log entry 1). The due rows are exactly these, each once, and each under its condition: COMMAND_TAKE while a
command waits and can be executed (R8); the end of a fader ramp (R40), a stop fade (R45), a format crossfade (R57), an
EQ swap's 50 ms (R73), SETTLE and DWELL (R85, R86), a pulse phase (R157), the GO pulse's 10 ms (R153) and a timer's
interval (R134) when so much time has passed since its start; the sensed HSTOP and GO levels when the pin has held
another for 1 ms (R144, R152); an input line's filtered state when its pin has read otherwise for the filter time
(R156); SOURCE_LOST 20 ms after the last arrival, and then the next silent block (R37; in the form of log entry 26). -/
def Obligations.IdleStepQueuesDueRowsOrCountsAMillisecond : Prop :=
  (∀ s : State, s.pending = [] →
    (s.inReset = true → step s = .next s) ∧
    (s.inReset = false → dueRows s = [] → step s = .next { s with timeBase := s.timeBase + 1#32 }) ∧
    (s.inReset = false → dueRows s ≠ [] → step s = .next { s with pending := dueRows s })) ∧
  ∀ s : State,
    let past := fun (start : Word) (ms : Nat) => ms ≤ elapsed s.timeBase start
    (dueRows s).Nodup ∧
    (.commandTake ∈ dueRows s ↔ s.intake ≠ [] ∧ s.canExecute = true) ∧
    (∀ i : Fin 8,
      (.faderRampEnd i ∈ dueRows s ↔ ∃ r, s.screens[i].fader.ramp = some r ∧ past r.start r.duration) ∧
      (.stopFadeEnd i ∈ dueRows s ↔ ∃ x, s.screens[i].stopFade = some x ∧ past x s.screens[i].stopFadeMs) ∧
      (.formatCrossfadeEnd i ∈ dueRows s ↔ ∃ x, s.screens[i].formatFade = some x ∧ past x.start x.duration) ∧
      (.swapCrossfadeEnd i ∈ dueRows s ↔ ∃ x, s.screens[i].eqSwap = some x ∧ past x.start 50) ∧
      (.timerExpiry i ∈ dueRows s ↔ s.timers[i].running = true ∧ past s.timers[i].start s.timers[i].interval) ∧
      (.sourceLost i ∈ dueRows s ↔ s.screens[i].state ≠ .off ∧ s.screens[i].sourceLost = false ∧
        past s.screens[i].lastArrival 20) ∧
      (.silentBlock i ∈ dueRows s ↔ s.screens[i].state ≠ .off ∧ s.screens[i].sourceLost = true ∧
        past s.screens[i].silentBase (2 * s.screens[i].silentPhase / 3))) ∧
    (.settleEnd ∈ dueRows s ↔ s.run.engine = .settle ∧ past s.run.phaseStart s.run.settleMs) ∧
    (.dwellEnd ∈ dueRows s ↔ s.run.engine = .dwell ∧ past s.run.phaseStart s.run.dwellMs) ∧
    (∀ l : Fin 16,
      let x := s.lines[l]
      (.pulsePhaseEnd l ∈ dueRows s ↔ ∃ y, x.train = some y ∧ past y.start (if y.on then y.onMs else y.offMs)) ∧
      (.lineFilterChange l ∈ dueRows s ↔ (x.mode = .input ∨ x.mode = .stopInput) ∧
        x.filtered ≠ some (if x.polarity = .activeHigh then x.external else !x.external) ∧
        past x.since (match x.filter with
          | .none => 0
          | .ms2 => 2
          | .ms20 => 20))) ∧
    (.goPulseEnd ∈ dueRows s ↔ ∃ x, s.house.goPulse = some x ∧ past x 10) ∧
    (.hstopSensedChange ∈ dueRows s ↔
      (s.house.hstopOthers || s.house.drive) ≠ s.house.hstopSensed ∧ past s.house.hstopSince 1) ∧
    (.goSensedChange ∈ dueRows s ↔
      (s.house.goOthers || s.house.goPulse.isSome) ≠ s.house.goSensed ∧ past s.house.goSince 1) ∧
    ∀ r ∈ dueRows s, r ∈ [.commandTake, .settleEnd, .dwellEnd, .goPulseEnd, .hstopSensedChange, .goSensedChange] ∨
      (∃ i : Fin 8, r ∈ [.faderRampEnd i, .stopFadeEnd i, .formatCrossfadeEnd i, .swapCrossfadeEnd i, .timerExpiry i,
        .sourceLost i, .silentBlock i]) ∨
      ∃ l : Fin 16, r ∈ [.pulsePhaseEnd l, .lineFilterChange l]

/-- Every row of the table answers a next state: the model stops nowhere. No row touches the queue of waiting rows,
the resets included. -/
def Obligations.EveryRowAnswersANextStateAndKeepsTheQueue : Prop :=
  (∀ (i : Instr) (s : State), ∃ t, exec i s = .next t) ∧
  (∀ (i : Instr) (s t : State), exec i s = .next t → t.pending = s.pending)

/-! ### The link -/

/-- A frame is intact when its payload has the length of its header and its check word is that of its bytes (R2, R3).
R4's table, condition by condition. A frame with a wrong check word, miscounted or cut off, adds 1 to `frames_in`
and `check_errors`; an intact one that fails R4 adds 1 to `frames_in` and `bad_frames`; neither changes anything else
(R3, R4, R16). The same holds of such a frame on an arrival row: the unit checks and classifies it itself (log entry 9).
-/
def Obligations.FramesThatFailTheirTestsAreDiscarded : Prop :=
  (∀ (f : Frame) (lane : Lane), f.classified lane = true ↔
      f.length ≤ 1600 ∧
      ((lane = .aIn ∧ f.kind = 1 ∧ f.unitNibble ≤ 7 ∧ f.screenNibble ≤ 7 ∧ 1 ≤ f.channelCount ∧ f.channelCount ≤ 16 ∧
          f.length = 2 + 96 * f.channelCount) ∨
        (lane = .aIn ∧ f.kind = 2 ∧ (f.unitNibble ≤ 7 ∨ f.unitNibble = 15)) ∨
        (lane = .bIn ∧ f.kind = 3 ∧ f.unitNibble ≤ 7) ∨
        (lane = .bIn ∧ f.kind = 4 ∧ f.unitNibble ≤ 7 ∧ f.length = 9))) ∧
  (∀ f : Frame, f.intact = true ↔ f.payload.length = 256 * f.header[2].toNat + f.header[3].toNat ∧
      f.check = checkWord (f.header.toList ++ f.payload)) ∧
  ∀ s : State, s.inReset = false →
    let checkFailed : State := { s with stats := { s.stats with
      framesIn := riseTo 65535 s.stats.framesIn
      checkErrors := riseTo 65535 s.stats.checkErrors } }
    let testFailed : State := { s with stats := { s.stats with
      framesIn := riseTo 65535 s.stats.framesIn
      badFrames := riseTo 65535 s.stats.badFrames } }
    (∀ (lane : Lane) (cutOff : Bool) (f : Frame),
      (cutOff = true ∨ f.intact = false → exec (.discardedFrame lane cutOff f) s = .next checkFailed) ∧
      (cutOff = false → f.intact = true → f.classified lane = false →
        exec (.discardedFrame lane cutOff f) s = .next testFailed)) ∧
    ∀ f : Frame,
      (f.intact = false → exec (.blockArrival f) s = .next checkFailed ∧
        exec (.commandArrival f) s = .next checkFailed ∧ exec (.forwardArrival f) s = .next checkFailed) ∧
      (f.intact = true → f.classified .aIn = false →
        exec (.blockArrival f) s = .next testFailed ∧ exec (.commandArrival f) s = .next testFailed) ∧
      (f.intact = true → f.classified .bIn = false → exec (.forwardArrival f) s = .next testFailed)

/-- The check word: all ones before the first byte; each byte, most significant bit first, is taken into the remainder
by x^16 + x^12 + x^5 + 1, and nothing is inverted (R3). Two byte strings of one length that differ in exactly one byte
have different check words (R3). Every frame that the unit builds carries its own check word and a payload of the length
its header gives (R15). The bytes of a REPLY, a NOTICE and a BLOCK that the unit builds, header and payload, as sections
11.1 to 11.3 give them, reserved places 0 (R162, R182); a processed block is such a BLOCK (R14 says which). The number,
subject and detail of each notice kind (R176, section 11.3), with the codes of sections 11.3 and 11.4. -/
def Obligations.CheckWordsAreBuiltAndSeeOneByteErrors : Prop :=
  (∀ (u : Fin 8) (r : Reply) (n : Notice) (a : Byte) (p : Word) (flags : Byte) (count : Nat) (xs : List Int),
      (r.payload.length ≤ 1600 → (replyFrame u r).intact = true) ∧
      (noticeFrame u n).intact = true ∧
      (count ≤ 16 → xs.length = 32 * count → (blockFrame a p flags count xs).intact = true)) ∧
  (∀ (before after : List Byte) (x y : Byte), x ≠ y →
      checkWord (before ++ [x] ++ after) ≠ checkWord (before ++ [y] ++ after)) ∧
  (checkWord [] = 0xFFFF#16 ∧
    ∀ (bytes : List Byte) (b : Byte), checkWord (bytes ++ [b]) = [7, 6, 5, 4, 3, 2, 1, 0].foldl
      (fun (c : BitVec 16) k => if c.msb = b.getLsbD k then c <<< 1 else (c <<< 1) ^^^ 0x1021#16) (checkWord bytes)) ∧
  (let built := fun (header : Vector Byte 8) (payload : List Byte) =>
      (⟨header, payload, checkWord (header.toList ++ payload)⟩ : Frame)
   (∀ (u : Fin 8) (r : Reply),
      let result := ([.ok, .accepted, .badCommand, .badLength, .badValue, .badIndex, .badState, .inUse, .busy,
        .stopActive,
        .full] : List Result).idxOf r.result
      replyFrame u r = built #v[3#8, byteOf (16 * u.val), byteOf (r.payload.length / 256), byteOf r.payload.length,
        r.tag, r.code, byteOf result, r.mask] r.payload) ∧
   (∀ (u : Fin 8) (n : Notice),
      let subject := n.body.subject.getD 65535
      let rehearsed := match n.body with
        | .cueFired _ _ _ r => r
        | _ => false
      noticeFrame u n = built #v[4#8, byteOf (16 * u.val), 0#8, 9#8, byteOf n.body.kind,
        byteOf (match n.screen with
          | none => 15
          | some i => i.val), byteOf (subject / 256), byteOf subject]
        (bytes4 n.stamp ++ bytes4 (n.body.detail.getD 0#32) ++
          [byteOf (rehearsed.toNat + 2 * n.body.detail.isNone.toNat)])) ∧
   (∀ (a : Byte) (p : Word) (flags : Byte) (count : Nat) (xs : List Int),
      blockFrame a p flags count xs = built (#v[1#8, a, byteOf ((2 + 96 * count) / 256), byteOf (2 + 96 * count)] ++
        #v[byteOf (p.toNat / 16777216), byteOf (p.toNat / 65536), byteOf (p.toNat / 256), byteOf p.toNat])
        (flags :: byteOf count :: xs.flatMap fun v =>
          let w := BitVec.ofInt 24 v
          [byteOf (w.toNat / 65536), byteOf (w.toNat / 256), byteOf w.toNat])) ∧
   (∀ w : Word,
      bytes4 w = [byteOf (w.toNat / 16777216), byteOf (w.toNat / 65536), byteOf (w.toNat / 256), byteOf w.toNat])) ∧
  (let spells := fun (b : NoticeBody) => (b.kind, b.subject, b.detail)
   let parts := fun (b0 b1 rest : Nat) => some (BitVec.ofNat 32 (16777216 * b0 + 65536 * b1 + rest))
   let number := fun (n : Nat) => some (BitVec.ofNat 32 n)
   let signed := fun (l : Level) => some (BitVec.ofInt 32 l)
   let index : Source → Nat := fun x => match x with
     | .entry _ e => e.val
     | .link k => k.val
   let link : Source → Nat := fun x => match x with
     | .entry _ _ => 0
     | .link _ => 1
   (∀ stop, spells (.unitReady .powerOn stop) = (0, none, parts 0 stop.toNat 0) ∧
      spells (.unitReady .keepTables stop) = (0, none, parts 1 stop.toNat 0) ∧
      spells (.unitReady .clear stop) = (0, none, parts 2 stop.toNat 0)) ∧
   (∀ p, spells (.showStart p) = (1, none, p) ∧ spells (.sourceLost p) = (3, none, p) ∧
      spells (.sourceRestored p) = (4, none, p)) ∧
   (∀ l, spells (.showEnd l) = (2, none, signed l)) ∧
   (∀ d, spells (.blockGap d) = (5, none, some d)) ∧
   (∀ k, spells (.formatMismatch k .kind) = (6, some k.val, number 1) ∧
      spells (.formatMismatch k .count) = (6, some k.val, number 2) ∧
      spells (.formatMismatch k .kindAndCount) = (6, some k.val, number 3)) ∧
   (∀ k o cut, spells (.formatTaken k o cut) = (7, some k.val, parts o.val cut.toNat 0)) ∧
   (∀ early, spells (.eqSwapped .a early) = (8, none, parts 0 early.toNat 0) ∧
      spells (.eqSwapped .b early) = (8, none, parts 1 early.toNat 0)) ∧
   (∀ c r used limited d,
      let results : List AlignResult := [.pending, .converged, .notConverged, .noSignal, .clipped, .aborted, .skipped]
      spells (.alignProgress c r used limited d) =
        (9, some c.val, parts (results.idxOf r) (used + 128 * limited.toNat) d)) ∧
   (∀ n c, spells (.alignDone n c) = (10, none, parts n c 0)) ∧
   (∀ r p, spells (.alignAborted r p) = (11, none,
      parts (1 + ([.showStarted, .houseStop, .command, .noSource, .reset] : List AbortReason).idxOf r) p 0)) ∧
   (∀ m l, spells (.monitorRaised m l) = (12, some m.val, signed l) ∧
      spells (.monitorLatched m l) = (13, some m.val, signed l) ∧
      ∀ ack, spells (.monitorCleared m ack l) = (14, some m.val, parts ack.toNat 0 (BitVec.ofInt 16 l).toNat)) ∧
   (∀ x a rel, (∀ re, spells (.cueFired x a rel re) = (15, some (index x), parts (link x) a.code (256 * rel.toNat))) ∧
      (∀ why, spells (.cueSkipped x a rel why) = (16, some (index x), parts (link x) a.code (256 * rel.toNat + 1 +
        ([.off, .align, .invalid, .nothingPending, .swapBusy, .jump, .houseStop, .heldFull] : List SkipReason).idxOf
          why))) ∧
      ∀ n, spells (.cueHeld x a n) = (17, some (index x), parts (link x) a.code n)) ∧
   (∀ n, spells (.goReleased n) = (18, none, number n) ∧ spells (.noticesLost n) = (22, none, number n) ∧
      ∀ stop : Bool, spells (.goCancelled n stop) = (19, none, parts n stop.toNat 0)) ∧
   (∀ x c, spells (.cueNotice x c) = (20, some (index x), number c.toNat)) ∧
   (∀ l active, spells (.lineEdge l active) = (21, some l.val, number active.toNat)) ∧
   (∀ set n, spells (.houseState set n) = (23, none, parts (set.line.toNat + 2 * set.boothInput.toNat +
      4 * set.command.toNat + 8 * set.monitor.toNat + 16 * set.cue.toNat) n 0)) ∧
   (∀ (l : Fin 16) (i : Fin 8) (k : Option (Fin 32)) (j : Fin 32) (n on off ms : Nat) (b : Bool) (mode : RunMode)
      (c : Byte),
      ([.lineSet l b, .linePulse l n on off, .fader n ms, .mute b, .formatArm k, .formatTake ms, .eqSwap,
        .timerStart i n mode, .timerStop i, .linkOn j, .linkOff j, .goOut, .houseStop, .notice c] : List Action).map
          Action.code = [1, 2, 3, 4, 5, 6, 7, 8, 9, 10, 11, 12, 13, 14]))

/-- A BLOCK frame of another unit goes on B-out unchanged, in its place (R6, R13). That nothing waits at an idle lane
is the invariant of StepsLeaveNoLaneWaiting. A BLOCK frame for an OFF screen of this unit comes back silent in the
shape in which it came, and nothing else happens but the count of the frame (R6, R14). -/
def Obligations.BlocksArePassedOnOrComeBackSilent : Prop :=
  (∀ (f : Frame) (s : State), s.inReset = false → (s.bOut = none → s.bOutOrder = []) →
      f.intact = true → f.classified .aIn = true → f.kind = 1 → f.unitNibble ≠ s.unit.val →
      exec (.blockArrival f) s = .next (joinedBOut f { s with stats := { s.stats with
        framesIn := riseTo 65535 s.stats.framesIn } })) ∧
  (∀ (f : Frame) (s : State) (i : Fin 8), s.inReset = false → (s.bOut = none → s.bOutOrder = []) →
      f.intact = true → f.classified .aIn = true → f.kind = 1 → f.unitNibble = s.unit.val → f.screenNibble = i.val →
      s.screens[i].state = .off →
      exec (.blockArrival f) s = .next (joinedBOut
        (blockFrame f.header[1] f.position f.blockFlags f.channelCount (List.replicate (32 * f.channelCount) 0))
        { s with stats := { s.stats with framesIn := riseTo 65535 s.stats.framesIn } }))

/-- A COMMAND frame: for another unit it goes on B-out alone; for this unit it joins the intake queue, or is dropped
when eight stand there; a broadcast does both, each on its own (R6, R7, R8). A REPLY or NOTICE from B-in: it leaves at
once by an idle A-out, else joins the forward buffer, or is dropped when eight stand there (R10, R11). -/
def Obligations.CommandsAndReportsJoinTheirQueues : Prop :=
  (∀ (f : Frame) (s : State), s.inReset = false → (s.bOut = none → s.bOutOrder = []) →
      f.intact = true → f.classified .aIn = true → f.kind = 2 →
      let counted : LinkStats := { s.stats with framesIn := riseTo 65535 s.stats.framesIn }
      let queued : State := if s.intake.length < 8 then
          { s with stats := counted, intake := s.intake ++ [⟨f.header[4], f.header[5], f.header[6], f.payload⟩] }
        else { s with stats := { counted with cmdDropped := riseTo 65535 s.stats.cmdDropped } }
      (f.unitNibble = s.unit.val → exec (.commandArrival f) s = .next queued) ∧
      (f.unitNibble = 15 → exec (.commandArrival f) s = .next (joinedBOut f queued)) ∧
      (f.unitNibble ≠ s.unit.val → f.unitNibble ≠ 15 →
        exec (.commandArrival f) s = .next (joinedBOut f { s with stats := counted }))) ∧
  (∀ (f : Frame) (s : State), s.inReset = false → f.intact = true → f.classified .bIn = true →
      let counted : LinkStats := { s.stats with framesIn := riseTo 65535 s.stats.framesIn }
      (s.aOut ≠ none → s.forward.length < 8 →
        exec (.forwardArrival f) s = .next { s with stats := counted, forward := s.forward ++ [f] }) ∧
      (s.forward.length = 8 →
        exec (.forwardArrival f) s =
          .next { s with stats := { counted with fwdDropped := riseTo 65535 s.stats.fwdDropped } }) ∧
      (s.aOut = none → s.replies = [] → s.slot = none → s.notices = [] → s.forward = [] →
        exec (.forwardArrival f) s = .next { s with stats := counted, aOut := some f, lastChosen := .forwardBuffer }))

/-- The arbiter's choice when A-out has sent its frame: a reply first; else the notice side and the forward buffer in
turn; the house-state slot before the Notice Queue (R11, R12). A head that leaves while notices are lost makes room
for NOTICES_LOST (R178). B-out sends its outgoing order oldest first (R13). -/
def Obligations.LanesTakeTheirNextFrame : Prop :=
  (∀ s : State, s.inReset = false →
      let noticeTurn := s.forward = [] ∨ s.lastChosen = .forwardBuffer
      (∀ r rest, s.replies = r :: rest →
        exec .aOutFrameSent s = .next { s with replies := rest, aOut := some (replyFrame s.unit r) }) ∧
      (∀ h, s.replies = [] → s.slot = some h → noticeTurn →
        exec .aOutFrameSent s = .next { s with
          slot := none
          lastChosen := .noticeSide
          aOut := some (noticeFrame s.unit ⟨.houseState s.house.set h.count, none, h.stamp⟩) }) ∧
      (∀ n rest, s.replies = [] → s.slot = none → s.notices = n :: rest → noticeTurn →
        exec .aOutFrameSent s = .next { s with
          notices := if s.lostCount = 0 then rest else rest ++ [⟨.noticesLost s.lostCount, none, s.timeBase⟩]
          lostCount := 0
          lastChosen := .noticeSide
          aOut := some (noticeFrame s.unit n) }) ∧
      (∀ f rest, s.replies = [] → s.forward = f :: rest →
        (s.slot = none ∧ s.notices = []) ∨ s.lastChosen = .noticeSide →
        exec .aOutFrameSent s = .next { s with forward := rest, lastChosen := .forwardBuffer, aOut := some f }) ∧
      (s.replies = [] → s.slot = none → s.notices = [] → s.forward = [] →
        exec .aOutFrameSent s = .next { s with aOut := none })) ∧
  (∀ s : State, s.inReset = false →
      (∀ f rest, s.bOutOrder = f :: rest →
        exec .bOutFrameSent s = .next { s with bOut := some f, bOutOrder := rest }) ∧
      (s.bOutOrder = [] → exec .bOutFrameSent s = .next { s with bOut := none }))

/-- A block files a notice: masked, it is not created; else it joins the tail of the Notice Queue, or is lost and
counted when 64 stand there; an idle lane takes it at once (R11, R175, R178). The house-state slot: a fill of an empty
slot counts 1, of a filled one counts on to 255, with the new stamp; an idle lane takes it at once with the source set
as it stands (R11, R179). A reply joins the tail of the reply list, and an idle lane takes it at once (R9, R11). -/
def Obligations.NoticesSlotAndRepliesReachTheLane : Prop :=
  (∀ (screen : Option (Fin 8)) (body : NoticeBody) (s : State),
      let n : Notice := ⟨body, screen, s.timeBase⟩
      (s.mask.getLsbD body.kind = false → file screen body s = s) ∧
      (s.mask.getLsbD body.kind = true → s.aOut ≠ none → s.notices.length < 64 →
        file screen body s = { s with notices := s.notices ++ [n] }) ∧
      (s.mask.getLsbD body.kind = true → s.aOut ≠ none → 64 ≤ s.notices.length → s.lostCount ≤ 65535 →
        file screen body s = { s with lostCount := min 65535 (s.lostCount + 1) }) ∧
      (s.mask.getLsbD body.kind = true → s.inReset = false → s.aOut = none → s.replies = [] → s.slot = none →
        s.notices = [] → s.forward = [] → s.lostCount = 0 →
        file screen body s = { s with aOut := some (noticeFrame s.unit n), lastChosen := .noticeSide })) ∧
  (∀ s : State,
      (s.aOut ≠ none → s.slot = none → fillSlot s = { s with slot := some ⟨1, s.timeBase⟩ }) ∧
      (∀ h, s.aOut ≠ none → s.slot = some h → h.count ≤ 255 →
        fillSlot s = { s with slot := some ⟨min 255 (h.count + 1), s.timeBase⟩ }) ∧
      (s.inReset = false → s.aOut = none → s.replies = [] → s.slot = none → s.notices = [] → s.forward = [] →
        fillSlot s = { s with
          aOut := some (noticeFrame s.unit ⟨.houseState s.house.set 1, none, s.timeBase⟩)
          lastChosen := .noticeSide })) ∧
  (∀ (r : Reply) (s : State),
      (s.aOut ≠ none → appendReply r s = { s with replies := s.replies ++ [r] }) ∧
      (s.inReset = false → s.aOut = none → s.replies = [] →
        appendReply r s = { s with aOut := some (replyFrame s.unit r) }))

/-- RESETN asserted, in every state: the frames being sent are cut off and the wires are let go; from then on a row of
the wires' own levels writes that level, and no other row but RESETN_ASSERT and the release has any effect (R17, R151,
R153, R159; that the whole unit is silent is the model's reading, log entry 3). POWER_ON_RESET, in every state: every
block at its power-on values, the straps sampled, and UNIT_READY leaving on A-out (R5, R17, R173; that the row carries
the straps, acts in every state and keeps the levels, the waiting rows and `fresh` is the model's choice, log entry 4).
Whatever the wires carry, LINE and the sensed HSTOP follow the pin of HSTOP at once, the sensed GO that of GO, nothing
is driven, and every booth line is an input that reads its pin (R144, R150 to R152, R159). -/
def Obligations.ResetnStopsTheUnitAndItsReleaseStartsIt : Prop :=
  ((∀ s : State, exec .resetnAssert s = .next { s with
      inReset := true
      aOut := none
      bOut := none
      house := { s.house with drive := false, goPulse := none } }) ∧
    (∀ (r : Instr) (s : State), s.inReset = true → r ≠ .resetnAssert → (∀ u, r ≠ .powerOnReset u) →
      (∀ level, r ≠ .hstopPinChange level) → (∀ level, r ≠ .goPinChange level) →
      (∀ l level, r ≠ .linePinChange l level) → exec r s = .next s) ∧
    (∀ (s : State) (level : Bool), s.inReset = true →
      exec (.hstopPinChange level) s = .next { s with house := { s.house with
        hstopOthers := level
        hstopSince := if (level || s.house.drive) = s.house.hstopPin then s.house.hstopSince else s.timeBase } } ∧
      exec (.goPinChange level) s = .next { s with house := { s.house with
        goOthers := level
        goSince := if (level || s.house.goPulse.isSome) = s.house.goPin then s.house.goSince else s.timeBase } } ∧
      ∀ l : Fin 16, exec (.linePinChange l level) s = .next (s.onLine l fun x => { x with
        external := level
        since := if level = x.external then x.since else s.timeBase }))) ∧
  (∀ (straps : Fin 8) (s : State),
      exec (.powerOnReset straps) s = .next { State.powerOn straps s.house.hstopOthers s.house.goOthers
          (s.lines.map fun l => powerOnLine l.external) with
        fresh := s.fresh
        pending := s.pending
        lastChosen := .noticeSide
        aOut := some (noticeFrame straps ⟨.unitReady .powerOn s.house.hstopOthers, none, 0#32⟩) }) ∧
  (∀ (straps : Fin 8) (s : State), ∃ t, exec (.powerOnReset straps) s = .next t ∧ t.inReset = false ∧ t.unit = straps ∧
      t.house = {
        set := ⟨s.house.hstopOthers, false, false, false, false⟩
        lineInput := true
        lineOutput := false
        goInput := true
        goLevel := false
        drive := false
        hstopOthers := s.house.hstopOthers
        hstopSensed := s.house.hstopOthers
        hstopSince := 0#32
        goPulse := none
        goOthers := s.house.goOthers
        goSensed := s.house.goOthers
        goSince := 0#32 } ∧
      ∀ l : Fin 16, t.lines[l] = {
        mode := .input
        polarity := .activeHigh
        filter := .ms2
        owner := none
        statusScreen := 0
        statusSet := ⟨true, false, false, false, false⟩
        alarmMonitor := 0
        latch := false
        filtered := some s.lines[l].external
        train := none
        external := s.lines[l].external
        since := 0#32 })

/-! ### Screens -/

/-- SCREEN_SETUP of an OFF screen, in each of its three lengths: the screen takes the payload's values, is
unconfigured no more, holds its initial format and enters DARK, or STOPPED while the house is stopped and its policy
is not EXEMPT; its windows are emptied and its monitors judged; nothing else changes (R21, R26, R34). -/
def Obligations.ScreenSetupConfiguresTheScreen : Prop :=
  ∀ (i : Fin 8) (a : CmdArgs) (s : State) (n fade catchup : Nat) (k : Fin 32) (mic : Option (Fin 16))
    (sp : StopPolicy) (rp : ResumePolicy) (rehearsal : Bool) (live : BankName),
    s.canExecute = true → a.names i → 1 ≤ n → n ≤ 16 → fade ≤ 5000 → catchup ≤ 15000 →
    ((a.payload = setupPayload n k mic sp rp ∧ fade = 2000 ∧ catchup = 750) ∨
      (a.payload = setupPayload n k mic sp rp ++ bytes2 fade ∧ catchup = 750) ∨
      a.payload = setupPayload n k mic sp rp ++ bytes2 fade ++ bytes2 catchup) →
    s.screens[i] = offScreen rehearsal live → s.monitorsFollowWatchSets →
    s.formats[k].valid = true → (∀ t ∈ s.formats[k].terms, t.output.val < n) →
    let stops := s.stopActive && sp != .exempt
    let fades := sp == .fade && fade != 0
    let state : ScreenState := if stops then .stopped else .dark
    ∃ t, exec (.screenSetup a) s = .next (answered a 16#8 .ok 0#8 [] t) ∧
      t = { s with screens := t.screens, formats := t.formats, monitors := t.monitors } ∧
      t.screens[i] = { offScreen rehearsal live with
        state := state
        channelCount := some n
        micChannel := mic
        stopPolicy := sp
        stopFadeMs := fade
        resumePolicy := rp
        catchupWindow := catchup
        mutes := ⟨false, stops && !fades, false, false, false⟩
        stopFade := if stops && fades then some s.timeBase else none
        activeFormat := some k
        fader := ⟨70, 70, 70, none⟩
        lastArrival := s.timeBase } ∧
      (∀ j : Fin 8, j ≠ i → t.screens[j] = s.screens[j]) ∧
      t.formats[k] = { s.formats[k] with useCount := s.formats[k].useCount + 1 } ∧
      (∀ j : Fin 32, j ≠ k → t.formats[j] = s.formats[j]) ∧
      ∀ m : Fin 48, t.monitors[m] =
        if s.monitors[m].content.screen ≠ i then s.monitors[m]
        else if s.monitors[m].enabled then { s.monitors[m] with
          state := if s.monitors[m].content.watch.holds state then .clear else .suspended
          mark := none
          prev := none }
        else { s.monitors[m] with prev := none }

/-- SCREEN_CLOSE of a DARK or STOPPED screen: the screen takes the OFF values, its references are released, its cursor
returns to 0, its enabled monitors are suspended, and nothing else changes (R19, R28, R51). SCREEN_RESUME of a STOPPED
screen outside a house stop: DARK, with STOP removed and a stop fade cancelled (R27). -/
def Obligations.CloseAndResumeMoveTheScreen : Prop :=
  (∀ (i : Fin 8) (a : CmdArgs) (s : State), s.canExecute = true → a.names i → a.payload = [] →
      s.screens[i].state = .dark ∨ s.screens[i].state = .stopped →
      ∃ t, exec (.screenClose a) s = .next (answered a 17#8 .ok 0#8 [] t) ∧
        t = { s with screens := t.screens, formats := t.formats, monitors := t.monitors, cueLists := t.cueLists } ∧
        t.screens[i] = offScreen s.screens[i].rehearsal s.screens[i].eqLive ∧
        (∀ j : Fin 8, j ≠ i → t.screens[j] = s.screens[j]) ∧
        (∀ k : Fin 32, t.formats[k] =
          { s.formats[k] with useCount := s.formats[k].useCount - s.screens[i].uses k }) ∧
        t.cueLists[i] = { s.cueLists[i] with cursor := 0 } ∧
        (∀ j : Fin 8, j ≠ i → t.cueLists[j] = s.cueLists[j]) ∧
        ∀ m : Fin 48, t.monitors[m] =
          if s.monitors[m].content.screen = i ∧ s.monitors[m].enabled = true then
            { s.monitors[m] with state := .suspended, mark := none, prev := none }
          else s.monitors[m]) ∧
  (∀ (i : Fin 8) (a : CmdArgs) (s : State), s.canExecute = true → a.names i → a.payload = [] →
      s.screens[i].state = .stopped →
      (s.stopActive = false →
        exec (.screenResume a) s = .next (answered a 19#8 .ok 0#8 [] (enterState i .dark (s.onScreen i fun x =>
          { x with stopFade := none, mutes := { x.mutes with stop := false } })))) ∧
      (s.stopActive = true →
        exec (.screenResume a) s = .next (answered a 19#8 .stopActive (1#8 <<< i.val) [] s)))

/-- A screen that changes its state: its monitors are judged against their watch sets, its MONITOR causes and ceiling
are derived again, and nothing else changes (R41, R44, R108, R109). The MONITOR causes and the ceiling are what the
monitors that are RAISED, RELEASING or LATCHED give (R41, R44). -/
def Obligations.AChangeOfStateJudgesMonitorsAndDerivesCauses : Prop :=
  (∀ (i : Fin 8) (st : ScreenState) (s : State),
      let t := enterState i st s
      t = { s with screens := t.screens, monitors := t.monitors } ∧
      (∀ j : Fin 8, j ≠ i → t.screens[j] = s.screens[j]) ∧
      (∀ m : Fin 48, t.monitors[m] =
        if s.monitors[m].content.screen = i ∧ s.monitors[m].enabled = true then
          if s.monitors[m].content.watch.holds st then
            if s.monitors[m].state = .suspended then { s.monitors[m] with state := .clear, mark := none, prev := none }
            else s.monitors[m]
          else { s.monitors[m] with state := .suspended, mark := none, prev := none }
        else s.monitors[m]) ∧
      t.screens[i] = { s.screens[i] with
        state := st
        ceiling := t.ceilingOf i
        fader := s.screens[i].fader.underCeiling s.timeBase (t.ceilingOf i)
        mutes := { s.screens[i].mutes with monitor := t.mutesScreen i }
        channels := t.screens[i].channels } ∧
      ∀ c : Fin 16, t.screens[i].channels[c] = { s.screens[i].channels[c] with
        mutes := { s.screens[i].channels[c].mutes with monitor := t.mutesChannel i c } }) ∧
  (∀ (s : State) (i : Fin 8),
      let acts := fun (m : Fin 48) => s.monitors[m].enabled = true ∧ s.monitors[m].content.screen = i ∧
        (s.monitors[m].state = .raised ∨ s.monitors[m].state = .releasing ∨ s.monitors[m].state = .latched)
      (s.mutesScreen i = true ↔ ∃ m, acts m ∧ s.monitors[m].content.action = .muteScreen) ∧
      (∀ c : Fin 16, s.mutesChannel i c = true ↔ ∃ m, acts m ∧ s.monitors[m].content.action = .muteChannel ∧
        s.monitors[m].content.point = .output c) ∧
      s.ceilingOf i ≤ 100 ∧
      (∀ m c, acts m → s.monitors[m].content.action = .faderCeiling c → s.ceilingOf i ≤ c) ∧
      (s.ceilingOf i = 100 ∨ ∃ m, acts m ∧ s.monitors[m].content.action = .faderCeiling (s.ceilingOf i)))

/-- FADER_SET: the requested target, the effective target under the ceiling, and a new ramp from the current position,
or none for time 0 or a position that stands there already; nothing else changes (R40). MUTE_SET adds or removes
COMMAND in the set named, the screen's or a channel's, and changes nothing else (R43). REHEARSAL_SET sets or clears
the flag in every state (R46), and CHANNEL_SETUP writes trim and delay (R32). -/
def Obligations.FaderMuteRehearsalAndChannelCommandsWriteTheirFields : Prop :=
  (∀ (i : Fin 8) (a : CmdArgs) (s : State) (target ms : Nat), s.canExecute = true → a.names i →
      target ≤ 100 → ms ≤ 60000 → a.payload = byteOf target :: bytes2 ms →
      s.screens[i].state ≠ .off → s.screens[i].state ≠ .inAlign →
      let p := s.screens[i].fader.position s.timeBase
      let e := min target s.screens[i].ceiling
      exec (.faderSet a) s = .next (answered a 20#8 .ok 0#8 [] (s.onScreen i fun x => { x with
        fader := if ms = 0 ∨ p = e then { rest := e, requested := target, effective := e, ramp := none }
          else { rest := p, requested := target, effective := e, ramp := some ⟨p, e, s.timeBase, ms⟩ } }))) ∧
  (∀ (i : Fin 8) (a : CmdArgs) (s : State) (on : Bool), s.canExecute = true → a.names i →
      s.screens[i].state ≠ .off →
      (a.payload = [255#8, flagByte on] →
        exec (.muteSet a) s = .next (answered a 21#8 .ok 0#8 [] (s.onScreen i fun x =>
          { x with mutes := { x.mutes with command := on } }))) ∧
      (∀ c : Fin 16, c.val < s.screens[i].count → a.payload = [byteOf c.val, flagByte on] →
        exec (.muteSet a) s = .next (answered a 21#8 .ok 0#8 [] (s.onChannel i c fun ch =>
          { ch with mutes := { ch.mutes with command := on } }))) ∧
      (∀ c : Fin 16, s.screens[i].count ≤ c.val → a.payload = [byteOf c.val, flagByte on] →
        exec (.muteSet a) s = .next (answered a 21#8 .badValue (1#8 <<< i.val) [] s))) ∧
  (∀ (i : Fin 8) (a : CmdArgs) (s : State), s.canExecute = true → a.names i →
      (∀ on, a.payload = [flagByte on] →
        exec (.rehearsalSet a) s = .next (answered a 22#8 .ok 0#8 [] (s.onScreen i fun x =>
          { x with rehearsal := on }))) ∧
      (∀ (c : Fin 16) (trim : Int) (delay : Nat), s.screens[i].state ≠ .off → s.screens[i].state ≠ .inAlign →
        c.val < s.screens[i].count → -48 ≤ trim → trim ≤ 24 → delay ≤ 4800 →
        a.payload = byteOf c.val :: signed1 trim ++ bytes2 delay →
        exec (.channelSetup a) s = .next (answered a 23#8 .ok 0#8 [] (s.onChannel i c fun ch =>
          { ch with trim := trim, delay := delay }))))

/-- A ramp from a to b over T stands at a moved towards b by the whole part of |b − a|·t/T steps; it begins at a,
reaches b at T and stays (R40). A ceiling that changes the effective target replaces the ramp by one of 20 ms a step
from the current position; one that does not leaves the fader as it stands (R41). -/
def Obligations.RampsAndCeilingsMoveTheFader : Prop :=
  (∀ (r : Ramp) (t : Nat), 0 < r.duration →
      (t ≤ r.duration → r.positionAt t = if r.origin ≤ r.dest then r.origin + (r.dest - r.origin) * t / r.duration
        else r.origin - (r.origin - r.dest) * t / r.duration) ∧
      r.positionAt 0 = r.origin ∧
      (r.duration ≤ t → r.positionAt t = r.dest) ∧
      (r.origin ≤ r.dest → r.positionAt t ≤ r.positionAt (t + 1)) ∧
      (r.dest ≤ r.origin → r.positionAt (t + 1) ≤ r.positionAt t)) ∧
  (∀ (f : Fader) (now : Word) (ceiling : Nat),
      let e := min f.requested ceiling
      let p := f.position now
      (e = f.effective → f.underCeiling now ceiling = f) ∧
      (e ≠ f.effective → p = e →
        f.underCeiling now ceiling = { rest := e, requested := f.requested, effective := e, ramp := none }) ∧
      (e ≠ f.effective → p ≠ e →
        f.underCeiling now ceiling = 
          ⟨p, f.requested, e, some ⟨p, e, now, 20 * (max p e - min p e)⟩⟩))

/-- SOURCE_LOST, 20 ms after the last arrival: the source is lost, the notice is filed, the first silent block is made,
and a screen in ALIGN has its run overtaken and returns to DARK (R37, R94). While the source is lost, the k-th silent
block after the first is made 2k/3 ms past the loss, rounded down (R14, R37): said in the model's own form, a block of
phase 1, 2 or 3 when 0, 1 or 2 ms have passed since a base, which moves on by 2 ms after every third (log entry 26).
FADER_RAMP_END at the ramp's end: the position is the target and no ramp is in flight (R40). STOP_FADE_END at the fade's
end: STOP is added and the fade is cleared (R45). Each of the four rows before its time, or with nothing under way,
changes nothing (log entry 2). -/
def Obligations.TimedScreenRowsActWhenTheirTimeHasCome : Prop :=
  (∀ (i : Fin 8) (s : State), s.inReset = false → s.screens[i].state ≠ .off → s.screens[i].sourceLost = false →
      20 ≤ elapsed s.timeBase s.screens[i].lastArrival →
      let p := s.screens[i].arrivalPosition
      let lost := file (some i) (.sourceLost (if p = noPosition then none else some p)) (s.onScreen i fun x =>
        { x with sourceLost := true, silentBase := s.timeBase, silentPhase := 1 })
      let made := joinBOut (silentFrame (addressByte s.unit i.val) p 0#8 s.screens[i].count) lost
      exec (.sourceLost i) s = .next
        (if s.screens[i].state = .inAlign then enterState i .dark (overtakeRun .noSource made) else made)) ∧
  (∀ (i : Fin 8) (s : State), s.inReset = false → s.screens[i].state ≠ .off → s.screens[i].sourceLost = true →
      let x := s.screens[i]
      (2 * x.silentPhase / 3 ≤ elapsed s.timeBase x.silentBase →
        exec (.silentBlock i) s = .next
          ((joinBOut (silentFrame (addressByte s.unit i.val) x.arrivalPosition 0#8 x.count) s).onScreen i fun y =>
            if x.silentPhase < 3 then { y with silentPhase := x.silentPhase + 1 }
            else { y with silentPhase := 1, silentBase := x.silentBase + 2#32 })) ∧
      (elapsed s.timeBase x.silentBase < 2 * x.silentPhase / 3 → exec (.silentBlock i) s = .next s)) ∧
  (∀ (i : Fin 8) (s : State) (r : Ramp), s.inReset = false → s.screens[i].fader.ramp = some r →
      r.duration ≤ elapsed s.timeBase r.start →
      exec (.faderRampEnd i) s = .next (s.onScreen i fun x =>
        { x with fader := { x.fader with rest := r.dest, ramp := none } })) ∧
  (∀ (i : Fin 8) (s : State), s.inReset = false →
      let x := s.screens[i]
      (x.state = .off ∨ x.sourceLost = true ∨ elapsed s.timeBase x.lastArrival < 20 →
        exec (.sourceLost i) s = .next s) ∧
      (x.state = .off ∨ x.sourceLost = false → exec (.silentBlock i) s = .next s) ∧
      ((∀ r, x.fader.ramp = some r → elapsed s.timeBase r.start < r.duration) →
        exec (.faderRampEnd i) s = .next s) ∧
      ((∀ start, x.stopFade = some start → elapsed s.timeBase start < x.stopFadeMs) →
        exec (.stopFadeEnd i) s = .next s)) ∧
  (∀ (i : Fin 8) (s : State) (start : Word), s.inReset = false → s.screens[i].stopFade = some start →
      s.screens[i].stopFadeMs ≤ elapsed s.timeBase start →
      exec (.stopFadeEnd i) s = .next (s.onScreen i fun x =>
        { x with stopFade := none, mutes := { x.mutes with stop := true } }))

/-- A block taken by a screen passes the stages of R22 in their order and joins B-out as a processed block of its own
address and position, RUN as it came, MATRIX 0 and the screen's channel count (R14, R22; where no rule orders two
parts of a stage the order is the model's, log entry 18). With no cue, link or monitor to act on it: the arrival
record takes it, the RUN flag moves the state, and in SHOW a valid position becomes the last position (R22, R23, R24).
Stage by stage: the arrival record, with SOURCE_RESTORED where the source was lost (R22, R38); the RUN flag, with the
show start, the show end (SHOW_END with `show_peak_long`, and its trigger) and the run that a show overtakes (R23,
R25, R94); the show start's steps, the screen in SHOW with emptied windows, `show_peak_long` −240, no mismatch
reported, no last position and the cursor at 0, then SHOW_START and its trigger (R24, R34, R36; that an emptied meter
keeps its PEAK and reads −240 otherwise is the model's reading, log entry 17); and the position, where a gap counts in
`gaps`, up to 65535, and files BLOCK_GAP with the difference modulo 2^32 before the cues are taken (R39). -/
def Obligations.ABlockMovesItsScreen : Prop :=
  (∀ (i : Fin 8) (f : Frame) (s : State), s.inReset = false → Frame.passes f .aIn → f.kind = 1 →
      f.unitNibble = s.unit.val → f.screenNibble = i.val → s.screens[i].state ≠ .off →
      let p := if f.position = noPosition then none else some f.position
      let counted := { s with stats := { s.stats with framesIn := riseTo 65535 s.stats.framesIn } }
      let u := passChain i f (checkMismatch i f (handlePosition i p (actOnRun i f.run p (noteArrival i f counted))))
      exec (.blockArrival f) s = .next (joinBOut
        (blockFrame f.header[1] f.position (flagByte f.run) u.1.screens[i].count u.2) (evaluateMonitors i u.1))) ∧
  (∀ (i : Fin 8) (f : Frame) (s : State), s.inReset = false → Frame.passes f .aIn → f.kind = 1 →
      f.unitNibble = s.unit.val → f.screenNibble = i.val → s.screens[i].state ≠ .off →
      s.cueLists[i].entries = [] → (∀ k : Fin 32, s.links[k].enabled = false) →
      (∀ m : Fin 48, s.monitors[m].enabled = false) → s.engineHoldsItsScreen →
      let after : ScreenState := match s.screens[i].state, f.run with
        | .dark, true => .inShow
        | .inShow, false => .dark
        | .inAlign, true => .inShow
        | st, _ => st
      ∃ t, exec (.blockArrival f) s = .next t ∧
        t.screens[i].state = after ∧
        t.screens[i].lastArrival = s.timeBase ∧ t.screens[i].arrivalPosition = f.position ∧
        t.screens[i].sourceLost = false ∧
        (after = .inShow → f.position ≠ noPosition → t.screens[i].lastPosition = some f.position) ∧
        (after ≠ .inShow → t.screens[i].lastPosition = s.screens[i].lastPosition) ∧
        ∀ j : Fin 8, j ≠ i → t.screens[j] = s.screens[j]) ∧
  (∀ (i : Fin 8) (f : Frame) (s : State),
      let p := if f.position = noPosition then none else some f.position
      let arrived := s.onScreen i fun x =>
        { x with lastArrival := s.timeBase, arrivalPosition := f.position, sourceLost := false }
      (s.screens[i].sourceLost = true → noteArrival i f s = file (some i) (.sourceRestored p) arrived) ∧
      (s.screens[i].sourceLost = false → noteArrival i f s = arrived)) ∧
  (∀ (i : Fin 8) (p : Option Word) (s : State),
      (s.screens[i].state = .dark → actOnRun i true p s = startShow i p s) ∧
      (s.screens[i].state = .inShow → actOnRun i false p s =
        occurs (.showEnd i) (file (some i) (.showEnd s.screens[i].showPeakLong) (enterState i .dark s))) ∧
      (s.screens[i].state = .inAlign →
        actOnRun i true p s = startShow i p (enterState i .dark (overtakeRun .showStarted s))) ∧
      (s.screens[i].state ≠ .dark → s.screens[i].state ≠ .inAlign → actOnRun i true p s = s) ∧
      (s.screens[i].state ≠ .inShow → actOnRun i false p s = s)) ∧
  (∀ (i : Fin 8) (p : Option Word) (s : State),
      let e := enterState i .inShow s
      let emptied := fun (m : Meter) =>
        { m with short := -240, long := -240, window := [], secondEnergy := 0, secondBlocks := 0, seconds := [] }
      ∃ t, startShow i p s = occurs (.showStart i) (file (some i) (.showStart p) t) ∧
        t = { e with screens := t.screens, monitors := t.monitors, cueLists := t.cueLists } ∧
        t.screens[i].state = .inShow ∧
        t.screens[i] = { e.screens[i] with
          showPeakLong := -240
          mismatchReported := false
          lastPosition := none
          channels := e.screens[i].channels.map fun ch => { ch with meter := emptied ch.meter }
          inputs := e.screens[i].inputs.map emptied
          sum := emptied e.screens[i].sum
          steerSum := ⟨-240, []⟩
          steerDiff := ⟨-240, []⟩ } ∧
        (∀ j : Fin 8, j ≠ i → t.screens[j] = s.screens[j]) ∧
        (∀ m : Fin 48, t.monitors[m] =
          if e.monitors[m].content.screen = i then { e.monitors[m] with prev := none } else e.monitors[m]) ∧
        ∀ j : Fin 8, t.cueLists[j] = if j = i then { s.cueLists[j] with cursor := 0 } else s.cueLists[j]) ∧
  (∀ (i : Fin 8) (s : State),
      (∀ p, s.screens[i].state = .inShow →
        let gap := fun (difference : Word) => file (some i) (.blockGap difference) { s with stats := { s.stats with
          gaps := s.stats.gaps.set i (riseTo 65535 s.stats.gaps[i]) } }
        let checked := match s.screens[i].lastPosition with
          | none => s
          | some q => if p = q + 1 then s else gap (p - (q + 1))
        handlePosition i (some p) s =
          (takeCues i p checked).onScreen i fun x => { x with lastPosition := some p }) ∧
      handlePosition i none s = s ∧
      ∀ p, s.screens[i].state ≠ .inShow → handlePosition i p s = s)

/-- The reading of an energy lies within half a level step of 20·log10 of its ratio to full scale, held within
−240..0; a value halfway between two steps goes to the higher (R33, R35). A meter that has been restarted and has then
taken blocks reads in PEAK the last block's largest sample, in SHORT the mean of the last 450 blocks, or of all while
they are fewer, and in LONG the mean of the last 60 completed seconds of 1500 blocks, or of all while they are fewer
(R33, R34; PEAK stays until then, log entry 17). A block feeds the meters of the channels in use at the meter point,
of the sixteen inputs and of the sum, and in SHOW `show_peak_long` (R34 to R36; full scale is 8388608, and channels
not in use are not metered, log entries 12 and 17). The delay line gives the samples that lie `delay` periods back,
silence where it holds none, and they are limited to the 24-bit range at the meter point (R31, R32; they carry 32
fraction bits until then, log entry 11). A channel carries only silent samples while its set or its screen's is
non-empty; with both empty it carries its metered samples, multiplied in a stop fade by 1 − t/stop_fade_ms (R42, R45;
the rounding of that product is a free value, log entry 11). In SHOW the first block that
disagrees with the active format files FORMAT_MISMATCH and is noted; no other block is compared (R59). A DWELL of the
screen in ALIGN gathers its microphone input, zeros where there is none: the total energy, the count, the full-scale
flag, and in each band the energy that the samples hold there, a share of the total (R86). It is the energy of what the
band's filter makes of them; the filter of band b passes the third octave about 20·2^(b/3) Hz (R86, section 4.1; the
filters are a free value, to within half a level step, log entry 15). -/
def Obligations.ReadingsAreLevelStepsAndMutesAreSilent : Prop :=
  (∀ num den : Nat, 0 < den →
      (num = 0 → levelOf num den = -240) ∧
      (0 < num → -240 ≤ levelOf num den ∧ levelOf num den ≤ 0 ∧
        (levelOf num den ≠ -240 → (levelOf num den : ℝ) - 1 / 2 ≤ 20 * Real.logb 10 ((num : ℝ) / den)) ∧
        (levelOf num den ≠ 0 → 20 * Real.logb 10 ((num : ℝ) / den) < (levelOf num den : ℝ) + 1 / 2))) ∧
  (∀ (now : Word) (x : Screen) (c : Fin 16) (xs : List Int),
      (x.mutes ≠ ⟨false, false, false, false, false⟩ ∨ x.channels[c].mutes ≠ ⟨false, false, false⟩ →
        muteStage now x c xs = List.replicate xs.length 0) ∧
      (x.mutes = ⟨false, false, false, false, false⟩ → x.channels[c].mutes = ⟨false, false, false⟩ →
        x.stopFade = none → muteStage now x c xs = xs) ∧
      (∀ start, x.mutes = ⟨false, false, false, false, false⟩ → x.channels[c].mutes = ⟨false, false, false⟩ →
        x.stopFade = some start → elapsed now start ≤ x.stopFadeMs → 0 < x.stopFadeMs →
        (muteStage now x c xs).length = xs.length ∧
        ∀ (k : Nat) (v : Int), xs[k]? = some v → ∃ y, (muteStage now x c xs)[k]? = some y ∧
          |y * x.stopFadeMs - v * (x.stopFadeMs - elapsed now start)| < x.stopFadeMs)) ∧
  (∀ (m : Meter) (scale : Nat) (blocks : List (List Nat)),
      let e := blocks.map List.sum
      let t := blocks.foldl (fun m squares => m.take scale squares) m.restart
      let seconds := blocks.length / 1500
      let kept := min seconds 60
      (blocks = [] → t.peak = m.peak) ∧
      (∀ squares, blocks.getLast? = some squares → t.peak = levelOf (squares.foldl max 0) scale) ∧
      t.short = (if blocks = [] then -240
        else levelOf (e.drop (blocks.length - 450)).sum (min blocks.length 450 * 32 * scale)) ∧
      t.long = (if seconds = 0 then -240
        else levelOf ((e.take (1500 * seconds)).drop (1500 * (seconds - kept))).sum (kept * 48000 * scale))) ∧
  (∀ (x : Screen) (formats : Vector FormatEntry 32) (periods : List (List Int)) (channels : List PassedChannel),
      (∀ p ∈ channels, p.samples.length = 32) →
      let full := 8388608 * 8388608
      let t := x.passed formats periods channels
      (∀ c : Fin 16, t.channels[c] = match channels[c.val]? with
        | none => x.channels[c]
        | some p => { x.channels[c] with
          line := p.line
          eqMemory := p.eqMemory
          meter := x.channels[c].meter.take full (p.samples.map square) }) ∧
      (∀ c : Fin 16, t.inputs[c] = x.inputs[c].take full (periods.map fun p => square (p.getD c.val 0))) ∧
      t.sum = x.sum.take full ((List.range 32).map fun k => (channels.map fun p => square (p.samples.getD k 0)).sum) ∧
      t.showPeakLong = if x.state = .inShow then max x.showPeakLong t.sum.long else x.showPeakLong) ∧
  (∀ (line xs : List Int) (delay k : Nat), xs.length = 32 → k < 32 →
      (readLine (extendLine line xs) delay)[k]? = some
        (if delay ≤ line.length + k then (line.reverse ++ xs).getD (line.length + k - delay) 0 else 0)) ∧
  (∀ (s : State) (i : Fin 8) (x : Screen) (periods : List (List Int)) (c : Fin 16),
      let filtered := eqStage s i x c (trimStage s x periods c)
      let line := extendLine x.channels[c].line filtered.1
      meterPoint s i x periods c = {
        samples := (readLine line x.channels[c].delay).map fun v =>
          max (-8388608) (min 8388607 (quotient v (2 ^ 32)))
        line := line.take 4800
        eqMemory := filtered.2 }) ∧
  (∀ (i : Fin 8) (f : Frame) (s : State),
      (∀ k : Fin 32, s.screens[i].activeFormat = some k → s.screens[i].state = .inShow →
        s.screens[i].mismatchReported = false →
        let kind := ¬(f.matrix = true ↔ s.formats[k].kind = .matrix)
        let few := f.channelCount < s.formats[k].inputsExpected
        let filed := fun what => file (some i) (.formatMismatch k what) (s.onScreen i fun x =>
          { x with mismatchReported := true })
        (kind → few → checkMismatch i f s = filed .kindAndCount) ∧ (kind → ¬few → checkMismatch i f s = filed .kind) ∧
        (¬kind → few → checkMismatch i f s = filed .count) ∧ (¬kind → ¬few → checkMismatch i f s = s)) ∧
      (s.screens[i].activeFormat = none ∨ s.screens[i].state ≠ .inShow ∨ s.screens[i].mismatchReported = true →
        checkMismatch i f s = s)) ∧
  (∀ (i : Fin 8) (periods : List (List Int)) (s : State),
      let microphone := match s.screens[i].micChannel with
        | none => List.replicate periods.length 0
        | some c => periods.map fun p => p.getD c.val 0
      (s.screens[i].state = .inAlign → s.run.engine = .dwell →
        gatherDwell i periods s = { s with run := { s.run with acc := s.run.acc.take microphone } }) ∧
      (s.screens[i].state ≠ .inAlign ∨ s.run.engine ≠ .dwell → gatherDwell i periods s = s)) ∧
  (∀ blocks : List (List Int),
      let a := blocks.foldl DwellAcc.take emptyAcc
      let all := blocks.flatten
      a.total = (all.map square).sum ∧ a.samples = all.length ∧
      (a.fullScale = true ↔ ∃ v ∈ all, v = 8388607 ∨ v = -8388608) ∧
      ∀ b : Fin 31, a.bands[b] = Config.gear.energyIn b.val all ∧ a.bands[b] ≤ a.total) ∧
  (let met := fun (low high actual : ℝ) => (10 : ℝ) ^ (low / 20) ≤ actual ∧ actual ≤ (10 : ℝ) ^ (high / 20)
   ∃ h : Fin 31 → Nat → ℝ,
    (∀ (b : Fin 31) (xs : List Int),
      |(Config.gear.energyIn b xs : ℝ) - ∑ n ∈ Finset.range xs.length, Config.convolved (h b) xs n ^ 2| < 1) ∧
    (∀ b, Summable fun n => |h b n|) ∧ (Config.BandResponse fun b => Config.response (h b)) ∧
    ∀ (b : Fin 31) (hz : ℝ), 0 ≤ hz → hz ≤ 24000 →
      let centre : ℝ := 20 * 2 ^ ((b.val : ℝ) / 3)
      let passed := Config.response (h b) hz ^ 2
      (hz = centre → met (-1 / 2) (1 / 2) passed) ∧
      (centre / 2 ^ (1 / 6 : ℝ) ≤ hz → hz ≤ centre * 2 ^ (1 / 6 : ℝ) → (10 : ℝ) ^ (-1 / 40 : ℝ) ≤ 2 * passed) ∧
      (hz ≤ centre / 2 ^ (1 / 6 : ℝ) ∨ centre * 2 ^ (1 / 6 : ℝ) ≤ hz → 2 * passed ≤ (10 : ℝ) ^ (1 / 40 : ℝ)) ∧
      (hz ≤ centre / 2 ^ (1 / 3 : ℝ) ∨ centre * 2 ^ (1 / 3 : ℝ) ≤ hz → passed ≤ 1 - (10 : ℝ) ^ (-1 / 40 : ℝ)))

/-- The fader law, in sixths of a dB: position 0 gives silence, and 71 gives +1/3 dB (R30). A gain of k sixths of a dB
is the factor 10^(k/120), to within the last of the model's 32 fraction bits (log entry 11). Decode, fader and trim: an
output is the sum of its format's terms, each its input, silent where the block does not carry it, times the gains of
the term, the steering row, the fader and the trim, inverted where the term says so; −240 is silence (R30, R31, R49,
R50; one factor by the model's choice, log entry 16). In a crossfade the incoming format and the outgoing one under its
neutral row are mixed in the ratio t to duration − t, and an EQ swap mixes its two banks over 50 ms (R56, R72). In ALIGN
the channel under test carries the noise and every other silence (R31, R84); over any whole second the energy mean of
the noise lies within one level step of `test_level`, and over a long stretch each band holds a thirty-first of its
energy, within one level step (R84; its sequence is a free value, log entry 14). The EQ stage passes the live bank, the
staging bank of the channel under test, as a cascade; a bank whose gains are 0 and whose sections add nothing passes its
channel unchanged, and one at rest passes silence as silence (R31, R64, R65). The responses of its filters are those of
R64 and R65, to within half a level step, also from the block on in which a filter takes another's place and finds its
memory (log entry 13). The samples of a processed block stand period by period, each channel as the mute stage leaves it
(R31, R42). -/
def Obligations.TheFaderLaw : Prop :=
  (faderGain 0 = none ∧ faderGain 71 = some 2 ∧
    (∀ p : Nat, 1 ≤ p → p < 40 → faderGain p = some (6 * (-10 - 2 * (40 - (p : Int))))) ∧
    (∀ p : Nat, 40 ≤ p → faderGain p = some (2 * ((p : Int) - 70)))) ∧
  (∀ k : Int, k ≤ 360 → |(gainFactor k : ℝ) - 2 ^ 32 * (10 : ℝ) ^ ((k : ℝ) / 120)| < 1) ∧
  (∀ (s : State) (x : Screen) (periods : List (List Int)) (c : Fin 16),
      (x.activeFormat = none → decodeChannel s x periods c = List.replicate periods.length 0) ∧
      (∀ k : Fin 32, x.activeFormat = some k → x.formatFade = none →
        let f := s.formats[k]
        let row := match f.matrix, x.steering.state with
          | none, _ => []
          | some m, none => m.neutral
          | some m, some .left => m.left
          | some m, some .centre => m.centre
          | some m, some .right => m.right
          | some m, some .surround => m.surround
        let offset := match row.find? fun p => p.output == c with
          | none => 0
          | some p => p.offset
        (faderGain (x.fader.position s.timeBase) = none →
          decodeChannel s x periods c = List.replicate periods.length 0) ∧
        ∀ g, faderGain (x.fader.position s.timeBase) = some g →
          decodeChannel s x periods c = periods.map fun p =>
            ((f.terms.filter fun t => t.output == c).map fun t =>
              if t.gain = -240 ∨ offset = -240 then 0
              else (if t.invert then -1 else 1) * gainFactor (3 * (t.gain + offset) + (g + 3 * x.channels[c].trim)) *
                p.getD t.input.val 0).sum) ∧
      (∀ (fade : FormatFade) (a o : Fin 32), x.formatFade = some fade → x.activeFormat = some a →
        x.outgoingFormat = some o →
        decodeChannel s x periods c = crossfade (elapsed s.timeBase fade.start) fade.duration
          (decodeChannel s { x with formatFade := none } periods c)
          (decodeChannel s { x with formatFade := none, activeFormat := some o, steering := ⟨none, none, 0⟩ } periods
            c))) ∧
  (∀ (t d : Nat) (incoming outgoing : List Int), 0 < d → incoming.length = outgoing.length →
      crossfade 0 d incoming outgoing = outgoing ∧
      (d ≤ t → crossfade t d incoming outgoing = incoming) ∧
      ∀ (k : Nat) (x y : Int), t ≤ d → incoming[k]? = some x → outgoing[k]? = some y →
        ∃ v, (crossfade t d incoming outgoing)[k]? = some v ∧ |v * d - (x * t + y * (d - t))| < d) ∧
  (∀ (s : State) (x : Screen) (periods : List (List Int)) (c : Fin 16),
      (x.state = .inAlign → s.run.channels[s.run.position]? = some c →
        trimStage s x periods c = (List.range 32).map fun k =>
          Config.gear.noise s.run.testLevel (32 * s.fresh + k) * gainFactor (3 * x.channels[c].trim)) ∧
      (x.state = .inAlign → s.run.channels[s.run.position]? ≠ some c →
        trimStage s x periods c = List.replicate periods.length 0) ∧
      (x.state ≠ .inAlign → trimStage s x periods c = decodeChannel s x periods c)) ∧
  (∀ (level : Level) (n : Nat), -120 ≤ level → level ≤ -20 →
      let mean : ℝ := (((List.range 48000).map fun t => square (Config.gear.noise level (n + t))).sum : ℝ) / 48000
      |20 * Real.logb 10 (mean / (8388608 * 8388608)) - level| ≤ 1) ∧
  (∀ level : Level, -120 ≤ level → level ≤ -20 → ∃ long : Nat, ∀ (size n : Nat) (b : Fin 31), long ≤ size →
      let xs := (List.range size).map fun t => Config.gear.noise level (n + t)
      let whole := (xs.map square).sum
      let band := 31 * Config.gear.energyIn b xs
      whole ^ 20 ≤ band ^ 20 * 10 ∧ band ^ 20 ≤ whole ^ 20 * 10) ∧
  (∀ (s : State) (i : Fin 8) (x : Screen) (c : Fin 16) (xs : List Int),
      let through := fun name =>
        (passStages (s.eq[i][c].bank name).stages (x.channels[c].eqMemory.bank name) xs).1
      let tested := x.state = .inAlign ∧ s.run.channels[s.run.position]? = some c
      (tested → (eqStage s i x c xs).1 = through (if x.eqLive = .a then .b else .a)) ∧
      (¬tested → x.eqSwap = none → (eqStage s i x c xs).1 = through x.eqLive) ∧
      (∀ w, ¬tested → x.eqSwap = some w → (eqStage s i x c xs).1 =
        crossfade (elapsed s.timeBase w.start) 50 (through x.eqLive) (through w.outgoing))) ∧
  (∀ b : EqBank,
      b.stages = (if b.graphic.toList.all (· == 0) then none else some (Config.eqFilters.graphic b.graphic.toList)) ::
        b.sections.toList.map (fun q =>
          if q.type = .none ∨ (q.gain = 0 ∧ (q.type = .peak ∨ q.type = .lowShelf ∨ q.type = .highShelf)) then none
          else some (Config.eqFilters.parametric q.type q.freq q.gain q.q)) ∧
      (∀ (memories : List (List Int)) (xs : List Int), (∀ g ∈ b.graphic.toList, g = 0) →
        (∀ q ∈ b.sections.toList, q.type = .none ∨
          (q.gain = 0 ∧ (q.type = .peak ∨ q.type = .lowShelf ∨ q.type = .highShelf))) →
        (passStages b.stages memories xs).1 = xs) ∧
      (∀ n : Nat, passStages b.stages restStages (List.replicate n 0) = (List.replicate n 0, restStages)) ∧
      (∀ (memories : List (List Int)) (xs : List Int),
        passStages b.stages memories xs = (b.stages.zipIdx.foldl (fun y stage =>
          let z := match stage.1 with
            | none => (y.1, [])
            | some filter => filter (memories.getD stage.2 []) y.1
          (z.1, y.2 ++ [z.2])) (xs, [])))) ∧
  (let met := fun (low high actual : ℝ) =>
      (10 : ℝ) ^ ((low - 1 / 2) / 40) ≤ actual ∧ actual ≤ (10 : ℝ) ^ ((high + 1 / 2) / 40)
   (∀ gains : Vector Int 31, (∀ g ∈ gains.toList, -48 ≤ g ∧ g ≤ 24) →
     ∃ h, (Config.eqFilters.graphic gains.toList).follows h ∧ Differentiable ℝ (Config.response h) ∧
       (∀ b : Fin 31, met gains[b] gains[b] (Config.response h (20 * 2 ^ ((b.val : ℝ) / 3)))) ∧
       ∀ (b : Nat) (_ : b + 1 < 31) (hz : ℝ), 20 * 2 ^ ((b : ℝ) / 3) ≤ hz → hz ≤ 20 * 2 ^ (((b : ℝ) + 1) / 3) →
         met (min gains[b] gains[b + 1] : Int) (max gains[b] gains[b + 1] : Int) (Config.response h hz)) ∧
   (∀ (type : SectionType) (freq : Nat) (gain : Int), freq ≤ 119 → -48 ≤ gain → gain ≤ 24 → ∃ h : Nat → Nat → ℝ,
     (∀ q : Nat, q ≤ 31 →
       let r := Config.response (h q)
       (Config.eqFilters.parametric type freq gain q).follows (h q) ∧ Config.SectionResponse type freq gain r ∧
       (type = .peak → met gain gain (r (20 * 2 ^ ((freq : ℝ) / 12))) ∧ met 0 0 (r 0) ∧ met 0 0 (r 24000)) ∧
       (type = .lowShelf → met gain gain (r 0) ∧ met 0 0 (r 24000)) ∧
       (type = .highShelf → met 0 0 (r 0) ∧ met gain gain (r 24000)) ∧
       (type = .lowCut → r 0 = 0 ∧ met 0 0 (r 24000)) ∧ (type = .highCut → met 0 0 (r 0) ∧ r 24000 = 0)) ∧
     ∀ q q' : Nat, q ≤ 31 → q' ≤ 31 → (0.4 : ℝ) * 2 ^ ((q : ℝ) / 6) < 0.4 * 2 ^ ((q' : ℝ) / 6) →
       (type = .lowCut ∨ type = .highCut ∨ (type ≠ .none ∧ gain ≠ 0)) →
       Config.Sharper type freq gain (Config.response (h q)) (Config.response (h q')))) ∧
  (∀ (i : Fin 8) (f : Frame) (s : State),
      let x := s.screens[i]
      let periods := blockPeriodsOf f
      (passChain i f s).1.screens[i] = x.passed s.formats periods (x.inUse.map (meterPoint s i x periods)) ∧
      ∀ (k : Nat) (c : Fin 16), k < 32 → c.val < x.count → x.count ≤ 16 →
        (passChain i f s).2[k * x.count + c.val]? =
          some ((muteStage s.timeBase x c (meterPoint s i x periods c).samples).getD k 0))

/-! ### Formats -/

/-- FORMAT_LOAD of an entry that no screen refers to: every content that R52 admits, spelled by the layout of section
11.4, replaces the entry whole (R52, R181). -/
def Obligations.FormatLoadStoresEveryAdmittedContent : Prop :=
  ∀ (k : Fin 32) (a : CmdArgs) (s : State) (f : FormatEntry), s.canExecute = true → a.namesNone →
    s.formats[k].useCount = 0 → f.ok → a.payload = formatPayload k f →
    exec (.formatLoad a) s = .next (answered a 32#8 .ok 0#8 []
      (s.onFormat k fun _ => { f with valid := true, useCount := 0 }))

/-- A format in use is neither rewritten nor cleared: IN_USE (R51, R52, R53). FORMAT_CLEAR of a free one leaves the
invalid content (R48, R53). -/
def Obligations.AFormatInUseIsKeptAndAFreeOneCleared : Prop :=
  ∀ (k : Fin 32) (a : CmdArgs) (s : State), s.canExecute = true → a.namesNone →
    (0 < s.formats[k].useCount → a.payload = [byteOf k.val] →
      exec (.formatClear a) s = .next (answered a 33#8 .inUse 0#8 [] s)) ∧
    (∀ f, 0 < s.formats[k].useCount → a.payload = formatPayload k f → f.ok →
      exec (.formatLoad a) s = .next (answered a 32#8 .inUse 0#8 [] s)) ∧
    (s.formats[k].useCount = 0 → a.payload = [byteOf k.val] →
      exec (.formatClear a) s = .next (answered a 33#8 .ok 0#8 [] (s.onFormat k fun _ =>
        { valid := false, label := Vector.replicate 8 32#8, kind := .discrete, inputsExpected := 1, terms := [],
          matrix := none, useCount := 0 })))

/-- FORMAT_ARM: the format named, or none, becomes pending; the references move, and nothing else changes (R51, R54).
FORMAT_TAKE: the active format goes out, the pending one comes in over the crossfade; a duration of 0 ends it at once,
and a crossfade in flight is cut short first (R55, R57, R58). FORMAT_TAKE with nothing pending is refused BAD_STATE
(R55). FORMAT_CROSSFADE_END at its time releases the outgoing format and files FORMAT_TAKEN (R57). EQ_SWAP: the other
bank is live at once and the crossfade begins (R71); it ends after 50 ms with EQ_SWAPPED (R73). -/
def Obligations.FormatTakesAndEqSwapsCrossfade : Prop :=
  (∀ (i : Fin 8) (a : CmdArgs) (s : State) (k : Option (Fin 32)), s.canExecute = true → a.names i →
      s.screens[i].state ≠ .off → a.payload = [indexByte k] →
      (∀ j, k = some j → s.formats[j].valid = true ∧ ∀ t ∈ s.formats[j].terms, t.output.val < s.screens[i].count) →
      ∃ t, exec (.formatArm a) s = .next (answered a 34#8 .ok 0#8 [] t) ∧
        t = { s with screens := t.screens, formats := t.formats } ∧
        t.screens[i] = { s.screens[i] with pendingFormat := k } ∧
        (∀ j : Fin 8, j ≠ i → t.screens[j] = s.screens[j]) ∧
        ∀ j : Fin 32, t.formats[j] = { s.formats[j] with
          useCount := s.formats[j].useCount - (if s.screens[i].pendingFormat = some j then 1 else 0) +
            (if k = some j then 1 else 0) }) ∧
  (∀ (i : Fin 8) (a : CmdArgs) (s : State) (ms : Nat) (x y : Fin 32), s.canExecute = true → a.names i → ms ≤ 2000 →
      a.payload = bytes2 ms → s.screens[i].state ≠ .off → s.screens[i].state ≠ .inAlign →
      s.screens[i].activeFormat = some x → s.screens[i].pendingFormat = some y →
      (s.screens[i].formatFade = none → 0 < ms →
        exec (.formatTake a) s = .next (answered a 35#8 .ok 0#8 [] (takenFormat i ms s))) ∧
      (s.screens[i].formatFade = none → ms = 0 →
        exec (.formatTake a) s = .next (answered a 35#8 .ok 0#8 [] (endedCrossfade i false y x (takenFormat i 0 s)))) ∧
      (∀ o, s.screens[i].formatFade ≠ none → s.screens[i].outgoingFormat = some o →
        let cut := endedCrossfade i true x o s
        (0 < ms → exec (.formatTake a) s = .next (answered a 35#8 .ok 0#8 [] (takenFormat i ms cut))) ∧
        (ms = 0 → exec (.formatTake a) s =
          .next (answered a 35#8 .ok 0#8 [] (endedCrossfade i false y x (takenFormat i 0 cut)))))) ∧
  (∀ (i : Fin 8) (a : CmdArgs) (s : State) (ms : Nat), s.canExecute = true → a.names i → ms ≤ 2000 →
      a.payload = bytes2 ms → s.screens[i].pendingFormat = none →
      exec (.formatTake a) s = .next (answered a 35#8 .badState (1#8 <<< i.val) [] s)) ∧
  (∀ (i : Fin 8) (s : State) (fade : FormatFade) (x o : Fin 32), s.inReset = false →
      s.screens[i].formatFade = some fade → fade.duration ≤ elapsed s.timeBase fade.start →
      s.screens[i].activeFormat = some x → s.screens[i].outgoingFormat = some o →
      exec (.formatCrossfadeEnd i) s = .next (endedCrossfade i false x o s)) ∧
  (∀ (i : Fin 8) (a : CmdArgs) (s : State),
      (s.canExecute = true → a.names i → a.payload = [] → s.screens[i].state ≠ .off → s.screens[i].state ≠ .inAlign →
        s.screens[i].eqSwap = none →
        exec (.eqSwap a) s = .next (answered a 50#8 .ok 0#8 [] (s.onScreen i fun x =>
          { x with
            eqLive := if x.eqLive = .a then .b else .a
            eqSwap := some ⟨s.timeBase, x.eqLive⟩ }))) ∧
      (∀ w, s.inReset = false → s.screens[i].eqSwap = some w → 50 ≤ elapsed s.timeBase w.start →
        exec (.swapCrossfadeEnd i) s = .next (endedSwap i false s)))

/-- The exit test, the candidate, its counting and its entry, update by update (R61, R62). A block moves the two
steering meters by the half sum and the half difference of inputs 0 and 1, silence where it carries none, over the
window of 450 blocks; the strengths are the differences of the readings after it, LR of inputs 0 and 1 and CS of the two
steering meters, each clamped to −120..+120 (R60); and the steering is updated by them under an active format with a
matrix part and else stands (R61, R63). -/
def Obligations.SteeringCountsItsCandidate : Prop :=
  (∀ (x : Screen) (formats : Vector FormatEntry 32) (periods : List (List Int)) (channels : List PassedChannel),
    let full := 8388608 * 8388608
    let t := x.passed formats periods channels
    let read := fun (m : SteerMeter) (squares : List Nat) =>
      let window := (squares.sum :: m.window).take 450
      ({ short := levelOf window.sum (window.length * 32 * (4 * full)), window := window } : SteerMeter)
    let clamp := fun (v : Int) => max (-120) (min 120 v)
    t.steerSum = read x.steerSum (periods.map fun p => square (p.getD 0 0 + p.getD 1 0)) ∧
    t.steerDiff = read x.steerDiff (periods.map fun p => square (p.getD 0 0 - p.getD 1 0)) ∧
    (∀ (k : Fin 32) (m : MatrixPart), x.activeFormat = some k → formats[k].matrix = some m →
      t.steering = x.steering.update m (clamp (t.inputs[(0 : Fin 16)].short - t.inputs[(1 : Fin 16)].short))
        (clamp (t.steerSum.short - t.steerDiff.short))) ∧
    ((∀ k : Fin 32, x.activeFormat = some k → formats[k].matrix = none) → t.steering = x.steering)) ∧
  ∀ (x : Steering) (m : MatrixPart) (lr cs : Int), m.ok →
    let strengthOf : Direction → Int := fun d => match d with
      | .left => lr
      | .right => -lr
      | .centre => cs
      | .surround => -cs
    let judged : Option Direction := match x.state with
      | none => none
      | some d => if strengthOf d < m.exit then none else some d
    let y := x.update m lr cs
    (y.candidate = none ↔ ∀ d, strengthOf d < m.enter) ∧
    (∀ d, y.candidate = some d → m.enter ≤ strengthOf d ∧ ∀ e, strengthOf e ≤ strengthOf d) ∧
    (lr.natAbs = cs.natAbs → y.candidate ≠ some .left ∧ y.candidate ≠ some .right) ∧
    (y.candidate = none ∨ y.candidate = judged → y.state = judged ∧ y.counter = 0) ∧
    (y.candidate ≠ none → y.candidate ≠ judged →
      let n := if y.candidate = x.candidate ∧ 0 < x.counter then x.counter + 1 else 1
      (n = m.hold → y.state = y.candidate ∧ y.counter = 0) ∧
      (n ≠ m.hold → y.state = judged ∧ y.counter = n))

/-! ### Room equalisation -/

/-- EQ_LOAD in both forms writes the staging bank of its channel, LOADED with pass stamp 0, and nothing else (R65,
R68, R69). CURVE_LOAD: a valid curve replaces the entry whole, valid flag 0 makes it invalid with the content after
reset, and a curve that a running alignment uses is refused IN_USE with either flag (R76, R77). -/
def Obligations.EqAndCurveLoadsWriteTheirTables : Prop :=
  (∀ (i : Fin 8) (c : Fin 16) (a : CmdArgs) (s : State), s.canExecute = true → a.names i →
      s.screens[i].state ≠ .inAlign → s.screens[i].eqSwap = none →
      (∀ g : Vector Int 31, (∀ x ∈ g.toList, -48 ≤ x ∧ x ≤ 24) →
        a.payload = byteOf c.val :: g.toList.flatMap signed1 →
        exec (.eqLoadGraphic a) s = .next (answered a 48#8 .ok 0#8 []
          (s.onBanks i c (withStaging s.screens[i].eqLive fun b =>
            { b with graphic := g, origin := .loaded, passStamp := 0 })))) ∧
      (∀ (k : Fin 8) (x : EqSection), x.freq ≤ 119 → -48 ≤ x.gain → x.gain ≤ 24 → x.q ≤ 31 →
        a.payload = [byteOf c.val, byteOf k.val] ++ x.bytes →
        exec (.eqLoadSection a) s = .next (answered a 48#8 .ok 0#8 []
          (s.onBanks i c (withStaging s.screens[i].eqLive fun b =>
            { b with
              sections := b.sections.set k { x with
                freq := if x.type = .none then 0 else x.freq
                gain := if x.type = .none ∨ x.type = .lowCut ∨ x.type = .highCut then 0 else x.gain
                q := if x.type = .none then 0 else x.q }
              origin := .loaded
              passStamp := 0 }))))) ∧
  (∀ (k : Fin 4) (a : CmdArgs) (s : State), s.canExecute = true → a.namesNone →
      (∀ c : Curve, ¬(s.run.curve = k ∧ s.run.outcome = .running) → c.low ≤ c.high → c.high ≤ 30 →
        (∀ x ∈ c.targets.toList, -48 ≤ x ∧ x ≤ 24) → 1 ≤ c.tolerance → c.tolerance ≤ 24 →
        a.payload = [byteOf k.val, 1#8, byteOf c.low, byteOf c.high] ++ c.targets.toList.flatMap signed1 ++
          [byteOf c.tolerance] →
        exec (.curveLoad a) s = .next (answered a 52#8 .ok 0#8 []
          { s with curves := s.curves.set k { c with valid := true } })) ∧
      (∀ rest : List Byte, ¬(s.run.curve = k ∧ s.run.outcome = .running) → rest.length = 34 →
        a.payload = byteOf k.val :: 0#8 :: rest →
        exec (.curveLoad a) s = .next (answered a 52#8 .ok 0#8 []
          { s with curves := s.curves.set k ⟨false, 0, 30, Vector.replicate 31 0, 1⟩ })) ∧
      (∀ (valid : Bool) (rest : List Byte), s.run.curve = k → s.run.outcome = .running → rest.length = 34 →
        a.payload = byteOf k.val :: flagByte valid :: rest →
        exec (.curveLoad a) s = .next (answered a 52#8 .inUse 0#8 [] s)))

/-- EQ_COPY: each staging bank of the screen takes its live bank's content, marked COPIED, and no live bank is
written; while the screen aligns or swaps it is refused BUSY (R70). -/
def Obligations.EqCopyFillsEveryStagingBank : Prop :=
  ∀ (i : Fin 8) (a : CmdArgs) (s : State), s.canExecute = true → a.names i → a.payload = [] →
    (s.screens[i].state ≠ .inAlign → s.screens[i].eqSwap = none →
      ∃ t, exec (.eqCopy a) s = .next (answered a 49#8 .ok 0#8 [] t) ∧ t = { s with eq := t.eq } ∧
        (∀ c : Fin 16, t.eq[i][c] = withStaging s.screens[i].eqLive
          (fun _ => { s.eq[i][c].bank s.screens[i].eqLive with origin := .copied }) s.eq[i][c]) ∧
        ∀ j : Fin 8, j ≠ i → t.eq[j] = s.eq[j]) ∧
    (s.screens[i].state = .inAlign ∨ s.screens[i].eqSwap ≠ none →
      exec (.eqCopy a) s = .next (answered a 49#8 .busy (1#8 <<< i.val) [] s))

/-- No row but the two resets that make every bank FLAT writes a bank that is live at that moment (R66). COMMAND_TAKE
runs one of the command rows. -/
def Obligations.NoRowWritesALiveBank : Prop :=
  ∀ (r : Instr) (s t : State), exec r s = .next t →
    (∀ u, r ≠ .powerOnReset u) → (∀ a, r ≠ .unitResetClear a) → r ≠ .commandTake →
    ∀ (i : Fin 8) (c : Fin 16), t.eq[i][c].bank s.screens[i].eqLive = s.eq[i][c].bank s.screens[i].eqLive

/-! ### Alignment runs -/

/-- ALIGN_START: ACCEPTED; a swap in flight ends early, the record is rebuilt, the screen enters ALIGN, a CORRECT run
fills its staging banks, every channel in use but the first listed is silenced, and SETTLE begins (R81 to R83). On the
entry to ALIGN every enabled monitor of the screen is SUSPENDED, so that no MONITOR cause and no ceiling is left (R41,
R44, R108); nothing else of the screen changes. -/
def Obligations.AlignStartBeginsARun : Prop :=
  ∀ (i : Fin 8) (a : CmdArgs) (s : State) (q : RunRequest), s.canExecute = true → a.names i →
    s.run.engine = .idle → s.stopActive = false → s.screens[i].state = .dark → s.screens[i].micChannel ≠ none →
    s.curves[q.curve].valid = true → q.ok s.screens[i].count → a.payload = alignPayload q →
    let u := if s.screens[i].eqSwap = none then s else endedSwap i true s
    ∃ t, exec (.alignStart a) s = .next (answered a 64#8 .accepted 0#8 [] t) ∧
      t = { u with run := t.run, screens := t.screens, monitors := t.monitors, eq := t.eq } ∧
      t.run = {
        present := true
        screen := i
        curve := q.curve
        mode := q.mode
        passesMax := q.passesMax
        settleMs := q.settleMs
        dwellMs := q.dwellMs
        testLevel := q.testLevel
        fromFlat := q.fromFlat
        channels := q.channels
        position := 0
        pass := 1
        engine := .settle
        phaseStart := s.timeBase
        outcome := .running
        acc := emptyAcc
        results := q.channels.map fun c => ⟨c, .pending, 0, false, Vector.replicate 31 (-240), 0⟩ } ∧
      t.screens[i] = { s.screens[i] with
        state := .inAlign
        eqSwap := none
        ceiling := 100
        fader := s.screens[i].fader.underCeiling s.timeBase 100
        mutes := { s.screens[i].mutes with monitor := false }
        channels := t.screens[i].channels } ∧
      (∀ c : Fin 16, t.screens[i].channels[c] = { s.screens[i].channels[c] with
        mutes := { s.screens[i].channels[c].mutes with
          align := decide (c.val < s.screens[i].count ∧ q.channels.head? ≠ some c)
          monitor := false } }) ∧
      (∀ m : Fin 48, t.monitors[m] =
        if s.monitors[m].content.screen = i ∧ s.monitors[m].enabled = true then
          { s.monitors[m] with state := .suspended, mark := none, prev := none }
        else s.monitors[m]) ∧
      (∀ j : Fin 8, j ≠ i → t.screens[j] = s.screens[j]) ∧
      (∀ (j : Fin 8) (c : Fin 16), t.eq[j][c] =
        if j = i ∧ q.mode = .correct ∧ c ∈ q.channels then
          withStaging s.screens[i].eqLive (fun _ =>
            let live := s.eq[i][c].bank s.screens[i].eqLive
            if q.fromFlat then { live with graphic := Vector.replicate 31 0, origin := .copied, passStamp := 0 }
            else { live with origin := .copied }) s.eq[i][c]
        else s.eq[j][c])

/-- SETTLE_END after `settle_ms`: DWELL for the same channel and pass, with an empty accumulator (R85). DWELL_END after
`dwell_ms`: the pass counts, the band levels are replaced, and the channel is NO_SIGNAL below −200, else CLIPPED on a
full-scale sample, else compared with the curve (R86, R87). That the levels are relative to 8388608 is the model's full
scale (log entry 12), and that a DWELL without samples reads −240 its choice (log entry 33). The comparison of a pass:
the reference offset is the mean difference rounded half away from zero, the deviations are what is left in the curve's
range, and the largest deviation is the largest of their magnitudes (R88). What follows a pass that has a signal:
converged, it finishes the channel; else a CORRECT pass writes g − d into the staging graphic in the curve's range,
limited to −48..+24, and starts another pass while passes are left (R88 to R90). -/
def Obligations.APassIsMeasuredComparedAndCorrected : Prop :=
  (∀ s : State, s.inReset = false → s.run.engine = .settle → s.run.settleMs ≤ elapsed s.timeBase s.run.phaseStart →
      exec .settleEnd s = .next { s with run := { s.run with
        engine := .dwell
        phaseStart := s.timeBase
        acc := emptyAcc } }) ∧
  (∀ (s : State) (c : Fin 16), s.inReset = false → s.run.engine = .dwell →
      s.run.dwellMs ≤ elapsed s.timeBase s.run.phaseStart → s.run.channels[s.run.position]? = some c →
      let full := s.run.acc.samples * (8388608 * 8388608)
      let levels := Vector.ofFn fun b : Fin 31 => levelOf s.run.acc.bands[b] full
      let u := { s with run := { s.run with results := s.run.results.modify s.run.position fun x =>
        { x with passesUsed := x.passesUsed + 1, bandLevels := levels } } }
      exec .dwellEnd s = .next
        (if levelOf s.run.acc.total full < -200 then finishChannel .noSignal u
        else if s.run.acc.fullScale then finishChannel .clipped u
        else judgePass c levels u)) ∧
  ((∀ (total : Int) (n : Nat), 0 < n →
      2 * (total - n * meanAway total n) ≤ n ∧ -n ≤ 2 * (total - n * meanAway total n) ∧
      (2 * (total - n * meanAway total n) = n → meanAway total n < 0 ∧ total < 0) ∧
      (2 * (total - n * meanAway total n) = -n → 0 < meanAway total n ∧ 0 < total)) ∧
    (∀ (c : Curve) (m : Vector Level 31) (b : Fin 31), c.high ≤ 30 →
      let range := (indexes 31).filter fun b => decide (c.low ≤ b.val ∧ b.val ≤ c.high)
      let r := meanAway (range.map fun b => m[b] - c.targets[b]).sum range.length
      (c.deviations m)[b] = if c.low ≤ b.val ∧ b.val ≤ c.high then m[b] - c.targets[b] - r else 0) ∧
    ∀ d : Vector Int 31, (∀ b : Fin 31, d[b].natAbs ≤ largestDeviation d) ∧
      ∃ b : Fin 31, d[b].natAbs = largestDeviation d) ∧
  (∀ (s : State) (c : Fin 16) (m : Vector Level 31) (r : ChannelResult),
      s.run.results[s.run.position]? = some r →
      let curve := s.curves[s.run.curve]
      let d := curve.deviations m
      let i := s.run.screen
      let compared := s.run.results.set s.run.position { r with deviation := largestDeviation d }
      let u := { s with run := { s.run with results := compared } }
      (largestDeviation d ≤ curve.tolerance → judgePass c m s = finishChannel .converged u) ∧
      (curve.tolerance < largestDeviation d → s.run.mode = .measureOnly →
        judgePass c m s = finishChannel .notConverged u) ∧
      (curve.tolerance < largestDeviation d → s.run.mode = .correct →
        ∃ t, t = { u with eq := t.eq, run := t.run } ∧
          (∀ (j : Fin 8) (k : Fin 16), (j, k) ≠ (i, c) → t.eq[j][k] = s.eq[j][k]) ∧
          t.eq[i][c] = withStaging s.screens[i].eqLive (fun bank => { bank with
            graphic := Vector.ofFn fun b : Fin 31 => max (-48) (min 24 (bank.graphic[b] - d[b]))
            origin := .aligned
            passStamp := r.passesUsed }) s.eq[i][c] ∧
          t.run = { u.run with results := s.run.results.set s.run.position { r with
            deviation := largestDeviation d
            limited := r.limited || decide (∃ b : Fin 31,
              (s.stagingBank i c).graphic[b] - d[b] < -48 ∨ 24 < (s.stagingBank i c).graphic[b] - d[b]) } } ∧
          judgePass c m s =
            if s.run.pass < s.run.passesMax then { t with run := { t.run with
              pass := s.run.pass + 1, engine := .settle, phaseStart := s.timeBase } }
            else finishChannel .notConverged t))

/-- A finished channel: its result is set, ALIGN_PROGRESS is filed, and the next listed channel is taken into SETTLE
with the ALIGN cause moved (R91); after the last one the run is COMPLETE, the screen DARK, the engine IDLE, ALIGN_DONE
filed and its trigger caused (R92); the screen and its monitors are as the change to DARK leaves them once ALIGN is
removed (R108). A run that is overtaken: the outcome takes the reason, the channel under test is ABORTED and those after
it SKIPPED, the pass is 0, ALIGN is removed from every channel, the engine is IDLE, and ALIGN_ABORTED is filed (R93);
nothing else of the screen changes. ALIGN_ABORT overtakes the run of a screen in ALIGN, which returns to DARK, and is
refused in any other state (R95). -/
def Obligations.AFinishedChannelAndAnOvertakenRun : Prop :=
  (∀ (s : State) (result : AlignResult) (r : ChannelResult), s.run.results[s.run.position]? = some r →
      let i := s.run.screen
      let p := s.run.position + 1
      let results := s.run.results.set s.run.position { r with result := result }
      let filed := file (some i) (.alignProgress r.channel result r.passesUsed r.limited r.deviation)
        { s with run := { s.run with results := results } }
      (∀ c, s.run.channels[p]? = some c →
        finishChannel result s = ({ filed with run := { s.run with
            results := results, position := p, pass := 1, engine := .settle, phaseStart := s.timeBase } }).onScreen i
          fun x => { x with channels := mapAt (fun k ch => { ch with
            mutes := { ch.mutes with align := decide (k.val < x.count ∧ k ≠ c) } }) x.channels }) ∧
      (s.run.channels[p]? = none →
        ∃ t, finishChannel result s = occurs (.alignDone i) (file (some i)
            (.alignDone s.run.channels.length (results.countP fun x => x.result == .converged)) t) ∧
          t = { filed with run := t.run, screens := t.screens, monitors := t.monitors } ∧
          t.run = { s.run with results := results, position := p, pass := 0, engine := .idle, outcome := .complete } ∧
          (let cleared := filed.onScreen i fun x =>
            { x with channels := mapAt (fun _ ch => { ch with mutes := { ch.mutes with align := false } }) x.channels }
           t.screens = (enterState i .dark cleared).screens ∧ t.monitors = (enterState i .dark cleared).monitors) ∧
          t.screens[i].state = .dark ∧
          (∀ k : Fin 16, t.screens[i].channels[k].mutes.align = false) ∧
          ∀ j : Fin 8, j ≠ i → t.screens[j] = s.screens[j])) ∧
  ((∀ (s : State) (reason : AbortReason),
      ∃ t, overtakeRun reason s = file (some s.run.screen) (.alignAborted reason s.run.position) t ∧
        t = { s with run := t.run, screens := t.screens } ∧
        t.run = { s.run with
          outcome := .aborted reason
          pass := 0
          engine := .idle
          acc := emptyAcc
          results := t.run.results } ∧
        t.run.results.length = s.run.results.length ∧
        (∀ (k : Nat) (r : ChannelResult), s.run.results[k]? = some r → t.run.results[k]? = some
          (if k < s.run.position then r
          else if k = s.run.position then { r with result := .aborted }
          else { r with result := .skipped })) ∧
        t.screens[s.run.screen] =
          { s.screens[s.run.screen] with channels := t.screens[s.run.screen].channels } ∧
        (∀ c : Fin 16, t.screens[s.run.screen].channels[c] =
          { s.screens[s.run.screen].channels[c] with
            mutes := { s.screens[s.run.screen].channels[c].mutes with align := false } }) ∧
        ∀ j : Fin 8, j ≠ s.run.screen → t.screens[j] = s.screens[j]) ∧
    (∀ (i : Fin 8) (a : CmdArgs) (s : State), s.canExecute = true → a.names i → a.payload = [] →
      (s.screens[i].state = .inAlign →
        exec (.alignAbort a) s = .next (answered a 65#8 .ok 0#8 [] (enterState i .dark (overtakeRun .command s)))) ∧
      (s.screens[i].state ≠ .inAlign →
        exec (.alignAbort a) s = .next (answered a 65#8 .badState (1#8 <<< i.val) [] s))))

/-! ### Level monitors -/

/-- MONITOR_LOAD of a disabled entry: every content that R99 to R102 admit, spelled by the layout of section 11.4 with
anything in the places that R183 ignores, replaces the entry, which is loaded, disabled and OFF with its trip record
cleared; an enabled entry is refused IN_USE. -/
def Obligations.MonitorLoadStoresEveryAdmittedContent : Prop :=
  ∀ (k : Fin 48) (a : CmdArgs) (s : State) (c : MonitorContent), s.canExecute = true → a.namesNone →
    readAlike c.readMask a.payload (byteOf k.val :: c.bytes) → c.ok s k →
    (s.monitors[k].enabled = false →
      exec (.monitorLoad a) s = .next (answered a 80#8 .ok 0#8 [] (deriveMonitors c.screen (s.onMonitor k fun _ =>
        { loaded := true, enabled := false, content := c, state := .off, mark := none, prev := none,
          tripped := false, raiseCount := 0 })))) ∧
    (s.monitors[k].enabled = true →
      exec (.monitorLoad a) s = .next (answered a 80#8 .inUse 0#8 [] s))

/-- MONITOR_ENABLE and MONITOR_DISABLE: CLEAR or SUSPENDED by the watch set, OFF; without a change of the flag nothing
changes; an entry that is not loaded is refused BAD_STATE (R103). MONITOR_ACK of a LATCHED monitor: it is CLEAR, the
causes and ceiling are derived again, and then the notice, if it notifies, and the trigger follow; any other state is
refused BAD_STATE (R107, R113, R114). MONITOR_STATUS of one monitor or of all with the clear flag: the trip records
are cleared after the values have been taken, and nothing else changes (R115, R116); the layout of its reply is the
model's reading (log entry 19). -/
def Obligations.MonitorCommandsChangeTheirMonitorAlone : Prop :=
  (∀ (k : Fin 48) (a : CmdArgs) (s : State), s.canExecute = true → a.namesNone → a.payload = [byteOf k.val] →
      let m := s.monitors[k]
      (m.loaded = true → m.enabled = false →
        exec (.monitorEnable a) s = .next (answered a 81#8 .ok 0#8 [] (deriveMonitors m.content.screen
          (s.onMonitor k fun m => { m with
            enabled := true
            state := if m.content.watch.holds s.screens[m.content.screen].state then .clear else .suspended
            mark := none
            prev := none })))) ∧
      (m.loaded = true → m.enabled = true → exec (.monitorEnable a) s = .next (answered a 81#8 .ok 0#8 [] s)) ∧
      (m.loaded = false → exec (.monitorEnable a) s = .next (answered a 81#8 .badState 0#8 [] s)) ∧
      (m.enabled = true →
        exec (.monitorDisable a) s = .next (answered a 82#8 .ok 0#8 [] (deriveMonitors m.content.screen
          (s.onMonitor k fun m => { m with enabled := false, state := .off, mark := none, prev := none })))) ∧
      (m.enabled = false → exec (.monitorDisable a) s = .next (answered a 82#8 .ok 0#8 [] s))) ∧
  (∀ (k : Fin 48) (a : CmdArgs) (s : State), s.canExecute = true → a.namesNone → a.payload = [byteOf k.val] →
      let m := s.monitors[k]
      let cleared := deriveMonitors m.content.screen (s.onMonitor k fun m => { m with state := .clear, mark := none })
      let noticed := if m.content.notify then
          file (some m.content.screen) (.monitorCleared k true (s.reading m.content)) cleared
        else cleared
      (m.state = .latched →
        exec (.monitorAck a) s = .next (answered a 83#8 .ok 0#8 [] (occurs (.monitorCleared k) noticed))) ∧
      (m.state ≠ .latched → exec (.monitorAck a) s = .next (answered a 83#8 .badState 0#8 [] s))) ∧
  (∀ (a : CmdArgs) (s : State), s.canExecute = true → a.namesNone →
      (∀ k : Fin 48, a.payload = [byteOf k.val, 1#8] →
        exec (.monitorStatus a) s = .next (answered a 84#8 .ok 0#8 (monitorBytes s s.monitors[k])
          (s.onMonitor k fun m => { m with tripped := false, raiseCount := 0 }))) ∧
      (a.payload = [255#8, 1#8] →
        exec (.monitorStatus a) s = .next (answered a 84#8 .ok 0#8 (s.monitors.toList.flatMap (monitorBytes s))
          { s with monitors := s.monitors.map fun m => { m with tripped := false, raiseCount := 0 } })) ∧
      (∀ k : Fin 48, a.payload = [byteOf k.val, 0#8] →
        exec (.monitorStatus a) s = .next (answered a 84#8 .ok 0#8 (monitorBytes s s.monitors[k]) s)))

/-- The reading of a monitor's content: its screen's meter at its point, by its measure, −240 where the screen is OFF or
the output is not in use (R98). A condition holds as R99 to R101 give it. The moves of R105 and R106 and the raise of
R107, state by state, with `t` the time since the mark. A meter update evaluates each enabled monitor of its screen that
is CLEAR, PENDING, RAISED, RELEASING or LATCHED, on one and the same state: it moves and keeps its reading; every other
monitor stands; then causes and ceiling are derived (R100, R104). Where no house stop is raised and no link is enabled,
nothing else changes but for notices. In general, when a monitor with the action HOUSE_STOP is raised, MONITOR is then
added to the house stop source set (R111); and then, in ascending index, each monitor that moved files its notice, if it
notifies (R113), and causes its trigger (R114): RAISED or CLEARED, none for LATCHED (R104). -/
def Obligations.MonitorsMoveByTheTables : Prop :=
  (∀ (s : State) (c : MonitorContent),
      let x := s.screens[c.screen]
      let read := fun (m : Meter) => match c.measure with
        | .peak => m.peak
        | .short => m.short
        | .long => m.long
      (x.state = .off → s.reading c = -240) ∧
      (x.state ≠ .off →
        (∀ k, c.point = .input k → s.reading c = read x.inputs[k]) ∧
        (∀ o, c.point = .output o → o.val < x.count → s.reading c = read x.channels[o].meter) ∧
        (∀ o, c.point = .output o → x.count ≤ o.val → s.reading c = -240) ∧
        (c.point = .sum → s.reading c = read x.sum))) ∧
  (∀ (s : State) (m : Monitor) (l : Level), s.conditionHolds m l = true ↔ s.conditionTrue m l) ∧
  (∀ (m : Monitor) (now : Word) (l : Level),
      let t := match m.mark with
        | none => 0
        | some mark => elapsed now mark
      let ended : Option MonitorEvent := some (if m.content.latch then .latched l else .cleared false l)
      (m.state = .clear → m.move now false l = (m, none)) ∧
      (m.state = .clear → m.raiseCount ≤ 255 → m.move now true l =
        if m.content.holdMs = 0 then (raisedMonitor m, some (.raised l))
        else ({ m with state := .pending, mark := some now }, none)) ∧
      (m.state = .pending → m.move now false l = ({ m with state := .clear, mark := none }, none)) ∧
      (m.state = .pending → m.raiseCount ≤ 255 → m.move now true l =
        if m.content.holdMs ≤ t then (raisedMonitor m, some (.raised l)) else (m, none)) ∧
      (m.state = .raised → m.move now true l = (m, none)) ∧
      (m.state = .raised → m.move now false l =
        if m.content.releaseMs = 0 then (endedMonitor m, ended)
        else ({ m with state := .releasing, mark := some now }, none)) ∧
      (m.state = .releasing → m.move now true l = ({ m with state := .raised, mark := none }, none)) ∧
      (m.state = .releasing → m.move now false l =
        if m.content.releaseMs ≤ t then (endedMonitor m, ended) else (m, none)) ∧
      (m.state = .latched → ∀ holds, m.move now holds l = (m, none))) ∧
  (∀ (i : Fin 8) (s : State), (∀ m : Fin 48, s.monitors[m].content.action ≠ .houseStop) →
      (∀ k : Fin 32, s.links[k].enabled = false) →
      let t := evaluateMonitors i s
      (∀ m : Fin 48, t.monitors[m] =
        let x := s.monitors[m]
        if x.enabled = true ∧ x.content.screen = i ∧ x.state ≠ .off ∧ x.state ≠ .suspended then
          { (x.move s.timeBase (s.conditionHolds x (s.reading x.content)) (s.reading x.content)).1 with
            prev := some (s.reading x.content) }
        else x) ∧
      t.screens = (deriveMonitors i { s with monitors := t.monitors }).screens ∧
      t.house = s.house ∧ t.formats = s.formats ∧ t.eq = s.eq ∧ t.run = s.run ∧ t.cueLists = s.cueLists ∧
      t.links = s.links ∧ t.timers = s.timers ∧ t.held = s.held ∧ t.lines = s.lines) ∧
  (∀ (i : Fin 8) (s : State),
      let evaluated := fun (m : Monitor) =>
        m.enabled = true ∧ m.content.screen = i ∧ m.state ≠ .off ∧ m.state ≠ .suspended
      let moved := fun (m : Monitor) =>
        m.move s.timeBase (s.conditionHolds m (s.reading m.content)) (s.reading m.content)
      let follow := fun (u : State) (x : Fin 48 × MonitorEvent) =>
        let c := u.monitors[x.1].content
        let noticed := fun (body : NoticeBody) => if c.notify then file (some c.screen) body u else u
        match x.2 with
        | .raised l => occurs (.monitorRaised x.1) (noticed (.monitorRaised x.1 l))
        | .latched l => noticed (.monitorLatched x.1 l)
        | .cleared acknowledged l => occurs (.monitorCleared x.1) (noticed (.monitorCleared x.1 acknowledged l))
      ∃ (monitors : Vector Monitor 48) (events : List (Fin 48 × MonitorEvent)),
        (∀ m : Fin 48, (evaluated s.monitors[m] →
            monitors[m] = { (moved s.monitors[m]).1 with prev := some (s.reading s.monitors[m].content) }) ∧
          (¬evaluated s.monitors[m] → monitors[m] = s.monitors[m])) ∧
        (events.map Prod.fst).Pairwise (· < ·) ∧
        (∀ m e, (m, e) ∈ events ↔ evaluated s.monitors[m] ∧ (moved s.monitors[m]).2 = some e) ∧
        let derived := deriveMonitors i { s with monitors := monitors }
        let stops := ∃ m l, (m, .raised l) ∈ events ∧ s.monitors[m].content.action = .houseStop
        (stops → evaluateMonitors i s =
          events.foldl follow (changed (fun h => { h with set := { h.set with monitor := true } }) derived)) ∧
        (¬stops → evaluateMonitors i s = events.foldl follow derived))

/-! ### Cue lists, links and timers -/

/-- CUELIST_LOAD in both modes: a series that R118 and R122 admit, spelled by the layout of section 11.4 with anything
in the places that R183 ignores, gives the list, the cursor goes to the first entry past `last_position`, or to 0, and
the reply carries both counts, in a byte each by the model's reading (log entry 19); a list that would pass 64 entries
is refused FULL, and in ALIGN every load is refused BUSY (R123). -/
def Obligations.CuelistLoadStoresTheSeries : Prop :=
  (∀ (i : Fin 8) (a : CmdArgs) (s : State) (append : Bool) (series : List CueEntry), s.canExecute = true →
      a.names i → s.screens[i].state ≠ .inAlign → series.length ≤ 122 → (∀ e ∈ series, e.action.ok) →
      let list := if append then s.cueLists[i].entries ++ series else series
      cueOrder list →
      readAlike ([255#8, 255#8] ++ series.flatMap CueEntry.readMask) a.payload
        ([flagByte append, byteOf series.length] ++ series.flatMap CueEntry.bytes) →
      (list.length ≤ 64 →
        ∃ cursor, exec (.cuelistLoad a) s = .next (answered a 96#8 .ok 0#8 [byteOf list.length, byteOf cursor]
            (s.onCueList i fun _ => ⟨list, cursor⟩)) ∧
          (s.screens[i].lastPosition = none → cursor = 0) ∧
          ∀ q, s.screens[i].lastPosition = some q → cursor ≤ list.length ∧
            ∀ (k : Nat) (e : CueEntry), list[k]? = some e → (k < cursor ↔ e.position ≤ q)) ∧
      (64 < list.length → exec (.cuelistLoad a) s = .next (answered a 96#8 .full (1#8 <<< i.val) [] s))) ∧
  (∀ (i : Fin 8) (a : CmdArgs) (s : State) (mode : Byte) (n : Nat) (rest : List Byte), s.canExecute = true →
      a.names i → s.screens[i].state = .inAlign → n ≤ 122 → a.payload = mode :: byteOf n :: rest →
      rest.length = 13 * n →
      exec (.cuelistLoad a) s = .next (answered a 96#8 .busy (1#8 <<< i.val) [] s))

/-- CUELIST_CLEAR empties the list and leaves the cursor at 0; in ALIGN it is refused BUSY (R124). -/
def Obligations.CuelistClearEmptiesTheList : Prop :=
  ∀ (i : Fin 8) (a : CmdArgs) (s : State), s.canExecute = true → a.names i → a.payload = [] →
    (s.screens[i].state ≠ .inAlign →
      exec (.cuelistClear a) s = .next (answered a 97#8 .ok 0#8 [] (s.onCueList i fun _ => ⟨[], 0⟩))) ∧
    (s.screens[i].state = .inAlign →
      exec (.cuelistClear a) s = .next (answered a 97#8 .busy (1#8 <<< i.val) [] s))

/-- LINK_LOAD of a disabled link: every content that R118 and R128 admit, spelled by the layout of section 11.4 with
anything in the places that R183 ignores, replaces the link, loaded and disabled; an enabled one is refused IN_USE,
GO_OUT on the GO trigger BAD_VALUE (R128). -/
def Obligations.LinkLoadStoresEveryAdmittedContent : Prop :=
  ∀ (k : Fin 32) (a : CmdArgs) (s : State) (l : CueLink), s.canExecute = true → a.namesNone → l.action.ok →
    (l.action.onScreen = false → l.target = 0) → readAlike l.readMask a.payload (linkPayload k l) →
    (s.links[k].enabled = false → ¬(l.trigger = .go ∧ l.action = .goOut) →
      exec (.linkLoad a) s = .next (answered a 98#8 .ok 0#8 []
        (s.onLink k fun _ => { l with loaded := true, enabled := false }))) ∧
    (s.links[k].enabled = false → l.trigger = .go → l.action = .goOut →
      exec (.linkLoad a) s = .next (answered a 98#8 .badValue 0#8 [] s)) ∧
    (s.links[k].enabled = true → exec (.linkLoad a) s = .next (answered a 98#8 .inUse 0#8 [] s))

/-- LINK_ENABLE, LINK_DISABLE, TIMER_START and TIMER_STOP write the flag or the timer they name and nothing else
(R129, R133). TIMER_EXPIRY: the timer's state first, ONCE stopped and REPEAT restarted at this reading, then its
trigger (R134). -/
def Obligations.LinksAndTimersAreSwitchedAndExpire : Prop :=
  (∀ (a : CmdArgs) (s : State), s.canExecute = true → a.namesNone →
      (∀ k : Fin 32, a.payload = [byteOf k.val] →
        (s.links[k].loaded = true → exec (.linkEnable a) s =
          .next (answered a 99#8 .ok 0#8 [] (s.onLink k fun l => { l with enabled := true }))) ∧
        (s.links[k].loaded = false → exec (.linkEnable a) s = .next (answered a 99#8 .badState 0#8 [] s)) ∧
        exec (.linkDisable a) s =
          .next (answered a 100#8 .ok 0#8 [] (s.onLink k fun l => { l with enabled := false }))) ∧
      (∀ (t : Fin 8) (n : Nat) (mode : RunMode), 1 ≤ n → n ≤ 86400000 →
        a.payload = byteOf t.val :: bytes4 (BitVec.ofNat 32 n) ++ [byteOf mode.code] →
        exec (.timerStart a) s = .next (answered a 101#8 .ok 0#8 []
          { s with timers := s.timers.set t ⟨true, n, mode, s.timeBase⟩ })) ∧
      (∀ t : Fin 8, a.payload = [byteOf t.val] →
        exec (.timerStop a) s = .next (answered a 102#8 .ok 0#8 []
          { s with timers := s.timers.set t { s.timers[t] with running := false } }))) ∧
  (∀ (t : Fin 8) (s : State), s.inReset = false →
      (s.timers[t].running = true → s.timers[t].interval ≤ elapsed s.timeBase s.timers[t].start →
        let after := if s.timers[t].mode = .once then { s.timers[t] with running := false }
          else { s.timers[t] with start := s.timeBase }
        exec (.timerExpiry t) s = .next (occurs (.timer t) { s with timers := s.timers.set t after })) ∧
      (s.timers[t].running = false ∨ elapsed s.timeBase s.timers[t].start < s.timers[t].interval →
        exec (.timerExpiry t) s = .next s))

/-- When a trigger occurs, the enabled links whose trigger it is are fixed and fire in ascending index; with none
enabled for it nothing happens (R130); that triggers caused meanwhile nest to a depth of two more is the model's bound
(log entry 23). CUE_FIRE of an enabled COMMAND link fires it within the execution: its action is executed, or held
where its held flag is set, and a ONCE link is then disabled (R121, R132); any other link is refused BAD_STATE (R132).
-/
def Obligations.TriggersAndCueFireFireLinks : Prop :=
  (∀ (t : Trigger) (s : State),
      (∃ links : List (Fin 32), links.Pairwise (· < ·) ∧
        (∀ k, k ∈ links ↔ s.links[k].enabled = true ∧ s.links[k].trigger = t) ∧
        occurs t s = links.foldl (fireLink (occursWithin 2)) s) ∧
      ((∀ k : Fin 32, s.links[k].enabled = true → s.links[k].trigger ≠ t) → occurs t s = s)) ∧
  (∀ (k : Fin 32) (a : CmdArgs) (s : State), s.canExecute = true → a.namesNone → a.payload = [byteOf k.val] →
      (s.links[k].enabled = true → s.links[k].trigger = .command →
        let l := s.links[k]
        let fired := if l.held then holdAction occurs (.link k) l.owner l.target l.action s
          else executeAction occurs (.link k) l.owner l.target l.action false s
        exec (.cueFire a) s = .next (answered a 104#8 .ok 0#8 []
          (if l.mode = .once then fired.onLink k fun x => { x with enabled := false } else fired))) ∧
      (s.links[k].enabled = false ∨ s.links[k].trigger ≠ .command →
        exec (.cueFire a) s = .next (answered a 104#8 .badState 0#8 [] s)))

/-- An action is skipped by the first test that applies, else rehearsed, else performed, and files one notice, before
its effects (R119, R141). The effect of each performed action (R120). -/
def Obligations.ActionsAreSkippedRehearsedOrPerformed : Prop :=
  (∀ (trig : Trigger → State → State) (src : Source) (owner : Option (Fin 8)) (i : Fin 8) (a : Action) (released : Bool)
      (s : State),
      (∀ why, skipOf a i s = some why →
        executeAction trig src owner i a released s = file owner (.cueSkipped src a released why) s) ∧
      (skipOf a i s = none → (∃ o, owner = some o ∧ rehearsedBy a i o s) →
        executeAction trig src owner i a released s = file owner (.cueFired src a released true) s) ∧
      (skipOf a i s = none → ¬(∃ o, owner = some o ∧ rehearsedBy a i o s) →
        executeAction trig src owner i a released s =
          perform trig src owner i a (file owner (.cueFired src a released false) s))) ∧
  (∀ (trig : Trigger → State → State) (src : Source) (owner : Option (Fin 8)) (i : Fin 8) (s : State),
      (∀ l active, perform trig src owner i (.lineSet l active) s =
        s.onLine l fun x => { x with latch := active, train := none }) ∧
      (∀ l n on off, perform trig src owner i (.linePulse l n on off) s =
        s.onLine l fun x => { x with latch := true, train := some ⟨n, true, s.timeBase, on, off⟩ }) ∧
      (∀ on, perform trig src owner i (.mute on) s =
        s.onScreen i fun x => { x with mutes := { x.mutes with cue := on } }) ∧
      (∀ target ms, perform trig src owner i (.fader target ms) s = requestFader i target ms s) ∧
      (∀ k, perform trig src owner i (.formatArm k) s = armFormat i k s) ∧
      (∀ ms, perform trig src owner i (.formatTake ms) s = takeFormat i ms s) ∧
      perform trig src owner i .eqSwap s = (s.onScreen i fun x =>
        { x with eqLive := if x.eqLive = .a then .b else .a, eqSwap := some ⟨s.timeBase, x.eqLive⟩ }) ∧
      (∀ t n mode, perform trig src owner i (.timerStart t n mode) s =
        { s with timers := s.timers.set t ⟨true, n, mode, s.timeBase⟩ }) ∧
      (∀ t, perform trig src owner i (.timerStop t) s =
        { s with timers := s.timers.set t { s.timers[t] with running := false } }) ∧
      (∀ k, perform trig src owner i (.linkOn k) s = s.onLink k fun l => { l with enabled := true }) ∧
      (∀ k, perform trig src owner i (.linkOff k) s = s.onLink k fun l => { l with enabled := false }) ∧
      (s.house.goPulse = none → perform trig src owner i .goOut s = { s with house := { s.house with
        goPulse := some s.timeBase
        goSince := if s.house.goOthers then s.house.goSince else s.timeBase } }) ∧
      (s.house.goPulse ≠ none → perform trig src owner i .goOut s = s) ∧
      perform trig src owner i .houseStop s =
        houseChange trig (fun h => { h with set := { h.set with cue := true } }) s ∧
      (∀ code, perform trig src owner i (.notice code) s = file owner (.cueNotice src code) s))

/-- A source with its held flag set: skipped while the house is stopped, executed at once under an asserted GO in
LEVEL mode, skipped when sixteen stand in the list, else held (R136). A GO event takes the whole held list out,
executes it in order with the RELEASED flag, files GO_RELEASED where there was any, and then the GO trigger occurs
(R137). GO_CANCEL empties the held list without executing it, answers how many it held, and files GO_CANCELLED where
there was any (R138); that the number takes one byte is the model's choice (log entry 19). -/
def Obligations.TheHeldListHoldsReleasesAndCancels : Prop :=
  (∀ (trig : Trigger → State → State) (src : Source) (owner : Option (Fin 8)) (i : Fin 8) (a : Action) (s : State),
      let atOnce := s.house.goLevel = true ∧ s.house.goInput = true ∧ s.house.goSensed = true
      (s.stopActive = true →
        holdAction trig src owner i a s = file owner (.cueSkipped src a false .houseStop) s) ∧
      (s.stopActive = false → atOnce → holdAction trig src owner i a s = executeAction trig src owner i a false s) ∧
      (s.stopActive = false → ¬atOnce → 16 ≤ s.held.length →
        holdAction trig src owner i a s = file owner (.cueSkipped src a false .heldFull) s) ∧
      (s.stopActive = false → ¬atOnce → s.held.length < 16 →
        holdAction trig src owner i a s = file owner (.cueHeld src a (s.held.length + 1))
          { s with held := s.held ++ [⟨src, a, i, owner, s.timeBase⟩] })) ∧
  (∀ s : State, s.inReset = false → s.house.goInput = true → s.house.goSensed = false → s.house.goPin = true →
      1 ≤ elapsed s.timeBase s.house.goSince →
      let sensed := { s with house := { s.house with goSensed := true } }
      let released := s.held.foldl (fun u h => executeAction occurs h.source h.owner h.target h.action true u)
        { sensed with held := [] }
      exec .goSensedChange s = .next (occurs .go
        (if s.held = [] then sensed else file none (.goReleased s.held.length) released))) ∧
  (∀ (a : CmdArgs) (s : State), s.canExecute = true → a.namesNone → a.payload = [] →
      exec (.goCancel a) s = .next (answered a 106#8 .ok 0#8 [byteOf s.held.length]
        (if s.held = [] then s else file none (.goCancelled s.held.length false) { s with held := [] })))

/-- The cursor is placed for a block at p (R125); every entry from there at or before p is processed in order, skipped
with JUMP beyond the catch-up window and fired within it, and the cursor is left at the first entry past p (R126). -/
def Obligations.ABlockProcessesTheDueEntries : Prop :=
  ∀ (i : Fin 8) (p : Word) (s : State), cueOrder s.cueLists[i].entries → s.cueLists[i].entries.length ≤ 64 →
    let l := s.cueLists[i]
    ∃ (due : List (Fin 64)) (cursor : Nat),
      due.Pairwise (· < ·) ∧
      (∀ k : Fin 64, k ∈ due ↔ ∃ e, l.entries[k.val]? = some e ∧ e.position ≤ p ∧
        match s.screens[i].lastPosition with
        | none => p ≤ e.position
        | some q => if p < q then p ≤ e.position else l.cursor ≤ k.val) ∧
      takeCues i p s = (due.foldl (fun u k =>
        match l.entries[k.val]? with
        | none => u
        | some e =>
          if e.position.toNat + u.screens[i].catchupWindow < p.toNat then
            file (some i) (.cueSkipped (.entry i k) e.action false .jump) u
          else occurs (.cue i k) (fireAction occurs (.entry i k) (some i) i e.action e.held u)) s).onCueList i
        (fun l => { l with cursor := cursor }) ∧
      cursor ≤ l.entries.length ∧
      ∀ (k : Nat) (e : CueEntry), l.entries[k]? = some e → (k < cursor ↔ e.position ≤ p)

/-! ### House stop, GO and booth lines -/

/-- After any change the drive holds exactly when the output is enabled and a source but LINE is present; at its end
the line is read without the filter; LINE holds exactly when its input is enabled and HSTOP is sensed and not driven
(R143, R145). A change of the source set is taken whole: from empty to non-empty it is an entry, from non-empty to
empty a release, and otherwise it reaches nothing but the controller: no entry, no notice and no frame being sent (R143,
R146 to R148). A filled slot that waits is left as it stands, and the notice that leaves with it carries the set as the
change left it (R147, R179; that events which fall together are taken one after the other is the model's reading, log
entry 34). BOOTH_INPUT is judged from the active STOP_INPUT lines (R143). A house stop entry empties the held list and
files GO_CANCELLED where there was any (R138, R146). What a house stop entry does to a screen, by its state and policy
(R26), and what a house release does (R27). -/
def Obligations.AChangeOfTheSourceSetIsTakenWhole : Prop :=
  (∀ (h : House) (now : Word),
      let t := h.settle now
      (t.drive = true ↔ h.lineOutput = true ∧
        (h.set.command = true ∨ h.set.monitor = true ∨ h.set.cue = true ∨ h.set.boothInput = true)) ∧
      (t.hstopSensed = if h.drive = true ∧ t.drive = false then h.hstopOthers else h.hstopSensed) ∧
      (t.set.line = true ↔ h.lineInput = true ∧ t.hstopSensed = true ∧ t.drive = false) ∧
      t = { h with
        drive := t.drive
        hstopSensed := t.hstopSensed
        hstopSince := if t.hstopPin = h.hstopPin then h.hstopSince else now
        set := { h.set with line := t.set.line } }) ∧
  (∀ (f : House → House) (s : State), houseChange occurs f s = changed f s) ∧
  (∀ (f : House → House) (s : State),
      let h := (f s.house).settle s.timeBase
      s.house.set ≠ ⟨false, false, false, false, false⟩ → h.set ≠ ⟨false, false, false, false, false⟩ →
      houseChange occurs f s = { s with house := h } ∧
      ∀ slot, s.inReset = false → s.slot = some slot → s.replies = [] →
        s.forward = [] ∨ s.lastChosen = .forwardBuffer →
        exec .aOutFrameSent { s with house := h } = .next { s with
          house := h
          slot := none
          lastChosen := .noticeSide
          aOut := some (noticeFrame s.unit ⟨.houseState h.set slot.count, none, slot.stamp⟩) }) ∧
  (∀ (s : State) (active : Bool),
      (active = true ↔ ∃ l : Fin 16, s.lines[l].mode = .stopInput ∧ s.lines[l].filtered = some true) →
      judgeBoothInput occurs s = changed (fun h => { h with set := { h.set with boothInput := active } }) s) ∧
  (∀ s : State,
      (s.held = [] → cancelHeld true s = s) ∧
      (s.held ≠ [] → cancelHeld true s = file none (.goCancelled s.held.length true) { s with held := [] })) ∧
  (∀ (i : Fin 8) (s : State),
      let x := s.screens[i]
      let muted := fun (u : State) => enterState i .stopped (u.onScreen i fun x =>
        { x with mutes := { x.mutes with stop := true } })
      let faded := fun (u : State) => enterState i .stopped (u.onScreen i fun x =>
        { x with stopFade := some s.timeBase })
      (x.state = .off ∨ x.state = .stopped → houseStopsScreen s i = s) ∧
      (x.state = .dark ∨ x.state = .inShow →
        (x.stopPolicy = .exempt → houseStopsScreen s i = s) ∧
        (x.stopPolicy = .mute ∨ (x.stopPolicy = .fade ∧ x.stopFadeMs = 0) → houseStopsScreen s i = muted s) ∧
        (x.stopPolicy = .fade → x.stopFadeMs ≠ 0 → houseStopsScreen s i = faded s)) ∧
      (x.state = .inAlign →
        (x.stopPolicy = .exempt → houseStopsScreen s i = enterState i .dark (overtakeRun .houseStop s)) ∧
        (x.stopPolicy = .mute ∨ (x.stopPolicy = .fade ∧ x.stopFadeMs = 0) →
          houseStopsScreen s i = muted (overtakeRun .houseStop s)) ∧
        (x.stopPolicy = .fade → x.stopFadeMs ≠ 0 → houseStopsScreen s i = faded (overtakeRun .houseStop s))) ∧
      (x.state = .stopped → x.resumePolicy = .auto → houseReleasesScreen s i = enterState i .dark (s.onScreen i fun x =>
        { x with stopFade := none, mutes := { x.mutes with stop := false } })) ∧
      (x.state ≠ .stopped ∨ x.resumePolicy = .manual → houseReleasesScreen s i = s))

/-- HOUSE_STOP adds COMMAND and HOUSE_RELEASE removes COMMAND, MONITOR and CUE, in every state, with the entry or
release that the change makes; both answer the set as it stands after (R143, R149), in one byte of flags by the model's
choice (log entry 19). HOUSE_SETUP writes its four settings, with the drive, LINE, and any entry or release that follow
(R150); that a held link fired by that release finds the new GO settings is the model's choice (log entry 35). -/
def Obligations.HouseCommandsChangeTheSourceSet : Prop :=
  (∀ (a : CmdArgs) (s : State), s.canExecute = true → a.namesNone → a.payload = [] →
      let stop := changed (fun h => { h with set := { h.set with command := true } }) s
      let free := changed (fun h => { h with set := { h.set with command := false, monitor := false, cue := false } }) s
      let answer := fun (code : Byte) (t : State) => answered a code .ok 0#8 [byteOf t.house.set.bits] t
      exec (.houseStop a) s = .next (answer 113#8 stop) ∧ exec (.houseRelease a) s = .next (answer 114#8 free)) ∧
  (∀ (a : CmdArgs) (s : State) (lineIn lineOut goIn level : Bool), s.canExecute = true → a.namesNone →
      a.payload = [flagByte lineIn, flagByte lineOut, flagByte goIn, flagByte level] →
      exec (.houseSetup a) s = .next (answered a 112#8 .ok 0#8 [] (changed
        (fun h => { h with lineInput := lineIn, lineOutput := lineOut, goInput := goIn, goLevel := level }) s)))

/-- The wires' own levels: a row writes what the other units put on HSTOP, on GO or on a line's pin, and the filter
times from a change of the pin (R144, R152, R156); with a filter that is not NONE nothing else happens.
HSTOP_SENSED_CHANGE when the pin has held another level for 1 ms: the sensed level takes it, and LINE follows with any
entry or release; a change that has not lasted so long is left, on GO as on HSTOP (R143, R144, R152). The end of an
assertion of GO, and an assertion with `go_input_enable` 0, change the sensed level alone (R152). GO_PULSE begins a
pulse of 10 ms, or is ignored while one is in flight; its reply says which, in one byte of 1 or 0 by the model's choice
(log entry 19); GO_PULSE_END releases the drive (R153). -/
def Obligations.WiresAreSensedThroughTheirFilters : Prop :=
  (∀ (s : State) (level : Bool),
      exec (.hstopPinChange level) s = .next { s with house := { s.house with
        hstopOthers := level
        hstopSince := if (level || s.house.drive) = s.house.hstopPin then s.house.hstopSince else s.timeBase } } ∧
      exec (.goPinChange level) s = .next { s with house := { s.house with
        goOthers := level
        goSince := if (level || s.house.goPulse.isSome) = s.house.goPin then s.house.goSince else s.timeBase } } ∧
      ∀ l : Fin 16, s.lines[l].filter ≠ .none →
        exec (.linePinChange l level) s = .next (s.onLine l fun x => { x with
          external := level
          since := if level = x.external then x.since else s.timeBase })) ∧
  (∀ s : State, s.inReset = false →
      (s.house.hstopPin ≠ s.house.hstopSensed → 1 ≤ elapsed s.timeBase s.house.hstopSince →
        exec .hstopSensedChange s = .next (changed (fun h => { h with hstopSensed := h.hstopPin }) s)) ∧
      (s.house.hstopPin = s.house.hstopSensed ∨ elapsed s.timeBase s.house.hstopSince < 1 →
        exec .hstopSensedChange s = .next s)) ∧
  (∀ s : State, s.inReset = false → s.house.goPin ≠ s.house.goSensed → 1 ≤ elapsed s.timeBase s.house.goSince →
      s.house.goPin = false ∨ s.house.goInput = false →
      exec .goSensedChange s = .next { s with house := { s.house with goSensed := s.house.goPin } }) ∧
  (∀ s : State, s.inReset = false → s.house.goPin = s.house.goSensed ∨ elapsed s.timeBase s.house.goSince < 1 →
      exec .goSensedChange s = .next s) ∧
  (∀ (a : CmdArgs) (s : State),
      (s.canExecute = true → a.namesNone → a.payload = [] → s.house.goPulse = none →
        exec (.goPulse a) s = .next (answered a 105#8 .ok 0#8 [1#8] { s with house := { s.house with
          goPulse := some s.timeBase
          goSince := if s.house.goOthers then s.house.goSince else s.timeBase } })) ∧
      (s.canExecute = true → a.namesNone → a.payload = [] → s.house.goPulse ≠ none →
        exec (.goPulse a) s = .next (answered a 105#8 .ok 0#8 [0#8] s)) ∧
      (∀ start, s.inReset = false → s.house.goPulse = some start →
        (10 ≤ elapsed s.timeBase start → exec .goPulseEnd s = .next { s with house := { s.house with
          goPulse := none
          goSince := if s.house.goOthers then s.house.goSince else s.timeBase } }) ∧
        (elapsed s.timeBase start < 10 → exec .goPulseEnd s = .next s)))

/-- LINE_SETUP replaces the record but for latch and train, reads an input at once, and judges BOOTH_INPUT again
(R154). LINE_SET writes the latch and cancels a train, in every mode (R157). PULSE_PHASE_END, step by step (R157). -/
def Obligations.LineCommandsAndTrainsWriteTheLine : Prop :=
  (∀ (l : Fin 16) (a : CmdArgs) (s : State) (v : LineValues), s.canExecute = true → a.namesNone →
      v.statusSet ≠ ⟨false, false, false, false, false⟩ → a.payload = linePayload l v →
      exec (.lineSetup a) s = .next (answered a 116#8 .ok 0#8 [] (judgeBoothInput occurs (s.onLine l fun x =>
        { x with
          mode := v.mode
          polarity := v.polarity
          filter := v.filter
          owner := v.owner
          statusScreen := v.statusScreen
          statusSet := v.statusSet
          alarmMonitor := v.alarmMonitor
          filtered := if v.mode = .input ∨ v.mode = .stopInput then
              some (if v.polarity = .activeHigh then x.external else !x.external)
            else none })))) ∧
  (∀ (l : Fin 16) (a : CmdArgs) (s : State) (active : Bool), s.canExecute = true → a.namesNone →
      a.payload = [byteOf l.val, flagByte active] →
      exec (.lineSet a) s = .next (answered a 117#8 .ok 0#8 [] (s.onLine l fun x =>
        { x with latch := active, train := none }))) ∧
  (∀ (l : Fin 16) (s : State) (x : Train), s.inReset = false → s.lines[l].train = some x →
      (elapsed s.timeBase x.start < (if x.on then x.onMs else x.offMs) → exec (.pulsePhaseEnd l) s = .next s) ∧
      (x.on = true → x.onMs ≤ elapsed s.timeBase x.start → x.remaining = 1 →
        exec (.pulsePhaseEnd l) s = .next (s.onLine l fun y => { y with latch := false, train := none })) ∧
      (x.on = true → x.onMs ≤ elapsed s.timeBase x.start → 1 < x.remaining →
        exec (.pulsePhaseEnd l) s = .next (s.onLine l fun y => { y with
          latch := false
          train := some { x with remaining := x.remaining - 1, on := false, start := s.timeBase } })) ∧
      (x.on = false → x.offMs ≤ elapsed s.timeBase x.start →
        exec (.pulsePhaseEnd l) s = .next (s.onLine l fun y => { y with
          latch := true
          train := some { x with on := true, start := s.timeBase } })))

/-- LINE_FILTER_CHANGE when an input's pin has read otherwise for the filter time, and LINE_PIN_CHANGE at once with
filter NONE: the filtered state takes the reading; an INPUT line files LINE_EDGE and causes its trigger, a STOP_INPUT
line has BOOTH_INPUT judged again (R156). In a driven mode, or where the reading does not change, the pin's own level
alone changes (R156). The pin of a line: read where it is an input or RESETN is asserted, else
driven from its latch, its status screen's state or its alarm monitor's state through the polarity (R155, R159). -/
def Obligations.LinesReadAndDriveTheirPins : Prop :=
  (∀ (l : Fin 16) (s : State), s.inReset = false →
      let reads := fun (x : BoothLine) => if x.polarity = .activeHigh then x.external else !x.external
      let taken := fun (u : State) =>
        let active := reads u.lines[l]
        let v := u.onLine l fun x => { x with filtered := some active }
        if u.lines[l].mode = .input then
          occurs (if active then .lineActive l else .lineInactive l) (file none (.lineEdge l active) v)
        else judgeBoothInput occurs v
      (s.lines[l].mode = .input ∨ s.lines[l].mode = .stopInput →
        s.lines[l].filtered ≠ some (reads s.lines[l]) →
        s.lines[l].filter.ms ≤ elapsed s.timeBase s.lines[l].since → exec (.lineFilterChange l) s = .next (taken s)) ∧
      (s.lines[l].filtered = some (reads s.lines[l]) ∨ elapsed s.timeBase s.lines[l].since < s.lines[l].filter.ms ∨
          (s.lines[l].mode ≠ .input ∧ s.lines[l].mode ≠ .stopInput) →
        exec (.lineFilterChange l) s = .next s) ∧
      (∀ level, s.lines[l].filter = .none →
        let u := s.onLine l fun x => { x with
          external := level
          since := if level = x.external then x.since else s.timeBase }
        (s.lines[l].mode ≠ .input ∧ s.lines[l].mode ≠ .stopInput) ∨ u.lines[l].filtered = some (reads u.lines[l]) →
        exec (.linePinChange l level) s = .next u) ∧
      (∀ level, s.lines[l].filter = .none → s.lines[l].mode = .input ∨ s.lines[l].mode = .stopInput →
        let u := s.onLine l fun x => { x with
          external := level
          since := if level = x.external then x.since else s.timeBase }
        u.lines[l].filtered ≠ some (reads u.lines[l]) → exec (.linePinChange l level) s = .next (taken u))) ∧
  (∀ (s : State) (x : BoothLine),
      let driven := fun (active : Bool) => if x.polarity = .activeHigh then active else !active
      (s.inReset = true ∨ x.mode = .input ∨ x.mode = .stopInput → s.linePin x = x.external) ∧
      (s.inReset = false → x.mode = .output → s.linePin x = driven x.latch) ∧
      (s.inReset = false → x.mode = .screenStatus →
        s.linePin x = driven (x.statusSet.holds s.screens[x.statusScreen].state)) ∧
      (s.inReset = false → x.mode = .alarm → s.linePin x = driven
        (s.monitors[x.alarmMonitor].state == .raised || s.monitors[x.alarmMonitor].state == .releasing ||
          s.monitors[x.alarmMonitor].state == .latched)))

/-! ### Management commands -/

/-- COMMAND_TAKE takes the head of the intake queue and runs it as its row does (R8, R160); while the queue is empty
or the reply list full nothing happens. A code that section 9.4 does not list is refused BAD_COMMAND; then a payload of
another length BAD_LENGTH, a selector of another class BAD_VALUE, and a UNIT_RESET whose scope byte names none BAD_VALUE
(R163, R172). -/
def Obligations.CommandTakeRunsTheHeadOfTheQueue : Prop :=
  ∀ s : State,
    (s.canExecute = true ↔ s.inReset = false ∧ s.executing = none ∧ s.replies.length < 8) ∧
    (∀ r c rest, Instr.command r = some c → s.intake = c :: rest → s.canExecute = true →
      exec .commandTake s = exec r { s with intake := rest }) ∧
    (∀ c rest, s.intake = c :: rest → s.canExecute = true → c.code.toNat ∈ commandCodes →
      let refused := fun (why : Result) => appendReply ⟨c.tag, c.code, why, 0#8, []⟩ { s with intake := rest }
      (c.lengthSuits = false → exec .commandTake s = .next (refused .badLength)) ∧
      (c.lengthSuits = true → (classOf c.code.toNat).accepts c.selector = false →
        exec .commandTake s = .next (refused .badValue)) ∧
      (∀ scope : Byte, c.code = 2#8 → c.selector = 14#8 → c.payload = [scope] → 2 ≤ scope.toNat →
        exec .commandTake s = .next (refused .badValue))) ∧
    (∀ c rest, s.intake = c :: rest → s.canExecute = true → c.code.toNat ∉ commandCodes →
      exec .commandTake s = .next (appendReply ⟨c.tag, c.code, .badCommand, 0#8, []⟩ { s with intake := rest })) ∧
    (s.intake = [] ∨ 8 ≤ s.replies.length → exec .commandTake s = .next s)

/-- The generic checks: a payload of another length is refused BAD_LENGTH, and then a selector of another class
BAD_VALUE; a refused command changes nothing (R163, R164, R165). A command on no screen has the selector 14, one on each
screen 0 to 7 or 15, and ALIGN_START 0 to 7 (R164). FORMAT_LOAD's length is that of its terms, and for a MATRIX format
of the thresholds and the five counted steering rows that its bytes spell (R165, section 11.4). -/
def Obligations.GenericChecksComeFirst : Prop :=
  (∀ (r : Instr) (c : Command) (s : State), Instr.command r = some c → s.canExecute = true →
    let refused := fun (why : Result) => appendReply ⟨c.tag, c.code, why, 0#8, []⟩ s
    (c.lengthSuits = false → exec r s = .next (refused .badLength)) ∧
    (c.lengthSuits = true → (classOf c.code.toNat).accepts c.selector = false → exec r s = .next (refused .badValue))) ∧
  (∀ selector : Byte,
    (SelectorClass.unit.accepts selector = true ↔ selector.toNat = 14) ∧
    (SelectorClass.screen.accepts selector = true ↔ selector.toNat ≤ 7 ∨ selector.toNat = 15) ∧
    (SelectorClass.oneScreen.accepts selector = true ↔ selector.toNat ≤ 7)) ∧
  ∀ c : Command,
    let terms := (c.payload.getD 11 0#8).toNat
    let isMatrix := c.payload.getD 9 0#8 = 1#8
    formatLengthSuits c = true ↔ 12 ≤ c.payload.length ∧
      (¬isMatrix → c.payload.length = 12 + 5 * terms) ∧
      (isMatrix → 16 + 5 * terms ≤ c.payload.length ∧
        ∃ rows : List (List Byte), rows.length = 5 ∧ c.payload.drop (16 + 5 * terms) = rows.flatten ∧
          ∀ row ∈ rows, ∃ count pairs, row = count :: pairs ∧ pairs.length = 3 * count.toNat)

/-- A command's execution appends a reply with its own tag and code, and one that is neither accepted nor OK leaves
everything but that reply as it stood (R160, R162, R163). An index beyond the end of its table is refused BAD_INDEX by
every unit-class command that carries one, but for the value 255 where the command reads it as all (R163 and the rule of
each). Index, value, state: a byte that its job rule does not order is refused BAD_VALUE in every state, after the
index: MUTE_SET's on or off byte, CURVE_LOAD's valid flag, the point code of MONITOR_LOAD, an invert byte of
FORMAT_LOAD, and the form byte of EQ_LOAD, after the channel, which is read from byte 1 whatever the form (R163, R165,
R183; the last is log entry 20). On an OFF screen the commands that need a screen in service are refused BAD_STATE
before the values that their rules name, and change nothing (R27, R28, R32, R40, R43, R54, R55, R71, R95). While a
screen aligns or a swap crossfade is in flight, EQ_LOAD of a channel 0–15 and EQ_SWAP are refused BUSY and change
nothing (R66, R68, R69, R71). -/
def Obligations.RefusedCommandsChangeNothing : Prop :=
  (∀ (r : Instr) (c : Command) (s : State), Instr.command r = some c → s.canExecute = true →
      ∃ (x : Reply) (t u : State), exec r s = .next u ∧ x.tag = c.tag ∧ x.code = c.code ∧
        (u = appendReply x t ∨ ∃ body, u = file none body (appendReply x t)) ∧
        (x.result ≠ .ok → x.result ≠ .accepted → u = appendReply x s)) ∧
  (∀ (r : Instr) (c : Command) (n : Nat) (s : State), Instr.command r = some c → Instr.indexLimit r = some n →
      s.canExecute = true → c.lengthSuits = true → c.selector = 14#8 → n ≤ (c.byte 0).toNat →
      ¬(c.byte 0 = 255#8 ∧ (c.code = 84#8 ∨ c.code = 118#8)) →
      exec r s = .next (appendReply ⟨c.tag, c.code, .badIndex, 0#8, []⟩ s)) ∧
  (∀ (i : Fin 8) (a : CmdArgs) (s : State) (channel on : Byte), s.canExecute = true → a.names i → 2 ≤ on.toNat →
      a.payload = [channel, on] →
      exec (.muteSet a) s = .next (answered a 21#8 .badValue (1#8 <<< i.val) [] s)) ∧
  (∀ (a : CmdArgs) (s : State) (code : Byte) (rest : List Byte), s.canExecute = true → a.namesNone →
      (∀ k : Fin 4, 2 ≤ code.toNat → rest.length = 34 → a.payload = byteOf k.val :: code :: rest →
        exec (.curveLoad a) s = .next (answered a 52#8 .badValue 0#8 [] s)) ∧
      (∀ (k : Fin 48) (screen : Byte), 3 ≤ code.toNat → rest.length = 17 →
        a.payload = byteOf k.val :: screen :: code :: rest →
        exec (.monitorLoad a) s = .next (answered a 80#8 .badValue 0#8 [] s))) ∧
  (∀ (k : Fin 32) (j : Nat) (a : CmdArgs) (s : State) (rest : List Byte), s.canExecute = true → a.namesNone →
      a.payload = byteOf k.val :: rest → (commandOf 32#8 a).lengthSuits = true → j < (rest.getD 10 0#8).toNat →
      2 ≤ (rest.getD (5 * j + 15) 0#8).toNat →
      exec (.formatLoad a) s = .next (answered a 32#8 .badValue 0#8 [] s)) ∧
  (∀ (i : Fin 8) (s : State) (tag form channel : Byte) (rest : List Byte) (queue : List Command),
      s.canExecute = true → 2 ≤ form.toNat → rest.length = 5 →
      s.intake = ⟨tag, 48#8, BitVec.ofNat 8 i.val, form :: channel :: rest⟩ :: queue →
      exec .commandTake s = .next (appendReply
        ⟨tag, 48#8, if channel.toNat < 16 then .badValue else .badIndex, 1#8 <<< i.val, []⟩
        { s with intake := queue })) ∧
  (∀ (i : Fin 8) (a : CmdArgs) (s : State), s.canExecute = true → a.names i → s.screens[i].state = .off →
      let refused := fun (code : Byte) => answered a code .badState (1#8 <<< i.val) [] s
      (a.payload.length = 0 → exec (.screenClose a) s = .next (refused 17#8) ∧
        exec (.screenResume a) s = .next (refused 19#8) ∧ exec (.eqSwap a) s = .next (refused 50#8) ∧
        exec (.alignAbort a) s = .next (refused 65#8)) ∧
      (a.payload.length = 3 → exec (.faderSet a) s = .next (refused 20#8)) ∧
      (a.payload.length = 2 → exec (.formatTake a) s = .next (refused 35#8)) ∧
      (∀ (channel : Byte) (on : Bool), a.payload = [channel, flagByte on] →
        exec (.muteSet a) s = .next (refused 21#8)) ∧
      (a.payload.length = 4 → exec (.channelSetup a) s = .next (refused 23#8)) ∧
      (a.payload.length = 1 → exec (.formatArm a) s = .next (refused 34#8))) ∧
  (∀ (i : Fin 8) (a : CmdArgs) (s : State), s.canExecute = true → a.names i →
      s.screens[i].state = .inAlign ∨ s.screens[i].eqSwap ≠ none →
      let busy := fun (code : Byte) => answered a code .busy (1#8 <<< i.val) [] s
      (a.payload = [] → s.screens[i].state ≠ .off → exec (.eqSwap a) s = .next (busy 50#8)) ∧
      (∀ (c : Fin 16) (rest : List Byte), a.payload = byteOf c.val :: rest → rest.length = 31 →
        exec (.eqLoadGraphic a) s = .next (busy 48#8)) ∧
      (∀ (c : Fin 16) (k : Fin 8) (rest : List Byte), a.payload = byteOf c.val :: byteOf k.val :: rest →
        rest.length = 4 → exec (.eqLoadSection a) s = .next (busy 48#8)))

/-- Every command of the screen class, as its code and payload spell it, has one check and one effect on a single
screen, and its row applies them in the shared form under every selector and in every state (R164, R166). In that form a
command that its one screen refuses answers that refusal with the screen's flag alone, and one that it accepts answers
OK with the mask 0 (R163, R167). Selector 15: the command is applied to screens 0 to 7 in order, each on the state the
earlier ones left; a refusal changes nothing and sets its flag; the result is OK if any accepted, else the refusal of
screen 0; the payload is the sections in order, a refused one all zeros (R166, R167, R168). REHEARSAL_SET and MUTE_SET
of the word SCREEN with selector 15, the first accepted by every screen and the second by those in service (R43, R46,
R166, R167). -/
def Obligations.SelectorFifteenAppliesToEachScreenInTurn : Prop :=
  (∀ (code : Byte) (payload : List Byte), classOf code.toNat = .screen →
      ∃ (size : Nat) (check : Fin 8 → State → Option Result) (effect : Fin 8 → State → State × List Byte),
        ∀ (r : Instr) (tag selector : Byte) (s : State), Instr.command r = some ⟨tag, code, selector, payload⟩ →
          s.canExecute = true → Command.lengthSuits ⟨tag, code, selector, payload⟩ = true →
          let (t, a) := screenCommand true size check effect ⟨tag, code, selector, payload⟩ s
          exec r s = .next (appendReply ⟨tag, code, a.result, a.mask, a.payload⟩ t)) ∧
  (∀ (size : Nat) (check : Fin 8 → State → Option Result) (effect : Fin 8 → State → State × List Byte) (c : Command)
      (s : State) (i : Fin 8), c.selector = BitVec.ofNat 8 i.val →
      (∀ why, check i s = some why →
        screenCommand true size check effect c s = (s, ⟨why, 1#8 <<< i.val, []⟩)) ∧
      (check i s = none →
        screenCommand true size check effect c s = ((effect i s).1, ⟨.ok, 0#8, (effect i s).2⟩))) ∧
  (∀ (size : Nat) (check : Fin 8 → State → Option Result) (effect : Fin 8 → State → State × List Byte) (c : Command)
      (s : State), c.selector = 15#8 →
      ∃ u : Nat → State, u 0 = s ∧
        (∀ i : Fin 8, u (i.val + 1) = if check i (u i.val) = none then (effect i (u i.val)).1 else u i.val) ∧
        let (t, a) := screenCommand true size check effect c s
        t = u 8 ∧
        (∀ i : Fin 8, a.mask.getLsbD i.val = true ↔ check i (u i.val) ≠ none) ∧
        ((∃ i : Fin 8, check i (u i.val) = none) → a.result = .ok) ∧
        ((∀ i : Fin 8, check i (u i.val) ≠ none) → check 0 s = some a.result) ∧
        a.payload = (indexes 8).flatMap fun i =>
          if check i (u i.val) = none then (effect i (u i.val)).2 else List.replicate size 0#8) ∧
  (∀ (a : CmdArgs) (s : State) (on : Bool), s.canExecute = true → a.namesAll →
      (a.payload = [flagByte on] →
        exec (.rehearsalSet a) s = .next (answered a 22#8 .ok 0#8 []
          { s with screens := s.screens.map fun x => { x with rehearsal := on } })) ∧
      (a.payload = [255#8, flagByte on] → (∃ i : Fin 8, s.screens[i].state ≠ .off) →
        ∃ mask : BitVec 8, (∀ i : Fin 8, mask.getLsbD i.val = true ↔ s.screens[i].state = .off) ∧
          exec (.muteSet a) s = .next (answered a 21#8 .ok mask []
            { s with screens := s.screens.map fun x =>
              if x.state = .off then x else { x with mutes := { x.mutes with command := on } } })))

/-- The commands that read answer OK and change nothing but for their reply (R47, R53, R75, R79, R116, R135, R140, R149,
R158, R169, R170, R171), MONITOR_STATUS without its clear flag among them, of one monitor and of all (R116). The layouts
of the longer replies are the model's reading of their rules (log entry 19). NOTICE_MASK with the write flag writes the
mask, the kinds that cannot be masked reading as enabled, and refuses a flag that names no kind; LINK_STATS with the
clear flag answers the counters and sets them to 0 (R16, R170, R171). -/
def Obligations.ReadCommandsChangeNothingElse : Prop :=
  (∀ (a : CmdArgs) (s : State), s.canExecute = true →
      let reads := fun (r : Instr) (code : Byte) (payload : List Byte) =>
        exec r s = .next (answered a code .ok 0#8 payload s)
      (a.namesNone → a.payload = [] →
        reads (.unitInfo a) 1#8 ([77#8, 73#8, 68#8, 65#8, 82#8, 79#8, 78#8, 32#8] ++ bytes2 816 ++ [1#8] ++
          [byteOf s.unit.val] ++ bytes4 s.timeBase ++
          [8#8, 16#8, 32#8, 64#8, 4#8, 48#8, 64#8, 32#8, 8#8, 16#8, 16#8, 64#8, 8#8, 8#8, 8#8]) ∧
        reads (.alignRead a) 66#8 (s.run.bytes s.timeBase) ∧
        reads (.heldRead a) 107#8 (heldBytes s) ∧
        reads (.houseStatus a) 115#8 s.house.bytes) ∧
      (∀ i : Fin 8, a.names i →
        (a.payload = [] → reads (.screenStatus a) 18#8 (s.screens[i].bytes s.timeBase)) ∧
        (∀ c : Fin 16, a.payload = [byteOf c.val, 0#8] → reads (.eqRead a) 51#8
          (s.eq[i][c].a.bytes ++ [byteOf s.screens[i].eqLive.code, flagByte s.screens[i].eqSwap.isSome])) ∧
        (∀ c : Fin 16, a.payload = [byteOf c.val, 1#8] → reads (.eqRead a) 51#8
          (s.eq[i][c].b.bytes ++ [byteOf s.screens[i].eqLive.code, flagByte s.screens[i].eqSwap.isSome]))) ∧
      (a.namesNone →
        (∀ k : Fin 32, a.payload = [byteOf k.val] → reads (.formatRead a) 36#8 s.formats[k].bytes) ∧
        (∀ t : Fin 8, a.payload = [byteOf t.val] → reads (.timerRead a) 103#8
          ([flagByte s.timers[t].running] ++ bytes4 (BitVec.ofNat 32 s.timers[t].interval) ++
            [byteOf s.timers[t].mode.code] ++ bytes4 (BitVec.ofNat 32
              (if s.timers[t].running then elapsed s.timeBase s.timers[t].start else 0)))) ∧
        (∀ l : Fin 16, a.payload = [byteOf l.val] → reads (.lineRead a) 118#8 (lineBytes s s.lines[l])) ∧
        (a.payload = [255#8] → reads (.lineRead a) 118#8 (s.lines.toList.flatMap (lineBytes s))) ∧
        (∀ k : Fin 48, a.payload = [byteOf k.val, 0#8] →
          reads (.monitorStatus a) 84#8 (monitorBytes s s.monitors[k])) ∧
        (a.payload = [255#8, 0#8] → reads (.monitorStatus a) 84#8 (s.monitors.toList.flatMap (monitorBytes s))) ∧
        (a.payload = [0#8] → reads (.linkStats a) 4#8 (([s.stats.framesIn, s.stats.checkErrors, s.stats.badFrames,
          s.stats.cmdDropped, s.stats.fwdDropped] ++ s.stats.gaps.toList).flatMap bytes2)) ∧
        (a.payload = [0#8, 0#8, 0#8, 0#8, 0#8] → reads (.noticeMask a) 3#8 (bytes4 s.mask)))) ∧
  (∀ (a : CmdArgs) (s : State), s.canExecute = true → a.namesNone →
      (∀ mask : Word, a.payload = 1#8 :: bytes4 mask →
        (mask.toNat < 2 ^ 24 → exec (.noticeMask a) s = .next (answered a 3#8 .ok 0#8 (bytes4 (mask ||| 0xC00001#32))
          { s with mask := mask ||| 0xC00001#32 })) ∧
        (2 ^ 24 ≤ mask.toNat → exec (.noticeMask a) s = .next (answered a 3#8 .badValue 0#8 [] s))) ∧
      (a.payload = [1#8] → exec (.linkStats a) s = .next (answered a 4#8 .ok 0#8
        (([s.stats.framesIn, s.stats.checkErrors, s.stats.badFrames, s.stats.cmdDropped, s.stats.fwdDropped] ++
          s.stats.gaps.toList).flatMap bytes2)
        { s with stats := ⟨0, 0, 0, 0, 0, Vector.replicate 8 0⟩ })))

/-- UNIT_RESET(KEEP_TABLES): what stands after its steps, then the reply, then UNIT_READY (R18, R172, R173). The wires'
own levels stand, and the filters of HSTOP and GO time afresh (R144, R151, R152). UNIT_RESET(CLEAR): every block at its
power-on values but for the intake queue, the forward buffer, B-out, a frame being sent, the address and the wires'
levels; then the reply and UNIT_READY (R18, R172, R173). The scope in the reply takes one byte, 0 or 1, by the model's
choice (log entry 19). -/
def Obligations.UnitResetInBothScopes : Prop :=
  (∀ (a : CmdArgs) (s : State), s.canExecute = true → a.namesNone → a.payload = [] →
      ∃ t, exec (.unitResetKeepTables a) s =
          .next (file none (.unitReady .keepTables t.stopActive) (answered a 2#8 .ok 0#8 [0#8] t)) ∧
        t = { s with
          timeBase := 0#32
          screens := s.screens.map fun x => offScreen x.rehearsal x.eqLive
          formats := s.formats.map fun f => { f with useCount := 0 }
          run := emptyRun
          monitors := s.monitors.map fun m => { m with
            state := if m.enabled then .suspended else .off
            mark := none
            prev := none
            tripped := false
            raiseCount := 0 }
          cueLists := s.cueLists.map fun l => { l with cursor := 0 }
          timers := s.timers.map fun x => { x with running := false, start := 0#32 }
          held := []
          lines := s.lines.map fun l => { l with
            latch := if l.train = none then l.latch else false
            train := none
            filtered := if l.mode = .input ∨ l.mode = .stopInput then
                some (if l.polarity = .activeHigh then l.external else !l.external)
              else none
            since := 0#32 }
          house := t.house
          notices := []
          lostCount := 0
          slot := none
          replies := []
          stats := ⟨0, 0, 0, 0, 0, Vector.replicate 8 0⟩
          lastChosen := .forwardBuffer } ∧
        t.houseIsSettled ∧
        t.house = { s.house with
          drive := t.house.drive
          set := t.house.set
          hstopSensed := if s.house.drive then s.house.hstopOthers else s.house.hstopSensed
          hstopSince := 0#32
          goPulse := none
          goSince := 0#32 } ∧
        t.house.set.command = false ∧ t.house.set.monitor = false ∧ t.house.set.cue = false) ∧
  (∀ (a : CmdArgs) (s : State), s.canExecute = true → a.namesNone → a.payload = [] →
      ∃ t, exec (.unitResetClear a) s =
          .next (file none (.unitReady .clear t.stopActive) (answered a 2#8 .ok 0#8 [1#8] t)) ∧
        t = { State.powerOn s.unit s.house.hstopOthers s.house.goOthers
            (s.lines.map fun l => powerOnLine l.external) with
          intake := s.intake
          forward := s.forward
          aOut := s.aOut
          bOutOrder := s.bOutOrder
          bOut := s.bOut
          fresh := s.fresh
          pending := s.pending
          house := t.house } ∧
        t.house = { powerOnHouse s.house.hstopOthers s.house.goOthers with
          hstopSensed := t.house.hstopSensed
          goSensed := s.house.goSensed
          set := { noSources with line := t.house.hstopSensed } } ∧
        (t.house.hstopSensed = if s.house.drive then s.house.hstopOthers else s.house.hstopSensed))

/-- What stands right after power-on reset, record by record and every field of each: the link, the screens with their
channels and meters, the tables, the run record, the lists, the house and the booth lines (R5, R16, R17, R19, R20, R48,
R67, R76, R78, R97, R142, R144, R150, R159, R177). The record of an OFF screen, whatever rehearsal flag and live bank it
keeps (R19, R20). Every power-on value, whatever the straps, wires and pins. The straps, the released wires and the low
pins of State.reset are the model's choice (log entry 5), and so are the memories of the EQ filters (log entry 13), the
samples of a DWELL (log entry 15), the times of the silent blocks (log entry 26), the count of noise blocks (log entry
27) and the empty phase start (log entry 31). -/
def Obligations.ResetValues : Prop :=
  let s := State.reset
  let meter : Meter := {
    peak := -240
    short := -240
    long := -240
    window := []
    secondEnergy := 0
    secondBlocks := 0
    seconds := [] }
  let off : Bool → BankName → Screen := fun rehearsal live => {
    state := .off
    channelCount := none
    micChannel := none
    stopPolicy := .mute
    stopFadeMs := 2000
    resumePolicy := .auto
    catchupWindow := 750
    fader := ⟨0, 0, 0, none⟩
    ceiling := 100
    mutes := ⟨true, false, false, false, false⟩
    stopFade := none
    activeFormat := none
    pendingFormat := none
    outgoingFormat := none
    formatFade := none
    steering := ⟨none, none, 0⟩
    eqLive := live
    eqSwap := none
    lastPosition := none
    sourceLost := false
    lastArrival := 0#32
    arrivalPosition := 0xFFFFFFFF#32
    silentBase := 0#32
    silentPhase := 1
    rehearsal := rehearsal
    mismatchReported := false
    showPeakLong := -240
    channels := Vector.replicate 16 {
      trim := 0
      delay := 0
      line := []
      eqMemory := ⟨List.replicate 9 [], List.replicate 9 []⟩
      mutes := ⟨false, false, false⟩
      meter := meter }
    inputs := Vector.replicate 16 meter
    sum := meter
    steerSum := ⟨-240, []⟩
    steerDiff := ⟨-240, []⟩ }
  (s.inReset = false ∧ s.unit = 0 ∧ s.executing = none ∧ s.lastChosen = .noticeSide ∧ s.fresh = 0 ∧ s.pending = [] ∧
    s.intake = [] ∧ s.replies = [] ∧ s.forward = [] ∧ s.bOutOrder = [] ∧ s.bOut = none ∧ s.timeBase = 0#32 ∧
    s.stats = ⟨0, 0, 0, 0, 0, Vector.replicate 8 0⟩ ∧ s.notices = [] ∧ s.lostCount = 0 ∧ s.slot = none ∧
    s.mask = 0xDF7FFF#32 ∧ s.held = [] ∧ s.aOut = some (noticeFrame 0 ⟨.unitReady .powerOn false, none, 0#32⟩)) ∧
  (∀ (rehearsal : Bool) (live : BankName), offScreen rehearsal live = off rehearsal live) ∧
  (∀ i : Fin 8, s.screens[i] = off false .a ∧ s.cueLists[i] = ⟨[], 0⟩ ∧ s.timers[i] = ⟨false, 1, .once, 0#32⟩) ∧
  (∀ k : Fin 32, s.formats[k] = {
        valid := false
        label := Vector.replicate 8 32#8
        kind := .discrete
        inputsExpected := 1
        terms := []
        matrix := none
        useCount := 0 } ∧
    s.links[k] = {
        loaded := false
        enabled := false
        trigger := .command
        owner := none
        action := .notice 0#8
        target := 0
        mode := .once
        held := false }) ∧
  (∀ (i : Fin 8) (c : Fin 16) (name : BankName), s.eq[i][c].bank name =
    ⟨Vector.replicate 31 0, Vector.replicate 8 ⟨.none, 0, 0, 0⟩, .flat, 0⟩) ∧
  (∀ m : Fin 48, s.monitors[m] = {
      loaded := false
      enabled := false
      state := .off
      mark := none
      prev := none
      tripped := false
      raiseCount := 0
      content := {
        screen := 0
        point := .sum
        measure := .peak
        condition := .above
        a := 0
        b := 0
        partner := none
        holdMs := 0
        releaseMs := 0
        latch := false
        watch := ⟨false, false, false⟩
        action := .none
        notify := false } }) ∧
  (∀ level : Bool, powerOnLine level = {
      mode := .input
      polarity := .activeHigh
      filter := .ms2
      owner := none
      statusScreen := 0
      statusSet := ⟨true, false, false, false, false⟩
      alarmMonitor := 0
      latch := false
      filtered := some level
      train := none
      external := level
      since := 0#32 }) ∧
  (∀ l : Fin 16, s.lines[l] = powerOnLine false) ∧
  (∀ k : Fin 4, s.curves[k] = ⟨false, 0, 30, Vector.replicate 31 0, 1⟩) ∧
  s.run = {
    present := false
    screen := 0
    curve := 0
    mode := .measureOnly
    passesMax := 1
    settleMs := 100
    dwellMs := 500
    testLevel := -120
    fromFlat := false
    channels := []
    position := 0
    pass := 0
    engine := .idle
    phaseStart := 0#32
    outcome := .aborted .reset
    acc := ⟨Vector.replicate 31 0, 0, 0, false, []⟩
    results := [] } ∧
  s.house = {
    set := ⟨false, false, false, false, false⟩
    lineInput := true
    lineOutput := false
    goInput := true
    goLevel := false
    drive := false
    hstopOthers := false
    hstopSensed := false
    hstopSince := 0#32
    goPulse := none
    goOthers := false
    goSensed := false
    goSince := 0#32 } ∧
  ∀ (straps : Fin 8) (hstop go : Bool) (lines : Vector BoothLine 16),
    State.powerOn straps hstop go lines = { s with
      unit := straps
      house := { s.house with
        set := ⟨hstop, false, false, false, false⟩
        hstopOthers := hstop
        hstopSensed := hstop
        goOthers := go
        goSensed := go }
      lines := lines
      lastChosen := .forwardBuffer
      aOut := none }

/-! ### Invariants -/

/-- Every step keeps the queues within their capacities, and the kinds that cannot be masked enabled (R8, R9, R10,
R136, R177, R178). -/
def Obligations.StepsKeepTheCapacities : Prop :=
  StepKeeps State.queuesWithinCapacity ∧ StepKeeps State.maskKeepsItsKinds

/-- Every step leaves no frame waiting at an idle lane (R11, R13). -/
def Obligations.StepsLeaveNoLaneWaiting : Prop := StepKeeps State.lanesNeverWait

/-- An enabled monitor is SUSPENDED exactly when its screen's state is outside its watch set (R108), and the MONITOR
causes, ceilings and effective targets follow the monitors (R41, R44), after every step. -/
def Obligations.StepsKeepMonitorsAndCauses : Prop :=
  StepKeeps State.monitorsFollowWatchSets ∧
  StepKeeps fun s => s.monitorsFollowWatchSets ∧ s.causesFollowTheMonitors

/-- The Alignment Engine is IDLE exactly when no screen is in ALIGN, after every step (R78). -/
def Obligations.StepsKeepTheEngineToItsScreen : Prop := StepKeeps State.engineHoldsItsScreen

/-- The use counts are true after every step (R51). -/
def Obligations.StepsKeepTheUseCountsTrue : Prop := StepKeeps State.useCountsAreTrue

/-- The cue cursors stand where R125 requires after every step. -/
def Obligations.StepsKeepTheCursors : Prop := StepKeeps State.cursorsStandRight

/-- The drive of HSTOP, LINE and BOOTH_INPUT hold under their conditions (R143, R145), and the held list is empty
whenever the house is stopped (R136), after every step. -/
def Obligations.StepsKeepTheHouseStop : Prop :=
  StepKeeps State.houseIsSettled ∧ StepKeeps State.nothingIsHeldInAStop

/-- The machine right after reset meets every one of these invariants. -/
def Obligations.ResetMeetsEveryInvariant : Prop :=
  let s := State.reset
  s.queuesWithinCapacity ∧ s.lanesNeverWait ∧ s.maskKeepsItsKinds ∧ s.monitorsFollowWatchSets ∧
  s.causesFollowTheMonitors ∧ s.engineHoldsItsScreen ∧ s.useCountsAreTrue ∧ s.cursorsStandRight ∧
  s.nothingIsHeldInAStop ∧ s.houseIsSettled
end

