-- ==== Sys2Proof/Laws/Tables.lean ====
section
/-!
SUPPORT. What the table helpers do, entry by entry: `modifyAt` changes one entry, `mapAt` changes each by its own
function, `indexes` lists every index once, and `elapsed` counts milliseconds.
-/

namespace Sys2Proof.Machine

/-- The changed entry. -/
theorem modifyAt_same {α : Type} {n : Nat} (v : Vector α n) (i : Fin n) (f : α → α) :
    (modifyAt v i f)[i] = f v[i] := by
  simp [modifyAt]

/-- The changed entry, at its number. -/
@[simp] theorem modifyAt_same_val {α : Type} {n : Nat} (v : Vector α n) (i : Fin n) (f : α → α) :
    (modifyAt v i f)[i.val] = f v[i.val] := by
  simp [modifyAt]

/-- Every other entry stands. -/
theorem modifyAt_other {α : Type} {n : Nat} (v : Vector α n) {i j : Fin n} (f : α → α) (h : j ≠ i) :
    (modifyAt v i f)[j] = v[j] := by
  have h' : (i : Nat) ≠ (j : Nat) := fun e => h (Fin.ext e.symm)
  simp [modifyAt, h']

/-- Both cases at once. -/
theorem modifyAt_get {α : Type} {n : Nat} (v : Vector α n) (i j : Fin n) (f : α → α) :
    (modifyAt v i f)[j] = if j = i then f v[j] else v[j] := by
  by_cases h : j = i
  · subst h; rw [if_pos rfl, modifyAt_same]
  · rw [if_neg h, modifyAt_other v f h]

/-- A fold of updates at the entries of a list without repeats. -/
theorem foldl_modifyAt_get {α : Type} {n : Nat} (f : Fin n → α → α) (l : List (Fin n)) (hl : l.Nodup)
    (v : Vector α n) (j : Fin n) :
    (l.foldl (fun w i => modifyAt w i (f i)) v)[j] = if j ∈ l then f j v[j] else v[j] := by
  induction l generalizing v with
  | nil => simp
  | cons i rest ih =>
    have hr := (List.nodup_cons.mp hl)
    rw [List.foldl_cons, ih hr.2]
    by_cases hji : j = i
    · subst hji; rw [if_neg hr.1, if_pos (List.mem_cons_self ..), modifyAt_same]
    · rw [modifyAt_other v (f i) hji]; simp [hji]

/-- Every entry is changed by its own function. -/
theorem mapAt_get {α : Type} {n : Nat} (f : Fin n → α → α) (v : Vector α n) (j : Fin n) :
    (mapAt f v)[j] = f j v[j] := by
  unfold mapAt
  rw [foldl_modifyAt_get f _ (List.nodup_finRange n)]
  simp

/-- Every entry, at its number. -/
@[simp] theorem mapAt_get_val {α : Type} {n : Nat} (f : Fin n → α → α) (v : Vector α n) (j : Nat) (h : j < n) :
    (mapAt f v)[j] = f ⟨j, h⟩ v[j] := mapAt_get f v ⟨j, h⟩

/-- Two tables with the same entries are the same table. -/
theorem table_ext {α : Type} {n : Nat} {v w : Vector α n} (h : ∀ i : Fin n, v[i] = w[i]) : v = w := by
  apply Vector.ext
  intro i hi
  exact h ⟨i, hi⟩

/-- Changing every entry to itself changes nothing. -/
theorem mapAt_eq_self {α : Type} {n : Nat} {f : Fin n → α → α} {v : Vector α n} (h : ∀ i : Fin n, f i v[i] = v[i]) :
    mapAt f v = v :=
  table_ext fun i => by rw [mapAt_get, h]

/-- Every index is listed. -/
@[simp] theorem mem_indexes {n : Nat} (i : Fin n) : i ∈ indexes n := List.mem_finRange i

/-- An index read back from its number. -/
@[simp] theorem toIndex_val {n : Nat} (i : Fin n) : toIndex n i.val = some i := by simp [toIndex]

/-- A number that names no entry. -/
theorem toIndex_eq_none {n k : Nat} (h : n ≤ k) : toIndex n k = none := by
  simp [toIndex, Nat.not_lt.mpr h]

/-- What a number names is the entry of that number. -/
theorem toIndex_eq_some {n k : Nat} {i : Fin n} : toIndex n k = some i ↔ k = i.val := by
  unfold toIndex
  split
  · rw [Option.some.injEq, Fin.ext_iff]
  · rename_i h
    simp only [reduceCtorEq, false_iff]
    intro e
    exact h (e ▸ i.isLt)

/-- No time has passed at the start itself. -/
@[simp] theorem elapsed_self (t : Word) : elapsed t t = 0 := by simp [elapsed]

/-- A counter never passes its top. -/
theorem riseTo_le {top n : Nat} (h : n ≤ top) : riseTo top n ≤ top := by
  unfold riseTo; split <;> omega

/-- The first failure of a list of checks is one that fails. -/
theorem firstFailure_eq_none {α : Type} {l : List (Bool × α)} : firstFailure l = none ↔ ∀ x ∈ l, x.1 = false := by
  induction l with
  | nil => simp [firstFailure]
  | cons x rest ih =>
    obtain ⟨b, r⟩ := x
    cases b <;> simp [firstFailure, ih]

end Sys2Proof.Machine
end

