-- ==== Sys2Proof/Laws/Audio.lean ====
section
/-!
SUPPORT. What the shared operations of the audio chain give: quotients and crossfades, the delay line, the cascade of an
EQ bank and its responses, the limits of a sample, the steering, and the dwell accumulator.
-/

namespace Sys2Proof.Machine

/-! ### Quotients, crossfades and limits -/

/-- A quotient that is whole. -/
theorem quotient_mul_self (x : Int) {d : Nat} (h : 0 < d) : quotient (x * d) d = x := by
  unfold quotient
  simp [Int.mul_ediv_cancel _ (show (d : Int) ≠ 0 by omega)]

/-- A quotient is a whole number next to the exact one. -/
theorem quotient_near (x : Int) {d : Nat} (h : 0 < d) : |quotient x d * d - x| < d := by
  have split_eq := Int.emod_add_mul_ediv x d
  have low := Int.emod_nonneg x (show (d : Int) ≠ 0 by omega)
  have high := Int.emod_lt_of_pos x (show (0 : Int) < d by omega)
  unfold quotient
  simp only
  rw [abs_lt]
  split
  · constructor <;> linarith
  · rename_i inexact
    have positive : 0 < x % d := lt_of_le_of_ne low fun z => inexact (by rw [mul_comm]; linarith)
    split <;> constructor <;> nlinarith

/-- A crossfade begins with the outgoing signal. -/
theorem crossfade_start {d : Nat} {incoming outgoing : List Int} (h : 0 < d)
    (same : incoming.length = outgoing.length) : crossfade 0 d incoming outgoing = outgoing := by
  apply List.ext_getElem
  · simp [crossfade, same]
  · intro k _ _; simp [crossfade, quotient_mul_self _ h]

/-- A crossfade that has run its time gives the incoming signal. -/
theorem crossfade_end {t d : Nat} {incoming outgoing : List Int} (h : 0 < d) (done : d ≤ t)
    (same : incoming.length = outgoing.length) : crossfade t d incoming outgoing = incoming := by
  apply List.ext_getElem
  · simp [crossfade, same]
  · intro k _ _; simp [crossfade, done, quotient_mul_self _ h]

/-- The limits of a sample, as a maximum of minimums. -/
theorem limitSample_eq (v : Int) : limitSample v = max (-8388608) (min 8388607 v) := by
  unfold limitSample; split <;> (try split) <;> omega

/-! ### The delay line (R31, R32) -/

/-- The sample that a delay line gives at a period: the one `delay` periods back, silence where it holds none. -/
theorem readLine_get {line xs : List Int} {delay k : Nat} (whole : xs.length = 32) (inside : k < 32) :
    (readLine (extendLine line xs) delay)[k]? = some
      (if delay ≤ line.length + k then (line.reverse ++ xs).getD (line.length + k - delay) 0 else 0) := by
  simp only [readLine, extendLine, Config.blockPeriods]
  rw [List.getElem?_reverse (by simpa using inside)]
  simp only [List.length_map, List.length_range, List.getElem?_map]
  rw [List.getElem?_range (by omega)]
  simp only [Option.map_some, Option.some.injEq]
  rw [show xs.reverse ++ line = (line.reverse ++ xs).reverse by simp]
  split
  · rw [List.getD_eq_getElem?_getD, List.getD_eq_getElem?_getD, List.getElem?_reverse (by simp; omega)]
    congr 2
    simp; omega
  · rw [List.getD_eq_getElem?_getD, List.getElem?_eq_none (by simp; omega)]; rfl

/-! ### The cascade of an EQ bank (R64, R65) -/

/-- The sections that add nothing. -/
theorem EqSection.isFlat_iff (x : EqSection) :
    x.isFlat = true ↔
      x.type = .none ∨ (x.gain = 0 ∧ (x.type = .peak ∨ x.type = .lowShelf ∨ x.type = .highShelf)) := by
  unfold EqSection.isFlat; cases x.type <;> simp

/-- A bank is a cascade of nine stages. -/
theorem EqBank.stages_length (b : EqBank) : b.stages.length = 9 := by simp [EqBank.stages]

/-- Stages without filters pass their channel unchanged. -/
theorem passStages_unchanged {stages : List (Option Config.EqFilter)} (none : ∀ x ∈ stages, x = none)
    (memories : List (List Int)) (xs : List Int) : (passStages stages memories xs).1 = xs := by
  induction stages generalizing memories with
  | nil => rfl
  | cons x rest ih =>
    obtain rfl : x = Option.none := none x (by simp)
    exact ih (fun y hy => none y (by simp [hy])) _

/-- Stages at rest pass silence as silence and stay at rest, where each filter does. -/
theorem passStages_rest {stages : List (Option Config.EqFilter)} {n : Nat}
    (rest : ∀ f, some f ∈ stages → f [] (List.replicate n 0) = (List.replicate n 0, [])) :
    passStages stages (List.replicate stages.length []) (List.replicate n 0) =
      (List.replicate n 0, List.replicate stages.length []) := by
  induction stages with
  | nil => rfl
  | cons x more ih =>
    have ih := ih fun f hf => rest f (by simp [hf])
    cases x with
    | none => simp only [passStages, List.length_cons, List.replicate_succ, List.tail_cons, ih]
    | some f =>
      simp only [passStages, List.length_cons, List.replicate_succ, List.tail_cons, List.headD_cons, rest f (by simp),
        ih]

/-! ### Responses (R64, R65) -/

/-- Half a level step on either side, as powers of ten. -/
theorem amplitude_half_step {low high r : ℝ} :
    Config.amplitude low * Config.amplitude (-1 / 2) ≤ r ∧ r ≤ Config.amplitude high * Config.amplitude (1 / 2) ↔
      (10 : ℝ) ^ ((low - 1 / 2) / 40) ≤ r ∧ r ≤ (10 : ℝ) ^ ((high + 1 / 2) / 40) := by
  unfold Config.amplitude
  rw [← Real.rpow_add (by norm_num), ← Real.rpow_add (by norm_num)]
  ring_nf

/-- A gain of no level steps leaves the amplitude. -/
@[simp] theorem amplitude_zero : Config.amplitude 0 = 1 := by simp [Config.amplitude]

/-- Any other gain changes it. -/
theorem amplitude_ne_one {gain : Int} (moved : gain ≠ 0) : Config.amplitude gain ≠ 1 := fun same => moved (by
  have := congrArg (Real.logb 10) same
  rw [Config.amplitude, Real.logb_rpow (by norm_num) (by norm_num)] at this
  simpa using this)

/-! ### Steering (R60, R61, R63) -/

/-- The steering moves nothing else of its screen. -/
theorem Screen.steer_frame (x : Screen) (formats : Vector FormatEntry 32) :
    x.steer formats = { x with steering := (x.steer formats).steering } := by
  unfold Screen.steer; split <;> (try split) <;> rfl

/-- `show_peak_long` moves alone. -/
theorem Screen.takeShowPeak_frame (x : Screen) :
    x.takeShowPeak = { x with showPeakLong := x.takeShowPeak.showPeakLong } := by
  unfold Screen.takeShowPeak; split <;> rfl

/-- Under an active format with a matrix part the steering is updated by the differences of the readings. -/
theorem Screen.steer_matrix {x : Screen} {formats : Vector FormatEntry 32} {k : Fin 32} {m : MatrixPart}
    (active : x.activeFormat = some k) (part : formats[k].matrix = some m) :
    (x.steer formats).steering = x.steering.update m (clampDominance (x.inputs[0].short - x.inputs[1].short))
      (clampDominance (x.steerSum.short - x.steerDiff.short)) := by
  unfold Screen.steer; simp only [active, part]

/-- Under any other active format, or none, the steering stands. -/
theorem Screen.steer_stands {x : Screen} {formats : Vector FormatEntry 32}
    (none : ∀ k : Fin 32, x.activeFormat = some k → formats[k].matrix = Option.none) : x.steer formats = x := by
  unfold Screen.steer
  split
  · rfl
  · rename_i k active; simp only [none k active]

/-- Two channels of a block taken period by period. -/
theorem channelSamples_zip (periods : List (List Int)) (a b : Nat) (f : Int → Int → Nat) :
    (channelSamples periods a).zipWith f (channelSamples periods b) = periods.map fun p => f (p.getD a 0) (p.getD b 0) := by
  unfold channelSamples; rw [List.zipWith_map, List.zipWith_self]

/-! What the meters and the stages of a block leave of their screen, field by field. -/

section Fields
variable (x : Screen) (periods points : List (List Int)) (passed : List PassedChannel)

@[simp] theorem Screen.setStages_activeFormat : (x.setStages passed).activeFormat = x.activeFormat := by
  unfold Screen.setStages; dsimp only
@[simp] theorem Screen.setStages_steering : (x.setStages passed).steering = x.steering := by
  unfold Screen.setStages; dsimp only
@[simp] theorem Screen.setStages_inputs : (x.setStages passed).inputs = x.inputs := by
  unfold Screen.setStages; dsimp only
@[simp] theorem Screen.setStages_steerSum : (x.setStages passed).steerSum = x.steerSum := by
  unfold Screen.setStages; dsimp only
@[simp] theorem Screen.setStages_steerDiff : (x.setStages passed).steerDiff = x.steerDiff := by
  unfold Screen.setStages; dsimp only
@[simp] theorem Screen.meterBlock_activeFormat : (x.meterBlock periods points).activeFormat = x.activeFormat := by
  unfold Screen.meterBlock; dsimp only
@[simp] theorem Screen.meterBlock_steering : (x.meterBlock periods points).steering = x.steering := by
  unfold Screen.meterBlock; dsimp only
theorem Screen.meterBlock_steerSum :
    (x.meterBlock periods points).steerSum =
      x.steerSum.take (4 * fullSquare) (periods.map fun p => square (p.getD 0 0 + p.getD 1 0)) := by
  unfold Screen.meterBlock; dsimp only; rw [channelSamples_zip periods 0 1 fun u v => square (u + v)]
theorem Screen.meterBlock_steerDiff :
    (x.meterBlock periods points).steerDiff =
      x.steerDiff.take (4 * fullSquare) (periods.map fun p => square (p.getD 0 0 - p.getD 1 0)) := by
  unfold Screen.meterBlock; dsimp only; rw [channelSamples_zip periods 0 1 fun u v => square (u - v)]

end Fields

/-- `show_peak_long` and the steering leave the meters and the active format. -/
theorem Screen.passed_meters (x : Screen) (formats : Vector FormatEntry 32) (periods : List (List Int))
    (channels : List PassedChannel) :
    let t := x.passed formats periods channels
    let metered := (x.setStages channels).meterBlock periods (channels.map (·.samples))
    t.inputs = metered.inputs ∧ t.steerSum = metered.steerSum ∧ t.steerDiff = metered.steerDiff := by
  dsimp only
  unfold Screen.passed
  generalize (x.setStages channels).meterBlock periods (channels.map (·.samples)) = y
  rw [y.takeShowPeak.steer_frame, y.takeShowPeak_frame]
  exact ⟨rfl, rfl, rfl⟩

/-- A block moves the steering meters by the half sum and the half difference of inputs 0 and 1 (R60). -/
theorem Screen.passed_steerMeters (x : Screen) (formats : Vector FormatEntry 32) (periods : List (List Int))
    (channels : List PassedChannel) :
    let t := x.passed formats periods channels
    t.steerSum = x.steerSum.take (4 * fullSquare) (periods.map fun p => square (p.getD 0 0 + p.getD 1 0)) ∧
    t.steerDiff = x.steerDiff.take (4 * fullSquare) (periods.map fun p => square (p.getD 0 0 - p.getD 1 0)) := by
  obtain ⟨_, sum, difference⟩ := x.passed_meters formats periods channels
  dsimp only at sum difference ⊢
  rw [sum, difference, Screen.meterBlock_steerSum, Screen.meterBlock_steerDiff, Screen.setStages_steerSum,
    Screen.setStages_steerDiff]
  exact ⟨rfl, rfl⟩

/-- A block moves the steering by the readings that it has left (R60, R61). -/
theorem Screen.passed_steering {x : Screen} {formats : Vector FormatEntry 32} {k : Fin 32} {m : MatrixPart}
    (active : x.activeFormat = some k) (part : formats[k].matrix = some m) (periods : List (List Int))
    (channels : List PassedChannel) :
    let t := x.passed formats periods channels
    t.steering = x.steering.update m (clampDominance (t.inputs[0].short - t.inputs[1].short))
      (clampDominance (t.steerSum.short - t.steerDiff.short)) := by
  have before : ((x.setStages channels).meterBlock periods (channels.map (·.samples))).activeFormat = some k := by
    rw [Screen.meterBlock_activeFormat, Screen.setStages_activeFormat, active]
  have steering : ((x.setStages channels).meterBlock periods (channels.map (·.samples))).steering = x.steering := by
    rw [Screen.meterBlock_steering, Screen.setStages_steering]
  dsimp only
  unfold Screen.passed
  generalize (x.setStages channels).meterBlock periods (channels.map (·.samples)) = y at before steering
  rw [← steering, y.takeShowPeak_frame]
  generalize y.takeShowPeak.showPeakLong = peak
  rw [Screen.steer_matrix (x := { y with showPeakLong := peak }) before part, Screen.steer_frame]

/-- A block leaves the steering where no active format has a matrix part (R63). -/
theorem Screen.passed_stands {x : Screen} {formats : Vector FormatEntry 32}
    (none : ∀ k : Fin 32, x.activeFormat = some k → formats[k].matrix = Option.none) (periods : List (List Int))
    (channels : List PassedChannel) : (x.passed formats periods channels).steering = x.steering := by
  have before : ((x.setStages channels).meterBlock periods (channels.map (·.samples))).activeFormat = x.activeFormat := by
    rw [Screen.meterBlock_activeFormat, Screen.setStages_activeFormat]
  have steering : ((x.setStages channels).meterBlock periods (channels.map (·.samples))).steering = x.steering := by
    rw [Screen.meterBlock_steering, Screen.setStages_steering]
  unfold Screen.passed
  generalize (x.setStages channels).meterBlock periods (channels.map (·.samples)) = y at before steering
  rw [← steering, Screen.steer_stands, y.takeShowPeak_frame]
  rw [y.takeShowPeak_frame]
  exact fun k active => none k (before.symm.trans active)

/-! ### The chain as a whole -/

/-- Gathering changes the run record alone. -/
theorem gatherDwell_frame (i : Fin 8) (periods : List (List Int)) (s : State) :
    gatherDwell i periods s = { s with run := (gatherDwell i periods s).run } := by
  unfold gatherDwell; split <;> rfl

/-- The chain changes the screens, the run record and the count of noise blocks alone. -/
theorem passChain_frame (i : Fin 8) (f : Frame) (s : State) :
    (passChain i f s).1 =
      { s with
        screens := (passChain i f s).1.screens
        run := (passChain i f s).1.run
        fresh := (passChain i f s).1.fresh } := by
  unfold passChain; dsimp only; rw [gatherDwell_frame]; rfl

/-- The screen whose block has passed the chain. -/
theorem passChain_screen (i : Fin 8) (f : Frame) (s : State) :
    (passChain i f s).1.screens[i] =
      s.screens[i].passed s.formats (blockPeriodsOf f)
        (s.screens[i].inUse.map (meterPoint s i s.screens[i] (blockPeriodsOf f))) := by
  unfold passChain; dsimp only; rw [gatherDwell_frame]; exact modifyAt_same _ _ _

/-! ### The dwell accumulator (R86) -/

@[simp] theorem DwellAcc.take_total (a : DwellAcc) (xs : List Int) :
    (a.take xs).total = a.total + (xs.map square).sum := rfl
@[simp] theorem DwellAcc.take_samples (a : DwellAcc) (xs : List Int) :
    (a.take xs).samples = a.samples + xs.length := rfl
@[simp] theorem DwellAcc.take_gathered (a : DwellAcc) (xs : List Int) :
    (a.take xs).gathered = a.gathered ++ xs := rfl
theorem DwellAcc.take_fullScale (a : DwellAcc) (xs : List Int) :
    (a.take xs).fullScale = (a.fullScale || xs.any fun v => v == 8388607 || v == -8388608) := rfl
theorem DwellAcc.take_bands (a : DwellAcc) (xs : List Int) (b : Fin 31) :
    (a.take xs).bands[b] = a.bands[b] + bandShare b.val a.gathered xs := mapAt_get _ _ _

/-- A band's energy after a block is that of all the samples, where it was that of the earlier ones. -/
theorem DwellAcc.take_bands_of {a : DwellAcc} {xs : List Int} {b : Fin 31}
    (before : a.bands[b] = Config.gear.energyIn b.val a.gathered) :
    (a.take xs).bands[b] = Config.gear.energyIn b.val (a.gathered ++ xs) := by
  rw [DwellAcc.take_bands, before, bandShare]
  have := Config.gear.grows b.val a.gathered xs
  omega

/-- Samples that are not there hold no energy in any band. -/
theorem energyIn_nil (b : Nat) : Config.gear.energyIn b [] = 0 := Nat.le_zero.mp (Config.gear.share b [])

end Sys2Proof.Machine
end

