-- ==== Sys2Proof/Laws/Bytes.lean ====
section
/-!
SUPPORT. What a field of a payload reads back: numbers, levels, flags and indexes, written by the byte layouts and read by
the operand forms (chapter 11).
-/

namespace Sys2Proof.Machine

/-- A number below 256 in one byte. -/
theorem toNat_ofNat_byte {n : Nat} (h : n < 256) : (BitVec.ofNat 8 n).toNat = n := by
  rw [BitVec.toNat_ofNat]; exact Nat.mod_eq_of_lt h

/-- A number below 65536 in two bytes. -/
theorem nat2_bytes2 {n : Nat} (h : n < 65536) : nat2 (BitVec.ofNat 8 (n / 256)) (BitVec.ofNat 8 n) = n := by
  unfold nat2
  rw [BitVec.toNat_ofNat, BitVec.toNat_ofNat]
  omega

/-- A word in four bytes. -/
theorem nat4_bytes4 (w : Word) :
    nat4 (BitVec.ofNat 8 (w.toNat / 65536 / 256)) (BitVec.ofNat 8 (w.toNat / 65536))
      (BitVec.ofNat 8 (w.toNat % 65536 / 256)) (BitVec.ofNat 8 (w.toNat % 65536)) = w.toNat := by
  have hw := w.isLt
  unfold nat4 nat2
  simp only [BitVec.toNat_ofNat]
  omega

/-- A flag reads back. -/
@[simp] theorem readFlag_flagByte (b : Bool) : readFlag (flagByte b) = some b := by cases b <;> rfl

/-- An index of a table of at most 256 entries reads back. -/
theorem readIndex_ofNat {n : Nat} (hn : n ≤ 256) (i : Fin n) : readIndex n (BitVec.ofNat 8 i.val) = some i := by
  unfold readIndex
  rw [toNat_ofNat_byte (Nat.lt_of_lt_of_le i.isLt hn), toIndex_val]

/-- A byte at or beyond the table's end names no entry. -/
theorem readIndex_eq_none {n : Nat} {b : Byte} (h : n ≤ b.toNat) : readIndex n b = none := toIndex_eq_none h

/-- An index or none, of a table of fewer than 256 entries, reads back. -/
theorem readOptional_indexByte {n : Nat} (hn : n < 256) (i : Option (Fin n)) : readOptional n (indexByte i) = some i := by
  cases i with
  | none => rfl
  | some k =>
    have hk : k.val < 255 := by omega
    have hb : BitVec.ofNat 8 k.val ≠ 255#8 := by
      intro e
      have := congrArg BitVec.toNat e
      rw [toNat_ofNat_byte (by omega)] at this
      simp at this
      omega
    show readOptional n (BitVec.ofNat 8 k.val) = _
    unfold readOptional
    rw [if_neg hb, readIndex_ofNat (Nat.le_of_lt hn)]
    rfl

/-- A signed number in one byte reads back. -/
theorem toInt_ofInt_byte {x : Int} (h : -128 ≤ x) (h' : x < 128) : (BitVec.ofInt 8 x).toInt = x := by
  rw [BitVec.toInt_ofInt]
  exact Int.bmod_eq_of_le (by omega) (by omega)

/-- A signed number in two bytes reads back. -/
theorem signedPair_signed2 {x : Int} (h : -32768 ≤ x) (h' : x < 32768) :
    signedPair (BitVec.ofNat 8 ((BitVec.ofInt 16 x).toNat / 256)) (BitVec.ofNat 8 (BitVec.ofInt 16 x).toNat) = x := by
  unfold signedPair
  rw [nat2_bytes2 (BitVec.ofInt 16 x).isLt, BitVec.ofNat_toNat, BitVec.setWidth_eq, BitVec.toInt_ofInt]
  exact Int.bmod_eq_of_le (by omega) (by omega)

/-- A level within its range reads as itself. -/
theorem readLevel_eq_some {low high x : Int} (h : low ≤ x) (h' : x ≤ high) : readLevel low high x = some x := by
  simp [readLevel, h, h']

/-- A number within its range reads as itself. -/
theorem readRange_eq_some {low high x : Nat} (h : low ≤ x) (h' : x ≤ high) : readRange low high x = some x := by
  simp [readRange, h, h']

/-- A number outside its range does not read. -/
theorem readRange_eq_none {low high x : Nat} : readRange low high x = none ↔ x < low ∨ high < x := by
  unfold readRange
  split
  · simp; omega
  · simp; omega

/-- A level outside its range does not read. -/
theorem readLevel_eq_none {low high x : Int} : readLevel low high x = none ↔ x < low ∨ high < x := by
  unfold readLevel
  split
  · simp; omega
  · simp; omega

/-- A list with a vector's length is that vector. -/
theorem toVector_toList {α : Type} {n : Nat} (v : Vector α n) : toVector n v.toList = some v := by
  unfold toVector
  rw [dif_pos (by simp)]
  obtain ⟨a, h⟩ := v
  rfl

/-- Options that all hold a value. -/
theorem allSome_map_some {α : Type} (l : List α) : allSome (l.map some) = some l := by
  induction l with
  | nil => rfl
  | cons x rest ih => simp [allSome, ih]

end Sys2Proof.Machine
end

