-- ==== Sys2Proof/Laws/Commands.lean ====
section
/-!
SUPPORT. What an execution answers, class by class (R163, R164, R166, R167), so that no proof about a command
unfolds the shared form.
-/

namespace Sys2Proof.Machine

/-- A command row where the Management Unit can take a command: the reply is appended to what the command left. -/
theorem commandRow_of_canExecute {body : Command → State → State × Answer} {c : Command} {s : State}
    (h : s.canExecute = true) :
    commandRow body c s =
      appendReply ⟨c.tag, c.code, (body c s).2.result, (body c s).2.mask, (body c s).2.payload⟩ (body c s).1 := by
  simp [commandRow, h, execute, executeThen]

/-- A command row elsewhere changes nothing. -/
theorem commandRow_of_not_canExecute {body : Command → State → State × Answer} {c : Command} {s : State}
    (h : s.canExecute = false) : commandRow body c s = s := by
  simp [commandRow, h]

/-- A command of the unit class that a check refuses. -/
theorem unitCommand_refused {check : State → Option Result} {effect : State → State × List Byte} {c : Command}
    {s : State} {why : Result} (hs : c.selector = 14#8) (hc : check s = some why) :
    unitCommand true check effect c s = (s, ⟨why, 0#8, []⟩) := by
  simp [unitCommand, genericCheck, firstFailure, SelectorClass.accepts, hs, applyUnit, hc]

/-- A command of the unit class that its checks accept. -/
theorem unitCommand_accepted {check : State → Option Result} {effect : State → State × List Byte} {c : Command}
    {s : State} (hs : c.selector = 14#8) (hc : check s = none) :
    unitCommand true check effect c s = ((effect s).1, ⟨.ok, 0#8, (effect s).2⟩) := by
  simp [unitCommand, genericCheck, firstFailure, SelectorClass.accepts, hs, applyUnit, hc]

/-- A payload of another length is refused before anything else (R163, R165). -/
theorem genericCheck_badLength (k : SelectorClass) (c : Command) : genericCheck k false c = some .badLength := rfl

/-- A selector of another class is refused next (R163, R164). -/
theorem genericCheck_badSelector {k : SelectorClass} {c : Command} (h : k.accepts c.selector = false) :
    genericCheck k true c = some .badValue := by
  simp [genericCheck, firstFailure, h]

/-- A command that suits its class passes the generic checks. -/
theorem genericCheck_none {k : SelectorClass} {c : Command} (h : k.accepts c.selector = true) :
    genericCheck k true c = none := by
  simp [genericCheck, firstFailure, h]

/-- The selectors 0 to 7 suit the screen classes. -/
theorem accepts_screen (i : Fin 8) :
    SelectorClass.screen.accepts (BitVec.ofNat 8 i.val) = true ∧
      SelectorClass.oneScreen.accepts (BitVec.ofNat 8 i.val) = true := by
  revert i; decide

/-- A command of the screen class that its one screen accepts. -/
theorem screenCommand_accepted {size : Nat} {check : Fin 8 → State → Option Result}
    {effect : Fin 8 → State → State × List Byte} {c : Command} {s : State} {i : Fin 8}
    (hs : c.selector = BitVec.ofNat 8 i.val) (hc : check i s = none) :
    screenCommand true size check effect c s = ((effect i s).1, ⟨.ok, 0#8, (effect i s).2⟩) := by
  unfold screenCommand
  rw [genericCheck_none (by rw [hs]; exact (accepts_screen i).1)]
  simp only [hs, toNat_ofNat_byte (Nat.lt_of_lt_of_le i.isLt (by decide)), toIndex_val, applyScreen, hc]

/-- A command of the screen class that its one screen refuses. -/
theorem screenCommand_refused {size : Nat} {check : Fin 8 → State → Option Result}
    {effect : Fin 8 → State → State × List Byte} {c : Command} {s : State} {i : Fin 8} {why : Result}
    (hs : c.selector = BitVec.ofNat 8 i.val) (hc : check i s = some why) :
    screenCommand true size check effect c s = (s, ⟨why, screenFlag i, []⟩) := by
  unfold screenCommand
  rw [genericCheck_none (by rw [hs]; exact (accepts_screen i).1)]
  simp only [hs, toNat_ofNat_byte (Nat.lt_of_lt_of_le i.isLt (by decide)), toIndex_val, applyScreen, hc]

/-- A command of the one-screen class that its checks accept. -/
theorem oneScreenCommand_accepted {check : Fin 8 → State → Option Result} {effect : Fin 8 → State → State}
    {c : Command} {s : State} {i : Fin 8} (hs : c.selector = BitVec.ofNat 8 i.val) (hc : check i s = none) :
    oneScreenCommand true check effect c s = (effect i s, ⟨.accepted, 0#8, []⟩) := by
  unfold oneScreenCommand
  rw [genericCheck_none (by rw [hs]; exact (accepts_screen i).2)]
  simp only [hs, toNat_ofNat_byte (Nat.lt_of_lt_of_le i.isLt (by decide)), toIndex_val, applyScreen, hc]

/-- A command of the one-screen class that a check refuses. -/
theorem oneScreenCommand_refused {check : Fin 8 → State → Option Result} {effect : Fin 8 → State → State}
    {c : Command} {s : State} {i : Fin 8} {why : Result} (hs : c.selector = BitVec.ofNat 8 i.val)
    (hc : check i s = some why) :
    oneScreenCommand true check effect c s = (s, ⟨why, screenFlag i, []⟩) := by
  unfold oneScreenCommand
  rw [genericCheck_none (by rw [hs]; exact (accepts_screen i).2)]
  simp only [hs, toNat_ofNat_byte (Nat.lt_of_lt_of_le i.isLt (by decide)), toIndex_val, applyScreen, hc]

/-- Applied to a list of screens, each stands for one part of the reply. -/
theorem applyList_length (size : Nat) (check : Fin 8 → State → Option Result)
    (effect : Fin 8 → State → State × List Byte) (l : List (Fin 8)) (s : State) :
    (applyList size check effect l s).2.length = l.length := by
  induction l generalizing s with
  | nil => rfl
  | cons i rest ih =>
    unfold applyList
    split
    · simp [ih]
    · simp [ih]

end Sys2Proof.Machine
end

