-- ==== Sys2Proof/Laws/State.lean ====
section
/-!
SUPPORT. One lemma for each field and each update of one table entry: what the update writes reads back, and every other
field stands. All are true by rfl and tagged for simp.
-/

namespace Sys2Proof.Machine

variable (s : State)

/-! ### onScreen -/

@[simp] theorem State.onScreen_inReset (i : Fin 8) (f : Screen → Screen) : (s.onScreen i f).inReset = s.inReset := rfl
@[simp] theorem State.onScreen_unit (i : Fin 8) (f : Screen → Screen) : (s.onScreen i f).unit = s.unit := rfl
@[simp] theorem State.onScreen_intake (i : Fin 8) (f : Screen → Screen) : (s.onScreen i f).intake = s.intake := rfl
@[simp] theorem State.onScreen_replies (i : Fin 8) (f : Screen → Screen) : (s.onScreen i f).replies = s.replies := rfl
@[simp] theorem State.onScreen_forward (i : Fin 8) (f : Screen → Screen) : (s.onScreen i f).forward = s.forward := rfl
@[simp] theorem State.onScreen_lastChosen (i : Fin 8) (f : Screen → Screen) :
    (s.onScreen i f).lastChosen = s.lastChosen := rfl
@[simp] theorem State.onScreen_aOut (i : Fin 8) (f : Screen → Screen) : (s.onScreen i f).aOut = s.aOut := rfl
@[simp] theorem State.onScreen_bOutOrder (i : Fin 8) (f : Screen → Screen) :
    (s.onScreen i f).bOutOrder = s.bOutOrder := rfl
@[simp] theorem State.onScreen_bOut (i : Fin 8) (f : Screen → Screen) : (s.onScreen i f).bOut = s.bOut := rfl
@[simp] theorem State.onScreen_stats (i : Fin 8) (f : Screen → Screen) : (s.onScreen i f).stats = s.stats := rfl
@[simp] theorem State.onScreen_executing (i : Fin 8) (f : Screen → Screen) :
    (s.onScreen i f).executing = s.executing := rfl
@[simp] theorem State.onScreen_timeBase (i : Fin 8) (f : Screen → Screen) :
    (s.onScreen i f).timeBase = s.timeBase := rfl
@[simp] theorem State.onScreen_formats (i : Fin 8) (f : Screen → Screen) : (s.onScreen i f).formats = s.formats := rfl
@[simp] theorem State.onScreen_eq (i : Fin 8) (f : Screen → Screen) : (s.onScreen i f).eq = s.eq := rfl
@[simp] theorem State.onScreen_curves (i : Fin 8) (f : Screen → Screen) : (s.onScreen i f).curves = s.curves := rfl
@[simp] theorem State.onScreen_run (i : Fin 8) (f : Screen → Screen) : (s.onScreen i f).run = s.run := rfl
@[simp] theorem State.onScreen_monitors (i : Fin 8) (f : Screen → Screen) :
    (s.onScreen i f).monitors = s.monitors := rfl
@[simp] theorem State.onScreen_cueLists (i : Fin 8) (f : Screen → Screen) :
    (s.onScreen i f).cueLists = s.cueLists := rfl
@[simp] theorem State.onScreen_links (i : Fin 8) (f : Screen → Screen) : (s.onScreen i f).links = s.links := rfl
@[simp] theorem State.onScreen_timers (i : Fin 8) (f : Screen → Screen) : (s.onScreen i f).timers = s.timers := rfl
@[simp] theorem State.onScreen_held (i : Fin 8) (f : Screen → Screen) : (s.onScreen i f).held = s.held := rfl
@[simp] theorem State.onScreen_house (i : Fin 8) (f : Screen → Screen) : (s.onScreen i f).house = s.house := rfl
@[simp] theorem State.onScreen_lines (i : Fin 8) (f : Screen → Screen) : (s.onScreen i f).lines = s.lines := rfl
@[simp] theorem State.onScreen_notices (i : Fin 8) (f : Screen → Screen) : (s.onScreen i f).notices = s.notices := rfl
@[simp] theorem State.onScreen_lostCount (i : Fin 8) (f : Screen → Screen) :
    (s.onScreen i f).lostCount = s.lostCount := rfl
@[simp] theorem State.onScreen_slot (i : Fin 8) (f : Screen → Screen) : (s.onScreen i f).slot = s.slot := rfl
@[simp] theorem State.onScreen_mask (i : Fin 8) (f : Screen → Screen) : (s.onScreen i f).mask = s.mask := rfl
@[simp] theorem State.onScreen_fresh (i : Fin 8) (f : Screen → Screen) : (s.onScreen i f).fresh = s.fresh := rfl
@[simp] theorem State.onScreen_pending (i : Fin 8) (f : Screen → Screen) : (s.onScreen i f).pending = s.pending := rfl

/-! ### onChannel -/

@[simp] theorem State.onChannel_inReset (i : Fin 8) (c : Fin 16) (f : Channel → Channel) :
    (s.onChannel i c f).inReset = s.inReset := rfl
@[simp] theorem State.onChannel_unit (i : Fin 8) (c : Fin 16) (f : Channel → Channel) :
    (s.onChannel i c f).unit = s.unit := rfl
@[simp] theorem State.onChannel_intake (i : Fin 8) (c : Fin 16) (f : Channel → Channel) :
    (s.onChannel i c f).intake = s.intake := rfl
@[simp] theorem State.onChannel_replies (i : Fin 8) (c : Fin 16) (f : Channel → Channel) :
    (s.onChannel i c f).replies = s.replies := rfl
@[simp] theorem State.onChannel_forward (i : Fin 8) (c : Fin 16) (f : Channel → Channel) :
    (s.onChannel i c f).forward = s.forward := rfl
@[simp] theorem State.onChannel_lastChosen (i : Fin 8) (c : Fin 16) (f : Channel → Channel) :
    (s.onChannel i c f).lastChosen = s.lastChosen := rfl
@[simp] theorem State.onChannel_aOut (i : Fin 8) (c : Fin 16) (f : Channel → Channel) :
    (s.onChannel i c f).aOut = s.aOut := rfl
@[simp] theorem State.onChannel_bOutOrder (i : Fin 8) (c : Fin 16) (f : Channel → Channel) :
    (s.onChannel i c f).bOutOrder = s.bOutOrder := rfl
@[simp] theorem State.onChannel_bOut (i : Fin 8) (c : Fin 16) (f : Channel → Channel) :
    (s.onChannel i c f).bOut = s.bOut := rfl
@[simp] theorem State.onChannel_stats (i : Fin 8) (c : Fin 16) (f : Channel → Channel) :
    (s.onChannel i c f).stats = s.stats := rfl
@[simp] theorem State.onChannel_executing (i : Fin 8) (c : Fin 16) (f : Channel → Channel) :
    (s.onChannel i c f).executing = s.executing := rfl
@[simp] theorem State.onChannel_timeBase (i : Fin 8) (c : Fin 16) (f : Channel → Channel) :
    (s.onChannel i c f).timeBase = s.timeBase := rfl
@[simp] theorem State.onChannel_formats (i : Fin 8) (c : Fin 16) (f : Channel → Channel) :
    (s.onChannel i c f).formats = s.formats := rfl
@[simp] theorem State.onChannel_eq (i : Fin 8) (c : Fin 16) (f : Channel → Channel) :
    (s.onChannel i c f).eq = s.eq := rfl
@[simp] theorem State.onChannel_curves (i : Fin 8) (c : Fin 16) (f : Channel → Channel) :
    (s.onChannel i c f).curves = s.curves := rfl
@[simp] theorem State.onChannel_run (i : Fin 8) (c : Fin 16) (f : Channel → Channel) :
    (s.onChannel i c f).run = s.run := rfl
@[simp] theorem State.onChannel_monitors (i : Fin 8) (c : Fin 16) (f : Channel → Channel) :
    (s.onChannel i c f).monitors = s.monitors := rfl
@[simp] theorem State.onChannel_cueLists (i : Fin 8) (c : Fin 16) (f : Channel → Channel) :
    (s.onChannel i c f).cueLists = s.cueLists := rfl
@[simp] theorem State.onChannel_links (i : Fin 8) (c : Fin 16) (f : Channel → Channel) :
    (s.onChannel i c f).links = s.links := rfl
@[simp] theorem State.onChannel_timers (i : Fin 8) (c : Fin 16) (f : Channel → Channel) :
    (s.onChannel i c f).timers = s.timers := rfl
@[simp] theorem State.onChannel_held (i : Fin 8) (c : Fin 16) (f : Channel → Channel) :
    (s.onChannel i c f).held = s.held := rfl
@[simp] theorem State.onChannel_house (i : Fin 8) (c : Fin 16) (f : Channel → Channel) :
    (s.onChannel i c f).house = s.house := rfl
@[simp] theorem State.onChannel_lines (i : Fin 8) (c : Fin 16) (f : Channel → Channel) :
    (s.onChannel i c f).lines = s.lines := rfl
@[simp] theorem State.onChannel_notices (i : Fin 8) (c : Fin 16) (f : Channel → Channel) :
    (s.onChannel i c f).notices = s.notices := rfl
@[simp] theorem State.onChannel_lostCount (i : Fin 8) (c : Fin 16) (f : Channel → Channel) :
    (s.onChannel i c f).lostCount = s.lostCount := rfl
@[simp] theorem State.onChannel_slot (i : Fin 8) (c : Fin 16) (f : Channel → Channel) :
    (s.onChannel i c f).slot = s.slot := rfl
@[simp] theorem State.onChannel_mask (i : Fin 8) (c : Fin 16) (f : Channel → Channel) :
    (s.onChannel i c f).mask = s.mask := rfl
@[simp] theorem State.onChannel_fresh (i : Fin 8) (c : Fin 16) (f : Channel → Channel) :
    (s.onChannel i c f).fresh = s.fresh := rfl
@[simp] theorem State.onChannel_pending (i : Fin 8) (c : Fin 16) (f : Channel → Channel) :
    (s.onChannel i c f).pending = s.pending := rfl

/-! ### onFormat -/

@[simp] theorem State.onFormat_inReset (k : Fin 32) (f : FormatEntry → FormatEntry) :
    (s.onFormat k f).inReset = s.inReset := rfl
@[simp] theorem State.onFormat_unit (k : Fin 32) (f : FormatEntry → FormatEntry) : (s.onFormat k f).unit = s.unit := rfl
@[simp] theorem State.onFormat_intake (k : Fin 32) (f : FormatEntry → FormatEntry) :
    (s.onFormat k f).intake = s.intake := rfl
@[simp] theorem State.onFormat_replies (k : Fin 32) (f : FormatEntry → FormatEntry) :
    (s.onFormat k f).replies = s.replies := rfl
@[simp] theorem State.onFormat_forward (k : Fin 32) (f : FormatEntry → FormatEntry) :
    (s.onFormat k f).forward = s.forward := rfl
@[simp] theorem State.onFormat_lastChosen (k : Fin 32) (f : FormatEntry → FormatEntry) :
    (s.onFormat k f).lastChosen = s.lastChosen := rfl
@[simp] theorem State.onFormat_aOut (k : Fin 32) (f : FormatEntry → FormatEntry) : (s.onFormat k f).aOut = s.aOut := rfl
@[simp] theorem State.onFormat_bOutOrder (k : Fin 32) (f : FormatEntry → FormatEntry) :
    (s.onFormat k f).bOutOrder = s.bOutOrder := rfl
@[simp] theorem State.onFormat_bOut (k : Fin 32) (f : FormatEntry → FormatEntry) : (s.onFormat k f).bOut = s.bOut := rfl
@[simp] theorem State.onFormat_stats (k : Fin 32) (f : FormatEntry → FormatEntry) :
    (s.onFormat k f).stats = s.stats := rfl
@[simp] theorem State.onFormat_executing (k : Fin 32) (f : FormatEntry → FormatEntry) :
    (s.onFormat k f).executing = s.executing := rfl
@[simp] theorem State.onFormat_timeBase (k : Fin 32) (f : FormatEntry → FormatEntry) :
    (s.onFormat k f).timeBase = s.timeBase := rfl
@[simp] theorem State.onFormat_screens (k : Fin 32) (f : FormatEntry → FormatEntry) :
    (s.onFormat k f).screens = s.screens := rfl
@[simp] theorem State.onFormat_eq (k : Fin 32) (f : FormatEntry → FormatEntry) : (s.onFormat k f).eq = s.eq := rfl
@[simp] theorem State.onFormat_curves (k : Fin 32) (f : FormatEntry → FormatEntry) :
    (s.onFormat k f).curves = s.curves := rfl
@[simp] theorem State.onFormat_run (k : Fin 32) (f : FormatEntry → FormatEntry) : (s.onFormat k f).run = s.run := rfl
@[simp] theorem State.onFormat_monitors (k : Fin 32) (f : FormatEntry → FormatEntry) :
    (s.onFormat k f).monitors = s.monitors := rfl
@[simp] theorem State.onFormat_cueLists (k : Fin 32) (f : FormatEntry → FormatEntry) :
    (s.onFormat k f).cueLists = s.cueLists := rfl
@[simp] theorem State.onFormat_links (k : Fin 32) (f : FormatEntry → FormatEntry) :
    (s.onFormat k f).links = s.links := rfl
@[simp] theorem State.onFormat_timers (k : Fin 32) (f : FormatEntry → FormatEntry) :
    (s.onFormat k f).timers = s.timers := rfl
@[simp] theorem State.onFormat_held (k : Fin 32) (f : FormatEntry → FormatEntry) : (s.onFormat k f).held = s.held := rfl
@[simp] theorem State.onFormat_house (k : Fin 32) (f : FormatEntry → FormatEntry) :
    (s.onFormat k f).house = s.house := rfl
@[simp] theorem State.onFormat_lines (k : Fin 32) (f : FormatEntry → FormatEntry) :
    (s.onFormat k f).lines = s.lines := rfl
@[simp] theorem State.onFormat_notices (k : Fin 32) (f : FormatEntry → FormatEntry) :
    (s.onFormat k f).notices = s.notices := rfl
@[simp] theorem State.onFormat_lostCount (k : Fin 32) (f : FormatEntry → FormatEntry) :
    (s.onFormat k f).lostCount = s.lostCount := rfl
@[simp] theorem State.onFormat_slot (k : Fin 32) (f : FormatEntry → FormatEntry) : (s.onFormat k f).slot = s.slot := rfl
@[simp] theorem State.onFormat_mask (k : Fin 32) (f : FormatEntry → FormatEntry) : (s.onFormat k f).mask = s.mask := rfl
@[simp] theorem State.onFormat_fresh (k : Fin 32) (f : FormatEntry → FormatEntry) :
    (s.onFormat k f).fresh = s.fresh := rfl
@[simp] theorem State.onFormat_pending (k : Fin 32) (f : FormatEntry → FormatEntry) :
    (s.onFormat k f).pending = s.pending := rfl

/-! ### onBanks -/

@[simp] theorem State.onBanks_inReset (i : Fin 8) (c : Fin 16) (f : ChannelBanks → ChannelBanks) :
    (s.onBanks i c f).inReset = s.inReset := rfl
@[simp] theorem State.onBanks_unit (i : Fin 8) (c : Fin 16) (f : ChannelBanks → ChannelBanks) :
    (s.onBanks i c f).unit = s.unit := rfl
@[simp] theorem State.onBanks_intake (i : Fin 8) (c : Fin 16) (f : ChannelBanks → ChannelBanks) :
    (s.onBanks i c f).intake = s.intake := rfl
@[simp] theorem State.onBanks_replies (i : Fin 8) (c : Fin 16) (f : ChannelBanks → ChannelBanks) :
    (s.onBanks i c f).replies = s.replies := rfl
@[simp] theorem State.onBanks_forward (i : Fin 8) (c : Fin 16) (f : ChannelBanks → ChannelBanks) :
    (s.onBanks i c f).forward = s.forward := rfl
@[simp] theorem State.onBanks_lastChosen (i : Fin 8) (c : Fin 16) (f : ChannelBanks → ChannelBanks) :
    (s.onBanks i c f).lastChosen = s.lastChosen := rfl
@[simp] theorem State.onBanks_aOut (i : Fin 8) (c : Fin 16) (f : ChannelBanks → ChannelBanks) :
    (s.onBanks i c f).aOut = s.aOut := rfl
@[simp] theorem State.onBanks_bOutOrder (i : Fin 8) (c : Fin 16) (f : ChannelBanks → ChannelBanks) :
    (s.onBanks i c f).bOutOrder = s.bOutOrder := rfl
@[simp] theorem State.onBanks_bOut (i : Fin 8) (c : Fin 16) (f : ChannelBanks → ChannelBanks) :
    (s.onBanks i c f).bOut = s.bOut := rfl
@[simp] theorem State.onBanks_stats (i : Fin 8) (c : Fin 16) (f : ChannelBanks → ChannelBanks) :
    (s.onBanks i c f).stats = s.stats := rfl
@[simp] theorem State.onBanks_executing (i : Fin 8) (c : Fin 16) (f : ChannelBanks → ChannelBanks) :
    (s.onBanks i c f).executing = s.executing := rfl
@[simp] theorem State.onBanks_timeBase (i : Fin 8) (c : Fin 16) (f : ChannelBanks → ChannelBanks) :
    (s.onBanks i c f).timeBase = s.timeBase := rfl
@[simp] theorem State.onBanks_screens (i : Fin 8) (c : Fin 16) (f : ChannelBanks → ChannelBanks) :
    (s.onBanks i c f).screens = s.screens := rfl
@[simp] theorem State.onBanks_formats (i : Fin 8) (c : Fin 16) (f : ChannelBanks → ChannelBanks) :
    (s.onBanks i c f).formats = s.formats := rfl
@[simp] theorem State.onBanks_curves (i : Fin 8) (c : Fin 16) (f : ChannelBanks → ChannelBanks) :
    (s.onBanks i c f).curves = s.curves := rfl
@[simp] theorem State.onBanks_run (i : Fin 8) (c : Fin 16) (f : ChannelBanks → ChannelBanks) :
    (s.onBanks i c f).run = s.run := rfl
@[simp] theorem State.onBanks_monitors (i : Fin 8) (c : Fin 16) (f : ChannelBanks → ChannelBanks) :
    (s.onBanks i c f).monitors = s.monitors := rfl
@[simp] theorem State.onBanks_cueLists (i : Fin 8) (c : Fin 16) (f : ChannelBanks → ChannelBanks) :
    (s.onBanks i c f).cueLists = s.cueLists := rfl
@[simp] theorem State.onBanks_links (i : Fin 8) (c : Fin 16) (f : ChannelBanks → ChannelBanks) :
    (s.onBanks i c f).links = s.links := rfl
@[simp] theorem State.onBanks_timers (i : Fin 8) (c : Fin 16) (f : ChannelBanks → ChannelBanks) :
    (s.onBanks i c f).timers = s.timers := rfl
@[simp] theorem State.onBanks_held (i : Fin 8) (c : Fin 16) (f : ChannelBanks → ChannelBanks) :
    (s.onBanks i c f).held = s.held := rfl
@[simp] theorem State.onBanks_house (i : Fin 8) (c : Fin 16) (f : ChannelBanks → ChannelBanks) :
    (s.onBanks i c f).house = s.house := rfl
@[simp] theorem State.onBanks_lines (i : Fin 8) (c : Fin 16) (f : ChannelBanks → ChannelBanks) :
    (s.onBanks i c f).lines = s.lines := rfl
@[simp] theorem State.onBanks_notices (i : Fin 8) (c : Fin 16) (f : ChannelBanks → ChannelBanks) :
    (s.onBanks i c f).notices = s.notices := rfl
@[simp] theorem State.onBanks_lostCount (i : Fin 8) (c : Fin 16) (f : ChannelBanks → ChannelBanks) :
    (s.onBanks i c f).lostCount = s.lostCount := rfl
@[simp] theorem State.onBanks_slot (i : Fin 8) (c : Fin 16) (f : ChannelBanks → ChannelBanks) :
    (s.onBanks i c f).slot = s.slot := rfl
@[simp] theorem State.onBanks_mask (i : Fin 8) (c : Fin 16) (f : ChannelBanks → ChannelBanks) :
    (s.onBanks i c f).mask = s.mask := rfl
@[simp] theorem State.onBanks_fresh (i : Fin 8) (c : Fin 16) (f : ChannelBanks → ChannelBanks) :
    (s.onBanks i c f).fresh = s.fresh := rfl
@[simp] theorem State.onBanks_pending (i : Fin 8) (c : Fin 16) (f : ChannelBanks → ChannelBanks) :
    (s.onBanks i c f).pending = s.pending := rfl

/-! ### onMonitor -/

@[simp] theorem State.onMonitor_inReset (m : Fin 48) (f : Monitor → Monitor) :
    (s.onMonitor m f).inReset = s.inReset := rfl
@[simp] theorem State.onMonitor_unit (m : Fin 48) (f : Monitor → Monitor) : (s.onMonitor m f).unit = s.unit := rfl
@[simp] theorem State.onMonitor_intake (m : Fin 48) (f : Monitor → Monitor) : (s.onMonitor m f).intake = s.intake := rfl
@[simp] theorem State.onMonitor_replies (m : Fin 48) (f : Monitor → Monitor) :
    (s.onMonitor m f).replies = s.replies := rfl
@[simp] theorem State.onMonitor_forward (m : Fin 48) (f : Monitor → Monitor) :
    (s.onMonitor m f).forward = s.forward := rfl
@[simp] theorem State.onMonitor_lastChosen (m : Fin 48) (f : Monitor → Monitor) :
    (s.onMonitor m f).lastChosen = s.lastChosen := rfl
@[simp] theorem State.onMonitor_aOut (m : Fin 48) (f : Monitor → Monitor) : (s.onMonitor m f).aOut = s.aOut := rfl
@[simp] theorem State.onMonitor_bOutOrder (m : Fin 48) (f : Monitor → Monitor) :
    (s.onMonitor m f).bOutOrder = s.bOutOrder := rfl
@[simp] theorem State.onMonitor_bOut (m : Fin 48) (f : Monitor → Monitor) : (s.onMonitor m f).bOut = s.bOut := rfl
@[simp] theorem State.onMonitor_stats (m : Fin 48) (f : Monitor → Monitor) : (s.onMonitor m f).stats = s.stats := rfl
@[simp] theorem State.onMonitor_executing (m : Fin 48) (f : Monitor → Monitor) :
    (s.onMonitor m f).executing = s.executing := rfl
@[simp] theorem State.onMonitor_timeBase (m : Fin 48) (f : Monitor → Monitor) :
    (s.onMonitor m f).timeBase = s.timeBase := rfl
@[simp] theorem State.onMonitor_screens (m : Fin 48) (f : Monitor → Monitor) :
    (s.onMonitor m f).screens = s.screens := rfl
@[simp] theorem State.onMonitor_formats (m : Fin 48) (f : Monitor → Monitor) :
    (s.onMonitor m f).formats = s.formats := rfl
@[simp] theorem State.onMonitor_eq (m : Fin 48) (f : Monitor → Monitor) : (s.onMonitor m f).eq = s.eq := rfl
@[simp] theorem State.onMonitor_curves (m : Fin 48) (f : Monitor → Monitor) : (s.onMonitor m f).curves = s.curves := rfl
@[simp] theorem State.onMonitor_run (m : Fin 48) (f : Monitor → Monitor) : (s.onMonitor m f).run = s.run := rfl
@[simp] theorem State.onMonitor_cueLists (m : Fin 48) (f : Monitor → Monitor) :
    (s.onMonitor m f).cueLists = s.cueLists := rfl
@[simp] theorem State.onMonitor_links (m : Fin 48) (f : Monitor → Monitor) : (s.onMonitor m f).links = s.links := rfl
@[simp] theorem State.onMonitor_timers (m : Fin 48) (f : Monitor → Monitor) : (s.onMonitor m f).timers = s.timers := rfl
@[simp] theorem State.onMonitor_held (m : Fin 48) (f : Monitor → Monitor) : (s.onMonitor m f).held = s.held := rfl
@[simp] theorem State.onMonitor_house (m : Fin 48) (f : Monitor → Monitor) : (s.onMonitor m f).house = s.house := rfl
@[simp] theorem State.onMonitor_lines (m : Fin 48) (f : Monitor → Monitor) : (s.onMonitor m f).lines = s.lines := rfl
@[simp] theorem State.onMonitor_notices (m : Fin 48) (f : Monitor → Monitor) :
    (s.onMonitor m f).notices = s.notices := rfl
@[simp] theorem State.onMonitor_lostCount (m : Fin 48) (f : Monitor → Monitor) :
    (s.onMonitor m f).lostCount = s.lostCount := rfl
@[simp] theorem State.onMonitor_slot (m : Fin 48) (f : Monitor → Monitor) : (s.onMonitor m f).slot = s.slot := rfl
@[simp] theorem State.onMonitor_mask (m : Fin 48) (f : Monitor → Monitor) : (s.onMonitor m f).mask = s.mask := rfl
@[simp] theorem State.onMonitor_fresh (m : Fin 48) (f : Monitor → Monitor) : (s.onMonitor m f).fresh = s.fresh := rfl
@[simp] theorem State.onMonitor_pending (m : Fin 48) (f : Monitor → Monitor) :
    (s.onMonitor m f).pending = s.pending := rfl

/-! ### onCueList -/

@[simp] theorem State.onCueList_inReset (i : Fin 8) (f : CueList → CueList) :
    (s.onCueList i f).inReset = s.inReset := rfl
@[simp] theorem State.onCueList_unit (i : Fin 8) (f : CueList → CueList) : (s.onCueList i f).unit = s.unit := rfl
@[simp] theorem State.onCueList_intake (i : Fin 8) (f : CueList → CueList) : (s.onCueList i f).intake = s.intake := rfl
@[simp] theorem State.onCueList_replies (i : Fin 8) (f : CueList → CueList) :
    (s.onCueList i f).replies = s.replies := rfl
@[simp] theorem State.onCueList_forward (i : Fin 8) (f : CueList → CueList) :
    (s.onCueList i f).forward = s.forward := rfl
@[simp] theorem State.onCueList_lastChosen (i : Fin 8) (f : CueList → CueList) :
    (s.onCueList i f).lastChosen = s.lastChosen := rfl
@[simp] theorem State.onCueList_aOut (i : Fin 8) (f : CueList → CueList) : (s.onCueList i f).aOut = s.aOut := rfl
@[simp] theorem State.onCueList_bOutOrder (i : Fin 8) (f : CueList → CueList) :
    (s.onCueList i f).bOutOrder = s.bOutOrder := rfl
@[simp] theorem State.onCueList_bOut (i : Fin 8) (f : CueList → CueList) : (s.onCueList i f).bOut = s.bOut := rfl
@[simp] theorem State.onCueList_stats (i : Fin 8) (f : CueList → CueList) : (s.onCueList i f).stats = s.stats := rfl
@[simp] theorem State.onCueList_executing (i : Fin 8) (f : CueList → CueList) :
    (s.onCueList i f).executing = s.executing := rfl
@[simp] theorem State.onCueList_timeBase (i : Fin 8) (f : CueList → CueList) :
    (s.onCueList i f).timeBase = s.timeBase := rfl
@[simp] theorem State.onCueList_screens (i : Fin 8) (f : CueList → CueList) :
    (s.onCueList i f).screens = s.screens := rfl
@[simp] theorem State.onCueList_formats (i : Fin 8) (f : CueList → CueList) :
    (s.onCueList i f).formats = s.formats := rfl
@[simp] theorem State.onCueList_eq (i : Fin 8) (f : CueList → CueList) : (s.onCueList i f).eq = s.eq := rfl
@[simp] theorem State.onCueList_curves (i : Fin 8) (f : CueList → CueList) : (s.onCueList i f).curves = s.curves := rfl
@[simp] theorem State.onCueList_run (i : Fin 8) (f : CueList → CueList) : (s.onCueList i f).run = s.run := rfl
@[simp] theorem State.onCueList_monitors (i : Fin 8) (f : CueList → CueList) :
    (s.onCueList i f).monitors = s.monitors := rfl
@[simp] theorem State.onCueList_links (i : Fin 8) (f : CueList → CueList) : (s.onCueList i f).links = s.links := rfl
@[simp] theorem State.onCueList_timers (i : Fin 8) (f : CueList → CueList) : (s.onCueList i f).timers = s.timers := rfl
@[simp] theorem State.onCueList_held (i : Fin 8) (f : CueList → CueList) : (s.onCueList i f).held = s.held := rfl
@[simp] theorem State.onCueList_house (i : Fin 8) (f : CueList → CueList) : (s.onCueList i f).house = s.house := rfl
@[simp] theorem State.onCueList_lines (i : Fin 8) (f : CueList → CueList) : (s.onCueList i f).lines = s.lines := rfl
@[simp] theorem State.onCueList_notices (i : Fin 8) (f : CueList → CueList) :
    (s.onCueList i f).notices = s.notices := rfl
@[simp] theorem State.onCueList_lostCount (i : Fin 8) (f : CueList → CueList) :
    (s.onCueList i f).lostCount = s.lostCount := rfl
@[simp] theorem State.onCueList_slot (i : Fin 8) (f : CueList → CueList) : (s.onCueList i f).slot = s.slot := rfl
@[simp] theorem State.onCueList_mask (i : Fin 8) (f : CueList → CueList) : (s.onCueList i f).mask = s.mask := rfl
@[simp] theorem State.onCueList_fresh (i : Fin 8) (f : CueList → CueList) : (s.onCueList i f).fresh = s.fresh := rfl
@[simp] theorem State.onCueList_pending (i : Fin 8) (f : CueList → CueList) :
    (s.onCueList i f).pending = s.pending := rfl

/-! ### onLink -/

@[simp] theorem State.onLink_inReset (k : Fin 32) (f : CueLink → CueLink) : (s.onLink k f).inReset = s.inReset := rfl
@[simp] theorem State.onLink_unit (k : Fin 32) (f : CueLink → CueLink) : (s.onLink k f).unit = s.unit := rfl
@[simp] theorem State.onLink_intake (k : Fin 32) (f : CueLink → CueLink) : (s.onLink k f).intake = s.intake := rfl
@[simp] theorem State.onLink_replies (k : Fin 32) (f : CueLink → CueLink) : (s.onLink k f).replies = s.replies := rfl
@[simp] theorem State.onLink_forward (k : Fin 32) (f : CueLink → CueLink) : (s.onLink k f).forward = s.forward := rfl
@[simp] theorem State.onLink_lastChosen (k : Fin 32) (f : CueLink → CueLink) :
    (s.onLink k f).lastChosen = s.lastChosen := rfl
@[simp] theorem State.onLink_aOut (k : Fin 32) (f : CueLink → CueLink) : (s.onLink k f).aOut = s.aOut := rfl
@[simp] theorem State.onLink_bOutOrder (k : Fin 32) (f : CueLink → CueLink) :
    (s.onLink k f).bOutOrder = s.bOutOrder := rfl
@[simp] theorem State.onLink_bOut (k : Fin 32) (f : CueLink → CueLink) : (s.onLink k f).bOut = s.bOut := rfl
@[simp] theorem State.onLink_stats (k : Fin 32) (f : CueLink → CueLink) : (s.onLink k f).stats = s.stats := rfl
@[simp] theorem State.onLink_executing (k : Fin 32) (f : CueLink → CueLink) :
    (s.onLink k f).executing = s.executing := rfl
@[simp] theorem State.onLink_timeBase (k : Fin 32) (f : CueLink → CueLink) : (s.onLink k f).timeBase = s.timeBase := rfl
@[simp] theorem State.onLink_screens (k : Fin 32) (f : CueLink → CueLink) : (s.onLink k f).screens = s.screens := rfl
@[simp] theorem State.onLink_formats (k : Fin 32) (f : CueLink → CueLink) : (s.onLink k f).formats = s.formats := rfl
@[simp] theorem State.onLink_eq (k : Fin 32) (f : CueLink → CueLink) : (s.onLink k f).eq = s.eq := rfl
@[simp] theorem State.onLink_curves (k : Fin 32) (f : CueLink → CueLink) : (s.onLink k f).curves = s.curves := rfl
@[simp] theorem State.onLink_run (k : Fin 32) (f : CueLink → CueLink) : (s.onLink k f).run = s.run := rfl
@[simp] theorem State.onLink_monitors (k : Fin 32) (f : CueLink → CueLink) : (s.onLink k f).monitors = s.monitors := rfl
@[simp] theorem State.onLink_cueLists (k : Fin 32) (f : CueLink → CueLink) : (s.onLink k f).cueLists = s.cueLists := rfl
@[simp] theorem State.onLink_timers (k : Fin 32) (f : CueLink → CueLink) : (s.onLink k f).timers = s.timers := rfl
@[simp] theorem State.onLink_held (k : Fin 32) (f : CueLink → CueLink) : (s.onLink k f).held = s.held := rfl
@[simp] theorem State.onLink_house (k : Fin 32) (f : CueLink → CueLink) : (s.onLink k f).house = s.house := rfl
@[simp] theorem State.onLink_lines (k : Fin 32) (f : CueLink → CueLink) : (s.onLink k f).lines = s.lines := rfl
@[simp] theorem State.onLink_notices (k : Fin 32) (f : CueLink → CueLink) : (s.onLink k f).notices = s.notices := rfl
@[simp] theorem State.onLink_lostCount (k : Fin 32) (f : CueLink → CueLink) :
    (s.onLink k f).lostCount = s.lostCount := rfl
@[simp] theorem State.onLink_slot (k : Fin 32) (f : CueLink → CueLink) : (s.onLink k f).slot = s.slot := rfl
@[simp] theorem State.onLink_mask (k : Fin 32) (f : CueLink → CueLink) : (s.onLink k f).mask = s.mask := rfl
@[simp] theorem State.onLink_fresh (k : Fin 32) (f : CueLink → CueLink) : (s.onLink k f).fresh = s.fresh := rfl
@[simp] theorem State.onLink_pending (k : Fin 32) (f : CueLink → CueLink) : (s.onLink k f).pending = s.pending := rfl

/-! ### onTimer -/

@[simp] theorem State.onTimer_inReset (t : Fin 8) (f : Timer → Timer) : (s.onTimer t f).inReset = s.inReset := rfl
@[simp] theorem State.onTimer_unit (t : Fin 8) (f : Timer → Timer) : (s.onTimer t f).unit = s.unit := rfl
@[simp] theorem State.onTimer_intake (t : Fin 8) (f : Timer → Timer) : (s.onTimer t f).intake = s.intake := rfl
@[simp] theorem State.onTimer_replies (t : Fin 8) (f : Timer → Timer) : (s.onTimer t f).replies = s.replies := rfl
@[simp] theorem State.onTimer_forward (t : Fin 8) (f : Timer → Timer) : (s.onTimer t f).forward = s.forward := rfl
@[simp] theorem State.onTimer_lastChosen (t : Fin 8) (f : Timer → Timer) :
    (s.onTimer t f).lastChosen = s.lastChosen := rfl
@[simp] theorem State.onTimer_aOut (t : Fin 8) (f : Timer → Timer) : (s.onTimer t f).aOut = s.aOut := rfl
@[simp] theorem State.onTimer_bOutOrder (t : Fin 8) (f : Timer → Timer) : (s.onTimer t f).bOutOrder = s.bOutOrder := rfl
@[simp] theorem State.onTimer_bOut (t : Fin 8) (f : Timer → Timer) : (s.onTimer t f).bOut = s.bOut := rfl
@[simp] theorem State.onTimer_stats (t : Fin 8) (f : Timer → Timer) : (s.onTimer t f).stats = s.stats := rfl
@[simp] theorem State.onTimer_executing (t : Fin 8) (f : Timer → Timer) : (s.onTimer t f).executing = s.executing := rfl
@[simp] theorem State.onTimer_timeBase (t : Fin 8) (f : Timer → Timer) : (s.onTimer t f).timeBase = s.timeBase := rfl
@[simp] theorem State.onTimer_screens (t : Fin 8) (f : Timer → Timer) : (s.onTimer t f).screens = s.screens := rfl
@[simp] theorem State.onTimer_formats (t : Fin 8) (f : Timer → Timer) : (s.onTimer t f).formats = s.formats := rfl
@[simp] theorem State.onTimer_eq (t : Fin 8) (f : Timer → Timer) : (s.onTimer t f).eq = s.eq := rfl
@[simp] theorem State.onTimer_curves (t : Fin 8) (f : Timer → Timer) : (s.onTimer t f).curves = s.curves := rfl
@[simp] theorem State.onTimer_run (t : Fin 8) (f : Timer → Timer) : (s.onTimer t f).run = s.run := rfl
@[simp] theorem State.onTimer_monitors (t : Fin 8) (f : Timer → Timer) : (s.onTimer t f).monitors = s.monitors := rfl
@[simp] theorem State.onTimer_cueLists (t : Fin 8) (f : Timer → Timer) : (s.onTimer t f).cueLists = s.cueLists := rfl
@[simp] theorem State.onTimer_links (t : Fin 8) (f : Timer → Timer) : (s.onTimer t f).links = s.links := rfl
@[simp] theorem State.onTimer_held (t : Fin 8) (f : Timer → Timer) : (s.onTimer t f).held = s.held := rfl
@[simp] theorem State.onTimer_house (t : Fin 8) (f : Timer → Timer) : (s.onTimer t f).house = s.house := rfl
@[simp] theorem State.onTimer_lines (t : Fin 8) (f : Timer → Timer) : (s.onTimer t f).lines = s.lines := rfl
@[simp] theorem State.onTimer_notices (t : Fin 8) (f : Timer → Timer) : (s.onTimer t f).notices = s.notices := rfl
@[simp] theorem State.onTimer_lostCount (t : Fin 8) (f : Timer → Timer) : (s.onTimer t f).lostCount = s.lostCount := rfl
@[simp] theorem State.onTimer_slot (t : Fin 8) (f : Timer → Timer) : (s.onTimer t f).slot = s.slot := rfl
@[simp] theorem State.onTimer_mask (t : Fin 8) (f : Timer → Timer) : (s.onTimer t f).mask = s.mask := rfl
@[simp] theorem State.onTimer_fresh (t : Fin 8) (f : Timer → Timer) : (s.onTimer t f).fresh = s.fresh := rfl
@[simp] theorem State.onTimer_pending (t : Fin 8) (f : Timer → Timer) : (s.onTimer t f).pending = s.pending := rfl

/-! ### onLine -/

@[simp] theorem State.onLine_inReset (l : Fin 16) (f : BoothLine → BoothLine) :
    (s.onLine l f).inReset = s.inReset := rfl
@[simp] theorem State.onLine_unit (l : Fin 16) (f : BoothLine → BoothLine) : (s.onLine l f).unit = s.unit := rfl
@[simp] theorem State.onLine_intake (l : Fin 16) (f : BoothLine → BoothLine) : (s.onLine l f).intake = s.intake := rfl
@[simp] theorem State.onLine_replies (l : Fin 16) (f : BoothLine → BoothLine) :
    (s.onLine l f).replies = s.replies := rfl
@[simp] theorem State.onLine_forward (l : Fin 16) (f : BoothLine → BoothLine) :
    (s.onLine l f).forward = s.forward := rfl
@[simp] theorem State.onLine_lastChosen (l : Fin 16) (f : BoothLine → BoothLine) :
    (s.onLine l f).lastChosen = s.lastChosen := rfl
@[simp] theorem State.onLine_aOut (l : Fin 16) (f : BoothLine → BoothLine) : (s.onLine l f).aOut = s.aOut := rfl
@[simp] theorem State.onLine_bOutOrder (l : Fin 16) (f : BoothLine → BoothLine) :
    (s.onLine l f).bOutOrder = s.bOutOrder := rfl
@[simp] theorem State.onLine_bOut (l : Fin 16) (f : BoothLine → BoothLine) : (s.onLine l f).bOut = s.bOut := rfl
@[simp] theorem State.onLine_stats (l : Fin 16) (f : BoothLine → BoothLine) : (s.onLine l f).stats = s.stats := rfl
@[simp] theorem State.onLine_executing (l : Fin 16) (f : BoothLine → BoothLine) :
    (s.onLine l f).executing = s.executing := rfl
@[simp] theorem State.onLine_timeBase (l : Fin 16) (f : BoothLine → BoothLine) :
    (s.onLine l f).timeBase = s.timeBase := rfl
@[simp] theorem State.onLine_screens (l : Fin 16) (f : BoothLine → BoothLine) :
    (s.onLine l f).screens = s.screens := rfl
@[simp] theorem State.onLine_formats (l : Fin 16) (f : BoothLine → BoothLine) :
    (s.onLine l f).formats = s.formats := rfl
@[simp] theorem State.onLine_eq (l : Fin 16) (f : BoothLine → BoothLine) : (s.onLine l f).eq = s.eq := rfl
@[simp] theorem State.onLine_curves (l : Fin 16) (f : BoothLine → BoothLine) : (s.onLine l f).curves = s.curves := rfl
@[simp] theorem State.onLine_run (l : Fin 16) (f : BoothLine → BoothLine) : (s.onLine l f).run = s.run := rfl
@[simp] theorem State.onLine_monitors (l : Fin 16) (f : BoothLine → BoothLine) :
    (s.onLine l f).monitors = s.monitors := rfl
@[simp] theorem State.onLine_cueLists (l : Fin 16) (f : BoothLine → BoothLine) :
    (s.onLine l f).cueLists = s.cueLists := rfl
@[simp] theorem State.onLine_links (l : Fin 16) (f : BoothLine → BoothLine) : (s.onLine l f).links = s.links := rfl
@[simp] theorem State.onLine_timers (l : Fin 16) (f : BoothLine → BoothLine) : (s.onLine l f).timers = s.timers := rfl
@[simp] theorem State.onLine_held (l : Fin 16) (f : BoothLine → BoothLine) : (s.onLine l f).held = s.held := rfl
@[simp] theorem State.onLine_house (l : Fin 16) (f : BoothLine → BoothLine) : (s.onLine l f).house = s.house := rfl
@[simp] theorem State.onLine_notices (l : Fin 16) (f : BoothLine → BoothLine) :
    (s.onLine l f).notices = s.notices := rfl
@[simp] theorem State.onLine_lostCount (l : Fin 16) (f : BoothLine → BoothLine) :
    (s.onLine l f).lostCount = s.lostCount := rfl
@[simp] theorem State.onLine_slot (l : Fin 16) (f : BoothLine → BoothLine) : (s.onLine l f).slot = s.slot := rfl
@[simp] theorem State.onLine_mask (l : Fin 16) (f : BoothLine → BoothLine) : (s.onLine l f).mask = s.mask := rfl
@[simp] theorem State.onLine_fresh (l : Fin 16) (f : BoothLine → BoothLine) : (s.onLine l f).fresh = s.fresh := rfl
@[simp] theorem State.onLine_pending (l : Fin 16) (f : BoothLine → BoothLine) :
    (s.onLine l f).pending = s.pending := rfl

/-! ### onRun -/

@[simp] theorem State.onRun_inReset (f : RunRecord → RunRecord) : (s.onRun f).inReset = s.inReset := rfl
@[simp] theorem State.onRun_unit (f : RunRecord → RunRecord) : (s.onRun f).unit = s.unit := rfl
@[simp] theorem State.onRun_intake (f : RunRecord → RunRecord) : (s.onRun f).intake = s.intake := rfl
@[simp] theorem State.onRun_replies (f : RunRecord → RunRecord) : (s.onRun f).replies = s.replies := rfl
@[simp] theorem State.onRun_forward (f : RunRecord → RunRecord) : (s.onRun f).forward = s.forward := rfl
@[simp] theorem State.onRun_lastChosen (f : RunRecord → RunRecord) : (s.onRun f).lastChosen = s.lastChosen := rfl
@[simp] theorem State.onRun_aOut (f : RunRecord → RunRecord) : (s.onRun f).aOut = s.aOut := rfl
@[simp] theorem State.onRun_bOutOrder (f : RunRecord → RunRecord) : (s.onRun f).bOutOrder = s.bOutOrder := rfl
@[simp] theorem State.onRun_bOut (f : RunRecord → RunRecord) : (s.onRun f).bOut = s.bOut := rfl
@[simp] theorem State.onRun_stats (f : RunRecord → RunRecord) : (s.onRun f).stats = s.stats := rfl
@[simp] theorem State.onRun_executing (f : RunRecord → RunRecord) : (s.onRun f).executing = s.executing := rfl
@[simp] theorem State.onRun_timeBase (f : RunRecord → RunRecord) : (s.onRun f).timeBase = s.timeBase := rfl
@[simp] theorem State.onRun_screens (f : RunRecord → RunRecord) : (s.onRun f).screens = s.screens := rfl
@[simp] theorem State.onRun_formats (f : RunRecord → RunRecord) : (s.onRun f).formats = s.formats := rfl
@[simp] theorem State.onRun_eq (f : RunRecord → RunRecord) : (s.onRun f).eq = s.eq := rfl
@[simp] theorem State.onRun_curves (f : RunRecord → RunRecord) : (s.onRun f).curves = s.curves := rfl
@[simp] theorem State.onRun_monitors (f : RunRecord → RunRecord) : (s.onRun f).monitors = s.monitors := rfl
@[simp] theorem State.onRun_cueLists (f : RunRecord → RunRecord) : (s.onRun f).cueLists = s.cueLists := rfl
@[simp] theorem State.onRun_links (f : RunRecord → RunRecord) : (s.onRun f).links = s.links := rfl
@[simp] theorem State.onRun_timers (f : RunRecord → RunRecord) : (s.onRun f).timers = s.timers := rfl
@[simp] theorem State.onRun_held (f : RunRecord → RunRecord) : (s.onRun f).held = s.held := rfl
@[simp] theorem State.onRun_house (f : RunRecord → RunRecord) : (s.onRun f).house = s.house := rfl
@[simp] theorem State.onRun_lines (f : RunRecord → RunRecord) : (s.onRun f).lines = s.lines := rfl
@[simp] theorem State.onRun_notices (f : RunRecord → RunRecord) : (s.onRun f).notices = s.notices := rfl
@[simp] theorem State.onRun_lostCount (f : RunRecord → RunRecord) : (s.onRun f).lostCount = s.lostCount := rfl
@[simp] theorem State.onRun_slot (f : RunRecord → RunRecord) : (s.onRun f).slot = s.slot := rfl
@[simp] theorem State.onRun_mask (f : RunRecord → RunRecord) : (s.onRun f).mask = s.mask := rfl
@[simp] theorem State.onRun_fresh (f : RunRecord → RunRecord) : (s.onRun f).fresh = s.fresh := rfl
@[simp] theorem State.onRun_pending (f : RunRecord → RunRecord) : (s.onRun f).pending = s.pending := rfl

/-! ### onHouse -/

@[simp] theorem State.onHouse_inReset (f : House → House) : (s.onHouse f).inReset = s.inReset := rfl
@[simp] theorem State.onHouse_unit (f : House → House) : (s.onHouse f).unit = s.unit := rfl
@[simp] theorem State.onHouse_intake (f : House → House) : (s.onHouse f).intake = s.intake := rfl
@[simp] theorem State.onHouse_replies (f : House → House) : (s.onHouse f).replies = s.replies := rfl
@[simp] theorem State.onHouse_forward (f : House → House) : (s.onHouse f).forward = s.forward := rfl
@[simp] theorem State.onHouse_lastChosen (f : House → House) : (s.onHouse f).lastChosen = s.lastChosen := rfl
@[simp] theorem State.onHouse_aOut (f : House → House) : (s.onHouse f).aOut = s.aOut := rfl
@[simp] theorem State.onHouse_bOutOrder (f : House → House) : (s.onHouse f).bOutOrder = s.bOutOrder := rfl
@[simp] theorem State.onHouse_bOut (f : House → House) : (s.onHouse f).bOut = s.bOut := rfl
@[simp] theorem State.onHouse_stats (f : House → House) : (s.onHouse f).stats = s.stats := rfl
@[simp] theorem State.onHouse_executing (f : House → House) : (s.onHouse f).executing = s.executing := rfl
@[simp] theorem State.onHouse_timeBase (f : House → House) : (s.onHouse f).timeBase = s.timeBase := rfl
@[simp] theorem State.onHouse_screens (f : House → House) : (s.onHouse f).screens = s.screens := rfl
@[simp] theorem State.onHouse_formats (f : House → House) : (s.onHouse f).formats = s.formats := rfl
@[simp] theorem State.onHouse_eq (f : House → House) : (s.onHouse f).eq = s.eq := rfl
@[simp] theorem State.onHouse_curves (f : House → House) : (s.onHouse f).curves = s.curves := rfl
@[simp] theorem State.onHouse_run (f : House → House) : (s.onHouse f).run = s.run := rfl
@[simp] theorem State.onHouse_monitors (f : House → House) : (s.onHouse f).monitors = s.monitors := rfl
@[simp] theorem State.onHouse_cueLists (f : House → House) : (s.onHouse f).cueLists = s.cueLists := rfl
@[simp] theorem State.onHouse_links (f : House → House) : (s.onHouse f).links = s.links := rfl
@[simp] theorem State.onHouse_timers (f : House → House) : (s.onHouse f).timers = s.timers := rfl
@[simp] theorem State.onHouse_held (f : House → House) : (s.onHouse f).held = s.held := rfl
@[simp] theorem State.onHouse_lines (f : House → House) : (s.onHouse f).lines = s.lines := rfl
@[simp] theorem State.onHouse_notices (f : House → House) : (s.onHouse f).notices = s.notices := rfl
@[simp] theorem State.onHouse_lostCount (f : House → House) : (s.onHouse f).lostCount = s.lostCount := rfl
@[simp] theorem State.onHouse_slot (f : House → House) : (s.onHouse f).slot = s.slot := rfl
@[simp] theorem State.onHouse_mask (f : House → House) : (s.onHouse f).mask = s.mask := rfl
@[simp] theorem State.onHouse_fresh (f : House → House) : (s.onHouse f).fresh = s.fresh := rfl
@[simp] theorem State.onHouse_pending (f : House → House) : (s.onHouse f).pending = s.pending := rfl

/-! ### What the updates write -/

theorem State.onScreen_screens (i : Fin 8) (f : Screen → Screen) :
    (s.onScreen i f).screens = modifyAt s.screens i f := rfl
theorem State.onScreen_self (i : Fin 8) (f : Screen → Screen) :
    (s.onScreen i f).screens[i] = f s.screens[i] := modifyAt_same ..
@[simp] theorem State.onScreen_self_val (i : Fin 8) (f : Screen → Screen) :
    (s.onScreen i f).screens[i.val] = f s.screens[i.val] := modifyAt_same_val ..
theorem State.onScreen_get (i j : Fin 8) (f : Screen → Screen) :
    (s.onScreen i f).screens[j] = if j = i then f s.screens[j] else s.screens[j] := modifyAt_get ..
theorem State.onChannel_screens (i : Fin 8) (c : Fin 16) (f : Channel → Channel) :
    (s.onChannel i c f).screens =
      modifyAt s.screens i fun x => { x with channels := modifyAt x.channels c f } := rfl
theorem State.onFormat_formats (k : Fin 32) (f : FormatEntry → FormatEntry) :
    (s.onFormat k f).formats = modifyAt s.formats k f := rfl
theorem State.onFormat_get (k j : Fin 32) (f : FormatEntry → FormatEntry) :
    (s.onFormat k f).formats[j] = if j = k then f s.formats[j] else s.formats[j] := modifyAt_get ..
theorem State.onBanks_eq (i : Fin 8) (c : Fin 16) (f : ChannelBanks → ChannelBanks) :
    (s.onBanks i c f).eq = modifyAt s.eq i fun x => modifyAt x c f := rfl
theorem State.onMonitor_monitors (m : Fin 48) (f : Monitor → Monitor) :
    (s.onMonitor m f).monitors = modifyAt s.monitors m f := rfl
theorem State.onMonitor_get (m j : Fin 48) (f : Monitor → Monitor) :
    (s.onMonitor m f).monitors[j] = if j = m then f s.monitors[j] else s.monitors[j] := modifyAt_get ..
theorem State.onCueList_cueLists (i : Fin 8) (f : CueList → CueList) :
    (s.onCueList i f).cueLists = modifyAt s.cueLists i f := rfl
theorem State.onLink_links (k : Fin 32) (f : CueLink → CueLink) :
    (s.onLink k f).links = modifyAt s.links k f := rfl
theorem State.onTimer_timers (t : Fin 8) (f : Timer → Timer) :
    (s.onTimer t f).timers = modifyAt s.timers t f := rfl
theorem State.onLine_lines (l : Fin 16) (f : BoothLine → BoothLine) :
    (s.onLine l f).lines = modifyAt s.lines l f := rfl
theorem State.onLine_get (l j : Fin 16) (f : BoothLine → BoothLine) :
    (s.onLine l f).lines[j] = if j = l then f s.lines[j] else s.lines[j] := modifyAt_get ..
@[simp] theorem State.onRun_run (f : RunRecord → RunRecord) : (s.onRun f).run = f s.run := rfl
@[simp] theorem State.onHouse_house (f : House → House) : (s.onHouse f).house = f s.house := rfl

end Sys2Proof.Machine
end

