-- ==== Sys2Proof/Laws/Ops.lean ====
section
/-!
SUPPORT. What each shared operation changes: one lemma for each, which says that every field it does not name stands as
it was.
-/

namespace Sys2Proof.Machine

variable (s : State)

/-- The notice side changes the queue, the slot and the lane alone. -/
theorem sendNotice_frame :
    sendNotice s =
      { s with
        slot := (sendNotice s).slot
        lastChosen := (sendNotice s).lastChosen
        aOut := (sendNotice s).aOut
        notices := (sendNotice s).notices
        lostCount := (sendNotice s).lostCount } := by
  unfold sendNotice; split <;> (try split) <;> rfl

/-- The forward buffer leaves by the lane alone. -/
theorem sendForward_frame :
    sendForward s =
      { s with
        forward := (sendForward s).forward
        lastChosen := (sendForward s).lastChosen
        aOut := (sendForward s).aOut } := by
  unfold sendForward; split <;> rfl

/-- A choice of the arbiter changes its requesters and the lane alone. -/
theorem chooseFrame_frame :
    chooseFrame s =
      { s with
        replies := (chooseFrame s).replies
        forward := (chooseFrame s).forward
        lastChosen := (chooseFrame s).lastChosen
        aOut := (chooseFrame s).aOut
        notices := (chooseFrame s).notices
        lostCount := (chooseFrame s).lostCount
        slot := (chooseFrame s).slot } := by
  unfold chooseFrame sendNotice sendForward; split <;> (try split) <;> (try split) <;> (try split) <;> rfl

/-- So does an offer. -/
theorem offerAOut_frame :
    offerAOut s =
      { s with
        replies := (offerAOut s).replies
        forward := (offerAOut s).forward
        lastChosen := (offerAOut s).lastChosen
        aOut := (offerAOut s).aOut
        notices := (offerAOut s).notices
        lostCount := (offerAOut s).lostCount
        slot := (offerAOut s).slot } := by
  unfold offerAOut; split
  · exact chooseFrame_frame s
  · rfl

/-- A created notice changes the queue and its count of losses alone. -/
theorem offerNotice_frame (n : Notice) :
    offerNotice n s =
      { s with
        notices := (offerNotice n s).notices
        lostCount := (offerNotice n s).lostCount } := by
  unfold offerNotice; split <;> rfl

/-- Filing a notice changes the A-out side alone. -/
theorem file_frame (x : Option (Fin 8)) (b : NoticeBody) :
    file x b s =
      { s with
        replies := (file x b s).replies
        forward := (file x b s).forward
        lastChosen := (file x b s).lastChosen
        aOut := (file x b s).aOut
        notices := (file x b s).notices
        lostCount := (file x b s).lostCount
        slot := (file x b s).slot } := by
  unfold file; split
  · rw [offerAOut_frame, offerNotice_frame]
  · rfl

/-- So does filling the slot. -/
theorem fillSlot_frame :
    fillSlot s =
      { s with
        replies := (fillSlot s).replies
        forward := (fillSlot s).forward
        lastChosen := (fillSlot s).lastChosen
        aOut := (fillSlot s).aOut
        notices := (fillSlot s).notices
        lostCount := (fillSlot s).lostCount
        slot := (fillSlot s).slot } := by
  unfold fillSlot; rw [offerAOut_frame]

/-- Appending a reply changes the A-out side alone. -/
theorem appendReply_frame (r : Reply) :
    appendReply r s =
      { s with
        replies := (appendReply r s).replies
        forward := (appendReply r s).forward
        lastChosen := (appendReply r s).lastChosen
        aOut := (appendReply r s).aOut
        notices := (appendReply r s).notices
        lostCount := (appendReply r s).lostCount
        slot := (appendReply r s).slot } := by
  unfold appendReply; rw [offerAOut_frame]

/-- B-out changes its order and its lane alone. -/
theorem offerBOut_frame :
    offerBOut s =
      { s with
        bOut := (offerBOut s).bOut
        bOutOrder := (offerBOut s).bOutOrder } := by
  unfold offerBOut; split <;> (try split) <;> rfl

/-- So does a frame that joins the order. -/
theorem joinBOut_frame (f : Frame) :
    joinBOut f s =
      { s with
        bOut := (joinBOut f s).bOut
        bOutOrder := (joinBOut f s).bOutOrder } := by
  unfold joinBOut; rw [offerBOut_frame]

/-- Deriving causes and ceilings changes the screens alone. -/
theorem deriveMonitors_frame (i : Fin 8) :
    deriveMonitors i s =
      { s with
        screens := (deriveMonitors i s).screens } := rfl

/-- Judging the monitors changes the monitors alone. -/
theorem judgeMonitors_frame (i : Fin 8) (st : ScreenState) :
    judgeMonitors i st s =
      { s with
        monitors := (judgeMonitors i st s).monitors } := rfl

/-- A change of state changes screens and monitors alone. -/
theorem enterState_frame (i : Fin 8) (st : ScreenState) :
    enterState i st s =
      { s with
        screens := (enterState i st s).screens
        monitors := (enterState i st s).monitors } := rfl

/-- So does emptying the windows. -/
theorem emptyWindows_frame (i : Fin 8) :
    emptyWindows i s =
      { s with
        screens := (emptyWindows i s).screens
        monitors := (emptyWindows i s).monitors } := rfl

/-- A reference changes the formats alone. -/
theorem addUse_frame (k : Option (Fin 32)) :
    addUse k s =
      { s with
        formats := (addUse k s).formats } := by
  cases k <;> rfl

/-- So does its release. -/
theorem dropUse_frame (k : Option (Fin 32)) :
    dropUse k s =
      { s with
        formats := (dropUse k s).formats } := by
  cases k <;> rfl

/-- Going OFF changes formats, screens, cursors and monitors alone. -/
theorem goOff_frame (i : Fin 8) :
    goOff i s =
      { s with
        formats := (goOff i s).formats
        screens := (goOff i s).screens
        cueLists := (goOff i s).cueLists
        monitors := (goOff i s).monitors } := by
  unfold goOff; dsimp only
  generalize ha : dropUse s.screens[i].outgoingFormat s = a
  generalize hb : dropUse s.screens[i].pendingFormat a = b
  generalize hc : dropUse s.screens[i].activeFormat b = c
  have ea : a = { s with formats := a.formats } := by rw [← ha]; exact dropUse_frame ..
  have eb : b = { a with formats := b.formats } := by rw [← hb]; exact dropUse_frame ..
  have ec : c = { b with formats := c.formats } := by rw [← hc]; exact dropUse_frame ..
  unfold State.onCueList State.onScreen
  rw [judgeMonitors_frame, ec, eb, ea]

/-- Overtaking a run without its notice changes the run record and the screens alone. -/
theorem endRun_frame (r : AbortReason) :
    endRun r s =
      { s with
        run := (endRun r s).run
        screens := (endRun r s).screens } := rfl

/-- With its notice, the A-out side as well. -/
theorem overtakeRun_frame (r : AbortReason) :
    overtakeRun r s =
      { s with
        run := (overtakeRun r s).run
        screens := (overtakeRun r s).screens
        replies := (overtakeRun r s).replies
        forward := (overtakeRun r s).forward
        lastChosen := (overtakeRun r s).lastChosen
        aOut := (overtakeRun r s).aOut
        notices := (overtakeRun r s).notices
        lostCount := (overtakeRun r s).lostCount
        slot := (overtakeRun r s).slot } := by
  unfold overtakeRun; rw [file_frame, endRun_frame]

/-- Stopping a screen changes screens and monitors alone. -/
theorem stopScreen_frame (i : Fin 8) :
    stopScreen i s =
      { s with
        screens := (stopScreen i s).screens
        monitors := (stopScreen i s).monitors } := rfl

/-- A house stop entry reaches a screen, its monitors and its run alone. -/
theorem houseStopsScreen_frame (i : Fin 8) :
    houseStopsScreen s i =
      { s with
        screens := (houseStopsScreen s i).screens
        monitors := (houseStopsScreen s i).monitors
        run := (houseStopsScreen s i).run
        replies := (houseStopsScreen s i).replies
        forward := (houseStopsScreen s i).forward
        lastChosen := (houseStopsScreen s i).lastChosen
        aOut := (houseStopsScreen s i).aOut
        notices := (houseStopsScreen s i).notices
        lostCount := (houseStopsScreen s i).lostCount
        slot := (houseStopsScreen s i).slot } := by
  unfold houseStopsScreen; dsimp only; split
  · split
    · rfl
    · rw [stopScreen_frame]
  · split
    · rfl
    · rw [stopScreen_frame]
  · split
    · rw [enterState_frame, overtakeRun_frame]
    · rw [stopScreen_frame, overtakeRun_frame]
  · rfl

/-- Resuming a screen changes screens and monitors alone. -/
theorem resumeScreen_frame (i : Fin 8) :
    resumeScreen i s =
      { s with
        screens := (resumeScreen i s).screens
        monitors := (resumeScreen i s).monitors } := rfl

/-- So does a house release. -/
theorem houseReleasesScreen_frame (i : Fin 8) :
    houseReleasesScreen s i =
      { s with
        screens := (houseReleasesScreen s i).screens
        monitors := (houseReleasesScreen s i).monitors } := by
  unfold houseReleasesScreen; dsimp only; split
  · rw [resumeScreen_frame]
  · rfl

/-- Emptying the held list changes the list and the A-out side alone. -/
theorem cancelHeld_frame (b : Bool) :
    cancelHeld b s =
      { s with
        held := (cancelHeld b s).held
        replies := (cancelHeld b s).replies
        forward := (cancelHeld b s).forward
        lastChosen := (cancelHeld b s).lastChosen
        aOut := (cancelHeld b s).aOut
        notices := (cancelHeld b s).notices
        lostCount := (cancelHeld b s).lostCount
        slot := (cancelHeld b s).slot } := by
  unfold cancelHeld; split
  · rfl
  · rw [file_frame]

end Sys2Proof.Machine
end

