-- ==== Sys2Proof/WellFormed.lean ====
section
/-!
DEFINITION. When a row's operands are ones that the row can have: a frame of the row's kind that passes the tests of its
lane (R3, R4), a payload that a COMMAND frame can carry (R4), a frame that its lane discards.
-/

namespace Sys2Proof

/-- The longest payload of a frame (R4). -/
def maxPayload : Nat := 1600

/-- A payload that a COMMAND frame carries, with `extra` bytes before it (R4). -/
def CmdArgs.fits (a : CmdArgs) (extra : Nat) : Bool := decide (a.payload.length + extra ≤ maxPayload)

/-- The frame fails a test of its lane (R3, R4). -/
def Frame.discarded (f : Frame) (lane : Lane) (cutOff : Bool) : Bool := cutOff || !f.intact || !f.classified lane

/-- The operands of a row are ones that it can have. -/
def Instr.wf : Instr → Bool
  | .blockArrival f => f.intact && f.classified .aIn && f.kind == 1
  | .commandArrival f => f.intact && f.classified .aIn && f.kind == 2
  | .forwardArrival f => f.intact && f.classified .bIn
  | .discardedFrame lane cutOff f => f.discarded lane cutOff
  | .aOutFrameSent => true
  | .bOutFrameSent => true
  | .commandTake => true
  | .resetnAssert => true
  | .powerOnReset _ => true
  | .sourceLost _ => true
  | .silentBlock _ => true
  | .faderRampEnd _ => true
  | .stopFadeEnd _ => true
  | .formatCrossfadeEnd _ => true
  | .swapCrossfadeEnd _ => true
  | .settleEnd => true
  | .dwellEnd => true
  | .timerExpiry _ => true
  | .pulsePhaseEnd _ => true
  | .goPulseEnd => true
  | .hstopPinChange _ => true
  | .hstopSensedChange => true
  | .goPinChange _ => true
  | .goSensedChange => true
  | .linePinChange _ _ => true
  | .lineFilterChange _ => true
  | .unitResetKeepTables a => a.fits 1
  | .unitResetClear a => a.fits 1
  | .eqLoadGraphic a => a.fits 1
  | .eqLoadSection a => a.fits 1
  | .unitInfo a => a.fits 0
  | .noticeMask a => a.fits 0
  | .linkStats a => a.fits 0
  | .screenSetup a => a.fits 0
  | .screenClose a => a.fits 0
  | .screenStatus a => a.fits 0
  | .screenResume a => a.fits 0
  | .faderSet a => a.fits 0
  | .muteSet a => a.fits 0
  | .rehearsalSet a => a.fits 0
  | .channelSetup a => a.fits 0
  | .formatLoad a => a.fits 0
  | .formatClear a => a.fits 0
  | .formatArm a => a.fits 0
  | .formatTake a => a.fits 0
  | .formatRead a => a.fits 0
  | .eqCopy a => a.fits 0
  | .eqSwap a => a.fits 0
  | .eqRead a => a.fits 0
  | .curveLoad a => a.fits 0
  | .alignStart a => a.fits 0
  | .alignAbort a => a.fits 0
  | .alignRead a => a.fits 0
  | .monitorLoad a => a.fits 0
  | .monitorEnable a => a.fits 0
  | .monitorDisable a => a.fits 0
  | .monitorAck a => a.fits 0
  | .monitorStatus a => a.fits 0
  | .cuelistLoad a => a.fits 0
  | .cuelistClear a => a.fits 0
  | .linkLoad a => a.fits 0
  | .linkEnable a => a.fits 0
  | .linkDisable a => a.fits 0
  | .timerStart a => a.fits 0
  | .timerStop a => a.fits 0
  | .timerRead a => a.fits 0
  | .cueFire a => a.fits 0
  | .goPulse a => a.fits 0
  | .goCancel a => a.fits 0
  | .heldRead a => a.fits 0
  | .houseSetup a => a.fits 0
  | .houseStop a => a.fits 0
  | .houseRelease a => a.fits 0
  | .houseStatus a => a.fits 0
  | .lineSetup a => a.fits 0
  | .lineSet a => a.fits 0
  | .lineRead a => a.fits 0

end Sys2Proof
end

