-- ==== Sys2Proof/Laws/PerInstr.lean ====
section
/-!
SUPPORT. The family RowOfTable, one lemma for each row: a well-formed row that spells a command spells one of the summary
table (section 9.4), with a payload that a COMMAND frame can carry (R4).
-/

namespace Sys2Proof.Laws

open Machine

/-- A command that a well-formed row spells has a code of section 9.4 and a payload of at most 1600 bytes. -/
def RowOfTable.Statement (i : Instr) : Prop :=
  ∀ c : Command, i.command = some c → i.wf = true → c.code.toNat ∈ commandCodes ∧ c.payload.length ≤ maxPayload

namespace RowOfTable

/-- A row of one command code. -/
theorem of_commandOf {i : Instr} {code : Byte} {a : CmdArgs} (hi : i.command = some (commandOf code a))
    (hw : i.wf = a.fits 0) (hc : code.toNat ∈ commandCodes) : Statement i := by
  intro c h w
  rw [hi] at h
  cases h
  rw [hw] at w
  exact ⟨hc, by simpa [CmdArgs.fits, commandOf] using w⟩

/-- A row of one form of a command code. -/
theorem of_formCommandOf {i : Instr} {code form : Byte} {a : CmdArgs}
    (hi : i.command = some (formCommandOf code form a)) (hw : i.wf = a.fits 1) (hc : code.toNat ∈ commandCodes) :
    Statement i := by
  intro c h w
  rw [hi] at h
  cases h
  rw [hw] at w
  exact ⟨hc, by simpa [CmdArgs.fits, formCommandOf] using w⟩

/-- A row that is an event spells no command. -/
theorem of_event {i : Instr} (hi : i.command = none) : Statement i := by
  intro c h
  rw [hi] at h
  cases h

theorem blockArrival (f : Frame) : Statement (.blockArrival f) := of_event rfl
theorem commandArrival (f : Frame) : Statement (.commandArrival f) := of_event rfl
theorem forwardArrival (f : Frame) : Statement (.forwardArrival f) := of_event rfl
theorem aOutFrameSent : Statement .aOutFrameSent := of_event rfl
theorem bOutFrameSent : Statement .bOutFrameSent := of_event rfl
theorem commandTake : Statement .commandTake := of_event rfl
theorem resetnAssert : Statement .resetnAssert := of_event rfl
theorem powerOnReset (straps : Fin 8) : Statement (.powerOnReset straps) := of_event rfl
theorem sourceLost (screen : Fin 8) : Statement (.sourceLost screen) := of_event rfl
theorem silentBlock (screen : Fin 8) : Statement (.silentBlock screen) := of_event rfl
theorem faderRampEnd (screen : Fin 8) : Statement (.faderRampEnd screen) := of_event rfl
theorem stopFadeEnd (screen : Fin 8) : Statement (.stopFadeEnd screen) := of_event rfl
theorem formatCrossfadeEnd (screen : Fin 8) : Statement (.formatCrossfadeEnd screen) := of_event rfl
theorem swapCrossfadeEnd (screen : Fin 8) : Statement (.swapCrossfadeEnd screen) := of_event rfl
theorem settleEnd : Statement .settleEnd := of_event rfl
theorem dwellEnd : Statement .dwellEnd := of_event rfl
theorem timerExpiry (timer : Fin 8) : Statement (.timerExpiry timer) := of_event rfl
theorem pulsePhaseEnd (line : Fin 16) : Statement (.pulsePhaseEnd line) := of_event rfl
theorem goPulseEnd : Statement .goPulseEnd := of_event rfl
theorem hstopPinChange (asserted : Bool) : Statement (.hstopPinChange asserted) := of_event rfl
theorem hstopSensedChange : Statement .hstopSensedChange := of_event rfl
theorem goPinChange (asserted : Bool) : Statement (.goPinChange asserted) := of_event rfl
theorem goSensedChange : Statement .goSensedChange := of_event rfl
theorem linePinChange (line : Fin 16) (high : Bool) : Statement (.linePinChange line high) := of_event rfl
theorem lineFilterChange (line : Fin 16) : Statement (.lineFilterChange line) := of_event rfl
theorem unitInfo (a : CmdArgs) : Statement (.unitInfo a) := of_commandOf rfl rfl (by decide)
theorem unitResetKeepTables (a : CmdArgs) : Statement (.unitResetKeepTables a) := of_formCommandOf rfl rfl (by decide)
theorem unitResetClear (a : CmdArgs) : Statement (.unitResetClear a) := of_formCommandOf rfl rfl (by decide)
theorem noticeMask (a : CmdArgs) : Statement (.noticeMask a) := of_commandOf rfl rfl (by decide)
theorem linkStats (a : CmdArgs) : Statement (.linkStats a) := of_commandOf rfl rfl (by decide)
theorem screenSetup (a : CmdArgs) : Statement (.screenSetup a) := of_commandOf rfl rfl (by decide)
theorem screenClose (a : CmdArgs) : Statement (.screenClose a) := of_commandOf rfl rfl (by decide)
theorem screenStatus (a : CmdArgs) : Statement (.screenStatus a) := of_commandOf rfl rfl (by decide)
theorem screenResume (a : CmdArgs) : Statement (.screenResume a) := of_commandOf rfl rfl (by decide)
theorem faderSet (a : CmdArgs) : Statement (.faderSet a) := of_commandOf rfl rfl (by decide)
theorem muteSet (a : CmdArgs) : Statement (.muteSet a) := of_commandOf rfl rfl (by decide)
theorem rehearsalSet (a : CmdArgs) : Statement (.rehearsalSet a) := of_commandOf rfl rfl (by decide)
theorem channelSetup (a : CmdArgs) : Statement (.channelSetup a) := of_commandOf rfl rfl (by decide)
theorem formatLoad (a : CmdArgs) : Statement (.formatLoad a) := of_commandOf rfl rfl (by decide)
theorem formatClear (a : CmdArgs) : Statement (.formatClear a) := of_commandOf rfl rfl (by decide)
theorem formatArm (a : CmdArgs) : Statement (.formatArm a) := of_commandOf rfl rfl (by decide)
theorem formatTake (a : CmdArgs) : Statement (.formatTake a) := of_commandOf rfl rfl (by decide)
theorem formatRead (a : CmdArgs) : Statement (.formatRead a) := of_commandOf rfl rfl (by decide)
theorem eqLoadGraphic (a : CmdArgs) : Statement (.eqLoadGraphic a) := of_formCommandOf rfl rfl (by decide)
theorem eqLoadSection (a : CmdArgs) : Statement (.eqLoadSection a) := of_formCommandOf rfl rfl (by decide)
theorem eqCopy (a : CmdArgs) : Statement (.eqCopy a) := of_commandOf rfl rfl (by decide)
theorem eqSwap (a : CmdArgs) : Statement (.eqSwap a) := of_commandOf rfl rfl (by decide)
theorem eqRead (a : CmdArgs) : Statement (.eqRead a) := of_commandOf rfl rfl (by decide)
theorem curveLoad (a : CmdArgs) : Statement (.curveLoad a) := of_commandOf rfl rfl (by decide)
theorem alignStart (a : CmdArgs) : Statement (.alignStart a) := of_commandOf rfl rfl (by decide)
theorem alignAbort (a : CmdArgs) : Statement (.alignAbort a) := of_commandOf rfl rfl (by decide)
theorem alignRead (a : CmdArgs) : Statement (.alignRead a) := of_commandOf rfl rfl (by decide)
theorem monitorLoad (a : CmdArgs) : Statement (.monitorLoad a) := of_commandOf rfl rfl (by decide)
theorem monitorEnable (a : CmdArgs) : Statement (.monitorEnable a) := of_commandOf rfl rfl (by decide)
theorem monitorDisable (a : CmdArgs) : Statement (.monitorDisable a) := of_commandOf rfl rfl (by decide)
theorem monitorAck (a : CmdArgs) : Statement (.monitorAck a) := of_commandOf rfl rfl (by decide)
theorem monitorStatus (a : CmdArgs) : Statement (.monitorStatus a) := of_commandOf rfl rfl (by decide)
theorem cuelistLoad (a : CmdArgs) : Statement (.cuelistLoad a) := of_commandOf rfl rfl (by decide)
theorem cuelistClear (a : CmdArgs) : Statement (.cuelistClear a) := of_commandOf rfl rfl (by decide)
theorem linkLoad (a : CmdArgs) : Statement (.linkLoad a) := of_commandOf rfl rfl (by decide)
theorem linkEnable (a : CmdArgs) : Statement (.linkEnable a) := of_commandOf rfl rfl (by decide)
theorem linkDisable (a : CmdArgs) : Statement (.linkDisable a) := of_commandOf rfl rfl (by decide)
theorem timerStart (a : CmdArgs) : Statement (.timerStart a) := of_commandOf rfl rfl (by decide)
theorem timerStop (a : CmdArgs) : Statement (.timerStop a) := of_commandOf rfl rfl (by decide)
theorem timerRead (a : CmdArgs) : Statement (.timerRead a) := of_commandOf rfl rfl (by decide)
theorem cueFire (a : CmdArgs) : Statement (.cueFire a) := of_commandOf rfl rfl (by decide)
theorem goPulse (a : CmdArgs) : Statement (.goPulse a) := of_commandOf rfl rfl (by decide)
theorem goCancel (a : CmdArgs) : Statement (.goCancel a) := of_commandOf rfl rfl (by decide)
theorem heldRead (a : CmdArgs) : Statement (.heldRead a) := of_commandOf rfl rfl (by decide)
theorem houseSetup (a : CmdArgs) : Statement (.houseSetup a) := of_commandOf rfl rfl (by decide)
theorem houseStop (a : CmdArgs) : Statement (.houseStop a) := of_commandOf rfl rfl (by decide)
theorem houseRelease (a : CmdArgs) : Statement (.houseRelease a) := of_commandOf rfl rfl (by decide)
theorem houseStatus (a : CmdArgs) : Statement (.houseStatus a) := of_commandOf rfl rfl (by decide)
theorem lineSetup (a : CmdArgs) : Statement (.lineSetup a) := of_commandOf rfl rfl (by decide)
theorem lineSet (a : CmdArgs) : Statement (.lineSet a) := of_commandOf rfl rfl (by decide)
theorem lineRead (a : CmdArgs) : Statement (.lineRead a) := of_commandOf rfl rfl (by decide)
theorem discardedFrame (lane : Lane) (cutOff : Bool) (f : Frame) : Statement (.discardedFrame lane cutOff f) :=
    of_event rfl

end RowOfTable

end Sys2Proof.Laws
end

