-- ==== Sys2Proof/Laws/Requests.lean ====
section
/-!
SUPPORT. What each request changes: one lemma for each.
-/

namespace Sys2Proof.Machine

variable (s : State)

/-- A fader request changes the screens alone. -/
theorem requestFader_frame (i : Fin 8) (p ms : Nat) :
    requestFader i p ms s =
      { s with
        screens := (requestFader i p ms s).screens } := rfl

/-- A CUE mute changes the screens alone. -/
theorem setCueMute_frame (i : Fin 8) (on : Bool) :
    setCueMute i on s =
      { s with
        screens := (setCueMute i on s).screens } := rfl

/-- Arming a format changes the screens and the use counts alone. -/
theorem armFormat_frame (i : Fin 8) (k : Option (Fin 32)) :
    armFormat i k s =
      { s with
        formats := (armFormat i k s).formats
        screens := (armFormat i k s).screens } := by
  unfold armFormat; dsimp only; unfold State.onScreen; rw [addUse_frame, dropUse_frame]

/-- The end of a format crossfade changes the screens, the use counts and the A-out side alone. -/
theorem endFormatFade_frame (i : Fin 8) (b : Bool) :
    endFormatFade i b s =
      { s with
        formats := (endFormatFade i b s).formats
        screens := (endFormatFade i b s).screens
        replies := (endFormatFade i b s).replies
        forward := (endFormatFade i b s).forward
        lastChosen := (endFormatFade i b s).lastChosen
        aOut := (endFormatFade i b s).aOut
        notices := (endFormatFade i b s).notices
        lostCount := (endFormatFade i b s).lostCount
        slot := (endFormatFade i b s).slot } := by
  unfold endFormatFade; dsimp only; split
  · rw [file_frame]; unfold State.onScreen; rw [dropUse_frame]
  · unfold State.onScreen; rw [dropUse_frame]

/-- So does taking a format. -/
theorem takeFormat_frame (i : Fin 8) (ms : Nat) :
    takeFormat i ms s =
      { s with
        formats := (takeFormat i ms s).formats
        screens := (takeFormat i ms s).screens
        replies := (takeFormat i ms s).replies
        forward := (takeFormat i ms s).forward
        lastChosen := (takeFormat i ms s).lastChosen
        aOut := (takeFormat i ms s).aOut
        notices := (takeFormat i ms s).notices
        lostCount := (takeFormat i ms s).lostCount
        slot := (takeFormat i ms s).slot } := by
  unfold takeFormat; dsimp only
  generalize ha : (if s.screens[i].formatFade.isSome then endFormatFade i true s else s) = a
  have ea : a = { s with
      formats := a.formats
      screens := a.screens
      replies := a.replies
      forward := a.forward
      lastChosen := a.lastChosen
      aOut := a.aOut
      notices := a.notices
      lostCount := a.lostCount
      slot := a.slot } := by
    rw [← ha]
    split
    · exact endFormatFade_frame ..
    · rfl
  split
  · rw [endFormatFade_frame]; unfold State.onScreen; rw [ea]
  · unfold State.onScreen; rw [ea]

/-- A swap changes the screens alone. -/
theorem swapBanks_frame (i : Fin 8) :
    swapBanks i s =
      { s with
        screens := (swapBanks i s).screens } := rfl

/-- The end of a swap crossfade changes the screens and the A-out side alone. -/
theorem endSwap_frame (i : Fin 8) (b : Bool) :
    endSwap i b s =
      { s with
        screens := (endSwap i b s).screens
        replies := (endSwap i b s).replies
        forward := (endSwap i b s).forward
        lastChosen := (endSwap i b s).lastChosen
        aOut := (endSwap i b s).aOut
        notices := (endSwap i b s).notices
        lostCount := (endSwap i b s).lostCount
        slot := (endSwap i b s).slot } := by
  unfold endSwap; dsimp only; rw [file_frame]; rfl

/-- Starting a timer changes the timers alone. -/
theorem startTimer_frame (t : Fin 8) (n : Nat) (m : RunMode) :
    startTimer t n m s =
      { s with
        timers := (startTimer t n m s).timers } := rfl

/-- So does stopping one. -/
theorem stopTimer_frame (t : Fin 8) :
    stopTimer t s =
      { s with
        timers := (stopTimer t s).timers } := rfl

/-- Enabling or disabling a link changes the links alone. -/
theorem setLink_frame (k : Fin 32) (on : Bool) :
    setLink k on s =
      { s with
        links := (setLink k on s).links } := rfl

/-- Writing a latch changes the lines alone. -/
theorem writeLatch_frame (l : Fin 16) (a : Bool) :
    writeLatch l a s =
      { s with
        lines := (writeLatch l a s).lines } := rfl

/-- So does starting a pulse train. -/
theorem startTrain_frame (l : Fin 16) (n a b : Nat) :
    startTrain l n a b s =
      { s with
        lines := (startTrain l n a b s).lines } := rfl

/-- Requesting a GO pulse changes the controller alone. -/
theorem requestGoPulse_frame :
    requestGoPulse s =
      { s with
        house := (requestGoPulse s).house } := by
  unfold requestGoPulse; split <;> rfl

end Sys2Proof.Machine
end

