-- ==== Sys2Proof/Tests/Slice0.lean ====
section
/-!
SUPPORT. The model's own tests: ill-formed rows that the checks refuse, the check value of the check word, and for every
statement with hypotheses a state and operands that meet them, with what the row then answers.
-/

namespace Sys2Proof.Tests

open Machine

set_option Elab.async false

/-! ### Small states and operands -/

/-- The operands of a command row. -/
def args (selector : Nat) (payload : List Nat) : CmdArgs := ⟨7#8, BitVec.ofNat 8 selector, payload.map (BitVec.ofNat 8)⟩

/-- The operands of a command row whose payload is bytes already. -/
def byteArgs (selector : Nat) (payload : List Byte) : CmdArgs := ⟨7#8, BitVec.ofNat 8 selector, payload⟩

/-- Screen 2 of four channels in a state, on the machine after reset. -/
def screenIn (st : ScreenState) : State := State.reset.onScreen 2 fun x => { x with
  state := st
  channelCount := some 4
  micChannel := some 1
  fader := ⟨70, 70, 70, none⟩
  mutes := { x.mutes with unconfigured := false } }

/-- The same, some milliseconds later. -/
def later (ms : Nat) (s : State) : State := { s with timeBase := s.timeBase + BitVec.ofNat 32 ms }

/-- The house stopped by command. -/
def stopped (s : State) : State := { s with house := { s.house with set := { s.house.set with command := true } } }

/-- Every lane idle and nothing waiting. -/
def idle (s : State) : State := { s with aOut := none, bOut := none }

/-- A silent BLOCK frame of two channels. -/
def block (address position flags : Nat) : Frame :=
  silentFrame (BitVec.ofNat 8 address) (BitVec.ofNat 32 position) (BitVec.ofNat 8 flags) 2

/-- A COMMAND frame with an empty payload. -/
def commandFrame (address : Nat) : Frame := sealFrame #v[2#8, BitVec.ofNat 8 address, 0#8, 0#8, 1#8, 1#8, 14#8, 0#8] []

/-- A REPLY frame with an empty payload. -/
def replyOf (address : Nat) : Frame := sealFrame #v[3#8, BitVec.ofNat 8 address, 0#8, 0#8, 1#8, 1#8, 0#8, 0#8] []

/-- A format of one term, in use by nothing. -/
def oneTerm : FormatEntry := ⟨true, Vector.replicate 8 65#8, .discrete, 1, [⟨0, 0, 0, false⟩], none, 0⟩

/-- The result of the reply that a row appended last. -/
def replied (o : Answered) : Option Result :=
  match o with
  | .next t => t.replies.getLast?.map (·.result)
  | _ => none

/-- The state that a row answers satisfies a test. -/
def gives (o : Answered) (p : State → Bool) : Bool :=
  match o with
  | .next t => p t
  | _ => false

/-! ### Well-formed rows -/

theorem test_wf_block_with_wrong_check : (Instr.blockArrival { block 0 5 1 with check := 0#16 }).wf = false := by
  decide +kernel
theorem test_wf_block_on_the_wrong_lane : (Instr.forwardArrival (block 0 5 1)).wf = false := by decide +kernel
theorem test_wf_command_is_no_block : (Instr.blockArrival (commandFrame 0)).wf = false := by decide +kernel
theorem test_wf_block_is_no_command : (Instr.commandArrival (block 0 5 1)).wf = false := by decide +kernel
theorem test_wf_block_of_unit_eight : (Instr.blockArrival (block 0x80 5 1)).wf = false := by decide +kernel
theorem test_wf_good_frame_is_not_discarded : (Instr.discardedFrame .aIn false (block 0 5 1)).wf = false := by
  decide +kernel
theorem test_wf_payload_too_long : (Instr.houseStop (byteArgs 14 (List.replicate 1601 0#8))).wf = false := by
  decide +kernel
theorem test_wf_form_payload_too_long : (Instr.eqCopy (byteArgs 0 (List.replicate 1600 0#8))).wf = true ∧
    (Instr.eqLoadGraphic (byteArgs 0 (List.replicate 1600 0#8))).wf = false := by decide +kernel
theorem test_wf_good_rows : (Instr.blockArrival (block 0 5 1)).wf = true ∧
    (Instr.commandArrival (commandFrame 0xF0)).wf = true ∧
    (Instr.forwardArrival (replyOf 0x70)).wf = true ∧ (Instr.discardedFrame .bIn false (block 0 5 1)).wf = true := by
  decide +kernel

/-! ### The check word and the table's bits -/

/-- The check value of this check word over the digits 1 to 9. -/
theorem test_check_word_of_the_nine_digits :
    checkWord [49#8, 50#8, 51#8, 52#8, 53#8, 54#8, 55#8, 56#8, 57#8] = 0x29B1#16 := by decide +kernel
/-- The table gives bits to no row. -/
theorem test_no_word_spells_a_row : decodeTableWord 16 0 = none ∧ State.reset.withFetchWord 16 0 = State.reset :=
  ⟨rfl, rfl⟩

/-! ### Steps and time -/

theorem test_idle_step_applies : State.reset.pending = [] ∧ State.reset.inReset = false ∧
    (dueRows State.reset).isEmpty = true ∧ (dueRows (later 20 (screenIn .dark))).isEmpty = false ∧
    { State.reset with inReset := true }.pending = [] := by decide +kernel
theorem test_tick_wraps :
    gives (step { State.reset with timeBase := 4294967295#32 }) (fun t => t.timeBase == 0#32) = true := by
  decide +kernel

theorem test_due_rows :
    dueRows (later 20 (screenIn .dark)) = [.sourceLost 2] ∧
    dueRows (later 1 { State.reset with
      intake := [⟨7#8, 113#8, 14#8, []⟩]
      house := { State.reset.house with hstopOthers := true, goOthers := true } }) =
        [.commandTake, .hstopSensedChange, .goSensedChange] := by decide +kernel

/-! ### The link -/

theorem test_discarded_frames_apply : State.reset.inReset = false ∧ (commandFrame 0).intact = true ∧
    (commandFrame 0).classified .bIn = false ∧ (block 0x80 5 1).classified .aIn = false ∧
    { block 0 5 1 with check := 0#16 }.intact = false := by decide +kernel
theorem test_arrivals_that_fail_apply : (replyOf 0).intact = true ∧ (replyOf 0).classified .aIn = false ∧
    gives (exec (.commandArrival { commandFrame 0 with check := 0#16 }) State.reset) (fun t =>
      t.stats.checkErrors == 1 && t.stats.framesIn == 1 && t.intake.isEmpty) = true ∧
    gives (exec (.forwardArrival (commandFrame 0)) (idle State.reset)) (fun t =>
      t.stats.badFrames == 1 && t.aOut.isNone) = true := by decide +kernel
theorem test_built_frames_apply : ([] : List Byte).length ≤ 1600 ∧ (16 : Nat) ≤ 16 ∧
    (List.replicate 512 (0 : Int)).length = 32 * 16 ∧ (1#8 : Byte) ≠ 0#8 := by decide +kernel
theorem test_block_arrivals_apply : (idle State.reset).inReset = false ∧ (idle State.reset).bOutOrder = [] ∧
    (block 0x70 5 1).intact = true ∧ (block 0x70 5 1).classified .aIn = true ∧ (block 0x70 5 1).kind = 1 ∧
    (block 0x70 5 1).unitNibble ≠ State.reset.unit.val ∧ (block 7 5 3).intact = true ∧
    (block 7 5 3).classified .aIn = true ∧ (block 7 5 3).unitNibble = State.reset.unit.val ∧
    (block 7 5 3).screenNibble = (7 : Fin 8).val ∧ State.reset.screens[(7 : Fin 8)].state = .off := by decide +kernel
theorem test_command_arrivals_apply : (commandFrame 0).intact = true ∧ (commandFrame 0).classified .aIn = true ∧
    (commandFrame 0).kind = 2 ∧ (commandFrame 0).unitNibble = State.reset.unit.val ∧
    (commandFrame 0xF0).classified .aIn = true ∧ (commandFrame 0xF0).unitNibble = 15 ∧
    (commandFrame 0x70).classified .aIn = true ∧ (commandFrame 0x70).unitNibble ≠ State.reset.unit.val := by
  decide +kernel
theorem test_ninth_command_is_dropped :
    gives (exec (.commandArrival (commandFrame 0)) { State.reset with intake := List.replicate 8 ⟨0#8, 0#8, 0#8, []⟩ })
      (fun t => t.intake.length == 8 && t.stats.cmdDropped == 1 && t.stats.framesIn == 1) = true := by decide +kernel
theorem test_forward_arrivals_apply : (replyOf 0).intact = true ∧ (replyOf 0).classified .bIn = true ∧
    State.reset.aOut ≠ none ∧ State.reset.forward.length < 8 ∧ (idle State.reset).aOut = none ∧
    State.reset.replies = [] ∧ State.reset.slot = none ∧ State.reset.notices = [] ∧ State.reset.forward = [] ∧
    { State.reset with forward := List.replicate 8 (replyOf 0) }.forward.length = 8 := by decide +kernel
/-- The notice side and the forward buffer take turns (R12). -/
theorem test_lanes_take_turns :
    gives (exec .aOutFrameSent { State.reset with
        forward := [replyOf 0]
        notices := [readyAtReset]
        lastChosen := .forwardBuffer }) (fun t => t.notices.isEmpty && t.forward.length == 1) = true ∧
    gives (exec .aOutFrameSent { State.reset with
        forward := [replyOf 0]
        notices := [readyAtReset]
        lastChosen := .noticeSide }) (fun t => t.notices.length == 1 && t.forward.isEmpty) = true ∧
    gives (exec .aOutFrameSent { State.reset with
        slot := some ⟨3, 9#32⟩
        notices := [readyAtReset] }) (fun t => t.notices.length == 1 && t.slot.isNone) = true ∧
    gives (exec .aOutFrameSent { State.reset with
        replies := [⟨0#8, 1#8, .ok, 0#8, []⟩]
        notices := [readyAtReset] }) (fun t => t.notices.length == 1 && t.replies.isEmpty) = true ∧
    gives (exec .bOutFrameSent { State.reset with bOutOrder := [replyOf 0, replyOf 1] })
      (fun t => t.bOut == some (replyOf 0) && t.bOutOrder.length == 1) = true := by decide +kernel
theorem test_notices_apply : State.reset.mask.getLsbD (NoticeBody.eqSwapped .a true).kind = true ∧
    State.reset.mask.getLsbD (NoticeBody.lineEdge 0 true).kind = false ∧ State.reset.aOut ≠ none ∧
    State.reset.notices.length < 64 ∧ 64 ≤ (List.replicate 64 readyAtReset).length ∧ (65535 : Nat) ≤ 65535 ∧
    (idle State.reset).aOut = none ∧ (idle State.reset).lostCount = 0 ∧ (255 : Nat) ≤ 255 ∧
    { State.reset with slot := some ⟨255, 0#32⟩ }.slot = some ⟨255, 0#32⟩ := by decide +kernel
theorem test_reset_rows_apply : { State.reset with inReset := true }.inReset = true ∧
    gives (exec (.houseStop (args 14 [])) { State.reset with inReset := true }) (fun t => !t.stopActive) = true ∧
    gives (exec (.timerExpiry 0) { State.reset with inReset := true }) (fun t => t.inReset) = true ∧
    gives (exec .resetnAssert State.reset) (fun t => t.inReset && t.aOut.isNone) = true ∧
    gives (exec (.linePinChange 15 true) { State.reset with inReset := true }) (fun t =>
      t.lines[(15 : Fin 16)].external && t.lines[(15 : Fin 16)].filtered == some false) = true ∧
    gives (exec (.powerOnReset 5) { State.reset with inReset := true }) (fun t => t.unit == 5 && !t.inReset) = true :=
    by
  decide +kernel

/-! ### Screens -/

/-- The machine after reset with format 31 valid. -/
def withFormat : State := State.reset.onFormat 31 fun _ => oneTerm

theorem test_screen_setup_applies : withFormat.canExecute = true ∧
    (byteArgs 7 (setupPayload 16 31 (some 15) .fade .manual ++ bytes2 5000 ++ bytes2 15000)).names 7 ∧
    (1 : Nat) ≤ 16 ∧ withFormat.screens[(7 : Fin 8)] = offScreen false .a ∧ withFormat.monitorsFollowWatchSets ∧
    withFormat.formats[(31 : Fin 32)].valid = true ∧
    (withFormat.formats[(31 : Fin 32)].terms.all fun t => decide (t.output.val < 1)) = true := by
  unfold State.monitorsFollowWatchSets; decide +kernel
theorem test_screen_setup_in_three_lengths :
    replied (exec (.screenSetup (byteArgs 7 (setupPayload 1 31 none .mute .auto))) withFormat) = some .ok ∧
    replied (exec (.screenSetup (byteArgs 7 (setupPayload 16 31 none .fade .auto ++ bytes2 0))) withFormat) =
      some .ok ∧
    gives (exec (.screenSetup (byteArgs 7 (setupPayload 16 31 (some 15) .fade .manual ++ bytes2 5000 ++ bytes2 15000)))
      (stopped withFormat)) (fun t => t.screens[(7 : Fin 8)].state == .stopped) = true := by decide +kernel
theorem test_close_and_resume_apply : (screenIn .dark).canExecute = true ∧ (args 2 []).names 2 ∧
    (args 2 []).payload = [] ∧ (screenIn .dark).screens[(2 : Fin 8)].state = .dark ∧
    (screenIn .stopped).screens[(2 : Fin 8)].state = .stopped ∧ (screenIn .stopped).stopActive = false ∧
    (stopped (screenIn .stopped)).stopActive = true := by decide +kernel
theorem test_close_and_resume_answer : replied (exec (.screenClose (args 2 [])) (screenIn .dark)) = some .ok ∧
    replied (exec (.screenResume (args 2 [])) (screenIn .stopped)) = some .ok ∧
    replied (exec (.screenResume (args 2 [])) (stopped (screenIn .stopped))) = some .stopActive := by decide +kernel
theorem test_fader_set_applies : (args 2 [100, 234, 96]).payload = byteOf 100 :: bytes2 60000 ∧
    (args 2 [0, 0, 0]).payload = byteOf 0 :: bytes2 0 ∧ (screenIn .inShow).canExecute = true ∧
    (screenIn .inShow).screens[(2 : Fin 8)].state ≠ .off ∧ (screenIn .inShow).screens[(2 : Fin 8)].state ≠ .inAlign ∧
    replied (exec (.faderSet (args 2 [100, 234, 96])) (screenIn .inShow)) = some .ok := by decide +kernel
theorem test_mute_set_applies : (args 2 [255, 1]).payload = [255#8, flagByte true] ∧
    (args 2 [3, 0]).payload = [byteOf 3, flagByte false] ∧ (3 : Nat) < (screenIn .dark).screens[(2 : Fin 8)].count ∧
    (args 2 [4, 0]).payload = [byteOf 4, flagByte false] ∧ (screenIn .dark).screens[(2 : Fin 8)].count ≤ 4 ∧
    replied (exec (.muteSet (args 2 [255, 1])) (screenIn .dark)) = some .ok ∧
    replied (exec (.muteSet (args 2 [4, 0])) (screenIn .dark)) = some .badValue := by decide +kernel
theorem test_rehearsal_and_channel_apply : (args 2 [1]).payload = [flagByte true] ∧
    (args 2 [3, 208, 18, 192]).payload = byteOf 3 :: signed1 (-48) ++ bytes2 4800 ∧
    (args 2 [0, 24, 0, 0]).payload = byteOf 0 :: signed1 24 ++ bytes2 0 ∧
    replied (exec (.rehearsalSet (args 2 [1])) State.reset) = some .ok ∧
    replied (exec (.channelSetup (args 2 [3, 208, 18, 192])) (screenIn .stopped)) = some .ok := by decide +kernel
theorem test_ramps_apply : (0 : Nat) < (Ramp.mk 40 100 0#32 60000).duration ∧
    (Ramp.mk 40 100 0#32 60000).positionAt 60000 = 100 ∧ (Ramp.mk 100 0 0#32 7).positionAt 7 = 0 ∧
    min (Fader.mk 70 70 70 none).requested 70 = (Fader.mk 70 70 70 none).effective ∧
    min (Fader.mk 70 70 70 none).requested 30 ≠ (Fader.mk 70 70 70 none).effective ∧
    (Fader.mk 30 70 70 none).position 0#32 = min (Fader.mk 30 70 70 none).requested 30 ∧
    (Fader.mk 70 70 70 none).position 0#32 ≠ min (Fader.mk 70 70 70 none).requested 30 := by decide +kernel
/-- Screen 2 in ALIGN with the engine on it. -/
def aligning : State := { screenIn .inAlign with run := { emptyRun with
  present := true
  screen := 2
  mode := .correct
  passesMax := 2
  settleMs := 100
  dwellMs := 500
  channels := [2, 0]
  pass := 1
  engine := .settle
  outcome := .running
  results := [⟨2, .pending, 0, false, Vector.replicate 31 (-240), 0⟩,
    ⟨0, .pending, 0, false, Vector.replicate 31 (-240), 0⟩] } }
theorem test_timed_screen_rows_apply : (later 20 (screenIn .dark)).inReset = false ∧
    (later 20 (screenIn .dark)).screens[(2 : Fin 8)].sourceLost = false ∧
    20 ≤ elapsed (later 20 (screenIn .dark)).timeBase (screenIn .dark).screens[(2 : Fin 8)].lastArrival ∧
    gives (exec (.sourceLost 2) (later 20 aligning)) (fun t => t.screens[(2 : Fin 8)].state == .dark) = true ∧
    gives (exec (.sourceLost 2) (later 20 (screenIn .dark))) (fun t => t.screens[(2 : Fin 8)].sourceLost &&
      decide (2 * t.screens[(2 : Fin 8)].silentPhase / 3 ≤ elapsed t.timeBase t.screens[(2 : Fin 8)].silentBase)) =
        true ∧
    gives (exec (.sourceLost 2) (later 20 ((screenIn .dark).onScreen 2 fun x => { x with silentPhase := 2 })))
      (fun t => t.screens[(2 : Fin 8)].silentPhase == 1) = true := by decide +kernel
theorem test_ramp_and_stop_fade_ends_apply :
    gives (exec (.faderRampEnd 2) (later 5 ((screenIn .dark).onScreen 2 fun x =>
      { x with fader := ⟨3, 9, 9, some ⟨3, 9, 0#32, 5⟩⟩ })))
        (fun t => t.screens[(2 : Fin 8)].fader == ⟨9, 9, 9, none⟩) =
        true ∧
    gives (exec (.stopFadeEnd 2) (later 2000 ((screenIn .stopped).onScreen 2 fun x =>
      { x with stopFade := some 0#32 })))
      (fun t => t.screens[(2 : Fin 8)].mutes.stop && t.screens[(2 : Fin 8)].stopFade.isNone) = true ∧
    (2000 : Nat) ≤ elapsed (later 2000 (screenIn .stopped)).timeBase 0#32 ∧
    (screenIn .stopped).screens[(2 : Fin 8)].stopFadeMs = 2000 := by decide +kernel
theorem test_timed_screen_rows_wait :
    elapsed (later 19 (screenIn .dark)).timeBase (screenIn .dark).screens[(2 : Fin 8)].lastArrival < 20 ∧
    exec (.sourceLost 2) (later 19 (screenIn .dark)) = .next (later 19 (screenIn .dark)) ∧
    exec (.silentBlock 2) (screenIn .dark) = .next (screenIn .dark) ∧
    exec (.faderRampEnd 2) (screenIn .dark) = .next (screenIn .dark) ∧
    exec (.stopFadeEnd 2) (screenIn .dark) = .next (screenIn .dark) := by
  refine ⟨by decide +kernel, rfl, rfl, rfl, rfl⟩
theorem test_silent_block_waits_for_its_time :
    let s := (screenIn .dark).onScreen 2 fun x => { x with sourceLost := true, silentPhase := 2 }
    s.screens[(2 : Fin 8)].sourceLost = true ∧ elapsed s.timeBase s.screens[(2 : Fin 8)].silentBase < 2 * 2 / 3 ∧
    2 * 2 / 3 ≤ elapsed (later 1 s).timeBase s.screens[(2 : Fin 8)].silentBase := by decide +kernel
theorem test_block_moves_applies : (screenIn .dark).inReset = false ∧ Frame.passes (block 2 5 1) .aIn ∧
    (block 2 5 1).kind = 1 ∧ (block 2 5 1).unitNibble = (screenIn .dark).unit.val ∧
    (block 2 5 1).screenNibble = (2 : Fin 8).val ∧ (screenIn .dark).screens[(2 : Fin 8)].state ≠ .off ∧
    (screenIn .dark).cueLists[(2 : Fin 8)].entries = [] ∧ (∀ k : Fin 32, (screenIn .dark).links[k].enabled = false) ∧
    (∀ m : Fin 48, (screenIn .dark).monitors[m].enabled = false) ∧ (screenIn .dark).engineHoldsItsScreen ∧
    aligning.engineHoldsItsScreen ∧
    gives (exec (.blockArrival (block 2 5 1)) aligning) (fun t => t.screens[(2 : Fin 8)].state == .inShow) = true := by
  unfold State.engineHoldsItsScreen; decide +kernel
/-- A screen in SHOW whose last block was at position 4 and whose source is lost. -/
def playingOn : State := (screenIn .inShow).onScreen 2 fun x =>
  { x with sourceLost := true, lastPosition := some 4#32, showPeakLong := -50 }
theorem test_block_stages_apply :
    gives (exec (.blockArrival (block 2 5 3)) (idle (screenIn .dark))) (fun t => t.bOut == some (block 2 5 1) ||
      t.bOut.map (·.channelCount) == some 4) = true ∧
    (noteArrival 2 (block 2 7 1) playingOn).notices.length = 1 ∧
    (noteArrival 2 (block 2 7 1) (screenIn .dark)).notices = [] ∧
    (actOnRun 2 true (some 7#32) (screenIn .dark)).screens[(2 : Fin 8)].state = .inShow ∧
    (actOnRun 2 false none playingOn).notices.head?.map (·.body) = some (.showEnd (-50)) ∧
    (actOnRun 2 true none aligning).notices.map (·.body.kind) =
      [NoticeBody.kind (.alignAborted .showStarted 0), NoticeBody.kind (.showStart none)] ∧
    (screenIn .stopped).screens[(2 : Fin 8)].state ≠ .dark ∧ (screenIn .stopped).screens[(2 : Fin 8)].state ≠ .inAlign ∧
    (screenIn .stopped).screens[(2 : Fin 8)].state ≠ .inShow := by decide +kernel
theorem test_show_start_empties : (startShow 2 none playingOn).screens[(2 : Fin 8)].showPeakLong = -240 ∧
    (startShow 2 none playingOn).screens[(2 : Fin 8)].lastPosition = none := by decide +kernel
theorem test_gaps_count : (handlePosition 2 (some 5#32) playingOn).stats.gaps[(2 : Fin 8)] = 0 ∧
    (handlePosition 2 (some 6#32) playingOn).stats.gaps[(2 : Fin 8)] = 1 ∧
    (handlePosition 2 (some 3#32) playingOn).notices.map (·.body) = [.blockGap (-2#32)] ∧
    (let s := playingOn.onScreen 2 fun x => { x with lastPosition := some 4294967294#32 };
      (handlePosition 2 (some 0#32) s).notices.map (·.body) = [.blockGap 1#32]) := by decide +kernel
theorem test_readings_apply : (0 : Nat) < 1 ∧ levelOf 0 1 = -240 ∧ levelOf 1 1 = 0 ∧ levelOf 1 100 = -40 ∧
    (screenIn .dark).screens[(2 : Fin 8)].mutes = ⟨false, false, false, false, false⟩ ∧
    State.reset.screens[(2 : Fin 8)].mutes ≠ ⟨false, false, false, false, false⟩ ∧
    (screenIn .dark).screens[(2 : Fin 8)].stopFade = none := by decide +kernel
theorem test_meters_apply : (let t := [[100, 0], [1, 9]].foldl (fun m x => Meter.take m 100 x) restMeter.restart;
      t.peak = levelOf 9 100 ∧ t.short = levelOf 110 6400 ∧ t.long = -240) ∧
    ([] : List (List Nat)).getLast? = none ∧ (List.replicate 1500 [0]).length / 1500 = 1 ∧
    (1499 : Nat) / 1500 = 0 := by decide +kernel
/-- A screen a quarter of the way through its stop fade. -/
def fading : Screen := { (screenIn .stopped).screens[(2 : Fin 8)] with stopFade := some 0#32 }
theorem test_stop_fade_applies : fading.mutes = ⟨false, false, false, false, false⟩ ∧
    fading.channels[(0 : Fin 16)].mutes = ⟨false, false, false⟩ ∧ elapsed 500#32 0#32 ≤ fading.stopFadeMs ∧
    0 < fading.stopFadeMs ∧ muteStage 500#32 fading 0 [8, -4] = [6, -3] := by decide +kernel
/-- A channel's block of zeros at the meter point. -/
def silentChannel : PassedChannel := ⟨List.replicate 32 0, [], ⟨restStages, restStages⟩⟩
theorem test_passed_applies : (∀ p ∈ [silentChannel, silentChannel], p.samples.length = 32) ∧
    (((screenIn .inShow).screens[(2 : Fin 8)].passed State.reset.formats [] [silentChannel]).channels[
      (0 : Fin 16)]).meter.window = [0] := by decide +kernel
theorem test_delay_applies : (List.replicate 32 (7 : Int)).length = 32 ∧ (31 : Nat) < 32 ∧
    (readLine (extendLine [] (List.replicate 32 7)) 1).head? = some 0 ∧
    (readLine (extendLine [3] (List.replicate 32 7)) 1).head? = some 3 ∧
    (readLine (extendLine [3] (List.replicate 32 7)) 4800).getLast? = some 0 := by decide +kernel
/-- Screen 2 in SHOW on a format that expects some inputs. -/
def expecting (kind : FormatKind) (inputs : Nat) : State :=
  ((screenIn .inShow).onScreen 2 fun x => { x with activeFormat := some 31 }).onFormat 31 fun _ =>
    { oneTerm with kind := kind, inputsExpected := inputs }
theorem test_mismatches_apply :
    (checkMismatch 2 (block 2 5 3) (expecting .discrete 3)).notices.map (·.body) =
      [.formatMismatch 31 .kindAndCount] ∧
    (checkMismatch 2 (block 2 5 1) (expecting .matrix 2)).notices.map (·.body) = [.formatMismatch 31 .kind] ∧
    (checkMismatch 2 (block 2 5 1) (expecting .discrete 3)).notices.map (·.body) = [.formatMismatch 31 .count] ∧
    (checkMismatch 2 (block 2 5 1) (expecting .discrete 2)).notices = [] ∧
    (expecting .discrete 2).screens[(2 : Fin 8)].mismatchReported = false ∧
    (screenIn .inShow).screens[(2 : Fin 8)].activeFormat = none := by decide +kernel
theorem test_fader_law_applies : (1 : Nat) ≤ 39 ∧ (39 : Nat) < 40 ∧ faderGain 39 = some (-72) ∧
    faderGain 40 = some (-60) ∧
    faderGain 70 = some 0 ∧ gainFactor 0 = 4294967296 ∧ (0 : Int) ≤ 360 := by
  decide +kernel
/-- Screen 2 on the format of one term. -/
def decoding : Screen := (expecting .discrete 1).screens[(2 : Fin 8)]
/-- The same in a crossfade from another format. -/
def mixing : Screen := { decoding with formatFade := some ⟨0#32, 4⟩, outgoingFormat := some 30 }
theorem test_decode_applies : decoding.activeFormat = some 31 ∧ decoding.formatFade = none ∧
    faderGain (decoding.fader.position 0#32) = some 0 ∧
    decodeChannel (expecting .discrete 1) decoding [[5], []] 0 = [5 * 4294967296, 0] ∧
    decodeChannel (expecting .discrete 1) decoding [[5], []] 1 = [0, 0] ∧
    State.reset.screens[(2 : Fin 8)].activeFormat = none ∧
    faderGain (State.reset.screens[(2 : Fin 8)].fader.position 0#32) = none ∧
    mixing.formatFade = some ⟨0#32, 4⟩ ∧ mixing.outgoingFormat = some 30 ∧
    decodeChannel (later 2 (expecting .discrete 1)) mixing [[4]] 0 = [2 * 4294967296] := by decide +kernel
theorem test_crossfade_applies : crossfade 0 50 [100] [7] = [7] ∧ crossfade 50 50 [100] [7] = [100] ∧
    crossfade 25 50 [100] [8] = [54] ∧ [100].length = [7].length ∧ (25 : Nat) ≤ 50 ∧ (0 : Nat) < 50 := by decide +kernel
theorem test_trim_stage_applies : aligning.screens[(2 : Fin 8)].state = .inAlign ∧
    aligning.run.channels[aligning.run.position]? = some 2 ∧
    aligning.run.channels[aligning.run.position]? ≠ some 0 ∧ (screenIn .dark).screens[(2 : Fin 8)].state ≠ .inAlign ∧
    (-120 : Level) ≤ -120 ∧ (-20 : Level) ≤ -20 := by decide +kernel
/-- Screen 2 in a swap crossfade. -/
def swapping : Screen := { decoding with eqSwap := some ⟨0#32, .b⟩ }
theorem test_eq_stage_applies : swapping.eqSwap = some ⟨0#32, .b⟩ ∧ decoding.eqSwap = none ∧
    (eqStage State.reset 2 decoding 0 [1, 2]).1 = [1, 2] ∧
    (eqStage (later 25 State.reset) 2 swapping 0 [1, 2]).1 = [1, 2] ∧
    (flatBank.graphic.toList.all (· == 0) && flatBank.sections.toList.all fun q => q.type == .none) = true := by
  decide +kernel
theorem test_responses_apply : (∀ g ∈ (Vector.replicate 31 (24 : Int)).toList, -48 ≤ g ∧ g ≤ 24) ∧
    (∃ hz : ℝ, 20 * 2 ^ ((29 : ℝ) / 3) ≤ hz ∧ hz ≤ 20 * 2 ^ (((29 : ℝ) + 1) / 3)) ∧
    (0.4 : ℝ) * 2 ^ (((0 : Nat) : ℝ) / 6) < 0.4 * 2 ^ (((31 : Nat) : ℝ) / 6) := by
  refine ⟨by decide, ⟨_, le_rfl, ?_⟩, ?_⟩
  · gcongr <;> norm_num
  · norm_num
    exact Real.one_lt_rpow (by norm_num) (by norm_num)
theorem test_processed_samples_apply : (0 : Nat) < (screenIn .dark).screens[(2 : Fin 8)].count ∧
    (screenIn .dark).screens[(2 : Fin 8)].count ≤ 16 := by decide +kernel

/-! ### Formats -/

/-- A format of two inputs with every matrix field at an end of its range. -/
def matrixFormat : FormatEntry :=
  ⟨true, Vector.replicate 8 126#8, .matrix, 2, [⟨15, 15, -240, true⟩, ⟨0, 1, 0, false⟩],
    some ⟨40, 39, 3000, [⟨0, 24⟩, ⟨15, -240⟩], [], [⟨2, 0⟩], [], [⟨15, -240⟩]⟩, 0⟩

theorem test_format_load_applies : oneTerm.ok ∧ matrixFormat.ok ∧ State.reset.formats[(31 : Fin 32)].useCount = 0 ∧
    replied (exec (.formatLoad (byteArgs 14 (formatPayload 31 oneTerm))) State.reset) = some .ok ∧
    replied (exec (.formatLoad (byteArgs 14 (formatPayload 0 matrixFormat))) State.reset) = some .ok := by
  refine ⟨⟨by decide, by decide, by decide, by decide, by decide, by decide, by decide, rfl⟩,
    ⟨by decide, by decide, by decide, by decide, by decide, by decide, by decide, rfl, _, rfl, by
      unfold MatrixPart.ok; decide⟩, by decide +kernel, by decide +kernel, by decide +kernel⟩

/-- Screen 2 dark on format 3, with format 31 pending. -/
def takeable : State := (withFormat.onScreen 2 fun _ => { (screenIn .dark).screens[(2 : Fin 8)] with
  activeFormat := some 3
  pendingFormat := some 31 }).onFormat 3 fun _ => { oneTerm with useCount := 1 }

theorem test_format_in_use_applies : 0 < takeable.formats[(3 : Fin 32)].useCount ∧
    replied (exec (.formatClear (args 14 [3])) takeable) = some .inUse ∧
    replied (exec (.formatLoad (byteArgs 14 (formatPayload 3 oneTerm))) takeable) = some .inUse ∧
    replied (exec (.formatClear (args 14 [31])) takeable) = some .ok := by decide +kernel
/-- The crossfade of screen 2 in flight, from format 4. -/
def crossfading : State := takeable.onScreen 2 fun x => { x with
  outgoingFormat := some 4
  formatFade := some ⟨0#32, 2000⟩ }
theorem test_format_take_applies : takeable.canExecute = true ∧ takeable.formats[(31 : Fin 32)].valid = true ∧
    replied (exec (.formatArm (byteArgs 2 [indexByte (some (31 : Fin 32))])) takeable) = some .ok ∧
    replied (exec (.formatArm (byteArgs 2 [indexByte (none : Option (Fin 32))])) takeable) = some .ok ∧
    gives (exec (.formatTake (byteArgs 2 (bytes2 2000))) takeable) (fun t =>
      t.screens[(2 : Fin 8)].activeFormat == some 31 && t.screens[(2 : Fin 8)].outgoingFormat == some 3) = true ∧
    gives (exec (.formatTake (byteArgs 2 (bytes2 0))) takeable) (fun t =>
      t.screens[(2 : Fin 8)].activeFormat == some 31 && t.screens[(2 : Fin 8)].outgoingFormat == none) = true ∧
    gives (exec (.formatTake (byteArgs 2 (bytes2 1))) crossfading) (fun t =>
      t.screens[(2 : Fin 8)].outgoingFormat == some 3 && t.notices.length == 1) = true ∧
    gives (exec (.formatTake (byteArgs 2 (bytes2 0))) crossfading) (fun t =>
      t.screens[(2 : Fin 8)].outgoingFormat == none && t.notices.length == 2) = true ∧
    replied (exec (.formatTake (byteArgs 2 (bytes2 2000))) (screenIn .dark)) = some .badState ∧
    (screenIn .dark).screens[(2 : Fin 8)].pendingFormat = none := by decide +kernel
theorem test_crossfades_end : (2000 : Nat) ≤ elapsed (later 2000 crossfading).timeBase 0#32 ∧
    gives (exec (.formatCrossfadeEnd 2) (later 2000 crossfading))
      (fun t => t.screens[(2 : Fin 8)].outgoingFormat == none && t.screens[(2 : Fin 8)].formatFade == none) = true ∧
    gives (exec (.eqSwap (args 2 [])) (screenIn .dark)) (fun t => t.screens[(2 : Fin 8)].eqLive == .b) = true ∧
    gives (exec (.swapCrossfadeEnd 2) (later 50 ((screenIn .dark).onScreen 2 fun x =>
      { x with eqSwap := some ⟨0#32, .b⟩ }))) (fun t => t.screens[(2 : Fin 8)].eqSwap == none) = true ∧
    (50 : Nat) ≤ elapsed (later 50 (screenIn .dark)).timeBase 0#32 := by decide +kernel
/-- Screen 2 on the matrix format, and a block with all its sound in input 0. -/
def steering : State := (expecting .discrete 1).onFormat 31 fun _ => matrixFormat
theorem test_passed_steering_applies : steering.formats[(31 : Fin 32)].matrix ≠ none ∧
    steering.screens[(2 : Fin 8)].activeFormat = some 31 ∧
    (let t := steering.screens[(2 : Fin 8)].passed steering.formats (List.replicate 32 [8388607, 0]) [];
      t.steerSum.short = -12 ∧ t.steerDiff.short = -12 ∧ t.steering = ⟨none, some .left, 1⟩) ∧
    (expecting .discrete 1).formats[(31 : Fin 32)].matrix = none := by decide +kernel
theorem test_steering_applies : (MatrixPart.mk 40 39 1 [] [] [] [] []).ok ∧
    Steering.update ⟨none, none, 0⟩ ⟨40, 39, 1, [], [], [], [], []⟩ 40 39 = ⟨some .left, some .left, 0⟩ ∧
    Steering.update ⟨none, none, 0⟩ ⟨40, 39, 2, [], [], [], [], []⟩ 40 40 = ⟨none, some .centre, 1⟩ ∧
    Steering.update ⟨some .left, none, 0⟩ ⟨40, 39, 2, [], [], [], [], []⟩ 38 0 = ⟨none, none, 0⟩ ∧
    Steering.update ⟨some .left, some .right, 1⟩ ⟨40, 39, 2, [], [], [], [], []⟩ (-40) 0 =
      ⟨some .right, some .right, 0⟩ := by unfold MatrixPart.ok; decide +kernel

/-! ### Room equalisation -/

theorem test_eq_load_applies : (screenIn .dark).screens[(2 : Fin 8)].eqSwap = none ∧
    (∀ x ∈ (Vector.replicate 31 (-48 : Int)).toList, -48 ≤ x ∧ x ≤ 24) ∧
    replied (exec (.eqLoadGraphic (byteArgs 2 (byteOf 15 :: (Vector.replicate 31 (-48)).toList.flatMap signed1)))
      (screenIn .dark)) = some .ok ∧
    replied (exec (.eqLoadGraphic (byteArgs 2 (byteOf 0 :: (Vector.replicate 31 24).toList.flatMap signed1)))
      State.reset) = some .ok ∧
    replied (exec (.eqLoadSection (byteArgs 2 ([byteOf 15, byteOf 7] ++ (EqSection.mk .highCut 119 (-48) 31).bytes)))
      (screenIn .dark)) = some .ok ∧
    replied (exec (.eqLoadSection (byteArgs 2 ([byteOf 0, byteOf 0] ++ (EqSection.mk .none 0 24 0).bytes)))
      (screenIn .dark)) = some .ok := by decide +kernel
/-- A valid flat curve over all the bands. -/
def flatCurve : Curve := ⟨true, 0, 30, Vector.replicate 31 0, 24⟩
theorem test_curve_load_applies : ¬(State.reset.run.curve = 3 ∧ State.reset.run.outcome = .running) ∧
    replied (exec (.curveLoad (byteArgs 14 ([byteOf 3, 1#8, byteOf 30, byteOf 30] ++
      (Vector.replicate 31 24).toList.flatMap signed1 ++ [byteOf 1]))) State.reset) = some .ok ∧
    replied (exec (.curveLoad (byteArgs 14 (byteOf 3 :: 0#8 :: List.replicate 34 255#8))) State.reset) = some .ok ∧
    aligning.run.curve = 0 ∧ aligning.run.outcome = .running ∧
    replied (exec (.curveLoad (byteArgs 14 (byteOf 0 :: flagByte true :: List.replicate 34 255#8))) aligning) =
      some .inUse ∧
    replied (exec (.curveLoad (byteArgs 14 (byteOf 0 :: flagByte false :: List.replicate 34 255#8))) aligning) =
      some .inUse := by
  decide +kernel
theorem test_eq_copy_applies : replied (exec (.eqCopy (args 2 [])) (screenIn .dark)) = some .ok ∧
    replied (exec (.eqCopy (args 2 [])) State.reset) = some .ok ∧
    replied (exec (.eqCopy (args 2 [])) aligning) = some .busy ∧
    replied (exec (.eqCopy (args 2 [])) ((screenIn .dark).onScreen 2 fun x => { x with eqSwap := some ⟨0#32, .b⟩ })) =
      some .busy := by decide +kernel
theorem test_no_row_writes_a_live_bank_applies : ∃ t, exec (.eqCopy (args 2 [])) (screenIn .dark) = .next t ∧
    t.replies ≠ (screenIn .dark).replies := ⟨_, rfl, by decide +kernel⟩

/-! ### Alignment runs -/

/-- The parameters of a run over two channels, at ends of their ranges. -/
def request : RunRequest := ⟨3, .correct, 8, 100, 10000, -20, true, [3, 0]⟩
theorem test_align_start_applies : request.ok (screenIn .dark).screens[(2 : Fin 8)].count ∧
    (RunRequest.mk 0 .measureOnly 1 2000 500 (-120) false [0]).ok 1 ∧
    (let s := { screenIn .dark with curves := (screenIn .dark).curves.set 3 flatCurve };
      s.run.engine = .idle ∧ s.stopActive = false ∧ s.screens[(2 : Fin 8)].micChannel ≠ none ∧
      replied (exec (.alignStart (byteArgs 2 (alignPayload request))) s) = some .accepted ∧
      gives (exec (.alignStart (byteArgs 2 (alignPayload request)))
        (s.onScreen 2 fun x => { x with eqSwap := some ⟨0#32, .b⟩ })) (fun t => t.notices.length == 1 &&
          t.run.engine == .settle && t.screens[(2 : Fin 8)].state == .inAlign) = true) := by
  refine ⟨?_, ?_, ?_⟩
  · unfold RunRequest.ok; decide
  · unfold RunRequest.ok; decide
  · decide +kernel
/-- The dwell of the first channel, some samples in. -/
def dwelling (total : Nat) (clipped : Bool) : State := { aligning with run := { aligning.run with
  engine := .dwell
  acc := ⟨Vector.replicate 31 total, total, 1, clipped, [0]⟩ } }
theorem test_phases_end : gives (exec .settleEnd (later 100 aligning)) (fun t => t.run.engine == .dwell) = true ∧
    aligning.run.channels[aligning.run.position]? = some 2 ∧
    gives (exec .dwellEnd (later 500 (dwelling 0 false)))
      (fun t => t.run.results.head?.map (·.result) == some .noSignal && t.run.position == 1) = true ∧
    gives (exec .dwellEnd (later 500 (dwelling 10000000000 true)))
      (fun t => t.run.results.head?.map (·.result) == some .clipped) = true ∧
    gives (exec .dwellEnd (later 500 (dwelling 10000000000 false)))
      (fun t => t.run.results.head?.map (·.result) == some .converged) = true ∧
    (100 : Nat) ≤ elapsed (later 100 aligning).timeBase 0#32 ∧
    (500 : Nat) ≤ elapsed (later 500 aligning).timeBase 0#32 := by
  decide +kernel
theorem test_mean_rounds_away : meanAway 3 2 = 2 ∧ meanAway (-3) 2 = -2 ∧ meanAway 1 3 = 0 ∧ (0 : Nat) < 1 ∧
    2 * ((3 : Int) - 2 * meanAway 3 2) = -2 ∧ 2 * ((-3 : Int) - 2 * meanAway (-3) 2) = 2 := by decide +kernel
theorem test_judged_passes_apply : aligning.run.results[aligning.run.position]?.isSome = true ∧ flatCurve.high ≤ 30 ∧
    (let steep := Vector.ofFn fun b : Fin 31 => if b.val = 0 then (-240 : Int) else 0;
      let s := { aligning with curves := aligning.curves.set 0 flatCurve };
      largestDeviation (flatCurve.deviations (Vector.replicate 31 (-60))) ≤ flatCurve.tolerance ∧
      flatCurve.tolerance < largestDeviation (flatCurve.deviations steep) ∧
      s.run.pass < s.run.passesMax ∧ (judgePass 2 steep s).run.pass = 2 ∧
      ((judgePass 2 steep { s with run := { s.run with pass := 2 } }).run.results.head?.map (·.result)) =
        some .notConverged ∧
      ((judgePass 2 steep { s with run := { s.run with mode := .measureOnly } }).run.results.head?.map (·.result)) =
        some .notConverged) := by decide +kernel
theorem test_runs_end : aligning.run.channels[aligning.run.position + 1]? = some 0 ∧
    (finishChannel .converged aligning).run.position = 1 ∧
    (let s := { aligning with run := { aligning.run with position := 1 } };
      s.run.channels[s.run.position + 1]? = none ∧ (finishChannel .converged s).run.outcome = .complete ∧
      (finishChannel .converged s).screens[(2 : Fin 8)].state = .dark) ∧
    ((overtakeRun .noSource aligning).run.results.map (·.result)) = [.aborted, .skipped] ∧
    replied (exec (.alignAbort (args 2 [])) aligning) = some .ok ∧
    replied (exec (.alignAbort (args 2 [])) (screenIn .dark)) = some .badState := by decide +kernel

/-! ### Level monitors -/

/-- The content of a monitor of screen 2 that reads the sum. -/
def content (condition : Condition) (a b : Level) (partner : Option (Fin 48)) : MonitorContent :=
  { emptyContent with
    screen := 2
    condition := condition
    a := a
    b := b
    partner := partner
    watch := ⟨true, false, false⟩
    action := .muteScreen
    notify := true }

/-- Screen 2 dark, with monitor 47 of it in a state. -/
def monitored (st : MonitorState) : State := (screenIn .dark).onMonitor 47 fun m => { m with
  loaded := true
  enabled := decide (st ≠ .off)
  state := st
  content := content .above (-60) 0 none }

theorem test_monitor_load_applies : (content .above (-240) 0 none).ok State.reset 47 ∧
    (content .below 0 0 none).ok State.reset 0 ∧ (content .outside (-1) 0 none).ok State.reset 0 ∧
    (content .inside 0 0 none).ok State.reset 0 ∧ (content .jump 240 0 none).ok State.reset 0 ∧
    (content .track 1 0 (some 47)).ok (monitored .clear) 46 := by
  refine ⟨⟨⟨by decide, by decide, rfl, rfl⟩, by decide, by decide, by decide, nofun, nofun⟩,
    ⟨⟨by decide, by decide, rfl, rfl⟩, by decide, by decide, by decide, nofun, nofun⟩,
    ⟨⟨by decide, by decide, by decide, rfl⟩, by decide, by decide, by decide, nofun, nofun⟩,
    ⟨⟨by decide, by decide, by decide, rfl⟩, by decide, by decide, by decide, nofun, nofun⟩,
    ⟨⟨by decide, by decide, rfl, rfl⟩, by decide, by decide, by decide, nofun, nofun⟩,
    ⟨⟨by decide, by decide, rfl, 47, rfl, by decide, by decide +kernel, by decide +kernel⟩, by decide, by decide,
      by decide, nofun, nofun⟩⟩
theorem test_monitor_load_answers :
    replied (exec (.monitorLoad (byteArgs 14 (byteOf 47 :: (content .above (-240) 0 none).bytes))) State.reset) =
      some .ok ∧
    replied (exec (.monitorLoad (byteArgs 14 (byteOf 46 :: (content .track 1 0 (some 47)).bytes)))
      (monitored .clear)) = some .ok ∧
    replied (exec (.monitorLoad (byteArgs 14 (byteOf 47 :: (content .above 0 0 none).bytes))) (monitored .clear)) =
      some .inUse := by decide +kernel
theorem test_monitor_commands_apply : replied (exec (.monitorEnable (args 14 [47])) (monitored .off)) = some .ok ∧
    gives (exec (.monitorEnable (args 14 [47])) (monitored .off)) (fun t => t.monitors[(47 : Fin 48)].state == .clear) =
      true ∧
    (monitored .clear).monitors[(47 : Fin 48)].enabled = true ∧
    replied (exec (.monitorEnable (args 14 [47])) State.reset) = some .badState ∧
    gives (exec (.monitorDisable (args 14 [47])) (monitored .raised)) (fun t =>
      t.monitors[(47 : Fin 48)].state == .off) = true ∧
    replied (exec (.monitorAck (args 14 [47])) (monitored .latched)) = some .ok ∧
    replied (exec (.monitorAck (args 14 [47])) (monitored .raised)) = some .badState ∧
    replied (exec (.monitorStatus (args 14 [47, 1])) (monitored .raised)) = some .ok ∧
    replied (exec (.monitorStatus (args 14 [255, 1])) (monitored .raised)) = some .ok ∧
    replied (exec (.monitorStatus (args 14 [47, 0])) (monitored .raised)) = some .ok := by decide +kernel
/-- Monitor 47 stops the house when its condition holds, and monitor 46 mutes its screen. -/
def stopping : State := (monitored .clear).onMonitor 46 (fun _ => (monitored .clear).monitors[(47 : Fin 48)])
  |>.onMonitor 47 fun m => { m with content := { m.content with action := .houseStop } }
theorem test_readings_of_monitors_apply : stopping.reading (content .above 0 0 none) = -240 ∧
    State.reset.reading (content .above 0 0 none) = -240 ∧
    stopping.reading { content .above 0 0 none with point := .output 15 } = -240 ∧
    (screenIn .dark).screens[(2 : Fin 8)].count ≤ (15 : Fin 16).val ∧
    (let loud := stopping.onScreen 2 fun x => { x with sum := { x.sum with peak := 0 } };
      loud.reading (content .above 0 0 none) = 0 ∧ (loud.monitorEvents 2).length = 2 ∧
      (evaluateMonitors 2 loud).house.set.monitor = true ∧ (evaluateMonitors 2 loud).notices.length = 2) := by
  decide +kernel
theorem test_monitor_moves_apply :
    (∀ st : MonitorState, (monitored st).monitors[(47 : Fin 48)].state = st ∧
      (monitored st).monitors[(47 : Fin 48)].raiseCount ≤ 255) ∧
    (∀ m : Fin 48, (monitored .clear).monitors[m].content.action ≠ .houseStop) ∧
    (∀ k : Fin 32, (monitored .clear).links[k].enabled = false) ∧
    (evaluateMonitors 2 (monitored .raised)).monitors[(47 : Fin 48)].state = .clear ∧
    (evaluateMonitors 2 ((monitored .clear).onScreen 2 fun x => { x with sum := { x.sum with peak := 0 } })).monitors[
      (47 : Fin 48)].state = .raised := by
  refine ⟨fun st => by cases st <;> decide +kernel, ?_⟩
  decide +kernel

/-! ### Cue lists, links and timers -/

/-- A cue entry that sends a notice. -/
def noticeAt (position : Nat) : CueEntry := ⟨BitVec.ofNat 32 position, false, .notice 9#8⟩
/-- As many entries as given, one at each position from 0. -/
def series (n : Nat) : List CueEntry := (List.range n).map noticeAt
theorem notices_admitted (n : Nat) : ∀ e ∈ series n, e.action.ok := fun e he => by
  obtain ⟨k, _, rfl⟩ := List.mem_map.mp he
  trivial
/-- The payload of CUELIST_LOAD. -/
def loadPayload (append : Bool) (n : Nat) : List Byte :=
  [flagByte append, byteOf n] ++ (series n).flatMap CueEntry.bytes
theorem test_cuelist_load_applies : cueOrder (series 64) ∧ cueOrder (series 122) ∧ cueOrder [] ∧
    replied (exec (.cuelistLoad (byteArgs 2 (loadPayload false 64))) (screenIn .dark)) = some .ok ∧
    replied (exec (.cuelistLoad (byteArgs 2 (loadPayload true 0))) (screenIn .dark)) = some .ok ∧
    replied (exec (.cuelistLoad (byteArgs 2 (loadPayload false 122))) (screenIn .dark)) = some .full ∧
    gives (exec (.cuelistLoad (byteArgs 2 (loadPayload true 3))) ((screenIn .dark).onScreen 2 fun x =>
      { x with lastPosition := some 1#32 })) (fun t => t.cueLists[(2 : Fin 8)].cursor == 2) = true := by
  unfold cueOrder; decide +kernel
theorem test_cuelist_clear_applies : replied (exec (.cuelistClear (args 2 [])) (screenIn .dark)) = some .ok ∧
    replied (exec (.cuelistClear (args 2 [])) aligning) = some .busy ∧
    replied (exec (.cuelistLoad (byteArgs 2 (7#8 :: byteOf 1 :: List.replicate 13 0#8))) aligning) = some .busy := by
  decide +kernel
/-- Something stands in every place that R183 ignores. -/
theorem test_ignored_places_apply :
    readAlike (content .above 0 0 none).readMask ([47#8, 2#8, 2#8, 9#8, 0#8, 0#8, 9#8] ++ signed2 0 ++
        [9#8, 9#8, 99#8, 0#8, 0#8, 0#8, 0#8, 0#8, 2#8, 2#8, 255#8]) (byteOf 47 :: (content .above 0 0 none).bytes) ∧
    readAlike (noticeAt 7).readMask [0#8, 0#8, 0#8, 7#8, 0#8, 14#8, 5#8, 9#8, 8#8, 8#8, 8#8, 8#8, 8#8]
      (noticeAt 7).bytes ∧
    readAlike (CueLink.mk true false .go none .houseStop 0 .once false).readMask
      [31#8, 8#8, 9#8, 9#8, 255#8, 0#8, 0#8, 13#8, 7#8, 1#8, 2#8, 3#8, 4#8, 5#8, 6#8]
      (linkPayload 31 ⟨true, false, .go, none, .houseStop, 0, .once, false⟩) := by
  unfold readAlike; decide +kernel
/-- A link of the COMMAND trigger that starts timer 7. -/
def starter (held : Bool) (mode : RunMode) : CueLink :=
  ⟨true, true, .command, some 2, .timerStart 7 86400000 .repeating, 0, mode, held⟩
/-- The machine after reset with link 31 in place. -/
def linked (l : CueLink) : State := State.reset.onLink 31 fun _ => l
theorem test_link_actions_admitted : (starter true .once).action.ok ∧ (Action.fader 100 60000).ok ∧ Action.goOut.ok ∧
    (Action.linePulse 15 255 10000 1).ok ∧ (Action.formatTake 2000).ok :=
  ⟨⟨by decide, by decide⟩, ⟨by decide, by decide⟩, trivial,
    ⟨by decide, by decide, by decide, by decide, by decide, by decide⟩, by unfold Action.ok; decide⟩
theorem test_link_load_applies :
    replied (exec (.linkLoad (byteArgs 14 (linkPayload 31 (starter true .once)))) State.reset) = some .ok ∧
    replied (exec (.linkLoad (byteArgs 14 (linkPayload 31
      ⟨true, false, .cue 7 63, none, .fader 100 60000, 7, .repeating, false⟩))) State.reset) = some .ok ∧
    replied (exec (.linkLoad (byteArgs 14 (linkPayload 31 ⟨true, false, .go, none, .goOut, 0, .once, false⟩)))
      State.reset) = some .badValue ∧
    replied (exec (.linkLoad (byteArgs 14 (linkPayload 31 (starter true .once)))) (linked (starter true .once))) =
      some .inUse := by decide +kernel
theorem test_links_and_timers_apply :
    replied (exec (.linkEnable (args 14 [31])) (linked (starter true .once))) = some .ok ∧
    replied (exec (.linkEnable (args 14 [30])) (linked (starter true .once))) = some .badState ∧
    gives (exec (.linkDisable (args 14 [31])) (linked (starter true .once)))
      (fun t => !t.links[(31 : Fin 32)].enabled) =
      true ∧
    replied (exec (.timerStart (byteArgs 14 (byteOf 7 :: bytes4 86400000#32 ++ [byteOf 1]))) State.reset) = some .ok ∧
    replied (exec (.timerStart (byteArgs 14 (byteOf 0 :: bytes4 1#32 ++ [byteOf 0]))) State.reset) = some .ok ∧
    replied (exec (.timerStop (args 14 [7])) State.reset) = some .ok := by decide +kernel
/-- Timer 7 running. -/
def timed (mode : RunMode) : State := { State.reset with timers := State.reset.timers.set 7 ⟨true, 3, mode, 0#32⟩ }
theorem test_timer_expiry_applies : (timed .once).timers[(7 : Fin 8)].running = true ∧
    (3 : Nat) ≤ elapsed (later 3 (timed .once)).timeBase 0#32 ∧
    gives (exec (.timerExpiry 7) (later 3 (timed .once))) (fun t => !t.timers[(7 : Fin 8)].running) = true ∧
    gives (exec (.timerExpiry 7) (later 3 (timed .repeating))) (fun t => t.timers[(7 : Fin 8)].start == 3#32) = true ∧
    elapsed (later 2 (timed .once)).timeBase 0#32 < 3 := by decide +kernel
theorem test_cue_fire_applies :
    gives (exec (.cueFire (args 14 [31])) (linked (starter false .repeating)))
      (fun t => t.timers[(7 : Fin 8)].running && t.links[(31 : Fin 32)].enabled) = true ∧
    gives (exec (.cueFire (args 14 [31])) (linked (starter true .repeating))) (fun t => t.held.length == 1) = true ∧
    gives (exec (.cueFire (args 14 [31])) (linked (starter false .once))) (fun t => !t.links[(31 : Fin 32)].enabled) =
      true ∧
    replied (exec (.cueFire (args 14 [30])) (linked (starter false .once))) = some .badState ∧
    (linked (starter false .once)).links[(31 : Fin 32)].trigger ≠ .go := by decide +kernel

/-! ### Actions and the held list -/

theorem test_actions_apply : skipOf (.fader 5 5) 2 State.reset = some .off ∧
    skipOf (.mute true) 2 aligning = some .align ∧
    skipOf (.formatArm (some 31)) 2 (screenIn .dark) = some .invalid ∧
    skipOf (.formatTake 0) 2 (screenIn .dark) = some .nothingPending ∧
    skipOf .eqSwap 2 ((screenIn .dark).onScreen 2 fun x => { x with eqSwap := some ⟨0#32, .b⟩ }) = some .swapBusy ∧
    skipOf (.linkOn 0) 2 State.reset = some .invalid ∧ skipOf .goOut 2 State.reset = none ∧
    skipOf (.formatTake 0) 2 takeable = none := by decide +kernel
theorem test_rehearsal_applies : (∃ o : Fin 8, some (2 : Fin 8) = some o ∧
      rehearsedBy .goOut 2 o ((screenIn .dark).onScreen 2 fun x => { x with rehearsal := true })) ∧
    ¬(∃ o, some (2 : Fin 8) = some o ∧ rehearsedBy .goOut 2 o (screenIn .dark)) ∧
    State.reset.house.goPulse = none ∧ (requestGoPulse State.reset).house.goPulse ≠ none := by
  refine ⟨⟨2, rfl, by decide +kernel, trivial⟩, fun ⟨o, h, r, _⟩ => ?_, by decide +kernel, by decide +kernel⟩
  cases h
  revert r
  decide +kernel
/-- The machine after reset with some actions held. -/
def holding (n : Nat) : State := { State.reset with held := List.replicate n ⟨.link 31, .notice 9#8, 0, none, 0#32⟩ }
/-- The GO input asserted and not yet sensed. -/
def asserted (s : State) : State := { s with house := { s.house with goOthers := true } }
theorem test_held_list_applies : (holding 15).stopActive = false ∧ (holding 15).held.length < 16 ∧
    16 ≤ (holding 16).held.length ∧ (stopped (holding 0)).stopActive = true ∧
    (holdAction occurs (.link 31) none 0 .goOut (holding 15)).held.length = 16 ∧
    (holdAction occurs (.link 31) none 0 .goOut (holding 16)).held.length = 16 ∧
    (let s := { State.reset with house := { State.reset.house with
        goLevel := true, goOthers := true, goSensed := true } };
      s.stopActive = false ∧ s.house.goLevel = true ∧ s.house.goInput = true ∧ s.house.goSensed = true) := by
  decide +kernel
theorem test_go_releases_and_cancels :
    gives (exec .goSensedChange (later 1 (asserted (holding 2)))) (fun t => t.held.isEmpty && t.house.goSensed &&
      t.notices.length == 3) = true ∧
    gives (exec .goSensedChange (later 1 (asserted (holding 0)))) (fun t => t.house.goSensed && t.notices.isEmpty) =
      true ∧
    (asserted (holding 2)).house.goPin = true ∧ 1 ≤ elapsed (later 1 (asserted (holding 2))).timeBase 0#32 ∧
    gives (exec (.goCancel (args 14 [])) (holding 2)) (fun t => t.held.isEmpty && t.notices.length == 1) = true ∧
    gives (exec (.goCancel (args 14 [])) (holding 0)) (fun t => t.notices.isEmpty) = true := by decide +kernel
theorem test_due_entries_apply : (let s := (screenIn .inShow).onCueList 2 fun _ => ⟨series 3, 0⟩;
    cueOrder s.cueLists[(2 : Fin 8)].entries ∧ s.cueLists[(2 : Fin 8)].entries.length ≤ 64 ∧
    (takeCues 2 1#32 s).cueLists[(2 : Fin 8)].cursor = 2 ∧
    (takeCues 2 1#32 (s.onScreen 2 fun x => { x with lastPosition := some 2#32 })).cueLists[(2 : Fin 8)].cursor = 2 ∧
    (takeCues 2 1000#32 (s.onScreen 2 fun x =>
      { x with lastPosition := some 0#32 })).cueLists[(2 : Fin 8)].cursor = 3) := by
  unfold cueOrder; decide +kernel

/-! ### House stop, GO and booth lines -/

/-- Screen 2 in a state with a stop policy. -/
def policed (st : ScreenState) (policy : StopPolicy) (fadeMs : Nat) : State := (screenIn st).onScreen 2 fun x =>
  { x with stopPolicy := policy, stopFadeMs := fadeMs }
theorem test_house_stop_applies_to_screens :
    (houseStopsScreen (policed .inShow .mute 0) 2).screens[(2 : Fin 8)].mutes.stop = true ∧
    (houseStopsScreen (policed .dark .fade 0) 2).screens[(2 : Fin 8)].mutes.stop = true ∧
    (houseStopsScreen (policed .dark .fade 1) 2).screens[(2 : Fin 8)].stopFade = some 0#32 ∧
    (houseStopsScreen (policed .dark .exempt 1) 2).screens[(2 : Fin 8)].state = .dark ∧
    (policed .inAlign .exempt 0).screens[(2 : Fin 8)].state = .inAlign ∧
    (houseReleasesScreen (screenIn .stopped) 2).screens[(2 : Fin 8)].state = .dark ∧
    (houseReleasesScreen ((screenIn .stopped).onScreen 2 fun x => { x with resumePolicy := .manual }) 2).screens[
      (2 : Fin 8)].state = .stopped := by decide +kernel
theorem test_house_commands_apply :
    gives (exec (.houseStop (args 14 [])) (screenIn .inShow)) (fun t => t.house.set.command &&
      t.screens[(2 : Fin 8)].state == .stopped) = true ∧
    gives (exec (.houseRelease (args 14 [])) (stopped (screenIn .stopped))) (fun t => !t.house.set.command &&
      t.screens[(2 : Fin 8)].state == .dark) = true ∧
    gives (exec (.houseSetup (args 14 [1, 1, 0, 1])) (stopped State.reset)) (fun t => t.house.drive &&
      !t.house.goInput && t.house.goLevel) = true := by decide +kernel
/-- The house stopped by command and then by a cue: the second source widens the set without an entry (R147). -/
def stoppedTwice (s : State) : State := perform occurs (.link 0) none 0 .houseStop
  (houseChange occurs (fun h => { h with set := { h.set with command := true } }) s)
theorem test_a_widening_reaches_the_controller_alone :
    (stoppedTwice (idle State.reset)).aOut =
      some (noticeFrame 0 ⟨.houseState ⟨false, false, true, false, false⟩ 1, none, 0#32⟩) ∧
    (stoppedTwice (idle State.reset)).house.set = ⟨false, false, true, false, true⟩ ∧
    (stoppedTwice State.reset).slot = some ⟨1, 0#32⟩ ∧
    gives (exec .aOutFrameSent (stoppedTwice State.reset)) (fun t => t.slot.isNone &&
      t.aOut == some (noticeFrame 0 ⟨.houseState ⟨false, false, true, false, true⟩ 1, none, 0#32⟩)) = true := by
  decide +kernel
theorem test_entry_cancels_held : (holding 1).held ≠ [] ∧
    gives (exec (.houseStop (args 14 [])) (holding 1)) (fun t => t.held.isEmpty && t.notices.length == 1) = true := by
  decide +kernel
/-- HSTOP pulled by another unit, not yet sensed. -/
def pulled : State := { State.reset with house := { State.reset.house with hstopOthers := true } }
/-- A GO pulse of this unit in flight. -/
def pulsing : State := { State.reset with house := { State.reset.house with goPulse := some 0#32 } }
theorem test_wires_apply :
    gives (exec (.hstopPinChange true) State.reset) (fun t => t.house.hstopOthers && !t.house.hstopSensed) = true ∧
    gives (exec (.goPinChange true) State.reset) (fun t => t.house.goOthers && !t.house.goSensed) = true ∧
    State.reset.lines[(15 : Fin 16)].filter ≠ .none ∧
    gives (exec (.linePinChange 15 true) State.reset) (fun t => t.lines[(15 : Fin 16)].external) = true ∧
    pulled.house.hstopPin ≠ pulled.house.hstopSensed ∧ (1 : Nat) ≤ elapsed (later 1 pulled).timeBase 0#32 ∧
    gives (exec .hstopSensedChange (later 1 pulled)) (fun t => t.house.set.line && t.stopActive) = true ∧
    gives (exec .hstopSensedChange pulled) (fun t => !t.stopActive) = true ∧
    elapsed pulled.timeBase pulled.house.hstopSince < 1 := by decide +kernel
theorem test_go_input_applies :
    (let s := { State.reset with house := { State.reset.house with goSensed := true } };
      s.house.goPin ≠ s.house.goSensed ∧ s.house.goPin = false ∧
      gives (exec .goSensedChange (later 1 s)) (fun t => !t.house.goSensed) = true) ∧
    (let s := { State.reset with house := { State.reset.house with goOthers := true, goInput := false } };
      s.house.goPin ≠ s.house.goSensed ∧ s.house.goInput = false ∧
      gives (exec .goSensedChange (later 1 s)) (fun t => t.house.goSensed) = true) := by decide +kernel
theorem test_go_waits_for_its_filter : (asserted State.reset).house.goPin ≠ (asserted State.reset).house.goSensed ∧
    elapsed (asserted State.reset).timeBase (asserted State.reset).house.goSince < 1 ∧
    exec .goSensedChange (asserted State.reset) = .next (asserted State.reset) ∧
    exec .goSensedChange State.reset = .next State.reset := ⟨by decide +kernel, by decide +kernel, rfl, rfl⟩
theorem test_go_pulse_applies : replied (exec (.goPulse (args 14 [])) State.reset) = some .ok ∧
    replied (exec (.goPulse (args 14 [])) pulsing) = some .ok ∧ pulsing.house.goPulse = some 0#32 ∧
    gives (exec .goPulseEnd (later 10 pulsing)) (fun t => t.house.goPulse == none) = true ∧
    gives (exec .goPulseEnd (later 9 pulsing)) (fun t => t.house.goPulse == some 0#32) = true ∧
    (10 : Nat) ≤ elapsed (later 10 pulsing).timeBase 0#32 ∧ elapsed (later 9 pulsing).timeBase 0#32 < 10 := by
  decide +kernel
/-- Booth line 15 changed on the machine after reset. -/
def withLine (f : BoothLine → BoothLine) : State := State.reset.onLine 15 f
/-- The values of an alarm line. -/
def alarmLine : LineValues := ⟨.alarm, .activeLow, .ms20, some 7, 7, ⟨false, false, false, false, true⟩, 47⟩
theorem test_line_commands_apply :
    replied (exec (.lineSetup (byteArgs 14 (linePayload 15 alarmLine))) State.reset) = some .ok ∧
    replied (exec (.lineSetup (byteArgs 14 (linePayload 0 { alarmLine with mode := .stopInput, owner := none })))
      State.reset) = some .ok ∧
    alarmLine.statusSet ≠ ⟨false, false, false, false, false⟩ ∧
    replied (exec (.lineSet (byteArgs 14 [byteOf 15, flagByte true])) State.reset) = some .ok := by decide +kernel
/-- A train of booth line 15. -/
def train (remaining : Nat) (on : Bool) : State := withFormat.onLine 15 fun x =>
  { x with latch := on, train := some ⟨remaining, on, 0#32, 4, 6⟩ }
theorem test_train_applies : elapsed (later 3 (train 1 true)).timeBase 0#32 < 4 ∧
    (4 : Nat) ≤ elapsed (later 4 (train 1 true)).timeBase 0#32 ∧
    (6 : Nat) ≤ elapsed (later 6 (train 1 true)).timeBase 0#32 ∧
    gives (exec (.pulsePhaseEnd 15) (later 4 (train 1 true))) (fun t => t.lines[(15 : Fin 16)].train == none) = true ∧
    gives (exec (.pulsePhaseEnd 15) (later 4 (train 2 true))) (fun t =>
      t.lines[(15 : Fin 16)].train == some ⟨1, false, 4#32, 4, 6⟩) = true ∧
    gives (exec (.pulsePhaseEnd 15) (later 6 (train 1 false))) (fun t =>
      t.lines[(15 : Fin 16)].train == some ⟨1, true, 6#32, 4, 6⟩) = true := by decide +kernel
theorem test_line_inputs_apply : (withLine fun x => { x with external := true }).lines[(15 : Fin 16)].filter.ms = 2 ∧
    gives (exec (.lineFilterChange 15) (later 2 (withLine fun x => { x with external := true }))) (fun t =>
      t.lines[(15 : Fin 16)].filtered == some true) = true ∧
    gives (exec (.lineFilterChange 15) (later 1 (withLine fun x => { x with external := true }))) (fun t =>
      t.lines[(15 : Fin 16)].filtered == some false) = true ∧
    gives (exec (.lineFilterChange 15) (later 2 (withLine fun x => { x with mode := .stopInput, external := true })))
      (fun t => t.house.set.boothInput && t.stopActive) = true ∧
    gives (exec (.linePinChange 15 true) (withLine fun x => { x with filter := .none })) (fun t =>
      t.lines[(15 : Fin 16)].filtered == some true) = true := by decide +kernel
theorem test_lines_that_do_not_change_apply :
    gives (exec (.linePinChange 15 true)
        (withLine fun x => { x with filter := .none, mode := .output, filtered := none })) (fun t =>
      t.lines[(15 : Fin 16)].external && t.lines[(15 : Fin 16)].filtered == none) = true ∧
    gives (exec (.linePinChange 15 false) (withLine fun x => { x with filter := .none }))
      (fun t => t.lines[(15 : Fin 16)].filtered == some false && t.notices.isEmpty) = true ∧
    gives (exec (.lineFilterChange 15) (withLine fun x => { x with mode := .output, filtered := none }))
      (fun t => t.lines[(15 : Fin 16)].filtered == none) = true := by decide +kernel
theorem test_line_outputs_apply : ∀ st : ScreenState, ∀ mode : LineMode,
    (State.reset.linePin { State.reset.lines[(0 : Fin 16)] with mode := mode, polarity := .activeLow } = true ↔
      mode = .output ∨ mode = .alarm) ∧
    ((screenIn st).linePin { State.reset.lines[(0 : Fin 16)] with
      mode := .screenStatus
      statusScreen := 2
      statusSet := ⟨false, true, true, false, false⟩ } = true ↔ st = .dark ∨ st = .inShow) := by
  intro st mode; cases st <;> cases mode <;> decide +kernel

/-! ### Management commands -/

theorem test_command_take_applies :
    (let s := { State.reset with intake := [⟨7#8, 113#8, 14#8, []⟩] };
      Instr.command (.houseStop (args 14 [])) = some ⟨7#8, 113#8, 14#8, []⟩ ∧ s.canExecute = true ∧
      gives (exec .commandTake s) (fun t => t.stopActive && t.intake.isEmpty) = true) ∧
    (255#8).toNat ∉ commandCodes ∧
    replied (exec .commandTake { State.reset with intake := [⟨7#8, 255#8, 14#8, []⟩] }) = some .badCommand ∧
    State.reset.intake = [] ∧ 8 ≤ (List.replicate 8 (⟨0#8, 1#8, .ok, 0#8, []⟩ : Reply)).length := by decide +kernel
theorem test_unit_reset_of_no_scope_applies : 2 ≤ (2#8 : Byte).toNat ∧ (2 : Nat) ∈ commandCodes ∧
    replied (exec .commandTake { State.reset with intake := [⟨7#8, 2#8, 14#8, [2#8]⟩] }) = some .badValue ∧
    replied (exec .commandTake { State.reset with intake := [⟨7#8, 2#8, 14#8, []⟩] }) = some .badLength ∧
    replied (exec .commandTake { State.reset with intake := [⟨7#8, 48#8, 2#8, []⟩] }) = some .badLength := by
  decide +kernel
theorem test_format_lengths_apply : formatLengthSuits (commandOf 32#8 (byteArgs 14 (formatPayload 3 oneTerm))) = true ∧
    formatLengthSuits (commandOf 32#8 (byteArgs 14 (formatPayload 3 matrixFormat))) = true ∧
    formatLengthSuits (commandOf 32#8 (byteArgs 14 (formatPayload 3 matrixFormat ++ [0#8]))) = false := by
  decide +kernel
theorem test_generic_checks_apply : (commandOf 113#8 (args 14 [0])).lengthSuits = false ∧
    (commandOf 113#8 (args 15 [])).lengthSuits = true ∧ (classOf 113).accepts 15#8 = false ∧
    (classOf 64).accepts 15#8 = false ∧ (classOf 16).accepts 14#8 = false ∧
    replied (exec (.houseStop (args 14 [0])) State.reset) = some .badLength ∧
    replied (exec (.houseStop (args 15 [0])) State.reset) = some .badLength ∧
    replied (exec (.houseStop (args 15 [])) State.reset) = some .badValue := by decide +kernel
theorem test_index_limits_apply : Instr.indexLimit (.lineRead (args 14 [16])) = some 16 ∧
    (commandOf 118#8 (args 14 [16])).lengthSuits = true ∧ 16 ≤ ((commandOf 118#8 (args 14 [16])).byte 0).toNat ∧
    ¬((commandOf 118#8 (args 14 [16])).byte 0 = 255#8) ∧
    replied (exec (.lineRead (args 14 [16])) State.reset) = some .badIndex ∧
    replied (exec (.formatRead (args 14 [255])) State.reset) = some .badIndex := by decide +kernel
theorem test_refusals_apply : State.reset.screens[(2 : Fin 8)].state = .off ∧
    replied (exec (.screenClose (args 2 [])) State.reset) = some .badState ∧
    replied (exec (.faderSet (args 2 [101, 0, 0])) State.reset) = some .badState ∧
    replied (exec (.muteSet (byteArgs 2 [77#8, flagByte true])) State.reset) = some .badState ∧
    replied (exec (.channelSetup (args 2 [77, 7, 7, 7])) State.reset) = some .badState ∧
    replied (exec (.formatArm (args 2 [77])) State.reset) = some .badState ∧
    replied (exec (.eqSwap (args 2 [])) aligning) = some .busy ∧
    replied (exec (.eqLoadGraphic (byteArgs 2 (byteOf 15 :: List.replicate 31 127#8))) aligning) = some .busy ∧
    replied (exec (.eqLoadSection (byteArgs 2 [byteOf 15, byteOf 7, 9#8, 0#8, 0#8, 0#8])) aligning) = some .busy := by
  decide +kernel
/-- An EQ_LOAD of form 2 at the head of the intake queue. -/
def unknownForm (channel : Nat) : State := { screenIn .inAlign with
  intake := [⟨7#8, 48#8, BitVec.ofNat 8 2, 2#8 :: byteOf channel :: List.replicate 5 0#8⟩] }
theorem test_values_come_before_states : 2 ≤ (7#8).toNat ∧ 3 ≤ (255#8).toNat ∧
    replied (exec (.muteSet (byteArgs 2 [77#8, 7#8])) State.reset) = some .badValue ∧
    replied (exec (.curveLoad (byteArgs 14 (byteOf 0 :: 2#8 :: List.replicate 34 255#8))) aligning) = some .badValue ∧
    (monitored .clear).monitors[(47 : Fin 48)].enabled = true ∧
    replied (exec (.monitorLoad (byteArgs 14 (byteOf 47 :: 0#8 :: 3#8 :: List.replicate 17 0#8))) (monitored .clear)) =
      some .badValue ∧
    (let a := byteArgs 14 ((formatPayload 3 oneTerm).dropLast ++ [2#8]);
      (commandOf 32#8 a).lengthSuits = true ∧ 2 ≤ (a.payload.tail.getD (5 * 0 + 15) 0#8).toNat ∧
      replied (exec (.formatLoad a) takeable) = some .badValue) ∧
    replied (exec .commandTake (unknownForm 15)) = some .badValue ∧
    replied (exec .commandTake (unknownForm 16)) = some .badIndex := by decide +kernel
theorem test_selector_fifteen_applies : classOf (commandOf 22#8 (args 15 [1])).code.toNat = .screen ∧
    (commandOf 22#8 (args 15 [1])).lengthSuits = true ∧
    (screenCommand true 1 (fun i _ => if i.val = 0 then none else some .badState) (fun _ s => (s, [9#8]))
      (commandOf 22#8 (args 15 [1])) State.reset).2 = ⟨.ok, 254#8, 9#8 :: List.replicate 7 0#8⟩ ∧
    (screenCommand true 0 (fun i _ => if i.val = 0 then some .busy else some .badState) (fun _ s => (s, []))
      (commandOf 22#8 (args 15 [1])) State.reset).2 = ⟨.busy, 255#8, []⟩ ∧
    (screenCommand true 0 (fun _ _ => some .badState) (fun _ s => (s, [])) (commandOf 22#8 (args 7 [1]))
      State.reset).2 = ⟨.badState, 128#8, []⟩ ∧
    (args 15 [1]).namesAll ∧ replied (exec (.rehearsalSet (byteArgs 15 [flagByte true])) State.reset) = some .ok ∧
    (∃ i : Fin 8, (screenIn .dark).screens[i].state ≠ .off) ∧
    replied (exec (.muteSet (byteArgs 15 [255#8, flagByte true])) (screenIn .dark)) = some .ok := by decide +kernel
theorem test_reads_apply : replied (exec (.unitInfo (args 14 [])) State.reset) = some .ok ∧
    replied (exec (.alignRead (args 14 [])) aligning) = some .ok ∧
    replied (exec (.heldRead (args 14 [])) (holding 16)) = some .ok ∧
    replied (exec (.houseStatus (args 14 [])) State.reset) = some .ok ∧
    replied (exec (.screenStatus (args 7 [])) State.reset) = some .ok ∧
    replied (exec (.eqRead (byteArgs 7 [byteOf 15, 0#8])) State.reset) = some .ok ∧
    replied (exec (.eqRead (byteArgs 7 [byteOf 15, 1#8])) State.reset) = some .ok ∧
    replied (exec (.formatRead (byteArgs 14 [byteOf 31])) State.reset) = some .ok ∧
    replied (exec (.timerRead (byteArgs 14 [byteOf 7])) (later 2 (timed .once))) = some .ok ∧
    replied (exec (.lineRead (byteArgs 14 [byteOf 15])) State.reset) = some .ok ∧
    replied (exec (.lineRead (args 14 [255])) State.reset) = some .ok ∧
    replied (exec (.monitorStatus (args 14 [255, 0])) (monitored .raised)) = some .ok ∧
    replied (exec (.linkStats (args 14 [0])) State.reset) = some .ok ∧
    replied (exec (.noticeMask (args 14 [0, 0, 0, 0, 0])) State.reset) = some .ok := by decide +kernel
theorem test_mask_and_statistics_apply : (0xFFFFFF#32).toNat < 2 ^ 24 ∧ 2 ^ 24 ≤ (0x1000000#32).toNat ∧
    gives (exec (.noticeMask (byteArgs 14 (1#8 :: bytes4 0#32))) State.reset) (fun t => t.mask == 0xC00001#32) = true ∧
    replied (exec (.noticeMask (byteArgs 14 (1#8 :: bytes4 0xFFFFFF#32))) State.reset) = some .ok ∧
    replied (exec (.noticeMask (byteArgs 14 (1#8 :: bytes4 0x1000000#32))) State.reset) = some .badValue ∧
    replied (exec (.linkStats (args 14 [1])) State.reset) = some .ok := by decide +kernel
theorem test_unit_resets_apply :
    gives (exec (.unitResetKeepTables (args 14 [])) (later 9 (screenIn .dark))) (fun t =>
      t.screens[(2 : Fin 8)].state == .off && t.timeBase == 0#32 && t.replies.length == 1) = true ∧
    gives (exec (.unitResetClear (args 14 [])) takeable) (fun t => !t.formats[(3 : Fin 32)].valid &&
      t.replies.length == 1 && t.notices.length == 1) = true := by decide +kernel

/-! ### The invariants hold before steps that do something -/

theorem test_steps_keep_applies :
    (let s := { State.reset with pending := [.houseStop (args 14 [])] };
      s.queuesWithinCapacity ∧ s.maskKeepsItsKinds ∧ s.nothingIsHeldInAStop ∧
      gives (step s) (fun t => t.stopActive && t.pending.isEmpty) = true) := by
  unfold State.queuesWithinCapacity State.maskKeepsItsKinds State.nothingIsHeldInAStop; decide +kernel
theorem test_steps_keep_the_house_applies : { pulled with pending := [.hstopSensedChange] }.houseIsSettled ∧
    gives (step { later 1 pulled with pending := [.hstopSensedChange] }) (fun t => t.house.set.line) = true := by
  unfold State.houseIsSettled; decide +kernel
theorem test_steps_keep_the_lanes_applies : { State.reset with pending := [.aOutFrameSent] }.lanesNeverWait ∧
    gives (step { State.reset with pending := [.aOutFrameSent] }) (fun t => t.aOut == none) = true := by
  unfold State.lanesNeverWait; decide +kernel
/-- Monitor 47 raised on a dark screen 2 that it mutes. -/
def raisedNow : State := { (monitored .raised).onScreen 2 fun x => { x with mutes := { x.mutes with monitor := true } }
  with pending := [.monitorDisable (args 14 [47])] }
theorem test_steps_keep_monitors_applies : raisedNow.monitorsFollowWatchSets ∧ raisedNow.causesFollowTheMonitors ∧
    gives (step raisedNow) (fun t => !t.screens[(2 : Fin 8)].mutes.monitor) = true := by
  unfold State.monitorsFollowWatchSets State.causesFollowTheMonitors; decide +kernel
theorem test_steps_keep_the_engine_applies :
    { aligning with pending := [.alignAbort (args 2 [])] }.engineHoldsItsScreen ∧
    gives (step { aligning with pending := [.alignAbort (args 2 [])] }) (fun t => t.run.engine == .idle) = true := by
  unfold State.engineHoldsItsScreen; decide +kernel
/-- Screen 2 dark on format 3 alone. -/
def counted : State := (screenIn .dark).onFormat 3 fun _ => { oneTerm with useCount := 1 }
theorem test_steps_keep_counts_applies :
    (let s := { counted.onScreen 2 fun x => { x with activeFormat := some 3 } with
        pending := [.screenClose (args 2 [])] };
      s.useCountsAreTrue ∧ gives (step s) (fun t => t.formats[(3 : Fin 32)].useCount == 0) = true) := by
  unfold State.useCountsAreTrue; decide +kernel
/-- Screen 2 in SHOW, about to get a list. -/
def playing : State := { screenIn .inShow with pending := [.cuelistLoad (byteArgs 2 (loadPayload false 3))] }
theorem test_steps_keep_cursors_applies : playing.cursorsStandRight ∧
    gives (step playing) (fun t => t.cueLists[(2 : Fin 8)].entries.length == 3) = true := by
  have empty : ∀ i : Fin 8, playing.cueLists[i] = ⟨[], 0⟩ ∧ playing.screens[i].lastPosition = none := by
    decide +kernel
  refine ⟨fun i => ?_, by decide +kernel⟩
  rw [(empty i).1, (empty i).2]
  exact ⟨⟨.nil, nofun⟩, Nat.zero_le _, rfl⟩

end Sys2Proof.Tests
end

section
/-!
PROOF. A step with nothing waiting (R1; log entries 1 and 26). The due rows are one fixed list, the rows that the part
brings about by itself, filtered by one condition for each row; that the list holds no row twice, what each condition
says, and what the passing of time does are then separate facts.
-/

namespace Sys2Proof.Machine

/-! ### The rows that the part brings about by itself -/

/-- The rows that can become due, in the order in which they are queued (log entry 10). -/
def ownRows : List Instr :=
  [Instr.commandTake] ++ (indexes 8).map Instr.faderRampEnd ++ (indexes 8).map Instr.stopFadeEnd ++
  (indexes 8).map Instr.formatCrossfadeEnd ++ (indexes 8).map Instr.swapCrossfadeEnd ++ [Instr.settleEnd] ++
  [Instr.dwellEnd] ++ (indexes 16).map Instr.pulsePhaseEnd ++ [Instr.goPulseEnd] ++
  (indexes 8).map Instr.timerExpiry ++ [Instr.hstopSensedChange] ++ [Instr.goSensedChange] ++
  (indexes 16).map Instr.lineFilterChange ++ (indexes 8).map Instr.sourceLost ++ (indexes 8).map Instr.silentBlock

/-- The place of a row among the own rows, which tells them apart. -/
def placeOf : Instr → Nat
  | .commandTake => 0
  | .faderRampEnd i => 1 + i
  | .stopFadeEnd i => 9 + i
  | .formatCrossfadeEnd i => 17 + i
  | .swapCrossfadeEnd i => 25 + i
  | .settleEnd => 33
  | .dwellEnd => 34
  | .pulsePhaseEnd l => 35 + l
  | .goPulseEnd => 51
  | .timerExpiry t => 52 + t
  | .hstopSensedChange => 60
  | .goSensedChange => 61
  | .lineFilterChange l => 62 + l
  | .sourceLost i => 78 + i
  | .silentBlock i => 86 + i
  | _ => 94

theorem map_placeOf_ownRows : ownRows.map placeOf = List.range 94 := by decide +kernel

theorem ownRows_nodup : ownRows.Nodup := by
  apply List.Nodup.of_map placeOf
  rw [map_placeOf_ownRows]
  exact List.nodup_range

/-- The condition under which a row is due; a row that the part does not bring about by itself never is. -/
def rowIsDue (s : State) : Instr → Bool
  | .commandTake => dueCommand s
  | .faderRampEnd i => dueRampEnd i s
  | .stopFadeEnd i => dueStopFadeEnd i s
  | .formatCrossfadeEnd i => dueFormatFadeEnd i s
  | .swapCrossfadeEnd i => dueSwapEnd i s
  | .settleEnd => dueSettleEnd s
  | .dwellEnd => dueDwellEnd s
  | .pulsePhaseEnd l => dueTrain l s
  | .goPulseEnd => dueGoPulse s
  | .timerExpiry t => dueTimer t s
  | .hstopSensedChange => dueHstop s
  | .goSensedChange => dueGo s
  | .lineFilterChange l => dueLine l s
  | .sourceLost i => dueSourceLost i s
  | .silentBlock i => dueSilentBlock i s
  | _ => false

theorem dueRows_eq_filter (s : State) : dueRows s = ownRows.filter (rowIsDue s) := by
  simp only [dueRows, ownRows, dueSingle, dueAmong, List.filter_append, List.filter_map, List.filter_cons,
    List.filter_nil, Function.comp_def, rowIsDue]
  rfl

theorem mem_ownRows_of_due {s : State} {r : Instr} (h : rowIsDue s r = true) : r ∈ ownRows := by
  unfold rowIsDue at h
  split at h
  case h_16 => exact absurd h Bool.false_ne_true
  all_goals simp [ownRows]

/-- A due row is one of the six single ones, one of a screen or timer, or one of a booth line. -/
theorem kind_of_due {s : State} {r : Instr} (h : rowIsDue s r = true) :
    r ∈ [.commandTake, .settleEnd, .dwellEnd, .goPulseEnd, .hstopSensedChange, .goSensedChange] ∨
    (∃ i : Fin 8, r ∈ [.faderRampEnd i, .stopFadeEnd i, .formatCrossfadeEnd i, .swapCrossfadeEnd i, .timerExpiry i,
      .sourceLost i, .silentBlock i]) ∨
    ∃ l : Fin 16, r ∈ [.pulsePhaseEnd l, .lineFilterChange l] := by
  unfold rowIsDue at h
  split at h
  case h_16 => exact absurd h Bool.false_ne_true
  all_goals simp

theorem mem_dueRows {s : State} {r : Instr} : r ∈ dueRows s ↔ rowIsDue s r = true := by
  rw [dueRows_eq_filter, List.mem_filter, and_iff_right_of_imp mem_ownRows_of_due]

theorem dueRows_nodup (s : State) : (dueRows s).Nodup := by
  rw [dueRows_eq_filter]
  exact List.Nodup.filter _ ownRows_nodup

/-! ### The condition of each row -/

theorem dueCommand_iff (s : State) : dueCommand s = true ↔ s.intake ≠ [] ∧ s.canExecute = true := by
  simp [dueCommand]

theorem dueRampEnd_iff (i : Fin 8) (s : State) : dueRampEnd i s = true ↔
    ∃ r, s.screens[i].fader.ramp = some r ∧ r.duration ≤ elapsed s.timeBase r.start := by
  unfold dueRampEnd; cases s.screens[i].fader.ramp <;> simp

theorem dueStopFadeEnd_iff (i : Fin 8) (s : State) : dueStopFadeEnd i s = true ↔
    ∃ x, s.screens[i].stopFade = some x ∧ s.screens[i].stopFadeMs ≤ elapsed s.timeBase x := by
  unfold dueStopFadeEnd; cases s.screens[i].stopFade <;> simp

theorem dueFormatFadeEnd_iff (i : Fin 8) (s : State) : dueFormatFadeEnd i s = true ↔
    ∃ x, s.screens[i].formatFade = some x ∧ x.duration ≤ elapsed s.timeBase x.start := by
  unfold dueFormatFadeEnd; cases s.screens[i].formatFade <;> simp

theorem dueSwapEnd_iff (i : Fin 8) (s : State) : dueSwapEnd i s = true ↔
    ∃ x, s.screens[i].eqSwap = some x ∧ 50 ≤ elapsed s.timeBase x.start := by
  unfold dueSwapEnd Config.swapMs; cases s.screens[i].eqSwap <;> simp

theorem dueTrain_iff (l : Fin 16) (s : State) : dueTrain l s = true ↔
    ∃ y, s.lines[l].train = some y ∧ (if y.on then y.onMs else y.offMs) ≤ elapsed s.timeBase y.start := by
  unfold dueTrain Train.phaseMs; cases s.lines[l].train <;> simp

theorem dueGoPulse_iff (s : State) : dueGoPulse s = true ↔
    ∃ x, s.house.goPulse = some x ∧ 10 ≤ elapsed s.timeBase x := by
  unfold dueGoPulse Config.goPulseMs; cases s.house.goPulse <;> simp

theorem dueTimer_iff (t : Fin 8) (s : State) : dueTimer t s = true ↔
    s.timers[t].running = true ∧ s.timers[t].interval ≤ elapsed s.timeBase s.timers[t].start := by
  simp [dueTimer]

theorem dueSettleEnd_iff (s : State) : dueSettleEnd s = true ↔
    s.run.engine = .settle ∧ s.run.settleMs ≤ elapsed s.timeBase s.run.phaseStart := by
  simp [dueSettleEnd]

theorem dueDwellEnd_iff (s : State) : dueDwellEnd s = true ↔
    s.run.engine = .dwell ∧ s.run.dwellMs ≤ elapsed s.timeBase s.run.phaseStart := by
  simp [dueDwellEnd]

theorem dueSourceLost_iff (i : Fin 8) (s : State) : dueSourceLost i s = true ↔
    s.screens[i].state ≠ .off ∧ s.screens[i].sourceLost = false ∧
      20 ≤ elapsed s.timeBase s.screens[i].lastArrival := by
  simp only [dueSourceLost, Bool.and_eq_true, bne_iff_ne, Bool.not_eq_true', decide_eq_true_eq, and_assoc]
  rfl

theorem dueSilentBlock_iff (i : Fin 8) (s : State) : dueSilentBlock i s = true ↔
    s.screens[i].state ≠ .off ∧ s.screens[i].sourceLost = true ∧
      2 * s.screens[i].silentPhase / 3 ≤ elapsed s.timeBase s.screens[i].silentBase := by
  simp [dueSilentBlock, and_assoc]

theorem dueHstop_iff (s : State) : dueHstop s = true ↔
    (s.house.hstopOthers || s.house.drive) ≠ s.house.hstopSensed ∧ 1 ≤ elapsed s.timeBase s.house.hstopSince := by
  rw [dueHstop, Bool.and_eq_true, bne_iff_ne, decide_eq_true_eq]
  rfl

theorem dueGo_iff (s : State) : dueGo s = true ↔
    (s.house.goOthers || s.house.goPulse.isSome) ≠ s.house.goSensed ∧ 1 ≤ elapsed s.timeBase s.house.goSince := by
  rw [dueGo, Bool.and_eq_true, bne_iff_ne, decide_eq_true_eq]
  rfl

theorem LineMode.isInput_iff (m : LineMode) : m.isInput = true ↔ m = .input ∨ m = .stopInput := by
  cases m <;> simp [LineMode.isInput]

theorem BoothLine.reading_eq (l : BoothLine) :
    l.reading = if l.polarity = .activeHigh then l.external else !l.external := by
  unfold BoothLine.reading Polarity.reads; cases l.polarity <;> rfl

theorem dueLine_iff (l : Fin 16) (s : State) : dueLine l s = true ↔
    (s.lines[l].mode = .input ∨ s.lines[l].mode = .stopInput) ∧
    s.lines[l].filtered ≠ some (if s.lines[l].polarity = .activeHigh then s.lines[l].external
      else !s.lines[l].external) ∧
    s.lines[l].filter.ms ≤ elapsed s.timeBase s.lines[l].since := by
  simp only [dueLine, Bool.and_eq_true, bne_iff_ne, decide_eq_true_eq, LineMode.isInput_iff, BoothLine.reading_eq,
    and_assoc]

/-! ### A step with nothing waiting -/

theorem step_idle {s : State} (h : s.pending = []) : step s = .next (passTime s) := by
  simp only [step, h]

theorem passTime_inReset {s : State} (h : s.inReset = true) : passTime s = s := by
  simp only [passTime, h, if_true]

theorem passTime_of_none_due {s : State} (h : s.inReset = false) (noRow : dueRows s = []) :
    passTime s = { s with timeBase := s.timeBase + 1#32 } := by
  simp only [passTime, h, noRow, countMillisecond, Bool.false_eq_true, if_false]

theorem passTime_of_due {s : State} (h : s.inReset = false) (due : dueRows s ≠ []) :
    passTime s = { s with pending := dueRows s } := by
  simp only [passTime, h, Bool.false_eq_true, if_false]

/-- Settles O2: the passing of time, and the due rows as the own rows that meet their conditions. -/
theorem idleStepQueuesDueRowsOrCountsAMillisecond : Obligations.IdleStepQueuesDueRowsOrCountsAMillisecond := by
  unfold Obligations.IdleStepQueuesDueRowsOrCountsAMillisecond
  refine ⟨fun s idle => ⟨fun h => ?_, fun h noRow => ?_, fun h due => ?_⟩, fun s => ?_⟩
  · rw [step_idle idle, passTime_inReset h]
  · rw [step_idle idle, passTime_of_none_due h noRow]
  · rw [step_idle idle, passTime_of_due h due]
  · exact ⟨dueRows_nodup s, mem_dueRows.trans (dueCommand_iff s),
      fun i => ⟨mem_dueRows.trans (dueRampEnd_iff i s), mem_dueRows.trans (dueStopFadeEnd_iff i s),
        mem_dueRows.trans (dueFormatFadeEnd_iff i s), mem_dueRows.trans (dueSwapEnd_iff i s),
        mem_dueRows.trans (dueTimer_iff i s), mem_dueRows.trans (dueSourceLost_iff i s),
        mem_dueRows.trans (dueSilentBlock_iff i s)⟩,
      mem_dueRows.trans (dueSettleEnd_iff s), mem_dueRows.trans (dueDwellEnd_iff s),
      fun l => ⟨mem_dueRows.trans (dueTrain_iff l s), mem_dueRows.trans (dueLine_iff l s)⟩,
      mem_dueRows.trans (dueGoPulse_iff s), mem_dueRows.trans (dueHstop_iff s), mem_dueRows.trans (dueGo_iff s),
      fun _ h => kind_of_due (mem_dueRows.mp h)⟩

end Sys2Proof.Machine
end

section
/-!
PROOF. What an event can do to the lanes, the queues, the held list and the notice mask: `Moves` lists it once, and
every operation of the model up to a whole execution is shown to do no more. The invariants of the link (R8 to R13,
R136, R177, R178) and whatever else is kept by each of these moves follow by one induction over `Moves`.
-/

namespace Sys2Proof.Machine

/-! ### The link part of the state and its moves -/

/-- What the lanes, the queues, the held list and the notice mask hold, with the model's own queue of rows. -/
structure LinkPart where
  inReset : Bool
  intake : List Command
  replies : List Reply
  forward : List Frame
  aOut : Option Frame
  bOutOrder : List Frame
  bOut : Option Frame
  held : List HeldAction
  notices : List Notice
  lostCount : Nat
  slot : Option HouseSlot
  mask : Word
  pending : List Instr

/-- The link part of a state. -/
def State.linkPart (s : State) : LinkPart :=
  ⟨s.inReset, s.intake, s.replies, s.forward, s.aOut, s.bOutOrder, s.bOut, s.held, s.notices, s.lostCount, s.slot,
    s.mask, s.pending⟩

/-- A mask that reads the kinds that cannot be masked as enabled (R170). -/
def keepsItsKinds (mask : Word) : Prop := ∀ k ∈ [0, 22, 23], mask.getLsbD k = true

/-- What a part of an event, a reply apart, can do to the link part of the state. -/
inductive Moves : State → State → Prop
  /-- Whatever leaves the link part. -/
  | silent {s t : State} (same : t.linkPart = s.linkPart) : Moves s t
  | trans {s t u : State} (first : Moves s t) (then_ : Moves t u) : Moves s u
  /-- A notice is filed (R175). -/
  | file (screen : Option (Fin 8)) (body : NoticeBody) (s : State) : Moves s (file screen body s)
  /-- The house-state slot is filled (R179). -/
  | fillSlot (s : State) : Moves s (fillSlot s)
  /-- A frame joins B-out (R13). -/
  | joinBOut (f : Frame) (s : State) : Moves s (joinBOut f s)
  /-- An action is held where there is room (R136). -/
  | hold (h : HeldAction) (s : State) (room : s.held.length < 16) : Moves s { s with held := s.held ++ [h] }
  /-- The held list is emptied (R137, R138). -/
  | dropHeld (s : State) : Moves s { s with held := [] }
  /-- The mask is written (R170). -/
  | setMask (mask : Word) (s : State) (kinds : keepsItsKinds mask) : Moves s { s with mask := mask }
  /-- What a UNIT_RESET empties (R18, R180). -/
  | emptyAOut (s : State) : Moves s { s with replies := [], notices := [], lostCount := 0, slot := none }
  /-- A command joins the intake queue where there is room (R8). -/
  | queueCommand (c : Command) (s : State) (room : s.intake.length < 8) : Moves s { s with intake := s.intake ++ [c] }
  /-- The head of the intake queue is taken (R8). -/
  | takeHead {c : Command} {rest : List Command} (s : State) (head : s.intake = c :: rest) :
      Moves s { s with intake := rest }
  /-- A frame joins the forward buffer where there is room (R10). -/
  | queueForward (f : Frame) (s : State) (room : s.forward.length < 8) :
      Moves s (offerAOut { s with forward := s.forward ++ [f] })
  /-- A-out has sent its frame (R11). -/
  | aOutSent (s : State) : Moves s (offerAOut { s with aOut := none })
  /-- B-out has sent its frame (R13). -/
  | bOutSent (s : State) : Moves s (offerBOut { s with bOut := none })
  /-- RESETN is asserted (R17). -/
  | resetn (s : State) : Moves s { s with inReset := true, aOut := none, bOut := none }
  /-- Every block takes its power-on values (R17). -/
  | powerOn (straps : Fin 8) (s : State) : Moves s (powerOnState straps s)

namespace Moves

theorem refl (s : State) : Moves s s := silent rfl

/-- A fold of parts of an event is one. -/
theorem foldl {α : Type} {f : State → α → State} (each : ∀ s x, Moves s (f s x)) (l : List α) (s : State) :
    Moves s (l.foldl f s) := by
  induction l generalizing s with
  | nil => exact refl s
  | cons x rest ih => exact (each s x).trans (ih _)

/-- A part of an event after a silent change. -/
theorem after {s t u : State} (rest : Moves t u) (same : t.linkPart = s.linkPart) : Moves s u :=
  (silent same).trans rest

/-- A part of an event before a silent change. -/
theorem before {s t u : State} (first : Moves s t) (same : u.linkPart = t.linkPart) : Moves s u :=
  first.trans (silent same)

/-- A part of an event under a condition. -/
theorem ite {s t : State} {p : Prop} [Decidable p] (h : Moves s t) : Moves s (if p then t else s) := by
  split
  · exact h
  · exact refl s

end Moves

/-! ### What leaves the link part -/

section Silent
variable (s : State)

@[simp] theorem onScreen_link (i : Fin 8) (f : Screen → Screen) : (s.onScreen i f).linkPart = s.linkPart := by
  simp [State.linkPart]
@[simp] theorem onBanks_link (i : Fin 8) (c : Fin 16) (f : ChannelBanks → ChannelBanks) :
    (s.onBanks i c f).linkPart = s.linkPart := by simp [State.linkPart]
@[simp] theorem onFormat_link (k : Fin 32) (f : FormatEntry → FormatEntry) :
    (s.onFormat k f).linkPart = s.linkPart := by simp [State.linkPart]
@[simp] theorem onMonitor_link (m : Fin 48) (f : Monitor → Monitor) : (s.onMonitor m f).linkPart = s.linkPart := by
  simp [State.linkPart]
@[simp] theorem onCueList_link (i : Fin 8) (f : CueList → CueList) : (s.onCueList i f).linkPart = s.linkPart := by
  simp [State.linkPart]
@[simp] theorem onLink_link (k : Fin 32) (f : CueLink → CueLink) : (s.onLink k f).linkPart = s.linkPart := by
  simp [State.linkPart]
@[simp] theorem onTimer_link (t : Fin 8) (f : Timer → Timer) : (s.onTimer t f).linkPart = s.linkPart := by
  simp [State.linkPart]
@[simp] theorem onLine_link (l : Fin 16) (f : BoothLine → BoothLine) : (s.onLine l f).linkPart = s.linkPart := by
  simp [State.linkPart]
@[simp] theorem onRun_link (f : RunRecord → RunRecord) : (s.onRun f).linkPart = s.linkPart := by
  simp [State.linkPart]
@[simp] theorem onHouse_link (f : House → House) : (s.onHouse f).linkPart = s.linkPart := by simp [State.linkPart]
@[simp] theorem onStats_link (f : LinkStats → LinkStats) : (s.onStats f).linkPart = s.linkPart := rfl

@[simp] theorem deriveMonitors_link (i : Fin 8) : (deriveMonitors i s).linkPart = s.linkPart := onScreen_link ..
@[simp] theorem enterState_link (i : Fin 8) (st : ScreenState) : (enterState i st s).linkPart = s.linkPart := by
  rw [enterState_frame]; simp only [State.linkPart]
@[simp] theorem emptyWindows_link (i : Fin 8) : (emptyWindows i s).linkPart = s.linkPart := by
  rw [emptyWindows_frame]; simp only [State.linkPart]
@[simp] theorem addUse_link (k : Option (Fin 32)) : (addUse k s).linkPart = s.linkPart := by
  rw [addUse_frame]; simp only [State.linkPart]
@[simp] theorem dropUse_link (k : Option (Fin 32)) : (dropUse k s).linkPart = s.linkPart := by
  rw [dropUse_frame]; simp only [State.linkPart]
@[simp] theorem goOff_link (i : Fin 8) : (goOff i s).linkPart = s.linkPart := by
  rw [goOff_frame]; simp only [State.linkPart]
@[simp] theorem endRun_link (r : AbortReason) : (endRun r s).linkPart = s.linkPart := by
  rw [endRun_frame]; simp only [State.linkPart]
@[simp] theorem stopScreen_link (i : Fin 8) : (stopScreen i s).linkPart = s.linkPart := by
  rw [stopScreen_frame]; simp only [State.linkPart]
@[simp] theorem resumeScreen_link (i : Fin 8) : (resumeScreen i s).linkPart = s.linkPart := by
  rw [resumeScreen_frame]; simp only [State.linkPart]
@[simp] theorem houseReleasesScreen_link (i : Fin 8) : (houseReleasesScreen s i).linkPart = s.linkPart := by
  rw [houseReleasesScreen_frame]; simp only [State.linkPart]
@[simp] theorem requestFader_link (i : Fin 8) (p ms : Nat) : (requestFader i p ms s).linkPart = s.linkPart :=
  onScreen_link ..
@[simp] theorem setCueMute_link (i : Fin 8) (on : Bool) : (setCueMute i on s).linkPart = s.linkPart :=
  onScreen_link ..
@[simp] theorem armFormat_link (i : Fin 8) (k : Option (Fin 32)) : (armFormat i k s).linkPart = s.linkPart := by
  rw [armFormat_frame]; simp only [State.linkPart]
@[simp] theorem swapBanks_link (i : Fin 8) : (swapBanks i s).linkPart = s.linkPart := onScreen_link ..
@[simp] theorem startTimer_link (t : Fin 8) (n : Nat) (m : RunMode) : (startTimer t n m s).linkPart = s.linkPart :=
  onTimer_link ..
@[simp] theorem stopTimer_link (t : Fin 8) : (stopTimer t s).linkPart = s.linkPart := onTimer_link ..
@[simp] theorem setLink_link (k : Fin 32) (on : Bool) : (setLink k on s).linkPart = s.linkPart := onLink_link ..
@[simp] theorem writeLatch_link (l : Fin 16) (a : Bool) : (writeLatch l a s).linkPart = s.linkPart := onLine_link ..
@[simp] theorem startTrain_link (l : Fin 16) (n a b : Nat) : (startTrain l n a b s).linkPart = s.linkPart :=
  onLine_link ..
@[simp] theorem goChange_link (f : House → House) : (goChange f s).linkPart = s.linkPart := onHouse_link ..
@[simp] theorem requestGoPulse_link : (requestGoPulse s).linkPart = s.linkPart := by
  rw [requestGoPulse_frame]; simp only [State.linkPart]
@[simp] theorem gatherDwell_link (i : Fin 8) (periods : List (List Int)) :
    (gatherDwell i periods s).linkPart = s.linkPart := by
  rw [gatherDwell_frame]; simp only [State.linkPart]
@[simp] theorem passChain_link (i : Fin 8) (f : Frame) : (passChain i f s).1.linkPart = s.linkPart := by
  rw [passChain_frame]; simp only [State.linkPart]
@[simp] theorem enterSettle_link (pass : Nat) : (enterSettle pass s).linkPart = s.linkPart := onRun_link ..
@[simp] theorem writeCorrection_link (c : Fin 16) (d : Vector Int 31) :
    (writeCorrection c d s).linkPart = s.linkPart := by
  unfold writeCorrection; simp
@[simp] theorem settleEnds_link : (settleEnds s).linkPart = s.linkPart := onRun_link ..

/-- A fold of silent changes is silent. -/
theorem foldl_link {α : Type} {f : State → α → State} (each : ∀ s x, (f s x).linkPart = s.linkPart) (l : List α) :
    (l.foldl f s).linkPart = s.linkPart := by
  induction l generalizing s with
  | nil => rfl
  | cons x rest ih => rw [List.foldl_cons, ih, each]

@[simp] theorem fillListed_link (i : Fin 8) (fromFlat : Bool) (channels : List (Fin 16)) :
    (fillListed i fromFlat channels s).linkPart = s.linkPart := foldl_link s (fun _ _ => onBanks_link ..) _
@[simp] theorem copyBanks_link (i : Fin 8) : (copyBanks i s).linkPart = s.linkPart :=
  foldl_link s (fun _ _ => onBanks_link ..) _

end Silent

/-! ### The shared operations -/

theorem overtakeRun_moves (r : AbortReason) (s : State) : Moves s (overtakeRun r s) :=
  (Moves.file _ _ (endRun r s)).after (endRun_link s r)

theorem houseStopsScreen_moves (s : State) (i : Fin 8) : Moves s (houseStopsScreen s i) := by
  unfold houseStopsScreen
  dsimp only
  split
  · split
    · exact .refl s
    · exact .silent (stopScreen_link ..)
  · split
    · exact .refl s
    · exact .silent (stopScreen_link ..)
  · split
    · exact (overtakeRun_moves ..).before (enterState_link ..)
    · exact (overtakeRun_moves ..).before (stopScreen_link ..)
  · exact .refl s

theorem cancelHeld_moves (byHouseStop : Bool) (s : State) : Moves s (cancelHeld byHouseStop s) := by
  unfold cancelHeld
  split
  · exact .refl s
  · exact (Moves.dropHeld s).trans (.file ..)

section Triggers
variable {trig : Trigger → State → State} (causes : ∀ t s, Moves s (trig t s))
include causes

theorem houseEntry_moves (s : State) : Moves s (houseEntry trig s) :=
  (Moves.foldl houseStopsScreen_moves _ s).trans <|
    (cancelHeld_moves true _).trans <| (Moves.fillSlot _).trans (causes ..)

theorem houseRelease_moves (s : State) : Moves s (houseRelease trig s) :=
  Moves.trans (.silent (foldl_link s houseReleasesScreen_link _)) <| (Moves.fillSlot _).trans (causes ..)

theorem houseChange_moves (f : House → House) (s : State) : Moves s (houseChange trig f s) := by
  unfold houseChange
  dsimp only
  split
  · exact (houseEntry_moves causes _).after (onHouse_link ..)
  · split
    · exact (houseRelease_moves causes _).after (onHouse_link ..)
    · exact .silent (onHouse_link ..)

theorem judgeBoothInput_moves (s : State) : Moves s (judgeBoothInput trig s) := houseChange_moves causes _ s

end Triggers

/-! ### Requests -/

theorem endFormatFade_moves (i : Fin 8) (cutShort : Bool) (s : State) : Moves s (endFormatFade i cutShort s) := by
  unfold endFormatFade
  dsimp only
  split
  · exact (Moves.file ..).after (by simp)
  · exact .silent (by simp)

theorem takeFormat_moves (i : Fin 8) (ms : Nat) (s : State) : Moves s (takeFormat i ms s) := by
  unfold takeFormat
  extract_lets before during
  have ended : Moves s before := .ite (endFormatFade_moves i true s)
  split
  · exact ended.trans ((endFormatFade_moves i false during).after (onScreen_link ..))
  · exact ended.before (onScreen_link ..)

theorem endSwap_moves (i : Fin 8) (early : Bool) (s : State) : Moves s (endSwap i early s) :=
  (Moves.file _ _ (s.onScreen i fun x => { x with eqSwap := none })).after (onScreen_link ..)

/-! ### The Cue Engine -/

section Triggers
variable {trig : Trigger → State → State} (causes : ∀ t s, Moves s (trig t s))
include causes

theorem perform_moves (source : Source) (owner : Option (Fin 8)) (i : Fin 8) (a : Action) (s : State) :
    Moves s (perform trig source owner i a s) := by
  cases a with
  | formatTake ms => exact takeFormat_moves i ms s
  | houseStop => exact houseChange_moves causes _ s
  | notice code => exact .file ..
  | _ => exact .silent (by simp [perform])

theorem executeAction_moves (source : Source) (owner : Option (Fin 8)) (i : Fin 8) (a : Action) (released : Bool)
    (s : State) : Moves s (executeAction trig source owner i a released s) := by
  unfold executeAction
  split
  · exact .file ..
  · split
    · exact .file ..
    · exact (Moves.file ..).trans (perform_moves causes ..)

theorem holdAction_moves (source : Source) (owner : Option (Fin 8)) (i : Fin 8) (a : Action) (s : State) :
    Moves s (holdAction trig source owner i a s) := by
  unfold holdAction
  split
  · exact .file ..
  · split
    · exact executeAction_moves causes ..
    · split
      · exact .file ..
      · rename_i room
        exact (Moves.hold _ s (Nat.lt_of_not_le room)).trans (.file ..)

theorem fireAction_moves (source : Source) (owner : Option (Fin 8)) (i : Fin 8) (a : Action) (held : Bool)
    (s : State) : Moves s (fireAction trig source owner i a held s) := by
  unfold fireAction
  split
  · exact holdAction_moves causes ..
  · exact executeAction_moves causes ..

theorem fireLink_moves (s : State) (k : Fin 32) : Moves s (fireLink trig s k) := by
  unfold fireLink
  extract_lets l fired
  have fires : Moves s fired := fireAction_moves causes ..
  split
  · exact fires.before (setLink_link ..)
  · exact fires

end Triggers

theorem occursWithin_moves (depth : Nat) (t : Trigger) (s : State) : Moves s (occursWithin depth t s) := by
  induction depth generalizing t s with
  | zero => exact .refl s
  | succ depth ih => exact .foldl (fireLink_moves ih) _ s

theorem occurs_moves (t : Trigger) (s : State) : Moves s (occurs t s) := occursWithin_moves 3 t s

theorem releaseHeld_moves (s : State) (h : HeldAction) : Moves s (releaseHeld s h) :=
  executeAction_moves occurs_moves ..

theorem goEvent_moves (s : State) : Moves s (goEvent s) := by
  unfold goEvent
  extract_lets items released
  have releases : Moves s released := (Moves.dropHeld s).trans (.foldl releaseHeld_moves _ _)
  refine releases.trans ?_
  split
  · exact occurs_moves ..
  · exact (Moves.file ..).trans (occurs_moves ..)

theorem processEntry_moves (i : Fin 8) (p : Word) (entries : List CueEntry) (s : State) (k : Fin 64) :
    Moves s (processEntry i p entries s k) := by
  unfold processEntry
  split
  · exact .refl s
  · split
    · split
      · exact .file ..
      · exact (fireAction_moves occurs_moves ..).trans (occurs_moves ..)
    · exact .refl s

theorem takeCues_moves (i : Fin 8) (p : Word) (s : State) : Moves s (takeCues i p s) :=
  (Moves.foldl (processEntry_moves i p s.cueLists[i].entries) _ s).before (onCueList_link ..)

/-! ### The Level Monitor Unit -/

theorem reportEvent_moves (s : State) (x : Fin 48 × MonitorEvent) : Moves s (reportEvent s x) := by
  unfold reportEvent
  extract_lets c told
  have tells : Moves s told := .ite (.file ..)
  split
  · exact tells
  · exact tells.trans (occurs_moves ..)

theorem evaluateMonitors_moves (i : Fin 8) (s : State) : Moves s (evaluateMonitors i s) := by
  unfold evaluateMonitors
  extract_lets events moved derived stopped
  have derives : Moves s derived := Moves.before (t := moved) (.silent (by simp only [moved, State.linkPart]))
    (deriveMonitors_link ..)
  have stops : Moves derived stopped := .ite (houseChange_moves occurs_moves ..)
  exact (derives.trans stops).trans (.foldl reportEvent_moves _ _)

/-! ### The Alignment Engine -/

theorem startRun_moves (i : Fin 8) (q : RunRequest) (s : State) : Moves s (startRun i q s) := by
  unfold startRun
  extract_lets swapped entered filled
  have swaps : Moves s swapped := .ite (endSwap_moves i true s)
  have enters : Moves s entered := swaps.before (by simp [entered])
  have fills : Moves entered filled := .ite (.silent (fillListed_link ..))
  exact (enters.trans fills).before (onScreen_link ..)

theorem completeRun_moves (s : State) : Moves s (completeRun s) := by
  unfold completeRun
  extract_lets i completed idle converged
  exact ((Moves.file ..).trans (occurs_moves ..)).after (by simp [idle, completed])

theorem finishChannel_moves (result : AlignResult) (s : State) : Moves s (finishChannel result s) := by
  unfold finishChannel
  extract_lets written i reported next
  have reports : Moves written reported := by
    dsimp only [reported]
    split
    · exact .refl written
    · exact .file ..
  have before : Moves s next := (reports.after (onRun_link ..)).before (onRun_link ..)
  split
  · exact before.trans (completeRun_moves _)
  · exact before.before (by simp)

theorem judgePass_moves (c : Fin 16) (m : Vector Level 31) (s : State) : Moves s (judgePass c m s) := by
  unfold judgePass
  extract_lets curve d deviation compared corrected
  have same : compared.linkPart = s.linkPart := onRun_link ..
  have corrects : corrected.linkPart = s.linkPart := (writeCorrection_link ..).trans same
  split
  · exact (finishChannel_moves ..).after same
  · split
    · split
      · exact .silent ((enterSettle_link ..).trans corrects)
      · exact (finishChannel_moves ..).after corrects
    · exact (finishChannel_moves ..).after same

theorem evaluatePass_moves (c : Fin 16) (s : State) : Moves s (evaluatePass c s) := by
  unfold evaluatePass
  extract_lets a scale m measured
  have same : measured.linkPart = s.linkPart := onRun_link ..
  split
  · exact (finishChannel_moves ..).after same
  · split
    · exact (finishChannel_moves ..).after same
    · exact (judgePass_moves ..).after same

theorem dwellEnds_moves (s : State) : Moves s (dwellEnds s) := by
  unfold dwellEnds
  split
  · exact .refl s
  · exact evaluatePass_moves ..

/-! ### A block taken -/

theorem noteArrival_moves (i : Fin 8) (f : Frame) (s : State) : Moves s (noteArrival i f s) := by
  unfold noteArrival
  dsimp only
  split
  · exact (Moves.file ..).after (onScreen_link ..)
  · exact .silent (onScreen_link ..)

theorem startShow_moves (i : Fin 8) (position : Option Word) (s : State) : Moves s (startShow i position s) := by
  unfold startShow
  extract_lets entered shown rewound
  exact ((Moves.file ..).trans (occurs_moves ..)).after (by simp [rewound, shown, entered])

theorem endShow_moves (i : Fin 8) (s : State) : Moves s (endShow i s) :=
  ((Moves.file _ _ (enterState i .dark s)).trans (occurs_moves ..)).after (enterState_link ..)

theorem actOnRun_moves (i : Fin 8) (run : Bool) (position : Option Word) (s : State) :
    Moves s (actOnRun i run position s) := by
  unfold actOnRun
  split
  · exact startShow_moves ..
  · exact endShow_moves ..
  · exact ((overtakeRun_moves ..).before (enterState_link ..)).trans (startShow_moves ..)
  · exact .refl s

theorem checkGap_moves (i : Fin 8) (p : Word) (s : State) : Moves s (checkGap i p s) := by
  unfold checkGap
  split
  · exact .refl s
  · split
    · exact .refl s
    · exact (Moves.file ..).after (by simp only [State.linkPart])

theorem handlePosition_moves (i : Fin 8) (position : Option Word) (s : State) :
    Moves s (handlePosition i position s) := by
  unfold handlePosition
  split
  · exact ((checkGap_moves ..).trans (takeCues_moves ..)).before (onScreen_link ..)
  · exact .refl s

theorem checkMismatch_moves (i : Fin 8) (f : Frame) (s : State) : Moves s (checkMismatch i f s) := by
  unfold checkMismatch
  dsimp only
  split
  · exact .refl s
  · split
    · split
      · exact .refl s
      · exact (Moves.file ..).after (onScreen_link ..)
    · exact .refl s

theorem takeBlock_moves (i : Fin 8) (f : Frame) (s : State) : Moves s (takeBlock i f s) := by
  unfold takeBlock
  extract_lets arrived handled
  have handles : Moves s handled :=
    (noteArrival_moves i f s).trans <| (actOnRun_moves ..).trans <|
      (handlePosition_moves ..).trans (checkMismatch_moves ..)
  exact (handles.before (passChain_link ..)).trans ((evaluateMonitors_moves ..).trans (.joinBOut ..))

theorem handBlock_moves (i : Fin 8) (f : Frame) (s : State) : Moves s (handBlock i f s) := by
  unfold handBlock
  split
  · exact .joinBOut ..
  · exact takeBlock_moves ..

theorem loseSource_moves (i : Fin 8) (s : State) : Moves s (loseSource i s) := by
  unfold loseSource
  extract_lets lost told made
  have makes : Moves s made := ((Moves.file ..).trans (.joinBOut ..)).after (onScreen_link ..)
  split
  · exact (makes.trans (overtakeRun_moves ..)).before (enterState_link ..)
  · exact makes

theorem nextSilent_moves (i : Fin 8) (s : State) : Moves s (nextSilent i s) :=
  (Moves.joinBOut _ s).before (onScreen_link ..)

/-! ### Arriving frames -/

theorem joinIntake_moves (c : Command) (s : State) : Moves s (joinIntake c s) := by
  unfold joinIntake
  split
  · rename_i room
    exact .queueCommand c s room
  · exact .silent (onStats_link ..)

theorem joinForward_moves (f : Frame) (s : State) : Moves s (joinForward f s) := by
  unfold joinForward
  split
  · rename_i room
    exact .queueForward f s room
  · exact .silent (onStats_link ..)

theorem routeFrame_moves (lane : Lane) (f : Frame) (s : State) : Moves s (routeFrame lane f s) := by
  cases lane with
  | bIn => exact joinForward_moves f s
  | aIn =>
    show Moves s (if f.kind = 1 then routeBlock f s else routeCommand f s)
    split
    · unfold routeBlock
      split
      · split
        · exact handBlock_moves ..
        · exact .refl s
      · exact .joinBOut ..
    · unfold routeCommand
      split
      · exact joinIntake_moves ..
      · split
        · exact (joinIntake_moves ..).trans (.joinBOut ..)
        · exact .joinBOut ..

theorem receive_moves (lane : Lane) (cutOff : Bool) (f : Frame) (s : State) : Moves s (receive lane cutOff f s) := by
  unfold receive
  extract_lets counted
  have counts : counted.linkPart = s.linkPart := onStats_link ..
  split
  · exact .silent ((onStats_link ..).trans counts)
  · split
    · exact .silent ((onStats_link ..).trans counts)
    · exact (routeFrame_moves ..).after counts

/-! ### Event rows -/

theorem eventRow_moves {f : State → State} (acts : ∀ s, Moves s (f s)) (s : State) : Moves s (eventRow f s) := by
  unfold eventRow
  split
  · exact .refl s
  · exact acts s

theorem timedRow_moves {due : State → Bool} {f : State → State} (acts : ∀ s, Moves s (f s)) (s : State) :
    Moves s (timedRow due f s) := eventRow_moves (fun s => .ite (acts s)) s

theorem takeGo_moves (s : State) : Moves s (takeGo s) := by
  unfold takeGo
  extract_lets sensed
  split
  · exact (goEvent_moves ..).after (onHouse_link ..)
  · exact .silent (onHouse_link ..)

theorem takeLine_moves (l : Fin 16) (s : State) : Moves s (takeLine l s) := by
  unfold takeLine
  extract_lets active taken
  have takes : taken.linkPart = s.linkPart := onLine_link ..
  split
  · exact ((Moves.file ..).trans (occurs_moves ..)).after takes
  · exact (judgeBoothInput_moves occurs_moves _).after takes
  · exact .silent takes

theorem expireTimer_moves (t : Fin 8) (s : State) : Moves s (expireTimer t s) :=
  (occurs_moves _ _).after (onTimer_link ..)

/-! ### Commands -/

section Bodies
variable {suits : Bool} {size : Nat} {c : Command}

theorem applyUnit_moves {check : State → Option Result} {effect : State → State × List Byte}
    (acts : ∀ s, Moves s (effect s).1) (s : State) : Moves s (applyUnit check effect s).1 := by
  unfold applyUnit
  split
  · exact .refl s
  · exact acts s

theorem applyScreen_moves {success : Result} {check : Fin 8 → State → Option Result}
    {effect : Fin 8 → State → State × List Byte} (acts : ∀ i s, Moves s (effect i s).1) (i : Fin 8) (s : State) :
    Moves s (applyScreen success check effect i s).1 := by
  unfold applyScreen
  split
  · exact .refl s
  · exact acts i s

theorem applyList_moves {check : Fin 8 → State → Option Result} {effect : Fin 8 → State → State × List Byte}
    (acts : ∀ i s, Moves s (effect i s).1) (l : List (Fin 8)) (s : State) :
    Moves s (applyList size check effect l s).1 := by
  induction l generalizing s with
  | nil => exact .refl s
  | cons i rest ih =>
    unfold applyList
    split
    · exact ih s
    · exact (acts i s).trans (ih _)

theorem unitCommand_moves {check : State → Option Result} {effect : State → State × List Byte}
    (acts : ∀ s, Moves s (effect s).1) (s : State) : Moves s (unitCommand suits check effect c s).1 := by
  unfold unitCommand
  split
  · exact .refl s
  · exact applyUnit_moves acts s

theorem screenCommand_moves {check : Fin 8 → State → Option Result} {effect : Fin 8 → State → State × List Byte}
    (acts : ∀ i s, Moves s (effect i s).1) (s : State) : Moves s (screenCommand suits size check effect c s).1 := by
  unfold screenCommand
  split
  · exact .refl s
  · split
    · exact applyScreen_moves acts _ s
    · exact applyList_moves acts _ s

theorem oneScreenCommand_moves {check : Fin 8 → State → Option Result} {effect : Fin 8 → State → State}
    (acts : ∀ i s, Moves s (effect i s)) (s : State) : Moves s (oneScreenCommand suits check effect c s).1 := by
  unfold oneScreenCommand
  split
  · exact .refl s
  · split
    · exact applyScreen_moves acts _ s
    · exact .refl s

end Bodies

section Effects
variable (c : Command) (s : State)

theorem setUpScreen_moves (i : Fin 8) (v : SetupValues) (k : Fin 32) : Moves s (setUpScreen i v k s) := by
  unfold setUpScreen
  extract_lets configured entered
  have enters : entered.linkPart = s.linkPart := by simp [entered, configured]
  split
  · exact .silent ((stopScreen_link ..).trans enters)
  · exact .silent enters

theorem effectSetup_moves (i : Fin 8) : Moves s (effectSetup c i s).1 := by
  unfold effectSetup
  split
  · exact setUpScreen_moves ..
  · exact .refl s

theorem effectFader_moves (i : Fin 8) : Moves s (effectFader c i s).1 := by
  unfold effectFader
  split
  · exact .refl s
  · exact .silent (requestFader_link ..)

theorem setCommandMute_link (i : Fin 8) (channel : Option (Fin 16)) (on : Bool) :
    (setCommandMute i channel on s).linkPart = s.linkPart := by
  cases channel with
  | none => exact onScreen_link ..
  | some k => exact onScreen_link ..

theorem effectMute_moves (i : Fin 8) : Moves s (effectMute c i s).1 := by
  unfold effectMute
  split
  · exact .refl s
  · exact .silent (setCommandMute_link ..)

theorem effectRehearsal_moves (i : Fin 8) : Moves s (effectRehearsal c i s).1 := by
  unfold effectRehearsal
  split
  · exact .refl s
  · exact .silent (onScreen_link ..)

theorem effectChannelSetup_moves (i : Fin 8) : Moves s (effectChannelSetup c i s).1 := by
  unfold effectChannelSetup
  split
  · exact .refl s
  · exact .silent (onScreen_link ..)

theorem effectEqGraphic_moves (i : Fin 8) : Moves s (effectEqGraphic c i s).1 := by
  unfold effectEqGraphic
  split
  · exact .silent (onBanks_link ..)
  · exact .refl s

theorem effectEqSection_moves (i : Fin 8) : Moves s (effectEqSection c i s).1 := by
  unfold effectEqSection
  split
  · exact .silent (onBanks_link ..)
  · exact .refl s

theorem effectEqRead_moves (i : Fin 8) : Moves s (effectEqRead c i s).1 := by
  unfold effectEqRead
  split
  · exact .refl s
  · exact .refl s

theorem effectCurveLoad_moves : Moves s (effectCurveLoad c s).1 := by
  unfold effectCurveLoad
  split
  · exact .silent (by simp only [State.linkPart])
  · exact .refl s

theorem effectAlignStart_moves (i : Fin 8) : Moves s (effectAlignStart c i s) := by
  unfold effectAlignStart
  split
  · exact startRun_moves ..
  · exact .refl s

theorem abortByCommand_moves (i : Fin 8) : Moves s (abortByCommand i s) :=
  (overtakeRun_moves .command s).before (enterState_link ..)

theorem effectFormatLoad_moves : Moves s (effectFormatLoad c s).1 := by
  unfold effectFormatLoad
  split
  · exact .silent (onFormat_link ..)
  · exact .refl s

theorem effectFormatClear_moves : Moves s (effectFormatClear c s).1 := by
  unfold effectFormatClear
  split
  · exact .refl s
  · exact .silent (onFormat_link ..)

theorem effectFormatRead_moves : Moves s (effectFormatRead c s).1 := by
  unfold effectFormatRead
  split
  · exact .refl s
  · exact .refl s

theorem effectArm_moves (i : Fin 8) : Moves s (effectArm c i s).1 := by
  unfold effectArm
  split
  · exact .refl s
  · exact .silent (armFormat_link ..)

theorem effectMonitorLoad_moves : Moves s (effectMonitorLoad c s).1 := by
  unfold effectMonitorLoad
  split
  · exact .refl s
  · split
    · exact .refl s
    · exact .silent (by simp)

theorem effectMonitorEnable_moves : Moves s (effectMonitorEnable c s).1 := by
  unfold effectMonitorEnable
  split
  · exact .refl s
  · dsimp only
    split
    · exact .refl s
    · exact .silent (by simp)

theorem effectMonitorDisable_moves : Moves s (effectMonitorDisable c s).1 := by
  unfold effectMonitorDisable
  split
  · exact .refl s
  · dsimp only
    split
    · exact .silent (by simp)
    · exact .refl s

theorem acknowledge_moves (k : Fin 48) : Moves s (acknowledge k s) := by
  unfold acknowledge
  extract_lets content l cleared
  exact (reportEvent_moves ..).after ((deriveMonitors_link ..).trans (onMonitor_link ..))

theorem effectMonitorAck_moves : Moves s (effectMonitorAck c s).1 := by
  unfold effectMonitorAck
  split
  · exact .refl s
  · exact acknowledge_moves ..

theorem effectMonitorStatus_moves : Moves s (effectMonitorStatus c s).1 := by
  unfold effectMonitorStatus
  dsimp only
  split
  · exact .silent (foldl_link s (fun _ _ => onMonitor_link ..) _)
  · exact .refl s

theorem effectCuelistLoad_moves (i : Fin 8) : Moves s (effectCuelistLoad c i s).1 := by
  unfold effectCuelistLoad
  split
  · exact .refl s
  · exact .silent (onCueList_link ..)

theorem effectLinkLoad_moves : Moves s (effectLinkLoad c s).1 := by
  unfold effectLinkLoad
  split
  · exact .silent (onLink_link ..)
  · exact .refl s

theorem effectLinkFlag_moves (on : Bool) : Moves s (effectLinkFlag on c s).1 := by
  unfold effectLinkFlag
  split
  · exact .refl s
  · exact .silent (setLink_link ..)

theorem effectTimerStart_moves : Moves s (effectTimerStart c s).1 := by
  unfold effectTimerStart
  split
  · exact .silent (startTimer_link ..)
  · exact .refl s

theorem effectTimerStop_moves : Moves s (effectTimerStop c s).1 := by
  unfold effectTimerStop
  split
  · exact .refl s
  · exact .silent (stopTimer_link ..)

theorem effectTimerRead_moves : Moves s (effectTimerRead c s).1 := by
  unfold effectTimerRead
  split
  · exact .refl s
  · exact .refl s

theorem effectCueFire_moves : Moves s (effectCueFire c s).1 := by
  unfold effectCueFire
  split
  · exact .refl s
  · exact fireLink_moves occurs_moves ..

theorem effectHouseSetup_moves : Moves s (effectHouseSetup c s).1 := by
  unfold effectHouseSetup
  split
  · exact .refl s
  · exact houseChange_moves occurs_moves ..

theorem effectLineSetup_moves : Moves s (effectLineSetup c s).1 := by
  unfold effectLineSetup
  split
  · exact (judgeBoothInput_moves occurs_moves _).after (onLine_link ..)
  · exact .refl s

theorem effectLineSet_moves : Moves s (effectLineSet c s).1 := by
  unfold effectLineSet
  split
  · exact .silent (writeLatch_link ..)
  · exact .refl s

/-- The kinds that cannot be masked stand in a mask as it reads (R170). -/
theorem normalMask_keeps (mask : Word) : keepsItsKinds (normalMask mask) := by
  intro k hk
  simp only [List.mem_cons, List.not_mem_nil, or_false] at hk
  rcases hk with rfl | rfl | rfl <;> simp [normalMask, unmaskable]

theorem effectNoticeMask_moves : Moves s (effectNoticeMask c s).1 := by
  unfold effectNoticeMask
  dsimp only
  split
  · exact .setMask _ s (normalMask_keeps _)
  · exact .silent rfl

theorem effectLinkStats_moves : Moves s (effectLinkStats c s).1 := by
  unfold effectLinkStats
  split
  · exact .silent (by simp only [State.linkPart])
  · exact .refl s

end Effects

/-! ### Every command -/

theorem cmdEqLoad_moves (c : Command) (s : State) : Moves s (cmdEqLoad c s).1 := by
  unfold cmdEqLoad
  split
  · exact screenCommand_moves (fun i s => effectEqGraphic_moves c s i) s
  · split
    · exact screenCommand_moves (fun i s => effectEqSection_moves c s i) s
    · exact screenCommand_moves (fun _ s => .refl s) s

/-- Whatever command is executed, UNIT_RESET apart. -/
theorem bodyOf_moves (code : Nat) (c : Command) (s : State) : Moves s (bodyOf code c s).1 := by
  unfold bodyOf
  split
  case h_1 => exact unitCommand_moves .refl s
  case h_2 => exact unitCommand_moves (effectNoticeMask_moves c) s
  case h_3 => exact unitCommand_moves (effectLinkStats_moves c) s
  case h_4 => exact screenCommand_moves (fun i s => effectSetup_moves c s i) s
  case h_5 => exact screenCommand_moves (fun i s => .silent (goOff_link s i)) s
  case h_6 => exact screenCommand_moves (fun _ s => .refl s) s
  case h_7 => exact screenCommand_moves (fun i s => .silent (resumeScreen_link s i)) s
  case h_8 => exact screenCommand_moves (fun i s => effectFader_moves c s i) s
  case h_9 => exact screenCommand_moves (fun i s => effectMute_moves c s i) s
  case h_10 => exact screenCommand_moves (fun i s => effectRehearsal_moves c s i) s
  case h_11 => exact screenCommand_moves (fun i s => effectChannelSetup_moves c s i) s
  case h_12 => exact unitCommand_moves (effectFormatLoad_moves c) s
  case h_13 => exact unitCommand_moves (effectFormatClear_moves c) s
  case h_14 => exact screenCommand_moves (fun i s => effectArm_moves c s i) s
  case h_15 => exact screenCommand_moves (fun i s => takeFormat_moves i _ s) s
  case h_16 => exact unitCommand_moves (effectFormatRead_moves c) s
  case h_17 => exact cmdEqLoad_moves c s
  case h_18 => exact screenCommand_moves (fun i s => .silent (copyBanks_link s i)) s
  case h_19 => exact screenCommand_moves (fun i s => .silent (swapBanks_link s i)) s
  case h_20 => exact screenCommand_moves (fun i s => effectEqRead_moves c s i) s
  case h_21 => exact unitCommand_moves (effectCurveLoad_moves c) s
  case h_22 => exact oneScreenCommand_moves (fun i s => effectAlignStart_moves c s i) s
  case h_23 => exact screenCommand_moves (fun i s => abortByCommand_moves s i) s
  case h_24 => exact unitCommand_moves .refl s
  case h_25 => exact unitCommand_moves (effectMonitorLoad_moves c) s
  case h_26 => exact unitCommand_moves (effectMonitorEnable_moves c) s
  case h_27 => exact unitCommand_moves (effectMonitorDisable_moves c) s
  case h_28 => exact unitCommand_moves (effectMonitorAck_moves c) s
  case h_29 => exact unitCommand_moves (effectMonitorStatus_moves c) s
  case h_30 => exact screenCommand_moves (fun i s => effectCuelistLoad_moves c s i) s
  case h_31 => exact screenCommand_moves (fun _ s => .silent (onCueList_link ..)) s
  case h_32 => exact unitCommand_moves (effectLinkLoad_moves c) s
  case h_33 => exact unitCommand_moves (fun s => effectLinkFlag_moves c s true) s
  case h_34 => exact unitCommand_moves (fun s => effectLinkFlag_moves c s false) s
  case h_35 => exact unitCommand_moves (effectTimerStart_moves c) s
  case h_36 => exact unitCommand_moves (effectTimerStop_moves c) s
  case h_37 => exact unitCommand_moves (effectTimerRead_moves c) s
  case h_38 => exact unitCommand_moves (effectCueFire_moves c) s
  case h_39 => exact unitCommand_moves (fun s => .silent (requestGoPulse_link s)) s
  case h_40 => exact unitCommand_moves (cancelHeld_moves false) s
  case h_41 => exact unitCommand_moves .refl s
  case h_42 => exact unitCommand_moves (effectHouseSetup_moves c) s
  case h_43 => exact unitCommand_moves (houseChange_moves occurs_moves _) s
  case h_44 => exact unitCommand_moves (houseChange_moves occurs_moves _) s
  case h_45 => exact unitCommand_moves .refl s
  case h_46 => exact unitCommand_moves (effectLineSetup_moves c) s
  case h_47 => exact unitCommand_moves (effectLineSet_moves c) s
  case h_48 => exact unitCommand_moves .refl s
  case h_49 => exact .refl s

/-! ### UNIT_RESET -/

theorem resetRun_link (s : State) : (resetRun s).linkPart = s.linkPart := by
  unfold resetRun
  dsimp only
  split
  · simp only [State.linkPart]
  · rw [endRun_link]; simp only [State.linkPart]

theorem resetScreens_link (scope : Scope) (s : State) : (resetScreens scope s).linkPart = s.linkPart := by
  have off := foldl_link s (f := fun s i => goOff i s) goOff_link (indexes 8)
  cases scope with
  | keepTables => exact off
  | clear => rw [← off]; simp only [resetScreens, State.linkPart]

theorem resetTables_link (scope : Scope) (s : State) : (resetTables scope s).linkPart = s.linkPart := by
  cases scope <;> simp only [resetTables, State.linkPart]

theorem resetMonitors_link (scope : Scope) (s : State) : (resetMonitors scope s).linkPart = s.linkPart := by
  cases scope <;> simp only [resetMonitors, State.linkPart]

theorem resetCues_link (scope : Scope) (s : State) :
    (resetCues scope s).linkPart = { s with held := [] }.linkPart := by
  cases scope <;> simp only [resetCues, State.linkPart]

theorem resetLines_link (scope : Scope) (s : State) : (resetLines scope s).linkPart = s.linkPart := by
  cases scope <;> simp only [resetLines, State.linkPart]

theorem resetLink_link (s : State) :
    (resetLink s).linkPart = { s with replies := [], notices := [], lostCount := 0, slot := none }.linkPart := by
  simp only [resetLink, State.linkPart]

theorem powerOnMask_keeps : keepsItsKinds powerOnMask := by
  intro k hk
  simp only [List.mem_cons, List.not_mem_nil, or_false] at hk
  rcases hk with rfl | rfl | rfl <;> rfl

theorem resetMask_moves (scope : Scope) (s : State) : Moves s (resetMask scope s) := by
  cases scope with
  | keepTables => exact .refl s
  | clear => exact .setMask _ s powerOnMask_keeps

theorem resetUnit_moves (scope : Scope) (s : State) : Moves s (resetUnit scope s) := by
  have tables : (resetMonitors scope (resetTables scope (resetScreens scope (resetRun s)))).linkPart = s.linkPart := by
    rw [resetMonitors_link, resetTables_link, resetScreens_link, resetRun_link]
  have house (s : State) : (resetHouse scope (resetLines scope s)).linkPart = s.linkPart :=
    (onHouse_link ..).trans (resetLines_link ..)
  exact Moves.after (.trans ((Moves.dropHeld _).before ((house _).trans (resetCues_link ..)))
    ((resetMask_moves ..).trans ((Moves.emptyAOut _).before (resetLink_link _)))) tables

/-! ### Rows and steps -/

/-- What a row can do to the link part: the moves of an event, with one reply in it where the reply list has room
(R8, R9). -/
def RowMoves (s t : State) : Prop :=
  Moves s t ∨ ∃ u r, s.replies.length < 8 ∧ Moves s u ∧ Moves (appendReply r u) t

theorem canExecute_iff {s : State} :
    s.canExecute = true ↔ s.inReset = false ∧ s.executing = none ∧ s.replies.length < 8 := by
  rw [State.canExecute, Bool.and_eq_true, Bool.and_eq_true, decide_eq_true_eq, Bool.not_eq_true',
    Option.isNone_iff_eq_none, and_assoc]
  rfl

theorem executeThen_moves {after : Answer → State → State} {body : Command → State → State × Answer} {c : Command}
    {s : State} (room : s.replies.length < 8) (acts : Moves s (body c s).1) (follows : ∀ a s, Moves s (after a s)) :
    RowMoves s (executeThen after body c s) :=
  .inr ⟨_, _, room, acts, follows ..⟩

theorem executeUnitReset_moves {c : Command} {s : State} (room : s.replies.length < 8) :
    RowMoves s (executeUnitReset c s) := by
  have ready (scope : Scope) (a : Answer) (s : State) : Moves s (readyAfter scope a s) := .ite (.file ..)
  unfold executeUnitReset
  split
  · exact executeThen_moves room (unitCommand_moves (resetUnit_moves _) s) (ready _)
  · split
    · exact executeThen_moves room (unitCommand_moves (resetUnit_moves _) s) (ready _)
    · exact executeThen_moves room (unitCommand_moves .refl s) (fun _ => .refl)

theorem executeCommand_moves {c : Command} {s : State} (room : s.replies.length < 8) :
    RowMoves s (executeCommand c s) := by
  unfold executeCommand
  split
  · exact executeUnitReset_moves room
  · exact executeThen_moves room (bodyOf_moves _ c s) (fun _ => .refl)

/-- A row whose meaning is the execution of a listed command runs what the code stands for (section 9.4). -/
theorem exec_of_listed {r : Instr} {body : Command → State → State × Answer} {c : Command} {s : State}
    (row : exec r s = .next (commandRow body c s)) (other : c.code ≠ 2#8) (listed : bodyOf c.code.toNat c = body c) :
    exec r s = .next (if s.canExecute then executeCommand c s else s) := by
  rw [row]
  simp only [commandRow, executeCommand, if_neg other, execute, executeThen, listed]

/-- A command row is the execution of the command that it spells, where the Management Unit can take one (R160; log
entry 6). -/
theorem exec_of_command {r : Instr} {c : Command} (spells : r.command = some c) (s : State) :
    exec r s = .next (if s.canExecute then executeCommand c s else s) := by
  cases r with
  | unitResetKeepTables a => cases spells; rfl
  | unitResetClear a => cases spells; rfl
  | eqLoadGraphic a => cases spells; exact exec_of_listed rfl (by simp [formCommandOf]) rfl
  | eqLoadSection a => cases spells; exact exec_of_listed rfl (by simp [formCommandOf]) rfl
  | _ => cases spells <;> exact exec_of_listed rfl (by simp [commandOf]) rfl

theorem takeCommand_moves (s : State) : RowMoves s (takeCommand s) := by
  unfold takeCommand
  split
  · exact .inl (.refl s)
  · rename_i c rest head
    split
    · rename_i can
      have room : s.replies.length < 8 := (canExecute_iff.mp can).2.2
      rcases executeCommand_moves (c := c) (s := { s with intake := rest }) room with moves | ⟨u, r, _, acts, follows⟩
      · exact .inl ((Moves.takeHead s head).trans moves)
      · exact .inr ⟨u, r, room, (Moves.takeHead s head).trans acts, follows⟩
    · exact .inl (.refl s)

theorem resetnAssert_moves {s t : State} (answers : exec .resetnAssert s = .next t) : Moves s t := by
  cases answers
  exact (Moves.resetn s).before (by simp only [State.linkPart])

/-- Whatever row is executed. -/
theorem exec_moves {r : Instr} {s t : State} (answers : exec r s = .next t) : RowMoves s t := by
  cases spells : r.command with
  | some c =>
    rw [exec_of_command spells] at answers
    cases answers
    split
    · rename_i can
      exact executeCommand_moves (canExecute_iff.mp can).2.2
    · exact .inl (.refl s)
  | none =>
    cases r with
    | commandTake => cases answers; exact takeCommand_moves s
    | blockArrival f => cases answers; exact .inl (eventRow_moves (fun s => receive_moves _ _ _ s) s)
    | commandArrival f => cases answers; exact .inl (eventRow_moves (fun s => receive_moves _ _ _ s) s)
    | forwardArrival f => cases answers; exact .inl (eventRow_moves (fun s => receive_moves _ _ _ s) s)
    | discardedFrame lane cutOff f => cases answers; exact .inl (eventRow_moves (fun s => receive_moves _ _ _ s) s)
    | aOutFrameSent => cases answers; exact .inl (eventRow_moves .aOutSent s)
    | bOutFrameSent => cases answers; exact .inl (eventRow_moves .bOutSent s)
    | resetnAssert => exact .inl (resetnAssert_moves answers)
    | powerOnReset straps => cases answers; exact .inl ((Moves.powerOn straps s).trans (.file ..))
    | sourceLost i => cases answers; exact .inl (timedRow_moves (loseSource_moves i) s)
    | silentBlock i => cases answers; exact .inl (timedRow_moves (nextSilent_moves i) s)
    | faderRampEnd i => cases answers; exact .inl (timedRow_moves (fun s => .silent (onScreen_link ..)) s)
    | stopFadeEnd i => cases answers; exact .inl (timedRow_moves (fun s => .silent (onScreen_link ..)) s)
    | formatCrossfadeEnd i => cases answers; exact .inl (timedRow_moves (endFormatFade_moves i false) s)
    | swapCrossfadeEnd i => cases answers; exact .inl (timedRow_moves (endSwap_moves i false) s)
    | settleEnd => cases answers; exact .inl (timedRow_moves (fun s => .silent (settleEnds_link s)) s)
    | dwellEnd => cases answers; exact .inl (timedRow_moves dwellEnds_moves s)
    | timerExpiry t => cases answers; exact .inl (timedRow_moves (expireTimer_moves t) s)
    | pulsePhaseEnd l => cases answers; exact .inl (timedRow_moves (fun s => .silent (onLine_link ..)) s)
    | goPulseEnd => cases answers; exact .inl (timedRow_moves (fun s => .silent (goChange_link ..)) s)
    | hstopPinChange level => cases answers; exact .inl (.silent (onHouse_link ..))
    | hstopSensedChange => cases answers; exact .inl (timedRow_moves (houseChange_moves occurs_moves _) s)
    | goPinChange level => cases answers; exact .inl (.silent (goChange_link ..))
    | goSensedChange => cases answers; exact .inl (timedRow_moves takeGo_moves s)
    | linePinChange l level =>
      cases answers
      exact .inl ((Moves.silent (onLine_link ..)).trans (.ite (timedRow_moves (takeLine_moves l) _)))
    | lineFilterChange l => cases answers; exact .inl (timedRow_moves (takeLine_moves l) s)
    | _ => cases spells

/-- An invariant of the link part that every move keeps, and an appended reply where there is room, is kept by every
step. -/
theorem stepKeeps_of_moves {inv : State → Prop} (keeps : ∀ s t, Moves s t → inv s → inv t)
    (reply : ∀ s r, s.replies.length < 8 → inv s → inv (appendReply r s))
    (fewer : ∀ s t, Moves s t → t.replies.length ≤ s.replies.length)
    (queue : ∀ (s : State) (rows : List Instr), inv s → inv { s with pending := rows })
    (ticks : ∀ (s : State) (now : Word), inv s → inv { s with timeBase := now }) : StepKeeps inv := by
  intro s t holds steps
  unfold step at steps
  split at steps
  · cases steps
    unfold passTime
    split
    · exact holds
    · split
      · exact ticks s _ holds
      · exact queue s _ holds
  · rename_i row rest _
    have before := queue s rest holds
    rcases exec_moves steps with moves | ⟨u, r, room, acts, follows⟩
    · exact keeps _ _ moves before
    · exact keeps _ _ follows (reply u r (lt_of_le_of_lt (fewer _ _ acts) room) (keeps _ _ acts before))

end Sys2Proof.Machine
end

section
/-!
PROOF. The invariants of the link: the capacities of the queues and the kinds that cannot be masked (R8 to R10, R136,
R177, R178), and that no frame waits at an idle lane (R11, R13). The arbiter's choice is said once, case by case; each
invariant is then one induction over the moves of an event.
-/

namespace Sys2Proof.Machine

/-! ### The arbiter's choice, case by case (R12) -/

section Choice
variable {s : State}

theorem chooseFrame_reply {r : Reply} {rest : List Reply} (waits : s.replies = r :: rest) :
    chooseFrame s = { s with replies := rest, aOut := some (replyFrame s.unit r) } := by
  simp only [chooseFrame, waits]

/-- The notice side has something and the turn is not the forward buffer's. -/
theorem chooseFrame_noticeSide (noReply : s.replies = []) (ready : s.noticeReady = true)
    (turn : s.forward = [] ∨ s.lastChosen = .forwardBuffer) : chooseFrame s = sendNotice s := by
  have turn' : (s.forward.isEmpty || s.lastChosen == .forwardBuffer) = true := by simpa using turn
  simp only [chooseFrame, noReply, ready, turn', Bool.and_true, if_true]

theorem chooseFrame_slot {h : HouseSlot} (noReply : s.replies = []) (filled : s.slot = some h)
    (turn : s.forward = [] ∨ s.lastChosen = .forwardBuffer) :
    chooseFrame s = { s with
      slot := none
      lastChosen := .noticeSide
      aOut := some (noticeFrame s.unit ⟨.houseState s.house.set h.count, none, h.stamp⟩) } := by
  rw [chooseFrame_noticeSide noReply (by simp [State.noticeReady, filled]) turn]
  simp only [sendNotice, filled]

theorem chooseFrame_notice {n : Notice} {rest : List Notice} (noReply : s.replies = []) (empty : s.slot = none)
    (waits : s.notices = n :: rest) (turn : s.forward = [] ∨ s.lastChosen = .forwardBuffer) :
    chooseFrame s = { s with
      notices := if s.lostCount = 0 then rest else rest ++ [⟨.noticesLost s.lostCount, none, s.timeBase⟩]
      lostCount := 0
      lastChosen := .noticeSide
      aOut := some (noticeFrame s.unit n) } := by
  rw [chooseFrame_noticeSide noReply (by simp [State.noticeReady, waits]) turn]
  simp only [sendNotice, empty, waits]

theorem chooseFrame_forward {f : Frame} {rest : List Frame} (noReply : s.replies = []) (waits : s.forward = f :: rest)
    (turn : (s.slot = none ∧ s.notices = []) ∨ s.lastChosen = .noticeSide) :
    chooseFrame s = { s with forward := rest, lastChosen := .forwardBuffer, aOut := some f } := by
  have turn' : (s.noticeReady && (s.forward.isEmpty || s.lastChosen == .forwardBuffer)) = false := by
    rcases turn with ⟨slot, notices⟩ | last
    · simp [State.noticeReady, slot, notices]
    · simp [waits, last]
  have turned : chooseFrame s = sendForward s := by
    simp only [chooseFrame, noReply, turn', Bool.false_eq_true, if_false]
  rw [turned]
  simp only [sendForward, waits]

theorem chooseFrame_idle (noReply : s.replies = []) (slot : s.slot = none) (notices : s.notices = [])
    (forward : s.forward = []) : chooseFrame s = s := by
  simp only [chooseFrame, noReply, State.noticeReady, slot, notices, sendForward, forward, Option.isSome_none,
    List.isEmpty_nil, Bool.not_true, Bool.or_self, Bool.false_and, Bool.false_eq_true, if_false]

/-- What a choice can be. -/
theorem chooseFrame_cases (s : State) :
    (∃ r rest, s.replies = r :: rest ∧
      chooseFrame s = { s with replies := rest, aOut := some (replyFrame s.unit r) }) ∨
    (∃ h, s.replies = [] ∧ s.slot = some h ∧
      chooseFrame s = { s with
        slot := none
        lastChosen := .noticeSide
        aOut := some (noticeFrame s.unit ⟨.houseState s.house.set h.count, none, h.stamp⟩) }) ∨
    (∃ n rest, s.replies = [] ∧ s.notices = n :: rest ∧
      chooseFrame s = { s with
        notices := if s.lostCount = 0 then rest else rest ++ [⟨.noticesLost s.lostCount, none, s.timeBase⟩]
        lostCount := 0
        lastChosen := .noticeSide
        aOut := some (noticeFrame s.unit n) }) ∨
    (∃ f rest, s.replies = [] ∧ s.forward = f :: rest ∧
      chooseFrame s = { s with forward := rest, lastChosen := .forwardBuffer, aOut := some f }) ∨
    (s.replies = [] ∧ s.slot = none ∧ s.notices = [] ∧ s.forward = [] ∧ chooseFrame s = s) := by
  rcases eq_or_ne s.replies [] with noReply | replies
  · by_cases turn : s.forward = [] ∨ s.lastChosen = .forwardBuffer
    · obtain empty | ⟨h, filled⟩ := s.slot.eq_none_or_eq_some
      · rcases eq_or_ne s.notices [] with noNotice | notices
        · rcases eq_or_ne s.forward [] with noForward | forward
          · exact .inr (.inr (.inr (.inr ⟨noReply, empty, noNotice, noForward,
              chooseFrame_idle noReply empty noNotice noForward⟩)))
          · obtain ⟨f, rest, waits⟩ := List.exists_cons_of_ne_nil forward
            exact .inr (.inr (.inr (.inl ⟨f, rest, noReply, waits,
              chooseFrame_forward noReply waits (.inl ⟨empty, noNotice⟩)⟩)))
        · obtain ⟨n, rest, waits⟩ := List.exists_cons_of_ne_nil notices
          exact .inr (.inr (.inl ⟨n, rest, noReply, waits, chooseFrame_notice noReply empty waits turn⟩))
      · exact .inr (.inl ⟨h, noReply, filled, chooseFrame_slot noReply filled turn⟩)
    · obtain ⟨forward, last⟩ := not_or.mp turn
      obtain ⟨f, rest, waits⟩ := List.exists_cons_of_ne_nil forward
      have turn' : s.lastChosen = .noticeSide := by
        cases chosen : s.lastChosen with
        | noticeSide => rfl
        | forwardBuffer => exact absurd chosen last
      exact .inr (.inr (.inr (.inl ⟨f, rest, noReply, waits, chooseFrame_forward noReply waits (.inr turn')⟩)))
  · obtain ⟨r, rest, waits⟩ := List.exists_cons_of_ne_nil replies
    exact .inl ⟨r, rest, waits, chooseFrame_reply waits⟩

end Choice

theorem offerAOut_busy {s : State} (busy : s.aOut ≠ none) : offerAOut s = s := by
  obtain ⟨f, sends⟩ := Option.ne_none_iff_exists'.mp busy
  simp [offerAOut, sends]

theorem offerAOut_inReset {s : State} (stopped : s.inReset = true) : offerAOut s = s := by simp [offerAOut, stopped]

theorem offerAOut_idle {s : State} (runs : s.inReset = false) (idle : s.aOut = none) : offerAOut s = chooseFrame s := by
  simp [offerAOut, runs, idle]

/-- An offer is a choice or changes nothing. -/
theorem offerAOut_keeps {p : State → Prop} {s : State} (holds : p s) (chooses : p s → p (chooseFrame s)) :
    p (offerAOut s) := by
  unfold offerAOut
  split
  · exact chooses holds
  · exact holds

/-! ### The capacities (R8 to R10, R136, R178) -/

/-- The reply list never grows but by an appended reply. -/
theorem offerAOut_replies_length (s : State) : (offerAOut s).replies.length ≤ s.replies.length := by
  refine offerAOut_keeps (p := fun t => t.replies.length ≤ s.replies.length) le_rfl fun _ => ?_
  obtain ⟨r, rest, waits, eq⟩ | ⟨h, -, -, eq⟩ | ⟨n, rest, -, -, eq⟩ | ⟨f, rest, -, -, eq⟩ | ⟨-, -, -, -, eq⟩ :=
    chooseFrame_cases s
  · rw [eq, waits]; exact Nat.le_succ _
  all_goals rw [eq]

theorem file_replies_length (screen : Option (Fin 8)) (body : NoticeBody) (s : State) :
    (file screen body s).replies.length ≤ s.replies.length := by
  unfold file
  split
  · refine (offerAOut_replies_length _).trans_eq ?_
    rw [offerNotice_frame]
  · exact le_rfl

theorem Moves.replies_length {s t : State} (moves : Moves s t) : t.replies.length ≤ s.replies.length := by
  induction moves with
  | silent same => exact le_of_eq (congrArg (fun p : LinkPart => p.replies.length) same)
  | trans _ _ first second => exact second.trans first
  | file screen body s => exact file_replies_length screen body s
  | fillSlot s => exact offerAOut_replies_length _
  | joinBOut f s => rw [joinBOut_frame]
  | queueForward f s => exact offerAOut_replies_length _
  | aOutSent s => exact offerAOut_replies_length _
  | bOutSent s => rw [offerBOut_frame]
  | emptyAOut s => exact Nat.zero_le _
  | powerOn straps s => exact Nat.zero_le _
  | _ => exact le_rfl

theorem chooseFrame_capacity {s : State} (within : s.queuesWithinCapacity) : (chooseFrame s).queuesWithinCapacity := by
  obtain ⟨intake, replies, forward, notices, held, lost, full⟩ := within
  obtain ⟨r, rest, waits, eq⟩ | ⟨h, -, -, eq⟩ | ⟨n, rest, -, waits, eq⟩ | ⟨f, rest, -, waits, eq⟩ | ⟨-, -, -, -, eq⟩ :=
    chooseFrame_cases s
  · rw [waits, List.length_cons] at replies
    rw [eq]
    exact ⟨intake, Nat.le_of_succ_le replies, forward, notices, held, lost, full⟩
  · rw [eq]
    exact ⟨intake, replies, forward, notices, held, lost, full⟩
  · rw [waits, List.length_cons] at notices
    have fits : (if s.lostCount = 0 then rest
        else rest ++ [⟨.noticesLost s.lostCount, none, s.timeBase⟩]).length ≤ 64 := by
      split
      · exact Nat.le_of_succ_le notices
      · rwa [List.length_append]
    rw [eq]
    exact ⟨intake, replies, forward, fits, held, Nat.zero_le _, fun positive => absurd positive (lt_irrefl 0)⟩
  · rw [waits, List.length_cons] at forward
    rw [eq]
    exact ⟨intake, replies, Nat.le_of_succ_le forward, notices, held, lost, full⟩
  · rw [eq]
    exact ⟨intake, replies, forward, notices, held, lost, full⟩

theorem offerAOut_capacity {s : State} (within : s.queuesWithinCapacity) : (offerAOut s).queuesWithinCapacity :=
  offerAOut_keeps within chooseFrame_capacity

/-- A notice is lost only where the queue is full (R178). -/
theorem offerNotice_capacity (n : Notice) {s : State} (within : s.queuesWithinCapacity) :
    (offerNotice n s).queuesWithinCapacity := by
  obtain ⟨intake, replies, forward, notices, held, lost, full⟩ := within
  unfold offerNotice Config.noticeCapacity
  split
  · rename_i room
    have none : s.lostCount = 0 := by
      by_contra positive
      have := full (Nat.pos_of_ne_zero positive)
      omega
    refine ⟨intake, replies, forward, ?_, held, lost, fun positive => absurd positive (by simp [none])⟩
    simpa using room
  · rename_i crowded
    exact ⟨intake, replies, forward, notices, held, riseTo_le lost, fun _ => le_antisymm notices (not_lt.mp crowded)⟩

theorem Moves.capacity {s t : State} (moves : Moves s t) (within : s.queuesWithinCapacity) :
    t.queuesWithinCapacity := by
  induction moves with
  | silent same =>
    simp only [State.linkPart, LinkPart.mk.injEq] at same
    obtain ⟨-, intake, replies, forward, -, -, -, held, notices, lost, -, -, -⟩ := same
    unfold State.queuesWithinCapacity
    rwa [intake, replies, forward, held, notices, lost]
  | trans _ _ first second => exact second (first within)
  | file screen body s =>
    unfold Machine.file
    split
    · exact offerAOut_capacity (offerNotice_capacity _ within)
    · exact within
  | fillSlot s => exact offerAOut_capacity within
  | joinBOut f s => rw [joinBOut_frame]; exact within
  | hold h s room =>
    obtain ⟨intake, replies, forward, notices, held, lost, full⟩ := within
    exact ⟨intake, replies, forward, notices, by simpa using room, lost, full⟩
  | dropHeld s =>
    obtain ⟨intake, replies, forward, notices, held, lost, full⟩ := within
    exact ⟨intake, replies, forward, notices, Nat.zero_le _, lost, full⟩
  | setMask mask s => exact within
  | emptyAOut s =>
    obtain ⟨intake, replies, forward, notices, held, lost, full⟩ := within
    exact ⟨intake, Nat.zero_le _, forward, Nat.zero_le _, held, Nat.zero_le _,
      fun positive => absurd positive (lt_irrefl 0)⟩
  | queueCommand c s room =>
    obtain ⟨intake, rest⟩ := within
    exact ⟨by simpa using room, rest⟩
  | takeHead s head =>
    obtain ⟨intake, rest⟩ := within
    rw [head, List.length_cons] at intake
    exact ⟨Nat.le_of_succ_le intake, rest⟩
  | queueForward f s room =>
    obtain ⟨intake, replies, forward, rest⟩ := within
    exact offerAOut_capacity ⟨intake, replies, by simpa using room, rest⟩
  | aOutSent s => exact offerAOut_capacity within
  | bOutSent s => rw [offerBOut_frame]; exact within
  | resetn s => exact within
  | powerOn straps s =>
    exact ⟨Nat.zero_le _, Nat.zero_le _, Nat.zero_le _, Nat.zero_le _, Nat.zero_le _, Nat.zero_le _,
      fun positive => absurd positive (lt_irrefl 0)⟩

theorem appendReply_capacity {s : State} (r : Reply) (room : s.replies.length < 8) (within : s.queuesWithinCapacity) :
    (appendReply r s).queuesWithinCapacity := by
  obtain ⟨intake, replies, rest⟩ := within
  exact offerAOut_capacity ⟨intake, by simpa using room, rest⟩

theorem steps_keep_capacities : StepKeeps State.queuesWithinCapacity :=
  stepKeeps_of_moves (fun _ _ => Moves.capacity) (fun _ r => appendReply_capacity r)
    (fun _ _ => Moves.replies_length) (fun _ _ within => within) (fun _ _ within => within)

/-! ### The kinds that cannot be masked (R170, R177) -/

theorem Moves.mask {s t : State} (moves : Moves s t) (kinds : s.maskKeepsItsKinds) : t.maskKeepsItsKinds := by
  induction moves with
  | silent same =>
    simp only [State.linkPart, LinkPart.mk.injEq] at same
    obtain ⟨-, -, -, -, -, -, -, -, -, -, -, mask, -⟩ := same
    unfold State.maskKeepsItsKinds
    rwa [mask]
  | trans _ _ first second => exact second (first kinds)
  | file screen body s => rw [file_frame]; exact kinds
  | fillSlot s => rw [fillSlot_frame]; exact kinds
  | joinBOut f s => rw [joinBOut_frame]; exact kinds
  | setMask mask s keeps => exact keeps
  | queueForward f s => rw [offerAOut_frame]; exact kinds
  | aOutSent s => rw [offerAOut_frame]; exact kinds
  | bOutSent s => rw [offerBOut_frame]; exact kinds
  | powerOn straps s => exact powerOnMask_keeps
  | _ => exact kinds

theorem steps_keep_mask : StepKeeps State.maskKeepsItsKinds :=
  stepKeeps_of_moves (fun _ _ => Moves.mask) (fun _ _ _ kinds => by rw [appendReply_frame]; exact kinds)
    (fun _ _ => Moves.replies_length) (fun _ _ kinds => kinds) (fun _ _ kinds => kinds)

/-- Settles O53: each invariant by one induction over the moves of an event. -/
theorem stepsKeepTheCapacities : Obligations.StepsKeepTheCapacities := ⟨steps_keep_capacities, steps_keep_mask⟩

/-! ### No frame waits at an idle lane (R11, R13) -/

/-- Nothing waits at an idle A-out. -/
def State.aOutServed (s : State) : Prop :=
  s.inReset = false → s.aOut = none → s.replies = [] ∧ s.slot = none ∧ s.notices = [] ∧ s.forward = []

/-- Nothing waits at an idle B-out. -/
def State.bOutServed (s : State) : Prop := s.inReset = false → s.bOut = none → s.bOutOrder = []

theorem lanesNeverWait_iff (s : State) : s.lanesNeverWait ↔ s.aOutServed ∧ s.bOutServed :=
  ⟨fun served => ⟨fun runs => (served runs).1, fun runs => (served runs).2⟩,
    fun ⟨aOut, bOut⟩ runs => ⟨aOut runs, bOut runs⟩⟩

/-- An offer leaves nothing waiting at an idle A-out, whatever waited before it. -/
theorem offerAOut_served (s : State) : (offerAOut s).aOutServed := by
  cases stopped : s.inReset with
  | true =>
    rw [offerAOut_inReset stopped]
    exact fun runs => absurd (stopped.symm.trans runs) (by decide)
  | false =>
    cases lane : s.aOut with
    | some f =>
      rw [offerAOut_busy (by simp [lane])]
      exact fun _ idle => absurd (lane.symm.trans idle) (by simp)
    | none =>
      rw [offerAOut_idle stopped lane]
      obtain ⟨r, rest, -, eq⟩ | ⟨h, -, -, eq⟩ | ⟨n, rest, -, -, eq⟩ | ⟨f, rest, -, -, eq⟩ |
          ⟨replies, slot, notices, forward, eq⟩ := chooseFrame_cases s
      case inr.inr.inr.inr => rw [eq]; exact fun _ _ => ⟨replies, slot, notices, forward⟩
      all_goals rw [eq]; exact fun _ idle => absurd idle (by simp)

theorem offerBOut_inReset {s : State} (stopped : s.inReset = true) : offerBOut s = s := by
  unfold offerBOut
  split
  · rw [if_pos stopped]
  · rfl

theorem offerBOut_busy {s : State} (busy : s.bOut ≠ none) : offerBOut s = s := by
  obtain ⟨f, sends⟩ := Option.ne_none_iff_exists'.mp busy
  simp only [offerBOut, sends]

theorem offerBOut_empty {s : State} (empty : s.bOutOrder = []) : offerBOut s = s := by
  unfold offerBOut
  split
  · rename_i f rest _ order
    exact absurd (empty.symm.trans order) (by simp)
  · rfl

theorem offerBOut_idle {s : State} {f : Frame} {rest : List Frame} (runs : s.inReset = false) (idle : s.bOut = none)
    (waits : s.bOutOrder = f :: rest) : offerBOut s = { s with bOut := some f, bOutOrder := rest } := by
  simp only [offerBOut, idle, waits, runs, Bool.false_eq_true, if_false]

/-- An offer leaves nothing waiting at an idle B-out, whatever waited before it. -/
theorem offerBOut_served (s : State) : (offerBOut s).bOutServed := by
  cases stopped : s.inReset with
  | true =>
    rw [offerBOut_inReset stopped]
    exact fun runs => absurd (stopped.symm.trans runs) (by decide)
  | false =>
    rcases eq_or_ne s.bOut none with idle | busy
    · rcases eq_or_ne s.bOutOrder [] with empty | waits
      · rw [offerBOut_empty empty]
        exact fun _ _ => empty
      · obtain ⟨f, rest, order⟩ := List.exists_cons_of_ne_nil waits
        rw [offerBOut_idle stopped idle order]
        exact fun _ sent => absurd sent (by simp)
    · rw [offerBOut_busy busy]
      exact fun _ idle => absurd idle busy

theorem file_served (screen : Option (Fin 8)) (body : NoticeBody) {s : State} (served : s.lanesNeverWait) :
    (file screen body s).lanesNeverWait := by
  rw [lanesNeverWait_iff] at served ⊢
  obtain ⟨aOut, bOut⟩ := served
  refine ⟨?_, by rw [file_frame]; exact bOut⟩
  unfold file
  split
  · exact offerAOut_served _
  · exact aOut

theorem Moves.served {s t : State} (moves : Moves s t) (served : s.lanesNeverWait) : t.lanesNeverWait := by
  induction moves with
  | silent same =>
    simp only [State.linkPart, LinkPart.mk.injEq] at same
    obtain ⟨inReset, -, replies, forward, aOut, bOutOrder, bOut, -, notices, -, slot, -, -⟩ := same
    unfold State.lanesNeverWait
    rwa [inReset, replies, forward, aOut, bOutOrder, bOut, notices, slot]
  | trans _ _ first second => exact second (first served)
  | file screen body s => exact file_served screen body served
  | fillSlot s =>
    obtain ⟨-, bOut⟩ := (lanesNeverWait_iff s).mp served
    exact (lanesNeverWait_iff _).mpr ⟨offerAOut_served _, by rw [fillSlot_frame]; exact bOut⟩
  | joinBOut f s =>
    obtain ⟨aOut, -⟩ := (lanesNeverWait_iff s).mp served
    exact (lanesNeverWait_iff _).mpr ⟨by rw [joinBOut_frame]; exact aOut, offerBOut_served _⟩
  | emptyAOut s =>
    intro runs
    obtain ⟨aOut, bOut⟩ := served runs
    exact ⟨fun idle => ⟨rfl, rfl, rfl, (aOut idle).2.2.2⟩, bOut⟩
  | queueForward f s =>
    obtain ⟨-, bOut⟩ := (lanesNeverWait_iff s).mp served
    exact (lanesNeverWait_iff _).mpr ⟨offerAOut_served _, by rw [offerAOut_frame]; exact bOut⟩
  | aOutSent s =>
    obtain ⟨-, bOut⟩ := (lanesNeverWait_iff s).mp served
    exact (lanesNeverWait_iff _).mpr ⟨offerAOut_served _, by rw [offerAOut_frame]; exact bOut⟩
  | bOutSent s =>
    obtain ⟨aOut, -⟩ := (lanesNeverWait_iff s).mp served
    exact (lanesNeverWait_iff _).mpr ⟨by rw [offerBOut_frame]; exact aOut, offerBOut_served _⟩
  | resetn s => exact fun runs => absurd runs (by simp)
  | powerOn straps s => exact fun _ => ⟨fun _ => ⟨rfl, rfl, rfl, rfl⟩, fun _ => rfl⟩
  | _ => exact served

theorem appendReply_served {s : State} (r : Reply) (served : s.lanesNeverWait) : (appendReply r s).lanesNeverWait := by
  obtain ⟨-, bOut⟩ := (lanesNeverWait_iff s).mp served
  exact (lanesNeverWait_iff _).mpr ⟨offerAOut_served _, by rw [appendReply_frame]; exact bOut⟩

/-- Settles O54: an offer leaves nothing waiting, and whatever puts a frame before a lane offers it. -/
theorem stepsLeaveNoLaneWaiting : Obligations.StepsLeaveNoLaneWaiting :=
  stepKeeps_of_moves (fun _ _ => Moves.served) (fun _ r _ => appendReply_served r) (fun _ _ => Moves.replies_length)
    (fun _ _ served => served) (fun _ _ served => served)

end Sys2Proof.Machine
end

section
/-!
PROOF. The machine right after power-on reset: what each record holds, and that every invariant of Safety.lean holds of
it. The tables are replicas of one entry each, so an entry's value is said once for each table.
-/

namespace Sys2Proof.Machine

/-! ### The entries of the tables -/

/-- Every entry of a table of one value is that value. -/
theorem replicate_get {α : Type} {n : Nat} (x : α) (i : Fin n) : (Vector.replicate n x)[i] = x :=
  Vector.getElem_replicate i.isLt

theorem reset_screens (i : Fin 8) : State.reset.screens[i] = offScreen false .a := replicate_get ..
theorem reset_formats (k : Fin 32) : State.reset.formats[k] = invalidFormat := replicate_get ..
theorem reset_curves (k : Fin 4) : State.reset.curves[k] = invalidCurve := replicate_get ..
theorem reset_monitors (m : Fin 48) : State.reset.monitors[m] = emptyMonitor := replicate_get ..
theorem reset_cueLists (i : Fin 8) : State.reset.cueLists[i] = emptyCueList := replicate_get ..
theorem reset_links (k : Fin 32) : State.reset.links[k] = emptyLink := replicate_get ..
theorem reset_timers (t : Fin 8) : State.reset.timers[t] = emptyTimer := replicate_get ..
theorem reset_lines (l : Fin 16) : State.reset.lines[l] = powerOnLine false := replicate_get ..
theorem reset_banks (i : Fin 8) (c : Fin 16) : State.reset.eq[i][c] = ⟨flatBank, flatBank⟩ := by
  rw [show State.reset.eq[i] = _ from replicate_get _ i, replicate_get]

/-- Both banks of a channel are FLAT, by either name. -/
theorem flatBanks_bank (name : BankName) : (ChannelBanks.mk flatBank flatBank).bank name = flatBank := by
  cases name <;> rfl

/-- Settles O52: record by record; a power-on state differs from the reset state in the straps, wires and lines
alone. -/
theorem resetValues : Obligations.ResetValues := by
  unfold Obligations.ResetValues
  refine ⟨⟨rfl, rfl, rfl, rfl, rfl, rfl, rfl, rfl, rfl, rfl, rfl, rfl, rfl, rfl, rfl, rfl, rfl, rfl, rfl⟩,
    fun _ _ => rfl, fun i => ⟨reset_screens i, reset_cueLists i, reset_timers i⟩,
    fun k => ⟨reset_formats k, reset_links k⟩, fun i c name => ?_, reset_monitors, fun _ => rfl, reset_lines,
    reset_curves, rfl, rfl, fun _ _ _ _ => rfl⟩
  rw [reset_banks, flatBanks_bank]
  rfl

/-! ### The invariants -/

/-- No entry of a table of one value that fails a test passes it. -/
theorem any_replicate {α : Type} {n : Nat} {x : α} {p : α → Bool} (fails : p x = false) :
    (Vector.replicate n x).toList.any p = false := by
  simp [fails]

/-- Monitors that set no ceiling leave it at 100. -/
theorem ceiling_replicate (i : Fin 8) (n : Nat) :
    (List.replicate n emptyMonitor).foldl (fun c m => min c (m.ceilingOn i)) 100 = 100 := by
  induction n with
  | zero => rfl
  | succ n ih => exact ih

theorem reset_ceilingOf (i : Fin 8) : State.reset.ceilingOf i = 100 := by
  show (Vector.replicate 48 emptyMonitor).toList.foldl _ 100 = 100
  rw [Vector.toList_replicate]
  exact ceiling_replicate i 48

theorem reset_meets_capacities : State.reset.queuesWithinCapacity :=
  ⟨Nat.zero_le _, Nat.zero_le _, Nat.zero_le _, Nat.zero_le _, Nat.zero_le _, Nat.zero_le _,
    fun positive => absurd positive (lt_irrefl 0)⟩

theorem reset_meets_lanes : State.reset.lanesNeverWait :=
  fun _ => ⟨fun idle => absurd idle (by simp [State.reset]), fun _ => rfl⟩

theorem reset_meets_watchSets : State.reset.monitorsFollowWatchSets := by
  intro m
  have disabled : State.reset.monitors[m].enabled = false := by rw [reset_monitors]; rfl
  rw [if_neg (Bool.eq_false_iff.mp disabled), reset_monitors]
  rfl

theorem reset_meets_causes : State.reset.causesFollowTheMonitors := by
  intro i
  rw [reset_screens, reset_ceilingOf]
  refine ⟨?_, rfl, rfl, fun c => ?_⟩
  · exact (any_replicate rfl).symm
  · rw [show (offScreen false .a).channels[c] = restChannel from replicate_get ..]
    exact (any_replicate rfl).symm

theorem reset_meets_engine : State.reset.engineHoldsItsScreen := by
  intro i
  rw [reset_screens]
  exact ⟨fun aligning => absurd aligning (by decide), fun ⟨busy, _⟩ => absurd rfl busy⟩

theorem reset_meets_counts : State.reset.useCountsAreTrue := by
  refine ⟨fun k => ?_, fun i => ?_⟩
  · rw [reset_formats]
    show 0 = ((Vector.replicate 8 (offScreen false .a)).toList.map (·.uses k)).sum
    rw [Vector.toList_replicate, List.map_replicate, List.sum_replicate]
    rfl
  · rw [reset_screens]
    exact ⟨fun _ => rfl, fun _ => ⟨rfl, rfl, rfl⟩⟩

theorem reset_meets_cursors : State.reset.cursorsStandRight := by
  intro i
  rw [reset_cueLists, reset_screens]
  exact ⟨⟨.nil, nofun⟩, Nat.zero_le _, rfl⟩

theorem reset_meets_held : State.reset.nothingIsHeldInAStop := fun _ => rfl

theorem reset_meets_house : State.reset.houseIsSettled := by
  refine fun _ => ⟨by decide, by decide, fun booth => absurd booth (by decide), fun ⟨l, stop, _⟩ => ?_⟩
  rw [reset_lines] at stop
  exact absurd stop (by decide)

/-- Settles O60: each invariant of the reset state. -/
theorem resetMeetsEveryInvariant : Obligations.ResetMeetsEveryInvariant :=
  ⟨reset_meets_capacities, reset_meets_lanes, powerOnMask_keeps, reset_meets_watchSets, reset_meets_causes,
    reset_meets_engine, reset_meets_counts, reset_meets_cursors, reset_meets_held, reset_meets_house⟩

end Sys2Proof.Machine
end

section
/-!
PROOF. The rows of the Link Interface Unit (chapter 1): the tests of an arriving frame (R2 to R4), where a frame that
passes them goes (R6 to R10), what the lanes send next (R11 to R13), and the filing of notices, the house-state slot and
replies (R9, R175, R178, R179).
-/

namespace Sys2Proof.Machine

/-! ### The tests of a frame (R2 to R4) -/

theorem goodBlock_iff (f : Frame) : f.goodBlock = true ↔ f.kind = 1 ∧ f.unitNibble ≤ 7 ∧ f.screenNibble ≤ 7 ∧
    1 ≤ f.channelCount ∧ f.channelCount ≤ 16 ∧ f.length = 2 + 96 * f.channelCount := by
  simp only [Frame.goodBlock, Bool.and_eq_true, beq_iff_eq, decide_eq_true_eq, and_assoc]

theorem goodCommand_iff (f : Frame) :
    f.goodCommand = true ↔ f.kind = 2 ∧ (f.unitNibble ≤ 7 ∨ f.unitNibble = 15) := by
  simp only [Frame.goodCommand, Bool.and_eq_true, Bool.or_eq_true, beq_iff_eq, decide_eq_true_eq]

theorem goodReport_iff (f : Frame) :
    f.goodReport = true ↔ (f.kind = 3 ∨ (f.kind = 4 ∧ f.length = 9)) ∧ f.unitNibble ≤ 7 := by
  simp only [Frame.goodReport, Bool.and_eq_true, Bool.or_eq_true, beq_iff_eq, decide_eq_true_eq]

/-- R4's table. -/
theorem classified_iff (f : Frame) (lane : Lane) : f.classified lane = true ↔
    f.length ≤ 1600 ∧
    ((lane = .aIn ∧ f.kind = 1 ∧ f.unitNibble ≤ 7 ∧ f.screenNibble ≤ 7 ∧ 1 ≤ f.channelCount ∧ f.channelCount ≤ 16 ∧
        f.length = 2 + 96 * f.channelCount) ∨
      (lane = .aIn ∧ f.kind = 2 ∧ (f.unitNibble ≤ 7 ∨ f.unitNibble = 15)) ∨
      (lane = .bIn ∧ f.kind = 3 ∧ f.unitNibble ≤ 7) ∨
      (lane = .bIn ∧ f.kind = 4 ∧ f.unitNibble ≤ 7 ∧ f.length = 9)) := by
  cases lane with
  | aIn =>
    simp only [Frame.classified, Bool.and_eq_true, decide_eq_true_eq, Bool.or_eq_true, goodBlock_iff,
      goodCommand_iff, reduceCtorEq, false_and, or_false, true_and]
  | bIn =>
    simp only [Frame.classified, Bool.and_eq_true, decide_eq_true_eq, goodReport_iff, reduceCtorEq, false_and,
      false_or, true_and]
    tauto

theorem intact_iff (f : Frame) : f.intact = true ↔
    f.payload.length = 256 * f.header[2].toNat + f.header[3].toNat ∧
      f.check = checkWord (f.header.toList ++ f.payload) := by
  rw [Frame.intact, Bool.and_eq_true, beq_iff_eq, beq_iff_eq, eq_comm (a := checkWord _), Frame.length, nat2, mul_comm]

/-! ### An arriving frame (R3, R4, R16) -/

/-- A frame counted in `frames_in` (R16). -/
def State.countFrame (s : State) : State :=
  { s with stats := { s.stats with framesIn := riseTo 65535 s.stats.framesIn } }

theorem eventRow_runs {f : State → State} {s : State} (runs : s.inReset = false) : eventRow f s = f s := by
  simp only [eventRow, runs, Bool.false_eq_true, if_false]

section Receive
variable {lane : Lane} {cutOff : Bool} {f : Frame} {s : State}

theorem receive_damaged (damaged : cutOff = true ∨ f.intact = false) :
    receive lane cutOff f s = { s with stats := { s.stats with
      framesIn := riseTo 65535 s.stats.framesIn
      checkErrors := riseTo 65535 s.stats.checkErrors } } := by
  have fails : (cutOff || !f.intact) = true := by simpa using damaged
  simp only [receive, fails, if_true]
  rfl

theorem receive_unclassified (whole : cutOff = false) (intact : f.intact = true) (fails : f.classified lane = false) :
    receive lane cutOff f s = { s with stats := { s.stats with
      framesIn := riseTo 65535 s.stats.framesIn
      badFrames := riseTo 65535 s.stats.badFrames } } := by
  simp only [receive, whole, intact, fails, Bool.not_true, Bool.or_self, Bool.not_false, Bool.false_eq_true, if_false,
    if_true]
  rfl

theorem receive_passing (intact : f.intact = true) (passes : f.classified lane = true) :
    receive lane false f s = routeFrame lane f s.countFrame := by
  simp only [receive, intact, passes, Bool.not_true, Bool.or_self, Bool.false_eq_true, if_false]
  rfl

end Receive

/-- Settles O4: the tests condition by condition, and the two ways in which an arriving frame fails them. -/
theorem framesThatFailTheirTestsAreDiscarded : Obligations.FramesThatFailTheirTestsAreDiscarded := by
  refine ⟨classified_iff, intact_iff, fun s runs => ?_⟩
  have row {lane : Lane} {cutOff : Bool} {f : Frame} : eventRow (receive lane cutOff f) s = receive lane cutOff f s :=
    eventRow_runs runs
  refine ⟨fun lane cutOff f => ⟨fun damaged => ?_, fun whole intact fails => ?_⟩,
    fun f => ⟨fun damaged => ⟨?_, ?_, ?_⟩, fun intact fails => ⟨?_, ?_⟩, fun intact fails => ?_⟩⟩
  · exact congrArg _ (row.trans (receive_damaged damaged))
  · exact congrArg _ (row.trans (receive_unclassified whole intact fails))
  · exact congrArg _ (row.trans (receive_damaged (.inr damaged)))
  · exact congrArg _ (row.trans (receive_damaged (.inr damaged)))
  · exact congrArg _ (row.trans (receive_damaged (.inr damaged)))
  · exact congrArg _ (row.trans (receive_unclassified rfl intact fails))
  · exact congrArg _ (row.trans (receive_unclassified rfl intact fails))
  · exact congrArg _ (row.trans (receive_unclassified rfl intact fails))

/-! ### Where a frame goes (R6 to R10) -/

section Routes
variable {f : Frame} {s : State}

/-- A frame joins B-out where nothing waits at the idle lane (R13). -/
theorem joinBOut_eq (runs : s.inReset = false) (served : s.bOut = none → s.bOutOrder = []) :
    joinBOut f s = joinedBOut f s := by
  unfold joinBOut joinedBOut
  split
  · rename_i idle
    have empty := served idle
    rw [offerBOut_idle (f := f) (rest := []) (by exact runs) (by exact idle) (by simp [empty]), empty]
  · rename_i busy
    exact offerBOut_busy (by exact busy)

/-- A BLOCK frame for a screen of this unit is handed to its path (R6). -/
theorem routeFrame_block {i : Fin 8} (kind : f.kind = 1) (unit : f.unitNibble = s.unit.val)
    (screen : f.screenNibble = i.val) : routeFrame .aIn f s = handBlock i f s := by
  simp only [routeFrame, kind, if_true, routeBlock, unit, screen, toIndex_val]

/-- A BLOCK frame of another unit goes on (R6). -/
theorem routeFrame_foreignBlock (kind : f.kind = 1) (unit : f.unitNibble ≠ s.unit.val) :
    routeFrame .aIn f s = joinBOut f s := by
  simp only [routeFrame, kind, if_true, routeBlock, unit, if_false]

theorem handBlock_off {i : Fin 8} (off : s.screens[i].state = .off) : handBlock i f s =
    joinBOut (blockFrame f.header[1] f.position f.blockFlags f.channelCount (List.replicate (32 * f.channelCount) 0))
      s := by
  rw [handBlock, if_pos off]
  rfl

theorem handBlock_on {i : Fin 8} (on : s.screens[i].state ≠ .off) : handBlock i f s = takeBlock i f s := by
  rw [handBlock, if_neg on]

theorem routeFrame_command (kind : f.kind = 2) : routeFrame .aIn f s = routeCommand f s := by
  simp only [routeFrame, kind, Nat.reduceEqDiff, if_false]

theorem joinIntake_eq : joinIntake f.command s =
    if s.intake.length < 8 then { s with intake := s.intake ++ [⟨f.header[4], f.header[5], f.header[6], f.payload⟩] }
    else { s with stats := { s.stats with cmdDropped := riseTo 65535 s.stats.cmdDropped } } := rfl

end Routes

/-- What an arriving frame that passes its tests does, in words of the row (R6, R8, R10). -/
theorem arrival_passing {lane : Lane} {f : Frame} {s : State} (runs : s.inReset = false) (intact : f.intact = true)
    (passes : f.classified lane = true) :
    eventRow (receive lane false f) s = routeFrame lane f s.countFrame := by
  rw [eventRow_runs runs, receive_passing intact passes]

/-- Settles O6: a BLOCK frame passed on, and one for an OFF screen. -/
theorem blocksArePassedOnOrComeBackSilent : Obligations.BlocksArePassedOnOrComeBackSilent := by
  refine ⟨fun f s runs served intact passes kind foreign => ?_,
    fun f s i runs served intact passes kind own screen off => ?_⟩
  · refine congrArg _ ((arrival_passing runs intact passes).trans ?_)
    rw [routeFrame_foreignBlock (s := s.countFrame) kind foreign]
    exact joinBOut_eq runs served
  · refine congrArg _ ((arrival_passing runs intact passes).trans ?_)
    rw [routeFrame_block (s := s.countFrame) kind own screen, handBlock_off (s := s.countFrame) off]
    exact joinBOut_eq runs served

theorem joinIntake_keeps_bOut (c : Command) (s : State) : (joinIntake c s).inReset = s.inReset ∧
    (joinIntake c s).bOut = s.bOut ∧ (joinIntake c s).bOutOrder = s.bOutOrder := by
  unfold joinIntake
  split <;> exact ⟨rfl, rfl, rfl⟩

theorem joinForward_room {f : Frame} {s : State} (room : s.forward.length < 8) :
    joinForward f s = offerAOut { s with forward := s.forward ++ [f] } := by
  rw [joinForward, if_pos (show s.forward.length < Config.forwardCapacity from room)]

theorem joinForward_full {f : Frame} {s : State} (full : s.forward.length = 8) :
    joinForward f s = { s with stats := { s.stats with fwdDropped := riseTo 65535 s.stats.fwdDropped } } := by
  rw [joinForward, if_neg (show ¬s.forward.length < Config.forwardCapacity from full.not_lt)]
  rfl

/-- Settles O7: a COMMAND frame by its unit nibble, and a report by the state of A-out and the forward buffer. -/
theorem commandsAndReportsJoinTheirQueues : Obligations.CommandsAndReportsJoinTheirQueues := by
  refine ⟨fun f s runs served intact passes kind => ?_, fun f s runs intact passes => ?_⟩
  · have row : exec (.commandArrival f) s = .next (routeCommand f s.countFrame) :=
      congrArg _ ((arrival_passing runs intact passes).trans (routeFrame_command kind))
    obtain ⟨stopped, lane, order⟩ := joinIntake_keeps_bOut f.command s.countFrame
    have queued : joinIntake f.command s.countFrame = _ := joinIntake_eq
    dsimp only
    rw [row]
    refine ⟨fun own => ?_, fun all => ?_, fun other notAll => ?_⟩
    · rw [routeCommand, if_pos (show f.unitNibble = s.countFrame.unit.val from own)]
      exact congrArg _ queued
    · have foreign : f.unitNibble ≠ s.countFrame.unit.val := by omega
      rw [routeCommand, if_neg foreign, if_pos all,
        joinBOut_eq (stopped.trans runs) (by rw [lane, order]; exact served)]
      exact congrArg _ (congrArg (joinedBOut f) queued)
    · rw [routeCommand, if_neg (show f.unitNibble ≠ s.countFrame.unit.val from other), if_neg notAll,
        joinBOut_eq (s := s.countFrame) runs served]
      rfl
  · have row : exec (.forwardArrival f) s = .next (joinForward f s.countFrame) :=
      congrArg _ (arrival_passing runs intact passes)
    dsimp only
    rw [row]
    refine ⟨fun busy room => ?_, fun full => ?_, fun idle replies slot notices forward => ?_⟩
    · rw [joinForward_room (s := s.countFrame) room, offerAOut_busy (by exact busy)]
      rfl
    · rw [joinForward_full (s := s.countFrame) full]
      rfl
    · rw [joinForward_room (s := s.countFrame) (by simp [State.countFrame, forward]), offerAOut_idle (by exact runs)
          (by exact idle),
        chooseFrame_forward (f := f) (rest := []) (by exact replies) (by simp [State.countFrame, forward])
          (.inl ⟨by exact slot, by exact notices⟩), ← forward]
      rfl

/-! ### What a lane sends next (R11 to R13, R178) -/

/-- Settles O8: the arbiter's choice on a lane that has just fallen idle, case by case, and B-out's. -/
theorem lanesTakeTheirNextFrame : Obligations.LanesTakeTheirNextFrame := by
  refine ⟨fun s runs => ?_, fun s runs => ?_⟩
  · have row : exec .aOutFrameSent s = .next (chooseFrame { s with aOut := none }) :=
      
      congrArg _ ((eventRow_runs (f := fun s => offerAOut { s with aOut := none }) runs).trans
        (offerAOut_idle (s := { s with aOut := none }) runs rfl))
    dsimp only
    rw [row]
    refine ⟨fun r rest replies => ?_, fun h noReply filled turn => ?_, fun n rest noReply empty notices turn => ?_,
      fun f rest noReply forward turn => ?_, fun noReply empty noNotice noForward => ?_⟩
    · rw [chooseFrame_reply (by exact replies)]
    · rw [chooseFrame_slot (by exact noReply) (by exact filled) (by exact turn)]
    · rw [chooseFrame_notice (by exact noReply) (by exact empty) (by exact notices) (by exact turn)]
    · rw [chooseFrame_forward (by exact noReply) (by exact forward) (by exact turn)]
    · rw [chooseFrame_idle (by exact noReply) (by exact empty) (by exact noNotice) (by exact noForward)]
  · have row : exec .bOutFrameSent s = .next (offerBOut { s with bOut := none }) := 
      congrArg _ (eventRow_runs (f := fun s => offerBOut { s with bOut := none }) runs)
    rw [row]
    refine ⟨fun f rest order => ?_, fun empty => ?_⟩
    · rw [offerBOut_idle (by exact runs) rfl (by exact order)]
    · rw [offerBOut_empty (by exact empty)]

/-! ### Notices, the house-state slot and replies (R9, R175, R178, R179) -/

/-- A counter that stops at its top, as a minimum. -/
theorem riseTo_eq_min {top n : Nat} (within : n ≤ top) : riseTo top n = min top (n + 1) := by
  unfold riseTo
  split <;> omega

section Filing
variable {s : State}

theorem file_masked {screen : Option (Fin 8)} {body : NoticeBody} (masked : s.mask.getLsbD body.kind = false) :
    file screen body s = s := by
  simp only [file, State.enabledKind, masked, Bool.false_eq_true, if_false]

theorem file_enabled {screen : Option (Fin 8)} {body : NoticeBody} (enabled : s.mask.getLsbD body.kind = true) :
    file screen body s = offerAOut (offerNotice ⟨body, screen, s.timeBase⟩ s) := by
  simp only [file, State.enabledKind, enabled, if_true]

theorem offerNotice_room {n : Notice} (room : s.notices.length < 64) :
    offerNotice n s = { s with notices := s.notices ++ [n] } := by
  rw [offerNotice, if_pos (show s.notices.length < Config.noticeCapacity from room)]

theorem offerNotice_full {n : Notice} (full : 64 ≤ s.notices.length) (within : s.lostCount ≤ 65535) :
    offerNotice n s = { s with lostCount := min 65535 (s.lostCount + 1) } := by
  rw [offerNotice, if_neg (show ¬s.notices.length < Config.noticeCapacity from not_lt.mpr full)]
  exact congrArg (fun k => { s with lostCount := k }) (riseTo_eq_min within)

/-- A lone notice leaves by an idle lane at once (R11). -/
theorem file_idle {screen : Option (Fin 8)} {body : NoticeBody} (enabled : s.mask.getLsbD body.kind = true)
    (runs : s.inReset = false) (idle : s.aOut = none) (replies : s.replies = []) (slot : s.slot = none)
    (notices : s.notices = []) (forward : s.forward = []) (lost : s.lostCount = 0) :
    file screen body s =
      { s with aOut := some (noticeFrame s.unit ⟨body, screen, s.timeBase⟩), lastChosen := .noticeSide } := by
  rw [file_enabled enabled, offerNotice_room (by simp [notices]), offerAOut_idle (by exact runs) (by exact idle),
    chooseFrame_notice (n := ⟨body, screen, s.timeBase⟩) (rest := []) (by exact replies) (by exact slot)
      (by simp [notices]) (.inl (by exact forward))]
  simp [lost, notices]

/-- A slot that is filled on an idle lane leaves at once, with the source set as it stands (R11, R179). -/
theorem fillSlot_idle (runs : s.inReset = false) (idle : s.aOut = none) (replies : s.replies = [])
    (slot : s.slot = none) (forward : s.forward = []) :
    fillSlot s = { s with
      aOut := some (noticeFrame s.unit ⟨.houseState s.house.set 1, none, s.timeBase⟩)
      lastChosen := .noticeSide } := by
  simp only [fillSlot, slot]
  rw [offerAOut_idle (by exact runs) (by exact idle), chooseFrame_slot (h := ⟨1, s.timeBase⟩) (by exact replies) rfl
    (.inl (by exact forward))]

theorem fillSlot_empty (busy : s.aOut ≠ none) (empty : s.slot = none) :
    fillSlot s = { s with slot := some ⟨1, s.timeBase⟩ } := by
  rw [fillSlot, offerAOut_busy (by exact busy), empty]

theorem fillSlot_filled {h : HouseSlot} (busy : s.aOut ≠ none) (filled : s.slot = some h) :
    fillSlot s = { s with slot := some ⟨riseTo 255 h.count, s.timeBase⟩ } := by
  rw [fillSlot, offerAOut_busy (by exact busy), filled]

end Filing

/-- Settles O9: a notice, the slot and a reply, each on a busy and on an idle lane. -/
theorem noticesSlotAndRepliesReachTheLane : Obligations.NoticesSlotAndRepliesReachTheLane := by
  refine ⟨fun screen body s => ?_, fun s => ?_, fun r s => ?_⟩
  · dsimp only
    refine ⟨file_masked, fun enabled busy room => ?_, fun enabled busy full within => ?_, file_idle⟩
    · rw [file_enabled enabled, offerNotice_room room, offerAOut_busy (by exact busy)]
    · rw [file_enabled enabled, offerNotice_full full within, offerAOut_busy (by exact busy)]
  · refine ⟨fun busy empty => ?_, fun h busy filled within => ?_,
      fun runs idle replies slot _ forward => fillSlot_idle runs idle replies slot forward⟩
    · exact fillSlot_empty busy empty
    · rw [fillSlot_filled busy filled, riseTo_eq_min within]
  · refine ⟨fun busy => ?_, fun runs idle replies => ?_⟩
    · rw [appendReply, offerAOut_busy (by exact busy)]
    · rw [appendReply, offerAOut_idle (by exact runs) (by exact idle),
        chooseFrame_reply (r := r) (rest := []) (by simp [replies])]
      simp [replies]

end Sys2Proof.Machine
end

section
/-!
PROOF. Frames as bytes: the check word (R3) as a linear map of the bits, by which one wrong byte is always seen, and the
bytes of the frames that the unit builds (R14, R15, R162, R176, R182).
-/

namespace Sys2Proof.Machine

/-! ### The check word (R3) -/

/-- One bit taken into the remainder. -/
def crcStep (c : BitVec 16) (b : Bool) : BitVec 16 := if c.msb = b then c <<< 1 else (c <<< 1) ^^^ 0x1021#16

theorem crcBits_eq_foldl (bits : List Bool) (c : BitVec 16) : crcBits bits c = bits.foldl crcStep c := by
  induction bits generalizing c with
  | nil => rfl
  | cons b bits ih => by_cases same : c.msb = b <;> simp [crcBits, crcStep, same, ih]

theorem crcBits_append (bits more : List Bool) (c : BitVec 16) :
    crcBits (bits ++ more) c = crcBits more (crcBits bits c) := by
  simp only [crcBits_eq_foldl, List.foldl_append]

theorem checkWord_append (bytes more : List Byte) :
    checkWord (bytes ++ more) = crcBits (more.flatMap byteBits) (checkWord bytes) := by
  rw [checkWord, List.flatMap_append, crcBits_append, checkWord]

/-- What a bit that differs from the remainder's highest adds to it. -/
def crcTerm (differs : Bool) : BitVec 16 := if differs then 0x1021#16 else 0#16

theorem crcTerm_xor (a b : Bool) : crcTerm (a ^^ b) = crcTerm a ^^^ crcTerm b := by
  cases a <;> cases b <;> rfl

theorem crcStep_eq (c : BitVec 16) (b : Bool) : crcStep c b = c <<< 1 ^^^ crcTerm (c.msb ^^ b) := by
  unfold crcStep crcTerm
  cases c.msb <;> cases b <;> simp

theorem crcStep_xor (c d : BitVec 16) (a b : Bool) :
    crcStep c a ^^^ crcStep d b = crcStep (c ^^^ d) (a ^^ b) := by
  simp only [crcStep_eq, BitVec.msb_xor, BitVec.shiftLeft_xor_distrib, crcTerm_xor]
  ac_rfl

/-- The remainder is linear in the bits and the remainder before them. -/
theorem crcBits_xor (c d : BitVec 16) (bits : List (Bool × Bool)) :
    crcBits (bits.map Prod.fst) c ^^^ crcBits (bits.map Prod.snd) d =
      crcBits (bits.map fun p => p.1 ^^ p.2) (c ^^^ d) := by
  simp only [crcBits_eq_foldl]
  induction bits generalizing c d with
  | nil => rfl
  | cons p bits ih => simp only [List.map_cons, List.foldl_cons, ih, crcStep_xor]

/-- A remainder that is not 0 stays so over a 0 bit: the generator's lowest bit is set. -/
theorem crcStep_false_eq_zero {e : BitVec 16} (zero : crcStep e false = 0#16) : e = 0#16 := by
  unfold crcStep at zero
  split at zero
  · rename_i low
    have bound : e.toNat < 32768 := by simpa [BitVec.msb_eq_decide] using low
    have shifted := congrArg BitVec.toNat zero
    simp only [BitVec.toNat_shiftLeft, Nat.shiftLeft_eq, BitVec.toNat_ofNat] at shifted
    exact BitVec.eq_of_toNat_eq (by rw [BitVec.toNat_ofNat]; omega)
  · have lowest := congrArg (BitVec.getLsbD · 0) zero
    simp at lowest

theorem crcBits_false_eq_zero {n : Nat} {e : BitVec 16} (zero : crcBits (List.replicate n false) e = 0#16) :
    e = 0#16 := by
  rw [crcBits_eq_foldl] at zero
  induction n generalizing e with
  | zero => exact zero
  | succ n ih => exact crcStep_false_eq_zero (ih zero)

/-- The bits after a difference keep the remainders apart. -/
theorem crcBits_injective (bits : List Bool) : Function.Injective (crcBits bits) := by
  intro c d same
  have linear := crcBits_xor c d (bits.map fun b => (b, b))
  simp only [List.map_map, Function.comp_def, List.map_id', Bool.xor_self, List.map_const', same,
    BitVec.xor_self] at linear
  exact BitVec.xor_eq_zero_iff.mp (crcBits_false_eq_zero linear.symm)

theorem crcBits_byteBits_ne_zero : ∀ b : Byte, b ≠ 0#8 → crcBits (byteBits b) 0#16 ≠ 0#16 := by decide

/-- Two bytes that differ leave different remainders. -/
theorem crcBits_byteBits_injective (c : BitVec 16) {x y : Byte}
    (same : crcBits (byteBits x) c = crcBits (byteBits y) c) : x = y := by
  have linear := crcBits_xor c c ([7, 6, 5, 4, 3, 2, 1, 0].map fun k => (x.getLsbD k, y.getLsbD k))
  simp only [List.map_map, Function.comp_def, ← BitVec.getLsbD_xor] at linear
  have zero : crcBits (byteBits (x ^^^ y)) 0#16 = 0#16 := by
    rw [BitVec.xor_self] at linear
    exact linear.symm.trans (BitVec.xor_eq_zero_iff.mpr same)
  by_contra differ
  exact crcBits_byteBits_ne_zero _ (fun none => differ (BitVec.xor_eq_zero_iff.mp none)) zero

theorem checkWord_oneByte {before after : List Byte} {x y : Byte} (differ : x ≠ y) :
    checkWord (before ++ [x] ++ after) ≠ checkWord (before ++ [y] ++ after) := by
  intro same
  simp only [checkWord_append, List.flatMap_singleton] at same
  exact differ (crcBits_byteBits_injective _ (crcBits_injective _ same))

theorem checkWord_snoc (bytes : List Byte) (b : Byte) :
    checkWord (bytes ++ [b]) =
      [7, 6, 5, 4, 3, 2, 1, 0].foldl (fun c k => crcStep c (b.getLsbD k)) (checkWord bytes) := by
  rw [checkWord_append, List.flatMap_singleton, crcBits_eq_foldl, byteBits, List.foldl_map]

/-! ### The frames that the unit builds (R15) -/

theorem sealFrame_intact {header : Vector Byte 8} {payload : List Byte} :
    (sealFrame header payload).intact = true ↔ payload.length = nat2 header[2] header[3] := by
  rw [Frame.intact, Bool.and_eq_true, beq_iff_eq, beq_iff_eq]
  exact and_iff_left rfl

theorem bytes4_eq (w : Word) : bytes4 w =
    [byteOf (w.toNat / 16777216), byteOf (w.toNat / 65536), byteOf (w.toNat / 256), byteOf w.toNat] := by
  simp only [bytes4, bytes2, byteOf, List.cons_append, List.nil_append, List.cons.injEq, and_true]
  refine ⟨?_, trivial, ?_, ?_⟩ <;> refine BitVec.eq_of_toNat_eq ?_ <;> simp only [BitVec.toNat_ofNat] <;> omega

@[simp] theorem bytes4_length (w : Word) : (bytes4 w).length = 4 := rfl

@[simp] theorem bytes3_length (x : Int) : (bytes3 x).length = 3 := rfl

theorem flatMap_bytes3_length (xs : List Int) : (xs.flatMap bytes3).length = 3 * xs.length := by
  induction xs with
  | nil => rfl
  | cons x xs ih => rw [List.flatMap_cons, List.length_append, ih, bytes3_length, List.length_cons]; omega

theorem replyFrame_intact (u : Fin 8) {r : Reply} (fits : r.payload.length ≤ 1600) :
    (replyFrame u r).intact = true :=
  sealFrame_intact.mpr (nat2_bytes2 (fits.trans_lt (by decide))).symm

theorem noticeFrame_intact (u : Fin 8) (n : Notice) : (noticeFrame u n).intact = true := by
  refine sealFrame_intact.mpr ?_
  show _ = nat2 0#8 9#8
  simp only [List.length_append, bytes4_length, List.length_singleton]
  rfl

theorem blockFrame_intact {a : Byte} {p : Word} {flags : Byte} {count : Nat} {xs : List Int} (fits : count ≤ 16)
    (samples : xs.length = 32 * count) : (blockFrame a p flags count xs).intact = true := by
  refine sealFrame_intact.mpr ((Eq.trans ?_ (nat2_bytes2 (n := 2 + 96 * count) (by omega)).symm))
  rw [List.length_cons, List.length_cons, flatMap_bytes3_length, samples]
  omega

theorem addressByte_zero (u : Fin 8) : addressByte u 0 = byteOf (16 * u.val) := by
  rw [addressByte, Nat.add_zero, Nat.mul_comm, byteOf]

theorem replyFrame_eq (u : Fin 8) (r : Reply) : replyFrame u r = sealFrame
    #v[3#8, byteOf (16 * u.val), byteOf (r.payload.length / 256), byteOf r.payload.length, r.tag, r.code,
      byteOf (([.ok, .accepted, .badCommand, .badLength, .badValue, .badIndex, .badState, .inUse, .busy, .stopActive,
        .full] : List Result).idxOf r.result), r.mask] r.payload := by
  rw [replyFrame, addressByte_zero]
  cases r.result <;> rfl

theorem noticeFrame_eq (u : Fin 8) (n : Notice) : noticeFrame u n = sealFrame
    #v[4#8, byteOf (16 * u.val), 0#8, 9#8, byteOf n.body.kind, byteOf (n.screen.elim 15 Fin.val),
      byteOf (n.body.subject.getD 65535 / 256), byteOf (n.body.subject.getD 65535)]
    (bytes4 n.stamp ++ bytes4 (n.body.detail.getD 0#32) ++
      [byteOf (n.body.rehearsal.toNat + 2 * n.body.detail.isNone.toNat)]) := by
  rw [noticeFrame, addressByte_zero]
  cases n.screen <;> rfl

theorem blockFrame_eq (a : Byte) (p : Word) (flags : Byte) (count : Nat) (xs : List Int) :
    blockFrame a p flags count xs = sealFrame
      (#v[1#8, a, byteOf ((2 + 96 * count) / 256), byteOf (2 + 96 * count)] ++
        #v[byteOf (p.toNat / 16777216), byteOf (p.toNat / 65536), byteOf (p.toNat / 256), byteOf p.toNat])
      (flags :: byteOf count :: xs.flatMap bytes3) := rfl

/-! ### The details of the notices (R176, section 11.3) -/

theorem detail4_eq (b0 b1 b2 b3 : Nat) :
    detail4 b0 b1 b2 b3 = BitVec.ofNat 32 (16777216 * b0 + 65536 * b1 + (256 * b2 + b3)) := by
  rw [detail4]
  congr 1
  omega

theorem detail2_eq (b0 b1 rest : Nat) :
    detail2 b0 b1 rest = BitVec.ofNat 32 (16777216 * b0 + 65536 * b1 + rest) := by
  rw [detail2]
  congr 1
  omega

theorem flagBits_cons (b : Bool) (rest : List Bool) : flagBits (b :: rest) = b.toNat + 2 * flagBits rest := by
  cases b <;> rfl

theorem sourceSet_bits_eq (set : SourceSet) : set.bits = set.line.toNat + 2 * set.boothInput.toNat +
    4 * set.command.toNat + 8 * set.monitor.toNat + 16 * set.cue.toNat := by
  have none : flagBits [] = 0 := rfl
  simp only [SourceSet.bits, flagBits_cons, none]
  omega

theorem alignResult_code_eq (r : AlignResult) : r.code =
    ([.pending, .converged, .notConverged, .noSignal, .clipped, .aborted, .skipped] : List AlignResult).idxOf r := by
  cases r <;> rfl

theorem abortReason_code_eq (r : AbortReason) :
    r.code = 1 + ([.showStarted, .houseStop, .command, .noSource, .reset] : List AbortReason).idxOf r := by
  cases r <;> rfl

theorem skipReason_code_eq (why : SkipReason) : why.code = 1 +
    ([.off, .align, .invalid, .nothingPending, .swapBusy, .jump, .houseStop, .heldFull] : List SkipReason).idxOf
      why := by
  cases why <;> rfl

/-- Settles O5: built frames are intact, one wrong byte is seen, and the bytes and notice details as the rules give
them. -/
theorem checkWordsAreBuiltAndSeeOneByteErrors : Obligations.CheckWordsAreBuiltAndSeeOneByteErrors := by
  refine ⟨fun u r n a p flags count xs =>
      ⟨replyFrame_intact u, noticeFrame_intact u n, blockFrame_intact⟩,
    fun before after x y => checkWord_oneByte, ⟨rfl, checkWord_snoc⟩,
    ⟨replyFrame_eq, fun u n => ?_, blockFrame_eq, bytes4_eq⟩, ?_⟩
  · refine (noticeFrame_eq u n).trans ?_
    obtain ⟨body, screen, stamp⟩ := n
    cases screen <;> cases body <;> rfl
  · intro spells parts number signed index link
    have words4 (b0 b1 b2 b3 : Nat) : some (detail4 b0 b1 b2 b3) = parts b0 b1 (256 * b2 + b3) :=
      congrArg some (detail4_eq b0 b1 b2 b3)
    have words2 (b0 b1 rest : Nat) : some (detail2 b0 b1 rest) = parts b0 b1 rest :=
      congrArg some (detail2_eq b0 b1 rest)
    have sourceIndex (x : Source) : index x = x.index := by cases x <;> rfl
    have sourceCode (x : Source) : link x = x.code := by cases x <;> rfl
    simp only [spells, number, signed, NoticeBody.kind, NoticeBody.subject, NoticeBody.detail, words4, words2,
      sourceIndex, sourceCode, ReadyReason.code, Mismatch.code, BankName.code, alignResult_code_eq,
      abortReason_code_eq, skipReason_code_eq, sourceSet_bits_eq, Action.code, List.map_cons, List.map_nil,
      Nat.mul_zero, Nat.zero_add, Nat.add_zero, Nat.add_assoc, and_self, implies_true]

end Sys2Proof.Machine
end

section
/-!
PROOF. RESETN (R17, R173): what its assertion stops, the levels that the wires still write, and the release.
-/

namespace Sys2Proof.Machine

/-! ### Under reset -/

theorem eventRow_inReset {f : State → State} {s : State} (stopped : s.inReset = true) : eventRow f s = s := by
  rw [eventRow, if_pos stopped]

theorem timedRow_inReset {due : State → Bool} {f : State → State} {s : State} (stopped : s.inReset = true) :
    timedRow due f s = s :=
  eventRow_inReset stopped

theorem canExecute_inReset {s : State} (stopped : s.inReset = true) : s.canExecute = false := by
  simp [State.canExecute, stopped]

theorem takeCommand_of_cannot {s : State} (cannot : s.canExecute = false) : takeCommand s = s := by
  unfold takeCommand
  split
  · rfl
  · simp [cannot]

/-- No row but the resets and the wires' own levels has an effect. -/
theorem exec_inReset {r : Instr} {s : State} (stopped : s.inReset = true) (notAssert : r ≠ .resetnAssert)
    (notRelease : ∀ u, r ≠ .powerOnReset u) (notHstop : ∀ level, r ≠ .hstopPinChange level)
    (notGo : ∀ level, r ≠ .goPinChange level) (notLine : ∀ l level, r ≠ .linePinChange l level) :
    exec r s = .next s := by
  cases spells : r.command with
  | some c => rw [exec_of_command spells, canExecute_inReset stopped, if_neg Bool.false_ne_true]
  | none =>
    cases r with
    | resetnAssert => exact absurd rfl notAssert
    | powerOnReset straps => exact absurd rfl (notRelease straps)
    | hstopPinChange level => exact absurd rfl (notHstop level)
    | goPinChange level => exact absurd rfl (notGo level)
    | linePinChange l level => exact absurd rfl (notLine l level)
    | commandTake => exact congrArg _ (takeCommand_of_cannot (canExecute_inReset stopped))
    | blockArrival f => exact congrArg _ (eventRow_inReset stopped)
    | commandArrival f => exact congrArg _ (eventRow_inReset stopped)
    | forwardArrival f => exact congrArg _ (eventRow_inReset stopped)
    | discardedFrame lane cutOff f => exact congrArg _ (eventRow_inReset stopped)
    | aOutFrameSent => exact congrArg _ (eventRow_inReset stopped)
    | bOutFrameSent => exact congrArg _ (eventRow_inReset stopped)
    | sourceLost i => exact congrArg _ (timedRow_inReset stopped)
    | silentBlock i => exact congrArg _ (timedRow_inReset stopped)
    | faderRampEnd i => exact congrArg _ (timedRow_inReset stopped)
    | stopFadeEnd i => exact congrArg _ (timedRow_inReset stopped)
    | formatCrossfadeEnd i => exact congrArg _ (timedRow_inReset stopped)
    | swapCrossfadeEnd i => exact congrArg _ (timedRow_inReset stopped)
    | settleEnd => exact congrArg _ (timedRow_inReset stopped)
    | dwellEnd => exact congrArg _ (timedRow_inReset stopped)
    | timerExpiry t => exact congrArg _ (timedRow_inReset stopped)
    | pulsePhaseEnd l => exact congrArg _ (timedRow_inReset stopped)
    | goPulseEnd => exact congrArg _ (timedRow_inReset stopped)
    | hstopSensedChange => exact congrArg _ (timedRow_inReset stopped)
    | goSensedChange => exact congrArg _ (timedRow_inReset stopped)
    | lineFilterChange l => exact congrArg _ (timedRow_inReset stopped)
    | _ => cases spells

theorem linePinChange_inReset {s : State} {l : Fin 16} {level : Bool} (stopped : s.inReset = true) :
    exec (.linePinChange l level) s = .next (s.onLine l fun x => x.moves level s.timeBase) := by
  have row (t : State) (still : t.inReset = true) :
      (if t.lines[l].filter = .none then timedRow (dueLine l) (takeLine l) t else t) = t := by
    rw [timedRow_inReset still, ite_self]
  exact congrArg _ (row (s.onLine l fun x => x.moves level s.timeBase) stopped)

/-! ### The release -/

theorem powerOnState_eq (straps : Fin 8) (s : State) : powerOnState straps s =
    { State.powerOn straps s.house.hstopOthers s.house.goOthers (s.lines.map fun l => powerOnLine l.external) with
      fresh := s.fresh
      pending := s.pending } := by
  have lines : mapAt (fun _ l => l.powerOn) s.lines = s.lines.map fun l => powerOnLine l.external :=
    table_ext fun l => by rw [mapAt_get]; simp [BoothLine.powerOn]
  rw [powerOnState, lines]

theorem powerOnState_stopActive (straps : Fin 8) (s : State) :
    (powerOnState straps s).stopActive = s.house.hstopOthers := by
  simp [powerOnState, State.powerOn, powerOnHouse, State.stopActive, SourceSet.isEmpty, noSources]

/-- UNIT_READY leaves on the idle lane at once (R11, R173). -/
theorem exec_powerOnReset (straps : Fin 8) (s : State) : exec (.powerOnReset straps) s = .next
    { State.powerOn straps s.house.hstopOthers s.house.goOthers (s.lines.map fun l => powerOnLine l.external) with
      fresh := s.fresh
      pending := s.pending
      lastChosen := .noticeSide
      aOut := some (noticeFrame straps ⟨.unitReady .powerOn s.house.hstopOthers, none, 0#32⟩) } := by
  have row : exec (.powerOnReset straps) s =
      .next (file none (.unitReady .powerOn (powerOnState straps s).stopActive) (powerOnState straps s)) := rfl
  rw [row, powerOnState_stopActive, powerOnState_eq]
  exact congrArg _ (file_idle (show powerOnMask.getLsbD 0 = true by decide) rfl rfl rfl rfl rfl rfl rfl)

/-- Settles O10: the assertion, the rows under reset, and the release on any wires. -/
theorem resetnStopsTheUnitAndItsReleaseStartsIt : Obligations.ResetnStopsTheUnitAndItsReleaseStartsIt := by
  refine ⟨⟨fun _ => rfl, fun r s stopped notAssert notRelease notHstop notGo notLine =>
      exec_inReset stopped notAssert notRelease notHstop notGo notLine,
    fun s level stopped => ⟨rfl, rfl, fun l => linePinChange_inReset stopped⟩⟩,
    exec_powerOnReset, fun straps s => ⟨_, exec_powerOnReset straps s, rfl, rfl, rfl, fun l => ?_⟩⟩
  simp [State.powerOn, powerOnLine]

end Sys2Proof.Machine
end

section
/-!
PROOF. The timed rows of the screen paths (R37, R40, R45): each acts when its time has come, and not before.
-/

namespace Sys2Proof.Machine

@[simp] theorem file_screens (screen : Option (Fin 8)) (body : NoticeBody) (s : State) :
    (file screen body s).screens = s.screens := by rw [file_frame]

@[simp] theorem file_unit (screen : Option (Fin 8)) (body : NoticeBody) (s : State) :
    (file screen body s).unit = s.unit := by rw [file_frame]

@[simp] theorem joinBOut_screens (f : Frame) (s : State) : (joinBOut f s).screens = s.screens :=
  by rw [joinBOut_frame]

@[simp] theorem onScreen_same (s : State) (i : Fin 8) (f : Screen → Screen) :
    (s.onScreen i f).screens[i] = f s.screens[i] := modifyAt_same ..

section Rows
variable {due : State → Bool} {f : State → State} {s : State}

theorem timedRow_due (runs : s.inReset = false) (comes : due s = true) : timedRow due f s = f s := by
  rw [timedRow, eventRow_runs runs, if_pos comes]

theorem timedRow_early (early : ¬due s = true) : timedRow due f s = s := by
  simp [timedRow, eventRow, early]

end Rows

theorem onScreen_congr {s : State} {i : Fin 8} {f g : Screen → Screen} (agree : f s.screens[i] = g s.screens[i]) :
    s.onScreen i f = s.onScreen i g := by
  rw [State.onScreen, State.onScreen]
  congr 1
  refine table_ext fun j => ?_
  rw [modifyAt_get, modifyAt_get]
  split
  · subst j; exact agree
  · rfl

theorem Screen.lastKnown_eq (x : Screen) :
    x.lastKnown = if x.arrivalPosition = noPosition then none else some x.arrivalPosition := rfl

/-- A source's loss: the flag, the notice, the first silent block, and the run that it overtakes (R37, R94). -/
theorem loseSource_eq (i : Fin 8) (s : State) :
    let p := s.screens[i].arrivalPosition
    let lost := file (some i) (.sourceLost (if p = noPosition then none else some p)) (s.onScreen i fun x =>
      { x with sourceLost := true, silentBase := s.timeBase, silentPhase := 1 })
    let made := joinBOut (silentFrame (addressByte s.unit i.val) p 0#8 s.screens[i].count) lost
    loseSource i s =
      if s.screens[i].state = .inAlign then enterState i .dark (overtakeRun .noSource made) else made := by
  simp only [loseSource, makeSilent, file_screens, joinBOut_screens, onScreen_same, file_unit, State.onScreen_unit,
    Screen.lastKnown_eq, Screen.count]

theorem nextSilent_eq (i : Fin 8) (s : State) : nextSilent i s =
    (joinBOut (silentFrame (addressByte s.unit i.val) s.screens[i].arrivalPosition 0#8 s.screens[i].count) s).onScreen i
      fun y => if s.screens[i].silentPhase < 3 then { y with silentPhase := s.screens[i].silentPhase + 1 }
        else { y with silentPhase := 1, silentBase := s.screens[i].silentBase + 2#32 } :=
  onScreen_congr (by rw [makeSilent, joinBOut_screens])

theorem Fader.finish_of_ramp {f : Fader} {r : Ramp} (ramps : f.ramp = some r) :
    f.finish = { f with rest := r.dest, ramp := none } := by
  simp only [Fader.finish, ramps]

/-- Settles O16: the four rows when their time has come, and when it has not. -/
theorem timedScreenRowsActWhenTheirTimeHasCome : Obligations.TimedScreenRowsActWhenTheirTimeHasCome := by
  refine ⟨fun i s runs on heard time => ?_, fun i s runs on lost => ⟨fun time => ?_, fun early => ?_⟩,
    fun i s r runs ramps time => ?_,
    fun i s runs => ⟨fun early => ?_, fun idle => ?_, fun early => ?_, fun early => ?_⟩,
    fun i s start runs fades time => ?_⟩
  · exact congrArg _ ((timedRow_due runs ((dueSourceLost_iff i s).mpr ⟨on, heard, time⟩)).trans (loseSource_eq i s))
  · exact congrArg _ ((timedRow_due runs ((dueSilentBlock_iff i s).mpr ⟨on, lost, time⟩)).trans (nextSilent_eq i s))
  · refine congrArg _ (timedRow_early fun due => ?_)
    obtain ⟨-, -, time⟩ := (dueSilentBlock_iff i s).mp due
    exact absurd time early.not_ge
  · refine congrArg _ ((timedRow_due runs ((dueRampEnd_iff i s).mpr ⟨r, ramps, time⟩)).trans (onScreen_congr ?_))
    rw [Fader.finish_of_ramp ramps]
  · refine congrArg _ (timedRow_early fun due => ?_)
    obtain ⟨on, heard, time⟩ := (dueSourceLost_iff i s).mp due
    rcases early with off | lost | soon
    · exact on off
    · exact absurd (heard.symm.trans lost) Bool.false_ne_true
    · exact absurd time soon.not_ge
  · refine congrArg _ (timedRow_early fun due => ?_)
    obtain ⟨on, lost, -⟩ := (dueSilentBlock_iff i s).mp due
    rcases idle with off | heard
    · exact on off
    · exact absurd (heard.symm.trans lost) Bool.false_ne_true
  · refine congrArg _ (timedRow_early fun due => ?_)
    obtain ⟨r, ramps, time⟩ := (dueRampEnd_iff i s).mp due
    exact absurd time (early r ramps).not_ge
  · refine congrArg _ (timedRow_early fun due => ?_)
    obtain ⟨start, fades, time⟩ := (dueStopFadeEnd_iff i s).mp due
    exact absurd time (early start fades).not_ge
  · exact congrArg _ (timedRow_due runs ((dueStopFadeEnd_iff i s).mpr ⟨start, fades, time⟩))

end Sys2Proof.Machine
end

section
/-!
PROOF. A block taken by a screen path (R22 to R25, R38, R39): its stages one by one, and where no cue, link or monitor
acts on it, what the whole of them leaves of the screen's state and arrival record.
-/

namespace Sys2Proof.Machine

/-! ### The stages, case by case -/

section Stages
variable {i : Fin 8} {s : State} {p : Option Word}

theorem noteArrival_lost {f : Frame} (lost : s.screens[i].sourceLost = true) :
    noteArrival i f s = file (some i) (.sourceRestored f.validPosition) (s.onScreen i fun x =>
      { x with lastArrival := s.timeBase, arrivalPosition := f.position, sourceLost := false }) := by
  simp only [noteArrival, lost, if_true]

theorem noteArrival_heard {f : Frame} (heard : s.screens[i].sourceLost = false) :
    noteArrival i f s = s.onScreen i fun x =>
      { x with lastArrival := s.timeBase, arrivalPosition := f.position, sourceLost := false } := by
  simp only [noteArrival, heard, Bool.false_eq_true, if_false]

theorem actOnRun_starts (dark : s.screens[i].state = .dark) : actOnRun i true p s = startShow i p s := by
  simp only [actOnRun, dark]

theorem actOnRun_ends (plays : s.screens[i].state = .inShow) : actOnRun i false p s = endShow i s := by
  simp only [actOnRun, plays]

theorem actOnRun_overtakes (aligns : s.screens[i].state = .inAlign) :
    actOnRun i true p s = startShow i p (enterState i .dark (overtakeRun .showStarted s)) := by
  simp only [actOnRun, aligns]

theorem actOnRun_true_other (notDark : s.screens[i].state ≠ .dark) (notAlign : s.screens[i].state ≠ .inAlign) :
    actOnRun i true p s = s := by
  cases st : s.screens[i].state with
  | dark => exact absurd st notDark
  | inAlign => exact absurd st notAlign
  | _ => simp only [actOnRun, st]

theorem actOnRun_false_other (notShow : s.screens[i].state ≠ .inShow) : actOnRun i false p s = s := by
  cases st : s.screens[i].state with
  | inShow => exact absurd st notShow
  | _ => simp only [actOnRun, st]

theorem handlePosition_inShow {q : Word} (plays : s.screens[i].state = .inShow) :
    handlePosition i (some q) s =
      (takeCues i q (checkGap i q s)).onScreen i fun x => { x with lastPosition := some q } := by
  simp only [handlePosition, plays]

theorem handlePosition_none : handlePosition i none s = s := by
  cases st : s.screens[i].state <;> simp only [handlePosition, st]

theorem handlePosition_other (notShow : s.screens[i].state ≠ .inShow) : handlePosition i p s = s := by
  cases st : s.screens[i].state with
  | inShow => exact absurd st notShow
  | _ => simp only [handlePosition, st]

end Stages

/-! ### What a stage leaves of the rest of the unit -/

/-- Nothing on another screen changes, nor what could act on a block of screen `i`: the links, the screen's cue entries
and which monitors are enabled. -/
structure LeavesRest (i : Fin 8) (s t : State) : Prop where
  others : ∀ j : Fin 8, j ≠ i → t.screens[j] = s.screens[j]
  links : t.links = s.links
  entries : t.cueLists[i].entries = s.cueLists[i].entries
  enabled : ∀ m : Fin 48, t.monitors[m].enabled = s.monitors[m].enabled

/-- No cue entry of screen `i`, no link and no monitor acts. -/
structure State.Quiet (i : Fin 8) (s : State) : Prop where
  entries : s.cueLists[i].entries = []
  links : ∀ k : Fin 32, s.links[k].enabled = false
  monitors : ∀ m : Fin 48, s.monitors[m].enabled = false

namespace LeavesRest
variable {i : Fin 8}

theorem refl (s : State) : LeavesRest i s s := ⟨fun _ _ => rfl, rfl, rfl, fun _ => rfl⟩

theorem trans {s t u : State} (first : LeavesRest i s t) (second : LeavesRest i t u) : LeavesRest i s u :=
  ⟨fun j other => (second.others j other).trans (first.others j other), second.links.trans first.links,
    second.entries.trans first.entries, fun m => (second.enabled m).trans (first.enabled m)⟩

theorem onScreen (s : State) (f : Screen → Screen) : LeavesRest i s (s.onScreen i f) :=
  ⟨fun _ other => modifyAt_other _ _ other, rfl, rfl, fun _ => rfl⟩

theorem file (screen : Option (Fin 8)) (body : NoticeBody) (s : State) : LeavesRest i s (file screen body s) := by
  rw [file_frame]
  exact ⟨fun _ _ => rfl, rfl, rfl, fun _ => rfl⟩

theorem joinBOut (f : Frame) (s : State) : LeavesRest i s (joinBOut f s) := by
  rw [joinBOut_frame]
  exact ⟨fun _ _ => rfl, rfl, rfl, fun _ => rfl⟩

theorem atStart (s : State) : LeavesRest i s (s.onCueList i fun l => { l with cursor := 0 }) :=
  ⟨fun _ _ => rfl, rfl, by rw [State.onCueList, modifyAt_same], fun _ => rfl⟩

theorem quiet {s t : State} (leaves : LeavesRest i s t) (q : s.Quiet i) : t.Quiet i :=
  ⟨leaves.entries.trans q.entries, fun k => by rw [leaves.links]; exact q.links k,
    fun m => (leaves.enabled m).trans (q.monitors m)⟩

end LeavesRest

@[simp] theorem judgeMonitors_screens (i : Fin 8) (st : ScreenState) (s : State) :
    (judgeMonitors i st s).screens = s.screens := by
  unfold judgeMonitors
  rfl

theorem Monitor.judge_enabled (m : Monitor) (st : ScreenState) : (m.judge st).enabled = m.enabled := by
  unfold Monitor.judge
  split <;> (try split) <;> (try split) <;> rfl

theorem judgeMonitors_leavesRest (i : Fin 8) (st : ScreenState) (s : State) :
    LeavesRest i s (judgeMonitors i st s) := by
  unfold judgeMonitors
  refine ⟨fun _ _ => rfl, rfl, rfl, fun m => ?_⟩
  rw [mapAt_get]
  split
  · exact Monitor.judge_enabled _ _
  · rfl

theorem enterState_leavesRest (i : Fin 8) (st : ScreenState) (s : State) : LeavesRest i s (enterState i st s) := by
  unfold enterState deriveMonitors
  exact ((LeavesRest.onScreen s _).trans (judgeMonitors_leavesRest i st _)).trans (LeavesRest.onScreen _ _)

theorem emptyWindows_leavesRest (i : Fin 8) (s : State) : LeavesRest i s (emptyWindows i s) := by
  have screen := LeavesRest.onScreen (i := i) s Screen.restartMeters
  unfold emptyWindows
  refine ⟨screen.others, rfl, rfl, fun m => ?_⟩
  rw [mapAt_get]
  split <;> rfl

/-! ### The state and the arrival record of a screen -/

/-- What a block moves of its screen: the state, the arrival record and the last position. -/
def Screen.record (x : Screen) : ScreenState × Word × Word × Bool × Option Word :=
  (x.state, x.lastArrival, x.arrivalPosition, x.sourceLost, x.lastPosition)

theorem deriveMonitors_record (i : Fin 8) (s : State) :
    (deriveMonitors i s).screens[i].record = s.screens[i].record := by
  rw [deriveMonitors, onScreen_same]
  rfl

theorem enterState_record (i : Fin 8) (st : ScreenState) (s : State) : (enterState i st s).screens[i].record =
    (st, s.screens[i].lastArrival, s.screens[i].arrivalPosition, s.screens[i].sourceLost,
      s.screens[i].lastPosition) := by
  rw [enterState, deriveMonitors_record, judgeMonitors_screens, onScreen_same]
  rfl

theorem Screen.clearAlign_record (x : Screen) : x.clearAlign.record = x.record := by
  simp only [Screen.record, Screen.clearAlign]

theorem Screen.setStages_record (x : Screen) (channels : List PassedChannel) :
    (x.setStages channels).record = x.record := by
  simp only [Screen.record, Screen.setStages]

theorem Screen.meterBlock_record (x : Screen) (periods points : List (List Int)) :
    (x.meterBlock periods points).record = x.record := by
  simp only [Screen.record, Screen.meterBlock]

theorem Screen.takeShowPeak_record (x : Screen) : x.takeShowPeak.record = x.record := by
  rw [Screen.takeShowPeak_frame]
  rfl

theorem Screen.steer_record (x : Screen) (formats : Vector FormatEntry 32) : (x.steer formats).record = x.record := by
  rw [Screen.steer_frame]
  rfl

theorem Screen.passed_record (x : Screen) (formats : Vector FormatEntry 32) (periods : List (List Int))
    (channels : List PassedChannel) : (x.passed formats periods channels).record = x.record := by
  rw [Screen.passed, Screen.steer_record, Screen.takeShowPeak_record, Screen.meterBlock_record,
    Screen.setStages_record]

/-! ### The stages of a block that nothing acts on -/

section Quiet
variable {i : Fin 8} {s : State}

/-- A trigger that no enabled link waits for does nothing (R130). -/
theorem occurs_of_disabled (links : ∀ k : Fin 32, s.links[k].enabled = false) (t : Trigger) : occurs t s = s := by
  have none : s.matching t = [] := List.filter_eq_nil_iff.mpr fun k _ => by rw [links k]; simp
  rw [occurs, occursWithin, none, List.foldl_nil]

theorem noteArrival_leavesRest (i : Fin 8) (f : Frame) (s : State) : LeavesRest i s (noteArrival i f s) := by
  cases lost : s.screens[i].sourceLost with
  | true => rw [noteArrival_lost lost]; exact (LeavesRest.onScreen s _).trans (.file ..)
  | false => rw [noteArrival_heard lost]; exact .onScreen s _

theorem noteArrival_record (i : Fin 8) (f : Frame) (s : State) : (noteArrival i f s).screens[i].record =
    (s.screens[i].state, s.timeBase, f.position, false, s.screens[i].lastPosition) := by
  cases lost : s.screens[i].sourceLost with
  | true => rw [noteArrival_lost lost, file_screens, onScreen_same]; rfl
  | false => rw [noteArrival_heard lost, onScreen_same]; rfl

theorem noteArrival_run (i : Fin 8) (f : Frame) (s : State) : (noteArrival i f s).run = s.run := by
  cases lost : s.screens[i].sourceLost with
  | true => rw [noteArrival_lost lost, file_frame]; rfl
  | false => rw [noteArrival_heard lost]; rfl

/-- A show start before its trigger (R24). -/
def showStarted (i : Fin 8) (s : State) : State :=
  ((emptyWindows i (enterState i .inShow s)).onScreen i fun x =>
    { x with showPeakLong := silence, mismatchReported := false, lastPosition := none }).onCueList i
      fun l => { l with cursor := 0 }

theorem startShow_eq (i : Fin 8) (p : Option Word) (s : State) :
    startShow i p s = occurs (.showStart i) (file (some i) (.showStart p) (showStarted i s)) := rfl

theorem showStarted_leavesRest (i : Fin 8) (s : State) : LeavesRest i s (showStarted i s) := by
  exact ((enterState_leavesRest i .inShow s).trans (emptyWindows_leavesRest i _)).trans
    ((LeavesRest.onScreen _ _).trans (.atStart _))

theorem emptyWindows_screen (i : Fin 8) (s : State) : (emptyWindows i s).screens[i] = s.screens[i].restartMeters :=
  onScreen_same s i Screen.restartMeters

theorem showStarted_screen (i : Fin 8) (s : State) : (showStarted i s).screens[i] =
    { (enterState i .inShow s).screens[i].restartMeters with
      showPeakLong := silence, mismatchReported := false, lastPosition := none } := by
  rw [← emptyWindows_screen]
  exact onScreen_same ..

theorem showStarted_record (i : Fin 8) (s : State) : (showStarted i s).screens[i].record =
    (.inShow, s.screens[i].lastArrival, s.screens[i].arrivalPosition, s.screens[i].sourceLost, none) := by
  have entered := enterState_record i .inShow s
  simp only [Screen.record, Prod.mk.injEq] at entered
  obtain ⟨state, arrival, position, lost, -⟩ := entered
  rw [showStarted_screen]
  simp only [Screen.record, Screen.restartMeters, state, arrival, position, lost]

theorem startShow_quiet (q : s.Quiet i) (p : Option Word) :
    startShow i p s = file (some i) (.showStart p) (showStarted i s) :=
  occurs_of_disabled (((showStarted_leavesRest i s).trans (.file ..)).quiet q).links _

theorem endShow_quiet (q : s.Quiet i) :
    endShow i s = file (some i) (.showEnd s.screens[i].showPeakLong) (enterState i .dark s) :=
  occurs_of_disabled (((enterState_leavesRest i .dark s).trans (.file ..)).quiet q).links _

theorem endRun_leavesRest (own : s.run.screen = i) (reason : AbortReason) : LeavesRest i s (endRun reason s) := by
  subst own
  unfold endRun
  have run (f : RunRecord → RunRecord) : LeavesRest s.run.screen s (s.onRun f) :=
    ⟨fun _ _ => rfl, rfl, rfl, fun _ => rfl⟩
  exact (run _).trans (.onScreen _ _)

theorem overtakeRun_leavesRest (own : s.run.screen = i) (reason : AbortReason) :
    LeavesRest i s (overtakeRun reason s) :=
  (endRun_leavesRest own reason).trans (.file ..)

theorem overtakeRun_record (own : s.run.screen = i) (reason : AbortReason) :
    (overtakeRun reason s).screens[i].record = s.screens[i].record := by
  subst own
  rw [overtakeRun, file_screens, endRun, onScreen_same, Screen.clearAlign_record]
  rfl

/-- The state in which a block leaves its screen where nothing else acts (R23). -/
def ScreenState.afterRun (st : ScreenState) (run : Bool) : ScreenState :=
  match st, run with
  | .dark, true => .inShow
  | .inShow, false => .dark
  | .inAlign, true => .inShow
  | st, _ => st

/-- The last position past the RUN stage: a show that starts has none (R24). -/
def ScreenState.lastPositionAfterRun (st : ScreenState) (run : Bool) (last : Option Word) : Option Word :=
  if st.afterRun run = .inShow ∧ st ≠ .inShow then none else last

/-- What the RUN stage moves of its screen where no link acts. -/
def RunMoves (i : Fin 8) (run : Bool) (s t : State) : Prop :=
  LeavesRest i s t ∧ t.screens[i].record = (s.screens[i].state.afterRun run, s.screens[i].lastArrival,
    s.screens[i].arrivalPosition, s.screens[i].sourceLost,
    s.screens[i].state.lastPositionAfterRun run s.screens[i].lastPosition)

theorem actOnRun_runMoves (q : s.Quiet i) (own : s.screens[i].state = .inAlign → s.run.screen = i) (run : Bool)
    (p : Option Word) : RunMoves i run s (actOnRun i run p s) := by
  have started {t : State} (rest : LeavesRest i s t) (arrival : t.screens[i].record = (.dark, s.screens[i].lastArrival,
      s.screens[i].arrivalPosition, s.screens[i].sourceLost, s.screens[i].lastPosition)) :
      LeavesRest i s (startShow i p t) ∧ (startShow i p t).screens[i].record = (.inShow, s.screens[i].lastArrival,
        s.screens[i].arrivalPosition, s.screens[i].sourceLost, none) := by
    simp only [Screen.record, Prod.mk.injEq] at arrival
    obtain ⟨-, arrived, position, lost, -⟩ := arrival
    rw [startShow_quiet (rest.quiet q), file_screens, showStarted_record, arrived, position, lost]
    exact ⟨(rest.trans (showStarted_leavesRest i t)).trans (.file ..), rfl⟩
  unfold RunMoves
  cases st : s.screens[i].state with
  | dark =>
    cases run with
    | true =>
      rw [actOnRun_starts st]
      exact started (.refl s) (by rw [Screen.record, st])
    | false =>
      rw [actOnRun_false_other (ne_of_eq_of_ne st nofun)]
      exact ⟨.refl s, by rw [Screen.record, st]; rfl⟩
  | inShow =>
    cases run with
    | true =>
      rw [actOnRun_true_other (ne_of_eq_of_ne st nofun) (ne_of_eq_of_ne st nofun)]
      exact ⟨.refl s, by rw [Screen.record, st]; rfl⟩
    | false =>
      rw [actOnRun_ends st, endShow_quiet q, file_screens, enterState_record]
      exact ⟨(enterState_leavesRest i .dark s).trans (.file ..), rfl⟩
  | inAlign =>
    cases run with
    | true =>
      rw [actOnRun_overtakes st]
      have kept := overtakeRun_record (own st) .showStarted
      simp only [Screen.record, Prod.mk.injEq] at kept
      obtain ⟨-, arrived, position, lost, last⟩ := kept
      exact started ((overtakeRun_leavesRest (own st) _).trans (enterState_leavesRest i .dark _))
        (by rw [enterState_record, arrived, position, lost, last])
    | false =>
      rw [actOnRun_false_other (ne_of_eq_of_ne st nofun)]
      exact ⟨.refl s, by rw [Screen.record, st]; rfl⟩
  | off =>
    have same : actOnRun i run p s = s := by cases run <;> simp only [actOnRun, st]
    rw [same]
    exact ⟨.refl s, by rw [Screen.record, st]; cases run <;> rfl⟩
  | stopped =>
    have same : actOnRun i run p s = s := by cases run <;> simp only [actOnRun, st]
    rw [same]
    exact ⟨.refl s, by rw [Screen.record, st]; cases run <;> rfl⟩

theorem checkGap_leavesRest (i : Fin 8) (p : Word) (s : State) : LeavesRest i s (checkGap i p s) := by
  have counted (gaps : Vector Nat 8) : LeavesRest i s { s with stats := { s.stats with gaps := gaps } } :=
    ⟨fun _ _ => rfl, rfl, rfl, fun _ => rfl⟩
  unfold checkGap
  split
  · exact .refl s
  · split
    · exact .refl s
    · exact (counted _).trans (.file ..)

theorem checkGap_screens (i : Fin 8) (p : Word) (s : State) : (checkGap i p s).screens = s.screens := by
  unfold checkGap
  split
  · rfl
  · split
    · rfl
    · exact file_screens ..

/-- A list without entries moves its cursor alone (R125, R126). -/
theorem takeCues_of_empty {p : Word} (empty : s.cueLists[i].entries = []) :
    takeCues i p s = s.onCueList i fun l => { l with cursor := l.cursorFor (some p) } := by
  have skip (l : List (Fin 64)) : l.foldl (processEntry i p []) s = s := by
    induction l with
    | nil => rfl
    | cons k l ih => exact ih
  simp only [takeCues, empty, skip]

theorem handlePosition_leavesRest (q : s.Quiet i) (p : Option Word) : LeavesRest i s (handlePosition i p s) := by
  by_cases plays : s.screens[i].state = .inShow
  · cases p with
    | none => rw [handlePosition_none]; exact .refl s
    | some p =>
      have rest := checkGap_leavesRest i p s
      have moved (t : State) : LeavesRest i t (t.onCueList i fun l => { l with cursor := l.cursorFor (some p) }) :=
        ⟨fun _ _ => rfl, rfl, by rw [State.onCueList, modifyAt_same], fun _ => rfl⟩
      rw [handlePosition_inShow plays, takeCues_of_empty (rest.quiet q).entries]
      exact (rest.trans (moved _)).trans (.onScreen _ _)
  · rw [handlePosition_other plays]
    exact .refl s

theorem handlePosition_record_inShow (q : s.Quiet i) (plays : s.screens[i].state = .inShow) (p : Word) :
    (handlePosition i (some p) s).screens[i].record = (.inShow, s.screens[i].lastArrival,
      s.screens[i].arrivalPosition, s.screens[i].sourceLost, some p) := by
  rw [handlePosition_inShow plays, takeCues_of_empty ((checkGap_leavesRest i p s).quiet q).entries, onScreen_same,
    State.onCueList_screens, checkGap_screens, ← plays]
  rfl

/-- The comparison files a notice and marks the screen, or does nothing (R59). -/
theorem checkMismatch_cases (i : Fin 8) (f : Frame) (s : State) : checkMismatch i f s = s ∨
    ∃ body, checkMismatch i f s = file (some i) body (s.onScreen i fun x => { x with mismatchReported := true }) := by
  cases active : s.screens[i].activeFormat with
  | none => exact .inl (by simp only [checkMismatch, active])
  | some k =>
    cases differs : mismatchOf s.formats[k] f.matrix f.channelCount with
    | none => exact .inl (by simp only [checkMismatch, active, differs, ite_self])
    | some what =>
      simp only [checkMismatch, active, differs]
      split
      · exact .inr ⟨_, rfl⟩
      · exact .inl rfl

theorem checkMismatch_leavesRest (i : Fin 8) (f : Frame) (s : State) : LeavesRest i s (checkMismatch i f s) := by
  rcases checkMismatch_cases i f s with eq | ⟨body, eq⟩
  · rw [eq]; exact .refl s
  · rw [eq]; exact (LeavesRest.onScreen s _).trans (.file ..)

theorem checkMismatch_record (i : Fin 8) (f : Frame) (s : State) :
    (checkMismatch i f s).screens[i].record = s.screens[i].record := by
  rcases checkMismatch_cases i f s with eq | ⟨body, eq⟩
  · rw [eq]
  · rw [eq, file_screens, onScreen_same]
    rfl

theorem passChain_leavesRest (i : Fin 8) (f : Frame) (s : State) : LeavesRest i s (passChain i f s).1 := by
  unfold passChain
  dsimp only
  rw [gatherDwell_frame]
  exact ⟨fun j other => modifyAt_other s.screens _ other, rfl, rfl, fun _ => rfl⟩

theorem passChain_record (i : Fin 8) (f : Frame) (s : State) :
    (passChain i f s).1.screens[i].record = s.screens[i].record := by
  rw [passChain_screen, Screen.passed_record]

theorem evaluateMonitors_of_disabled (monitors : ∀ m : Fin 48, s.monitors[m].enabled = false) :
    evaluateMonitors i s = deriveMonitors i s := by
  have skipped (m : Fin 48) : s.monitors[m].evaluatedOn i = false := by
    simp only [Monitor.evaluatedOn, monitors m, Bool.false_and]
  have none : s.monitorEvents i = [] := by
    refine List.filterMap_eq_nil_iff.mpr fun m _ => ?_
    simp only [skipped m, Bool.false_eq_true, if_false]
  have stand : mapAt (fun _ m => if m.evaluatedOn i then (s.evaluate m).1 else m) s.monitors = s.monitors :=
    mapAt_eq_self fun m => by simp only [skipped m, Bool.false_eq_true, if_false]
  simp only [evaluateMonitors, none, stand, List.any_nil, Bool.false_eq_true, if_false, List.foldl_nil]

theorem deriveMonitors_leavesRest (i : Fin 8) (s : State) : LeavesRest i s (deriveMonitors i s) := by
  unfold deriveMonitors
  exact .onScreen s _

end Quiet

/-! ### The whole of a block -/

theorem blockArrival_eq {i : Fin 8} {f : Frame} {s : State} (runs : s.inReset = false) (passes : Frame.passes f .aIn)
    (kind : f.kind = 1) (own : f.unitNibble = s.unit.val) (screen : f.screenNibble = i.val)
    (on : s.screens[i].state ≠ .off) : exec (.blockArrival f) s = .next (takeBlock i f s.countFrame) := by
  have row : exec (.blockArrival f) s = .next (routeFrame .aIn f s.countFrame) :=
    congrArg _ (arrival_passing runs passes.1 passes.2)
  rw [row, routeFrame_block (s := s.countFrame) kind own screen, handBlock_on (by exact on)]

/-- The state past the chain, where the monitors are still to be evaluated. -/
def chained (i : Fin 8) (f : Frame) (s : State) : State × List Int :=
  passChain i f (checkMismatch i f (handlePosition i f.validPosition
    (actOnRun i f.run f.validPosition (noteArrival i f s))))

theorem takeBlock_eq (i : Fin 8) (f : Frame) (s : State) : takeBlock i f s =
    joinBOut (blockFrame f.header[1] f.position (flagByte f.run) (chained i f s).1.screens[i].count (chained i f s).2)
      (evaluateMonitors i (chained i f s).1) := by
  simp only [takeBlock, chained, processedFlags]

section Block
variable {i : Fin 8} {f : Frame} {s : State}

/-- The RUN stage of a block, after its arrival. -/
theorem runStage_moves (q : s.Quiet i) (holds : s.engineHoldsItsScreen) :
    let t := actOnRun i f.run f.validPosition (noteArrival i f s)
    LeavesRest i s t ∧ t.screens[i].record = (s.screens[i].state.afterRun f.run, s.timeBase, f.position, false,
      s.screens[i].state.lastPositionAfterRun f.run s.screens[i].lastPosition) := by
  have arrived := noteArrival_leavesRest i f s
  have record := noteArrival_record i f s
  simp only [Screen.record, Prod.mk.injEq] at record
  obtain ⟨state, arrival, position, lost, last⟩ := record
  have own : (noteArrival i f s).screens[i].state = .inAlign → (noteArrival i f s).run.screen = i := by
    rw [state, noteArrival_run]
    exact fun aligns => ((holds i).mp aligns).2
  obtain ⟨rest, moved⟩ := actOnRun_runMoves (arrived.quiet q) own f.run f.validPosition
  rw [state, arrival, position, lost, last] at moved
  exact ⟨arrived.trans rest, moved⟩

theorem chained_moves (q : s.Quiet i) (holds : s.engineHoldsItsScreen) :
    LeavesRest i s (chained i f s).1 ∧
    (chained i f s).1.screens[i].record =
      (s.screens[i].state.afterRun f.run, s.timeBase, f.position, false,
        if s.screens[i].state.afterRun f.run = .inShow ∧ f.position ≠ noPosition then some f.position
        else s.screens[i].state.lastPositionAfterRun f.run s.screens[i].lastPosition) := by
  obtain ⟨rest, moved⟩ := runStage_moves (f := f) q holds
  have quiet := rest.quiet q
  refine ⟨((rest.trans (handlePosition_leavesRest quiet _)).trans (checkMismatch_leavesRest ..)).trans
    (passChain_leavesRest ..), ?_⟩
  rw [chained, passChain_record, checkMismatch_record]
  have parts := moved
  simp only [Screen.record, Prod.mk.injEq] at parts
  obtain ⟨state, arrival, position, lost, -⟩ := parts
  by_cases plays : s.screens[i].state.afterRun f.run = .inShow
  · by_cases absent : f.position = noPosition
    · have none : f.validPosition = none := if_pos absent
      rw [if_neg (by simp [absent]), none, handlePosition_none, ← none, moved]
    · have valid : f.validPosition = some f.position := if_neg absent
      rw [if_pos ⟨plays, absent⟩, valid, handlePosition_record_inShow (by rw [← valid]; exact quiet)
        (by rw [← valid]; exact state.trans plays), ← valid, arrival, position, lost, plays]
  · rw [if_neg fun both => plays both.1, handlePosition_other (by rw [state]; exact plays), moved]

end Block

/-! ### The show start's fields (R24, R34) -/

theorem Screen.restartMeters_eq (x : Screen) : x.restartMeters =
    { x with
      channels := x.channels.map fun c => { c with meter := c.meter.restart }
      inputs := x.inputs.map Meter.restart
      sum := x.sum.restart
      steerSum := ⟨-240, []⟩
      steerDiff := ⟨-240, []⟩ } := by
  have channels : mapAt (fun _ c => { c with meter := c.meter.restart }) x.channels =
      x.channels.map fun c => { c with meter := c.meter.restart } :=
    table_ext fun c => by rw [mapAt_get]; simp
  have inputs : mapAt (fun _ m => m.restart) x.inputs = x.inputs.map Meter.restart :=
    table_ext fun c => by rw [mapAt_get]; simp
  rw [Screen.restartMeters, channels, inputs]
  rfl

theorem showStarted_frame (i : Fin 8) (s : State) : showStarted i s = { enterState i .inShow s with
    screens := (showStarted i s).screens
    monitors := (showStarted i s).monitors
    cueLists := (showStarted i s).cueLists } := by
  unfold showStarted
  rw [emptyWindows_frame]
  rfl

theorem emptyWindows_monitors (i : Fin 8) (s : State) : (emptyWindows i s).monitors =
    mapAt (fun _ m => if m.content.screen = i then { m with prev := none } else m) s.monitors := by
  unfold emptyWindows
  rfl

theorem showStarted_monitors (i : Fin 8) (s : State) (m : Fin 48) : (showStarted i s).monitors[m] =
    if (enterState i .inShow s).monitors[m].content.screen = i then
      { (enterState i .inShow s).monitors[m] with prev := none }
    else (enterState i .inShow s).monitors[m] := by
  rw [showStarted, State.onCueList_monitors, State.onScreen_monitors, emptyWindows_monitors, mapAt_get]

theorem showStarted_cueLists (i : Fin 8) (s : State) (j : Fin 8) : (showStarted i s).cueLists[j] =
    if j = i then { s.cueLists[j] with cursor := 0 } else s.cueLists[j] := by
  have same : (emptyWindows i (enterState i .inShow s)).cueLists = s.cueLists := by
    rw [emptyWindows_frame, enterState_frame]
  rw [showStarted, State.onCueList, modifyAt_get, State.onScreen_cueLists, same]

/-- Settles O17: the stages of a block in their order, each of them case by case, and the whole where nothing acts on
it. -/
theorem aBlockMovesItsScreen : Obligations.ABlockMovesItsScreen := by
  refine ⟨fun i f s runs passes kind own screen on => ?_,
    fun i f s runs passes kind own screen on entries links monitors holds => ?_,
    fun i f s => ⟨noteArrival_lost, noteArrival_heard⟩,
    fun i p s => ⟨actOnRun_starts, actOnRun_ends, actOnRun_overtakes, actOnRun_true_other, actOnRun_false_other⟩,
    fun i p s => ?_, fun i s => ⟨fun p plays => ?_, handlePosition_none, fun p => handlePosition_other⟩⟩
  · exact (blockArrival_eq runs passes kind own screen on).trans (congrArg _ (takeBlock_eq i f s.countFrame))
  · have quiet : s.countFrame.Quiet i := ⟨entries, links, monitors⟩
    obtain ⟨rest, moved⟩ := chained_moves (f := f) quiet (by exact holds)
    have row := blockArrival_eq runs passes kind own screen on
    rw [takeBlock_eq, evaluateMonitors_of_disabled (rest.quiet quiet).monitors] at row
    rw [← deriveMonitors_record] at moved
    have others := (rest.trans (deriveMonitors_leavesRest i _)).others
    intro after
    have same : after = s.screens[i].state.afterRun f.run := rfl
    simp only [Screen.record, Prod.mk.injEq] at moved
    obtain ⟨state, arrival, position, lost, last⟩ := moved
    refine ⟨_, row, ?_⟩
    simp only [joinBOut_screens, same]
    refine ⟨state, arrival, position, lost, fun plays valid => ?_, fun other => ?_, others⟩
    · exact last.trans (if_pos ⟨plays, valid⟩)
    · exact (last.trans (if_neg fun both => other both.1)).trans (if_neg fun both => other both.1)
  · dsimp only
    have rest := showStarted_leavesRest i s
    have plays : (showStarted i s).screens[i].state = .inShow :=
      congrArg Prod.fst (showStarted_record i s)
    refine ⟨showStarted i s, startShow_eq i p s, showStarted_frame i s, plays, ?_, rest.others,
      fun m => ?_, showStarted_cueLists i s⟩
    · rw [showStarted_screen, Screen.restartMeters_eq]
      rfl
    · rw [showStarted_monitors]
  · exact handlePosition_inShow plays

end Sys2Proof.Machine
end

section
/-!
PROOF. COMMAND_TAKE (R8, R160) and the generic checks that every listed command makes first (R163 to R165).
-/

namespace Sys2Proof.Machine

/-! ### The generic checks of a command -/

/-- A command whose length or selector does not suit its code. -/
def Command.genericRefusal (c : Command) : Option Result := genericCheck (classOf c.code.toNat) c.lengthSuits c

theorem genericRefusal_badLength {c : Command} (length : c.lengthSuits = false) :
    c.genericRefusal = some .badLength := by
  rw [Command.genericRefusal, length, genericCheck_badLength]

theorem genericRefusal_badSelector {c : Command} (length : c.lengthSuits = true)
    (selector : (classOf c.code.toNat).accepts c.selector = false) : c.genericRefusal = some .badValue := by
  rw [Command.genericRefusal, length, genericCheck_badSelector selector]

theorem genericRefusal_ne_ok {c : Command} {why : Result} (refuses : c.genericRefusal = some why) : why ≠ .ok := by
  rintro rfl
  revert refuses
  cases length : c.lengthSuits with
  | false => rw [genericRefusal_badLength length]; simp
  | true =>
    cases selector : (classOf c.code.toNat).accepts c.selector with
    | false => rw [genericRefusal_badSelector length selector]; simp
    | true => rw [Command.genericRefusal, length, genericCheck_none selector]; simp

section Classes
variable {suits : Bool} {size : Nat} {c : Command} {s : State} {why : Result}

theorem unitCommand_generic {check : State → Option Result} {effect : State → State × List Byte}
    (refuses : genericCheck .unit suits c = some why) :
    unitCommand suits check effect c s = (s, ⟨why, 0#8, []⟩) := by
  simp only [unitCommand, refuses]

theorem screenCommand_generic {check : Fin 8 → State → Option Result} {effect : Fin 8 → State → State × List Byte}
    (refuses : genericCheck .screen suits c = some why) :
    screenCommand suits size check effect c s = (s, ⟨why, 0#8, []⟩) := by
  simp only [screenCommand, refuses]

theorem oneScreenCommand_generic {check : Fin 8 → State → Option Result} {effect : Fin 8 → State → State}
    (refuses : genericCheck .oneScreen suits c = some why) :
    oneScreenCommand suits check effect c s = (s, ⟨why, 0#8, []⟩) := by
  simp only [oneScreenCommand, refuses]

end Classes

/-! ### The class of each listed code (section 9.4) -/

/-- The codes of the unit class but UNIT_RESET's. -/
def unitCodes : List Nat :=
  [1, 3, 4, 32, 33, 36, 52, 66, 80, 81, 82, 83, 84, 98, 99, 100, 101, 102, 103, 104, 105, 106, 107, 112, 113, 114, 115,
    116, 117, 118]

/-- The codes of the screen class but EQ_LOAD's. -/
def screenCodes : List Nat := [18, 16, 17, 19, 20, 21, 22, 23, 34, 35, 49, 50, 51, 65, 96, 97]

theorem isEmpty_eq_length (l : List Byte) : l.isEmpty = (l.length == 0) := by
  cases l <;> rfl

theorem commandCodes_cases : ∀ n ∈ commandCodes, n = 2 ∨ n = 48 ∨ n = 64 ∨ n ∈ unitCodes ∨ n ∈ screenCodes := by
  decide

/-- A command of the unit class is the shared form with its code's length test. -/
theorem bodyOf_unit {n : Nat} (listed : n ∈ unitCodes) : classOf n = .unit ∧
    ∃ (suits : Command → Bool) (check : Command → State → Option Result)
      (effect : Command → State → State × List Byte),
      (∀ c, c.code.toNat = n → suits c = c.lengthSuits) ∧
      ∀ c, bodyOf n c = unitCommand (suits c) (check c) (effect c) c := by
  simp only [unitCodes, List.mem_cons, List.not_mem_nil, or_false] at listed
  rcases listed with rfl | rfl | rfl | rfl | rfl | rfl | rfl | rfl | rfl | rfl | rfl | rfl | rfl | rfl | rfl | rfl |
    rfl | rfl | rfl | rfl | rfl | rfl | rfl | rfl | rfl | rfl | rfl | rfl | rfl | rfl <;>
  exact ⟨rfl, _, _, _, fun c code => by
    simp [Command.lengthSuits, code, isEmpty_eq_length], fun _ => rfl⟩

/-- So is a command of the screen class. The first code, SCREEN_STATUS's, never refuses, so its form does not fix the
size by itself. -/
theorem bodyOf_screen {n : Nat} (listed : n ∈ screenCodes) : classOf n = .screen ∧
    ∃ (suits : Command → Bool) (size : Nat) (check : Command → Fin 8 → State → Option Result)
      (effect : Command → Fin 8 → State → State × List Byte),
      (∀ c, c.code.toNat = n → suits c = c.lengthSuits) ∧
      ∀ c, bodyOf n c = screenCommand (suits c) size (check c) (effect c) c := by
  simp only [screenCodes, List.mem_cons, List.not_mem_nil, or_false] at listed
  rcases listed with rfl | rfl | rfl | rfl | rfl | rfl | rfl | rfl | rfl | rfl | rfl | rfl | rfl | rfl | rfl | rfl
  · exact ⟨rfl, _, statusSize, _, _, fun c code => by
      simp [Command.lengthSuits, code, isEmpty_eq_length], fun _ => rfl⟩
  all_goals exact ⟨rfl, _, _, _, _, fun c code => by
    simp [Command.lengthSuits, code, isEmpty_eq_length, cuelistLengthSuits, Bool.or_assoc, beq_eq_decide],
    fun _ => rfl⟩

theorem cmdEqLoad_generic {c : Command} {s : State} {why : Result} (code : c.code.toNat = 48)
    (refuses : genericCheck .screen c.lengthSuits c = some why) : cmdEqLoad c s = (s, ⟨why, 0#8, []⟩) := by
  have suits : c.lengthSuits = (c.payload.length == if c.payload.head? = some 0#8 then 33 else 7) := by
    cases payload : c.payload <;> simp [Command.lengthSuits, code, Command.byte, payload]
  rw [suits] at refuses
  unfold cmdEqLoad
  split
  · rename_i graphic
    exact screenCommand_generic (by rwa [if_pos graphic] at refuses)
  · rename_i other
    rw [if_neg other] at refuses
    split <;> exact screenCommand_generic refuses

/-- A refusal is all that UNIT_RESET's form with a following notice answers (R173). -/
theorem executeThen_refused {after : Answer → State → State} {body : Command → State → State × Answer} {c : Command}
    {s : State} {why : Result} (refuses : body c s = (s, ⟨why, 0#8, []⟩)) (silent : ∀ t, after ⟨why, 0#8, []⟩ t = t) :
    executeThen after body c s = appendReply ⟨c.tag, c.code, why, 0#8, []⟩ s := by
  simp only [executeThen, refuses, silent]

theorem executeUnitReset_generic {c : Command} {s : State} {why : Result} (code : c.code.toNat = 2) (bad : why ≠ .ok)
    (refuses : genericCheck .unit c.lengthSuits c = some why) :
    executeUnitReset c s = appendReply ⟨c.tag, c.code, why, 0#8, []⟩ s := by
  have suits : c.lengthSuits = (c.payload.length == 1) := by simp [Command.lengthSuits, code]
  rw [suits] at refuses
  have silent (scope : Scope) (t : State) : readyAfter scope ⟨why, 0#8, []⟩ t = t := if_neg bad
  unfold executeUnitReset
  split
  · exact executeThen_refused (unitCommand_generic refuses) (silent _)
  · split
    · exact executeThen_refused (unitCommand_generic refuses) (silent _)
    · exact executeThen_refused (unitCommand_generic refuses) fun _ => rfl

/-- A listed command makes the generic checks before all others (R163). -/
theorem executeCommand_generic {c : Command} {s : State} {why : Result} (listed : c.code.toNat ∈ commandCodes)
    (refuses : c.genericRefusal = some why) :
    executeCommand c s = appendReply ⟨c.tag, c.code, why, 0#8, []⟩ s := by
  have bad := genericRefusal_ne_ok refuses
  rw [Command.genericRefusal] at refuses
  have runs (other : c.code.toNat ≠ 2) (body : bodyOf c.code.toNat c s = (s, ⟨why, 0#8, []⟩)) :
      executeCommand c s = appendReply ⟨c.tag, c.code, why, 0#8, []⟩ s := by
    rw [executeCommand, if_neg fun reset => other (congrArg BitVec.toNat reset)]
    exact executeThen_refused body fun _ => rfl
  rcases commandCodes_cases _ listed with code | code | code | unit | screen
  · rw [executeCommand, if_pos (BitVec.eq_of_toNat_eq code)]
    exact executeUnitReset_generic code bad (by rwa [code] at refuses)
  · refine runs (by omega) ?_
    rw [code] at refuses ⊢
    exact cmdEqLoad_generic code refuses
  · refine runs (by omega) ?_
    have suits : c.lengthSuits = alignLengthSuits c := by simp [Command.lengthSuits, code, alignLengthSuits]
    rw [code, suits] at refuses
    rw [code]
    exact oneScreenCommand_generic refuses
  · obtain ⟨kind, suits, check, effect, length, body⟩ := bodyOf_unit unit
    refine runs (fun code => by simp [code, unitCodes] at unit) ?_
    rw [body, length c rfl]
    exact unitCommand_generic (by rwa [kind] at refuses)
  · obtain ⟨kind, suits, size, check, effect, length, body⟩ := bodyOf_screen screen
    refine runs (fun code => by simp [code, screenCodes] at screen) ?_
    rw [body, length c rfl]
    exact screenCommand_generic (by rwa [kind] at refuses)

theorem bodyOf_unlisted {n : Nat} (unlisted : n ∉ commandCodes) : bodyOf n = cmdUnknown := by
  unfold bodyOf
  split
  case h_49 => rfl
  all_goals exact absurd (by decide) unlisted

theorem executeCommand_unlisted {c : Command} {s : State} (unlisted : c.code.toNat ∉ commandCodes) :
    executeCommand c s = appendReply ⟨c.tag, c.code, .badCommand, 0#8, []⟩ s := by
  have other : c.code ≠ 2#8 := by
    rintro code
    exact unlisted (by rw [code]; decide)
  rw [executeCommand, if_neg other, bodyOf_unlisted unlisted]
  rfl

/-- A scope byte that names no scope (R172). -/
theorem executeUnitReset_badScope {c : Command} {s : State} {scope : Byte} (selector : c.selector = 14#8)
    (payload : c.payload = [scope]) (bad : 2 ≤ scope.toNat) :
    executeUnitReset c s = appendReply ⟨c.tag, c.code, .badValue, 0#8, []⟩ s := by
  have length : (c.payload.length == 1) = true := by rw [payload]; rfl
  have not0 : ¬c.payload.head? = some 0#8 := by
    rw [payload, List.head?_cons, Option.some.injEq]
    rintro rfl
    exact absurd bad (by decide)
  have not1 : ¬c.payload.head? = some 1#8 := by
    rw [payload, List.head?_cons, Option.some.injEq]
    rintro rfl
    exact absurd bad (by decide)
  rw [executeUnitReset, if_neg not0, if_neg not1]
  refine executeThen_refused ?_ fun _ => rfl
  rw [length]
  exact unitCommand_refused selector rfl

theorem takeCommand_head {c : Command} {rest : List Command} {s : State} (head : s.intake = c :: rest)
    (can : s.canExecute = true) : exec .commandTake s = .next (executeCommand c { s with intake := rest }) := by
  have taken : takeCommand s = executeCommand c { s with intake := rest } := by
    simp only [takeCommand, head, can, if_true]
  exact congrArg _ taken

theorem takeCommand_nothing {s : State} (nothing : s.intake = [] ∨ 8 ≤ s.replies.length) : takeCommand s = s := by
  rcases nothing with empty | full
  · simp only [takeCommand, empty]
  · refine takeCommand_of_cannot (Bool.eq_false_iff.mpr fun can => ?_)
    exact absurd (canExecute_iff.mp can).2.2 full.not_gt

/-- Settles O46: the head runs as its row does, and the refusals that come before the command's own checks. -/
theorem commandTakeRunsTheHeadOfTheQueue : Obligations.CommandTakeRunsTheHeadOfTheQueue := by
  intro s
  refine ⟨canExecute_iff, fun r c rest spells head can => ?_, fun c rest head can listed => ?_,
    fun c rest head can unlisted => ?_, fun nothing => congrArg _ (takeCommand_nothing nothing)⟩
  · rw [takeCommand_head head can, exec_of_command spells, if_pos (by exact can)]
  · dsimp only
    rw [takeCommand_head head can]
    refine ⟨fun length => ?_, fun length selector => ?_, fun scope code selector payload bad => ?_⟩
    · rw [executeCommand_generic listed (genericRefusal_badLength length)]
    · rw [executeCommand_generic listed (genericRefusal_badSelector length selector)]
    · rw [executeCommand, if_pos code, executeUnitReset_badScope selector payload bad]
  · rw [takeCommand_head head can, executeCommand_unlisted unlisted]

end Sys2Proof.Machine
end

section
/-!
PROOF. UNIT_RESET in both scopes (R172, R173): its first steps, by which every screen goes OFF, change nothing else that
the later steps do not write over; the rest is one record.
-/

namespace Sys2Proof.Machine

/-! ### What the first steps leave -/

/-- The screen as it stands when OFF (R19). -/
def Screen.off (x : Screen) : Screen := offScreen x.rehearsal x.eqLive

/-- The format as it stands with no reference to it (R51). -/
def FormatEntry.unused (f : FormatEntry) : FormatEntry := { f with useCount := 0 }

/-- The cue list with its cursor at the start (R125). -/
def CueList.atStart (l : CueList) : CueList := { l with cursor := 0 }

/-- What UNIT_RESET(KEEP_TABLES) leaves of the blocks that an OFF screen or an overtaken run touches. -/
def State.tablesKept (s : State) : State :=
  { s with
    timeBase := 0#32
    run := emptyRun
    screens := s.screens.map Screen.off
    formats := s.formats.map FormatEntry.unused
    cueLists := s.cueLists.map CueList.atStart
    monitors := s.monitors.map Monitor.rest }

theorem map_eq_of_get {α β : Type} {n : Nat} {f : α → β} {v w : Vector α n} (agree : ∀ i : Fin n, f v[i] = f w[i]) :
    v.map f = w.map f :=
  table_ext fun i => by simpa using agree i

theorem mapAt_eq_map {α : Type} {n : Nat} (f : α → α) (v : Vector α n) : mapAt (fun _ x => f x) v = v.map f :=
  table_ext fun i => by rw [mapAt_get]; simp

/-- Changes that these blocks' reset values do not show. -/
theorem tablesKept_of_agree (s : State) {time : Word} {run : RunRecord} {screens : Vector Screen 8}
    {formats : Vector FormatEntry 32} {cueLists : Vector CueList 8} {monitors : Vector Monitor 48}
    (off : ∀ i : Fin 8, screens[i].off = s.screens[i].off)
    (unused : ∀ k : Fin 32, formats[k].unused = s.formats[k].unused)
    (atStart : ∀ i : Fin 8, cueLists[i].atStart = s.cueLists[i].atStart)
    (rest : ∀ m : Fin 48, monitors[m].rest = s.monitors[m].rest) :
    { s with timeBase := time, run := run, screens := screens, formats := formats, cueLists := cueLists,
             monitors := monitors }.tablesKept = s.tablesKept := by
  unfold State.tablesKept
  rw [← map_eq_of_get off, ← map_eq_of_get rest, ← map_eq_of_get unused,
    ← map_eq_of_get atStart]

/-! ### A screen goes OFF -/

theorem dropUse_get (k : Option (Fin 32)) (s : State) (j : Fin 32) :
    (dropUse k s).formats[j].unused = s.formats[j].unused := by
  cases k with
  | none => rfl
  | some k =>
    rw [dropUse, State.onFormat, modifyAt_get]
    split <;> rfl

theorem Monitor.judge_rest (m : Monitor) (st : ScreenState) : (m.judge st).rest = m.rest := by
  unfold Monitor.judge
  split <;> (try split) <;> (try split) <;> rfl

theorem judgeMonitors_get (i : Fin 8) (st : ScreenState) (s : State) (m : Fin 48) :
    (judgeMonitors i st s).monitors[m] =
      if s.monitors[m].content.screen = i then s.monitors[m].judge st else s.monitors[m] := by
  unfold judgeMonitors
  rw [mapAt_get]

theorem judgeMonitors_rest (i : Fin 8) (st : ScreenState) (s : State) (m : Fin 48) :
    (judgeMonitors i st s).monitors[m].rest = s.monitors[m].rest := by
  rw [judgeMonitors_get]
  split
  · exact Monitor.judge_rest _ _
  · rfl

/-- The references of a screen released (R51). -/
def releaseUses (x : Screen) (s : State) : State :=
  dropUse x.activeFormat (dropUse x.pendingFormat (dropUse x.outgoingFormat s))

theorem releaseUses_frame (x : Screen) (s : State) :
    releaseUses x s = { s with formats := (releaseUses x s).formats } := by
  unfold releaseUses
  rw [dropUse_frame _ x.activeFormat, dropUse_frame _ x.pendingFormat, dropUse_frame _ x.outgoingFormat]

theorem goOff_eq (i : Fin 8) (s : State) : goOff i s = judgeMonitors i .off
    (((releaseUses s.screens[i] s).onScreen i Screen.off).onCueList i CueList.atStart) := by
  unfold goOff releaseUses
  rfl

theorem releaseUses_get (x : Screen) (s : State) (k : Fin 32) :
    (releaseUses x s).formats[k].unused = s.formats[k].unused := by
  rw [releaseUses, dropUse_get, dropUse_get, dropUse_get]

theorem goOff_screens (i : Fin 8) (s : State) : (goOff i s).screens = modifyAt s.screens i Screen.off := by
  rw [goOff_eq, judgeMonitors_screens, State.onCueList_screens, State.onScreen_screens, releaseUses_frame]

theorem goOff_formats (i : Fin 8) (s : State) : (goOff i s).formats = (releaseUses s.screens[i] s).formats := by
  rw [goOff_eq, judgeMonitors_frame]
  rfl

theorem goOff_cueLists (i : Fin 8) (s : State) : (goOff i s).cueLists = modifyAt s.cueLists i CueList.atStart := by
  rw [goOff_eq, judgeMonitors_frame, State.onCueList, State.onScreen_cueLists, releaseUses_frame]

theorem goOff_monitors (i : Fin 8) (s : State) (m : Fin 48) :
    (goOff i s).monitors[m].rest = s.monitors[m].rest := by
  rw [goOff_eq, judgeMonitors_rest, State.onCueList_monitors, State.onScreen_monitors, releaseUses_frame]

theorem goOff_tablesKept (i : Fin 8) (s : State) : (goOff i s).tablesKept = s.tablesKept := by
  rw [goOff_frame]
  refine tablesKept_of_agree s (fun j => ?_) (fun k => ?_) (fun j => ?_) fun m => ?_
  · rw [goOff_screens, modifyAt_get]
    split <;> rfl
  · rw [goOff_formats, releaseUses_get]
  · rw [goOff_cueLists, modifyAt_get]
    split <;> rfl
  · exact goOff_monitors i s m

theorem goOff_timeBase (i : Fin 8) (s : State) : (goOff i s).timeBase = s.timeBase := by rw [goOff_frame]

/-! ### Every screen goes OFF (steps 1 to 3) -/

theorem Screen.clearAlign_off (x : Screen) : x.clearAlign.off = x.off := by
  simp only [Screen.off, Screen.clearAlign]

theorem resetRun_tablesKept (s : State) : (resetRun s).tablesKept = s.tablesKept := by
  unfold resetRun
  dsimp only
  split
  · rfl
  · rw [endRun_frame]
    refine tablesKept_of_agree s (fun j => ?_) (fun _ => rfl) (fun _ => rfl) fun _ => rfl
    rw [endRun, State.onScreen_screens, modifyAt_get]
    split
    · exact Screen.clearAlign_off _
    · rfl

theorem resetRun_timeBase (s : State) : (resetRun s).timeBase = 0#32 := by
  unfold resetRun
  dsimp only
  split
  · rfl
  · rw [endRun_frame]

/-- The state once every screen is OFF. -/
def State.allOff (s : State) : State := (indexes 8).foldl (fun s i => goOff i s) (resetRun s)

theorem allOff_tablesKept (s : State) : s.allOff.tablesKept = s.tablesKept := by
  have fold (l : List (Fin 8)) (t : State) : (l.foldl (fun s i => goOff i s) t).tablesKept = t.tablesKept := by
    induction l generalizing t with
    | nil => rfl
    | cons i l ih => exact (ih _).trans (goOff_tablesKept i t)
  exact (fold _ _).trans (resetRun_tablesKept s)

theorem allOff_timeBase (s : State) : s.allOff.timeBase = 0#32 := by
  have fold (l : List (Fin 8)) (t : State) : (l.foldl (fun s i => goOff i s) t).timeBase = t.timeBase := by
    induction l generalizing t with
    | nil => rfl
    | cons i l ih => exact (ih _).trans (goOff_timeBase i t)
  exact (fold _ _).trans (resetRun_timeBase s)

theorem allOff_screens (s : State) : s.allOff.screens = s.screens.map Screen.off := by
  have fold (l : List (Fin 8)) (t : State) : (l.foldl (fun s i => goOff i s) t).screens =
      l.foldl (fun v i => modifyAt v i Screen.off) t.screens := by
    induction l generalizing t with
    | nil => rfl
    | cons i l ih => exact (ih _).trans (by rw [goOff_screens]; rfl)
  have every : s.allOff.screens = (resetRun s).screens.map Screen.off :=
    (fold _ _).trans (mapAt_eq_map Screen.off _)
  have run := congrArg State.screens (resetRun_tablesKept s)
  simp only [State.tablesKept] at run
  exact every.trans run

/-- The tables once every screen is OFF, reset with their entries kept (steps 4 to 8). -/
theorem reset_keeps_tables (s : State) :
    resetCues .keepTables (resetMonitors .keepTables
      (resetTables .keepTables (resetScreens .keepTables (resetRun s)))) =
    { s.tablesKept with
      timers := s.timers.map fun x => { x with running := false, start := 0#32 }
      held := [] } := by
  have kept := allOff_tablesKept s
  have steps : resetCues .keepTables (resetMonitors .keepTables (resetTables .keepTables s.allOff)) =
      { s.allOff.tablesKept with
        timers := s.allOff.timers.map fun x => { x with running := false, start := 0#32 }
        held := [] } := by
    simp only [resetCues, resetMonitors, resetTables, State.tablesKept, mapAt_eq_map, allOff_timeBase, allOff_screens,
      Vector.map_map]
    rfl
  have timers := congrArg State.timers kept
  simp only [State.tablesKept] at timers
  exact steps.trans (by rw [kept, timers])

/-- The tables at their power-on values (R48, R67, R76, R78, R97, R142). -/
def State.tablesCleared (s : State) : State :=
  { s with
    timeBase := 0#32
    screens := Vector.replicate 8 (offScreen false .a)
    formats := Vector.replicate 32 invalidFormat
    eq := Vector.replicate 8 (Vector.replicate 16 ⟨flatBank, flatBank⟩)
    curves := Vector.replicate 4 invalidCurve
    run := emptyRun
    monitors := Vector.replicate 48 emptyMonitor
    cueLists := Vector.replicate 8 emptyCueList
    links := Vector.replicate 32 emptyLink
    timers := Vector.replicate 8 emptyTimer
    held := [] }

theorem tablesKept_tablesCleared (s : State) : s.tablesKept.tablesCleared = s.tablesCleared := by
  simp only [State.tablesKept, State.tablesCleared]

theorem allOff_tablesCleared (s : State) : s.allOff.tablesCleared = s.tablesCleared := by
  rw [← tablesKept_tablesCleared, allOff_tablesKept, tablesKept_tablesCleared]

theorem allOff_screens_cleared (s : State) :
    mapAt (fun _ x => { x with rehearsal := false, eqLive := .a }) s.allOff.screens =
      Vector.replicate 8 (offScreen false .a) := by
  refine table_ext fun i => ?_
  rw [mapAt_get, allOff_screens]
  simp [Screen.off, offScreen]

/-- The tables once every screen is OFF, cleared (steps 3 to 8). -/
theorem reset_clears_tables (s : State) :
    resetCues .clear (resetMonitors .clear (resetTables .clear (resetScreens .clear (resetRun s)))) =
      s.tablesCleared := by
  have steps : resetCues .clear (resetMonitors .clear (resetTables .clear
      { s.allOff with screens := mapAt (fun _ x => { x with rehearsal := false, eqLive := .a }) s.allOff.screens })) =
      s.allOff.tablesCleared := by
    simp only [resetCues, resetMonitors, resetTables, State.tablesCleared, allOff_screens_cleared, allOff_timeBase]
  exact steps.trans (allOff_tablesCleared s)

/-! ### The booth lines and the house (steps 9 and 10) -/

theorem BoothLine.rest_eq (l : BoothLine) : l.rest = { l with
    latch := if l.train = none then l.latch else false
    train := none
    filtered := if l.mode = .input ∨ l.mode = .stopInput then
        some (if l.polarity = .activeHigh then l.external else !l.external)
      else none
    since := 0#32 } := by
  have latch : (l.latch && l.train.isNone) = if l.train = none then l.latch else false := by
    cases l.train <;> simp
  have reads : l.polarity.reads l.external = if l.polarity = .activeHigh then l.external else !l.external :=
    l.reading_eq
  simp only [BoothLine.rest, latch, reads, LineMode.isInput_iff]

/-- The stopping input of booth lines that have come to rest (R143). -/
def boothAtRest (lines : Vector BoothLine 16) : Bool :=
  (lines.map BoothLine.rest).toList.any fun l => l.mode == .stopInput && l.filtered == some true

theorem boothInputActive_iff (s : State) : s.boothInputActive = true ↔
    ∃ l : Fin 16, s.lines[l].mode = .stopInput ∧ s.lines[l].filtered = some true := by
  simp only [State.boothInputActive, List.any_eq_true, Bool.and_eq_true, beq_iff_eq, Vector.mem_toList_iff]
  constructor
  · rintro ⟨x, mem, active⟩
    obtain ⟨k, low, rfl⟩ := Vector.mem_iff_getElem.mp mem
    exact ⟨⟨k, low⟩, active⟩
  · rintro ⟨l, active⟩
    exact ⟨_, Vector.getElem_mem l.isLt, active⟩

theorem resetUnit_keepTables (s : State) : resetUnit .keepTables s = { s.tablesKept with
    timers := s.timers.map fun x => { x with running := false, start := 0#32 }
    held := []
    lines := s.lines.map BoothLine.rest
    house := s.house.reset (boothAtRest s.lines)
    notices := []
    lostCount := 0
    slot := none
    replies := []
    stats := zeroStats
    lastChosen := .forwardBuffer } := by
  rw [resetUnit, reset_keeps_tables]
  simp only [resetLines, mapAt_eq_map]
  rfl

theorem powerOnLine_idle (lines : Vector BoothLine 16) :
    ((lines.map BoothLine.powerOn).toList.any fun l => l.mode == .stopInput && l.filtered == some true) = false := by
  rw [List.any_eq_false]
  intro l mem
  rw [Vector.mem_toList_iff, Vector.mem_map] at mem
  obtain ⟨x, -, rfl⟩ := mem
  simp [BoothLine.powerOn, powerOnLine]

theorem resetUnit_clear (s : State) : resetUnit .clear s = { s.tablesCleared with
    lines := s.lines.map BoothLine.powerOn
    house := (s.house.resetSettings .clear).reset false
    mask := powerOnMask
    notices := []
    lostCount := 0
    slot := none
    replies := []
    stats := zeroStats
    lastChosen := .forwardBuffer } := by
  have booth : { s.tablesCleared with lines := s.lines.map BoothLine.powerOn }.boothInputActive = false :=
    powerOnLine_idle s.lines
  rw [resetUnit, reset_clears_tables]
  simp only [resetLines, mapAt_eq_map, resetHouse, resetMask]
  rw [show s.tablesCleared.lines = s.lines from rfl, booth]
  rfl

/-! ### The row and its answer -/

theorem stopActive_appendReply (r : Reply) (s : State) : (appendReply r s).stopActive = s.stopActive := by
  rw [State.stopActive, appendReply_frame]
  rfl

theorem cmdUnitResetIn_accepted {scope : Scope} {c : Command} (selector : c.selector = 14#8)
    (payload : c.payload.length = 1) (s : State) :
    cmdUnitResetIn scope c s = (resetUnit scope s, ⟨.ok, 0#8, bytes1 scope.code⟩) := by
  rw [cmdUnitResetIn, payload]
  exact unitCommand_accepted selector rfl

/-- The reset, its reply, and UNIT_READY (R173). -/
theorem executeThen_reset {scope : Scope} {c : Command} (selector : c.selector = 14#8)
    (payload : c.payload.length = 1) (s : State) : executeThen (readyAfter scope) (cmdUnitResetIn scope) c s =
    file none (.unitReady scope.reason (resetUnit scope s).stopActive)
      (appendReply ⟨c.tag, c.code, .ok, 0#8, bytes1 scope.code⟩ (resetUnit scope s)) := by
  simp only [executeThen, cmdUnitResetIn_accepted selector payload, readyAfter, fileReady, if_true,
    stopActive_appendReply]

theorem resetUnit_keepTables_house (s : State) :
    (resetUnit .keepTables s).house = s.house.reset (boothAtRest s.lines) := by
  rw [resetUnit_keepTables]

theorem resetUnit_keepTables_isSettled (s : State) : (resetUnit .keepTables s).houseIsSettled := by
  intro _
  have booth : boothAtRest s.lines = true ↔ ∃ l : Fin 16,
      (resetUnit .keepTables s).lines[l].mode = .stopInput ∧
        (resetUnit .keepTables s).lines[l].filtered = some true := by
    rw [← boothInputActive_iff, resetUnit_keepTables]
    rfl
  rw [← booth, resetUnit_keepTables_house]
  simp only [House.reset, noSources]
  cases s.house.lineOutput <;> cases boothAtRest s.lines <;> simp

theorem resetUnit_clear_house (s : State) :
    (resetUnit .clear s).house = (s.house.resetSettings .clear).reset false := by
  rw [resetUnit_clear]

/-- Settles O51: each scope's reset as one record, with the house that it leaves. -/
theorem unitResetInBothScopes : Obligations.UnitResetInBothScopes := by
  refine ⟨fun a s can selector payload => ⟨resetUnit .keepTables s, ?_, ?_, resetUnit_keepTables_isSettled s, ?_, ?_⟩,
    fun a s can selector payload => ⟨resetUnit .clear s, ?_, ?_, ?_, ?_⟩⟩
  · have row : exec (.unitResetKeepTables a) s = .next (executeThen (readyAfter .keepTables)
        (cmdUnitResetIn .keepTables) (formCommandOf 2#8 0#8 a) s) := congrArg _ (if_pos can)
    rw [row, executeThen_reset (by exact selector) (by simp [formCommandOf, payload])]
    rfl
  · rw [resetUnit_keepTables_house, resetUnit_keepTables, State.tablesKept, funext BoothLine.rest_eq]
    rfl
  · rw [resetUnit_keepTables_house]
    rfl
  · rw [resetUnit_keepTables_house]
    exact ⟨rfl, rfl, rfl⟩
  · have row : exec (.unitResetClear a) s = .next (executeThen (readyAfter .clear)
        (cmdUnitResetIn .clear) (formCommandOf 2#8 1#8 a) s) := congrArg _ (if_pos can)
    rw [row, executeThen_reset (by exact selector) (by simp [formCommandOf, payload])]
    rfl
  · obtain ⟨runs, idle, -⟩ := canExecute_iff.mp can
    rw [resetUnit_clear_house, resetUnit_clear, State.tablesCleared, runs, idle]
    rfl
  · rw [resetUnit_clear_house]
    simp [House.reset, House.resetSettings, powerOnHouse, noSources]
  · rw [resetUnit_clear_house]
    rfl

end Sys2Proof.Machine
end

section
/-!
PROOF. The commands that read (R47, R53, R75, R79, R116, R135, R140, R149, R158, R169 to R171), and the two that also
write: NOTICE_MASK with its write flag and LINK_STATS with its clear flag.
-/

namespace Sys2Proof.Machine

/-! ### The answer of a command that reads -/

/-- A command row that its body answers OK. -/
theorem commandRow_answers {body : Command → State → State × Answer} {c : Command} {s t : State} {payload : List Byte}
    (can : s.canExecute = true) (answers : body c s = (t, ⟨.ok, 0#8, payload⟩)) :
    commandRow body c s = appendReply ⟨c.tag, c.code, .ok, 0#8, payload⟩ t := by
  rw [commandRow_of_canExecute can, answers]

theorem unitCommand_answers {suits : Bool} {check : State → Option Result} {effect : State → State × List Byte}
    {c : Command} {s : State} (length : suits = true) (selector : c.selector = 14#8) (accepts : check s = none) :
    unitCommand suits check effect c s = ((effect s).1, ⟨.ok, 0#8, (effect s).2⟩) := by
  rw [length, unitCommand_accepted selector accepts]

theorem screenCommand_answers {suits : Bool} {size : Nat} {check : Fin 8 → State → Option Result}
    {effect : Fin 8 → State → State × List Byte} {c : Command} {s : State} {i : Fin 8} (length : suits = true)
    (selector : c.selector = BitVec.ofNat 8 i.val) (accepts : check i s = none) :
    screenCommand suits size check effect c s = ((effect i s).1, ⟨.ok, 0#8, (effect i s).2⟩) := by
  rw [length, screenCommand_accepted selector accepts]

/-- The entries of a table in index order are its list. -/
theorem indexes_flatMap {α : Type} {n : Nat} (v : Vector α n) (f : α → List Byte) :
    ((indexes n).flatMap fun i => f v[i]) = v.toList.flatMap f := by
  have entries : (indexes n).map (fun i => v[i]) = v.toList :=
    List.ext_getElem (by simp [indexes]) fun k _ _ => by simp [indexes]
  rw [← entries, List.flatMap_map]

theorem byteOf_index_ne_255 {n : Nat} (small : n ≤ 255) (i : Fin n) : byteOf i.val ≠ 255#8 := by
  intro same
  have value := congrArg BitVec.toNat same
  rw [byteOf, toNat_ofNat_byte (by omega)] at value
  have bound := i.isLt
  simp at value
  omega

theorem readIndex_byteOf {n : Nat} (small : n ≤ 256) {c : Command} {i : Fin n} {rest : List Byte}
    (payload : c.payload = byteOf i.val :: rest) : readIndex n (c.byte 0) = some i := by
  rw [Command.byte, payload]
  exact readIndex_ofNat small i

/-! ### The commands that read, one by one -/

section Reads
variable {c : Command} {s : State}

theorem cmdEqRead_answers {i : Fin 8} {k : Fin 16} {name : BankName} (selector : c.selector = BitVec.ofNat 8 i.val)
    (payload : c.payload = [byteOf k.val, byteOf name.code]) : cmdEqRead c s = (s, ⟨.ok, 0#8,
      (s.eq[i][k].bank name).bytes ++ bytes1 s.screens[i].eqLive.code ++ [flagByte s.screens[i].eqSwap.isSome]⟩) := by
  have index : readIndex 16 (c.byte 0) = some k := readIndex_byteOf (by decide) payload
  have bank : readBank (c.byte 1) = some name := by
    rw [Command.byte, payload]
    cases name <;> rfl
  refine (screenCommand_answers (by rw [payload]; rfl) selector ?_).trans ?_
  · simp [checkEqRead, index, bank, firstFailure]
  · simp only [effectEqRead, index, bank]

theorem cmdFormatRead_answers {k : Fin 32} (selector : c.selector = 14#8) (payload : c.payload = [byteOf k.val]) :
    cmdFormatRead c s = (s, ⟨.ok, 0#8, s.formats[k].bytes⟩) := by
  have index : readIndex 32 (c.byte 0) = some k := readIndex_byteOf (by decide) payload
  refine (unitCommand_answers (by rw [payload]; rfl) selector ?_).trans ?_
  · simp [checkFormatRead, index]
  · simp only [effectFormatRead, index]

theorem cmdTimerRead_answers {t : Fin 8} (selector : c.selector = 14#8) (payload : c.payload = [byteOf t.val]) :
    cmdTimerRead c s = (s, ⟨.ok, 0#8, s.timers[t].bytes s.timeBase⟩) := by
  have index : readTimerIndex c = some t := readIndex_byteOf (by decide) payload
  refine (unitCommand_answers (by rw [payload]; rfl) selector ?_).trans ?_
  · simp [checkTimerIndex, index]
  · simp only [effectTimerRead, index]

/-- LINE_READ of the lines that its byte names. -/
theorem cmdLineRead_answers {lines : List (Fin 16)} (selector : c.selector = 14#8) (length : c.payload.length = 1)
    (names : readLines c = some lines) :
    cmdLineRead c s = (s, ⟨.ok, 0#8, lines.flatMap fun l => lineBytes s s.lines[l]⟩) := by
  refine (unitCommand_answers (by rw [length]; rfl) selector ?_).trans ?_
  · simp [checkLineRead, names]
  · simp only [effectLineRead, names, Option.getD_some]

theorem readLines_one {l : Fin 16} (payload : c.payload = [byteOf l.val]) : readLines c = some [l] := by
  have index : readLineIndex c = some l := readIndex_byteOf (by decide) payload
  have byte : c.byte 0 = byteOf l.val := by rw [Command.byte, payload]; rfl
  rw [readLines, if_neg (by rw [byte]; exact byteOf_index_ne_255 (by decide) l), index]
  rfl

theorem readLines_all (payload : c.payload = [255#8]) : readLines c = some (indexes 16) := by
  rw [readLines, if_pos (by rw [Command.byte, payload]; rfl)]

/-- MONITOR_STATUS of the monitors that its byte names, without its clear flag. -/
theorem cmdMonitorStatus_answers {monitors : List (Fin 48)} (selector : c.selector = 14#8)
    (length : c.payload.length = 2) (keeps : c.byte 1 = 0#8) (names : readMonitors c = some monitors) :
    cmdMonitorStatus c s = (s, ⟨.ok, 0#8, monitors.flatMap fun k => monitorBytes s s.monitors[k]⟩) := by
  have flag : readFlag (c.byte 1) = some false := by rw [keeps]; rfl
  refine (unitCommand_answers (by rw [length]; rfl) selector ?_).trans ?_
  · simp [checkMonitorStatus, names, flag, firstFailure]
  · simp [effectMonitorStatus, names, flag]

theorem readMonitors_one {k : Fin 48} {rest : List Byte} (payload : c.payload = byteOf k.val :: rest) :
    readMonitors c = some [k] := by
  have index : readMonitorIndex c = some k := readIndex_byteOf (by decide) payload
  have byte : c.byte 0 = byteOf k.val := by rw [Command.byte, payload]; rfl
  rw [readMonitors, if_neg (by rw [byte]; exact byteOf_index_ne_255 (by decide) k), index]
  rfl

theorem readMonitors_all {rest : List Byte} (payload : c.payload = 255#8 :: rest) :
    readMonitors c = some (indexes 48) := by
  rw [readMonitors, if_pos (by rw [Command.byte, payload]; rfl)]

/-- LINK_STATS answers the counters, and clears them where its flag says so (R171). -/
theorem cmdLinkStats_answers {clears : Bool} (selector : c.selector = 14#8) (payload : c.payload = [flagByte clears]) :
    cmdLinkStats c s = (if clears then { s with stats := zeroStats } else s, ⟨.ok, 0#8, s.stats.bytes⟩) := by
  have flag : readFlag (c.byte 0) = some clears := by
    rw [Command.byte, payload]
    exact readFlag_flagByte clears
  refine (unitCommand_answers (by rw [payload]; rfl) selector ?_).trans ?_
  · simp [checkLinkStats, flag]
  · simp only [effectLinkStats, flag, Option.some.injEq]

/-! ### NOTICE_MASK (R170) -/

theorem readMask_bytes4 {flag : Byte} {mask : Word} (payload : c.payload = flag :: bytes4 mask) :
    readMask c = mask := by
  have value : c.num4 1 = mask.toNat := by
    simp only [Command.num4, Command.byte, payload]
    exact nat4_bytes4 mask
  rw [readMask, value, BitVec.ofNat_toNat, BitVec.setWidth_eq]

theorem cmdNoticeMask_answers {writes : Bool} {mask : Word} (selector : c.selector = 14#8)
    (payload : c.payload = flagByte writes :: bytes4 mask) (kinds : mask.toNat < 2 ^ 24) :
    cmdNoticeMask c s = ({ s with mask := if writes then mask ||| 0xC00001#32 else s.mask },
      ⟨.ok, 0#8, bytes4 (if writes then mask ||| 0xC00001#32 else s.mask)⟩) := by
  have flag : readFlag (c.byte 0) = some writes := by
    rw [Command.byte, payload]
    exact readFlag_flagByte writes
  have names : maskNamesKinds mask = true := decide_eq_true kinds
  refine (unitCommand_answers (by rw [payload]; rfl) selector ?_).trans ?_
  · simp [checkNoticeMask, flag, readMask_bytes4 payload, names]
  · simp only [effectNoticeMask, flag, readMask_bytes4 payload, normalMask, unmaskable, Option.some.injEq]

theorem cmdNoticeMask_refused {flag : Byte} {mask : Word} (selector : c.selector = 14#8)
    (payload : c.payload = flag :: bytes4 mask) (beyond : 2 ^ 24 ≤ mask.toNat) :
    cmdNoticeMask c s = (s, ⟨.badValue, 0#8, []⟩) := by
  have names : maskNamesKinds mask = false := decide_eq_false beyond.not_gt
  have length : (c.payload.length == 5) = true := by rw [payload]; rfl
  rw [cmdNoticeMask, length]
  refine unitCommand_refused selector ?_
  simp [checkNoticeMask, readMask_bytes4 payload, names]

end Reads

/-- Settles O50: each read's answer, and the two writes. -/
theorem readCommandsChangeNothingElse : Obligations.ReadCommandsChangeNothingElse := by
  refine ⟨fun a s can => ⟨fun none empty => ⟨?_, ?_, ?_, ?_⟩, fun i names => ⟨fun empty => ?_, fun k bank => ?_,
      fun k bank => ?_⟩, fun none => ⟨fun k one => ?_, fun t one => ?_, fun l one => ?_, fun all => ?_, fun k one => ?_,
      fun all => ?_, fun reads => ?_, fun reads => ?_⟩⟩,
    fun a s can none => ⟨fun mask writes => ⟨fun kinds => ?_, fun beyond => ?_⟩, fun clears => ?_⟩⟩
  · exact congrArg _ (commandRow_answers can (unitCommand_answers (by rw [commandOf, empty]; rfl) none rfl))
  · exact congrArg _ (commandRow_answers can (unitCommand_answers (by rw [commandOf, empty]; rfl) none rfl))
  · exact congrArg _ (commandRow_answers can (unitCommand_answers (by rw [commandOf, empty]; rfl) none rfl))
  · exact congrArg _ (commandRow_answers can (unitCommand_answers (by rw [commandOf, empty]; rfl) none rfl))
  · exact congrArg _ (commandRow_answers can (screenCommand_answers (size := statusSize)
      (by rw [commandOf, empty]; rfl) names rfl))
  · refine congrArg _ ((commandRow_answers can (cmdEqRead_answers (name := .a) names bank)).trans ?_)
    rw [List.append_assoc]
    rfl
  · refine congrArg _ ((commandRow_answers can (cmdEqRead_answers (name := .b) names bank)).trans ?_)
    rw [List.append_assoc]
    rfl
  · exact congrArg _ (commandRow_answers can (cmdFormatRead_answers none one))
  · exact congrArg _ (commandRow_answers can (cmdTimerRead_answers none one))
  · have row := commandRow_answers can (cmdLineRead_answers (c := commandOf 118#8 a) (s := s) none
      (by rw [commandOf, one]; rfl) (readLines_one one))
    rw [List.flatMap_singleton] at row
    exact congrArg _ row
  · have row := commandRow_answers can (cmdLineRead_answers (c := commandOf 118#8 a) (s := s) none
      (by rw [commandOf, all]; rfl) (readLines_all all))
    rw [indexes_flatMap] at row
    exact congrArg _ row
  · have row := commandRow_answers can (cmdMonitorStatus_answers (c := commandOf 84#8 a) (s := s) none
      (by rw [commandOf, one]; rfl) (by rw [Command.byte, commandOf, one]; rfl) (readMonitors_one one))
    rw [List.flatMap_singleton] at row
    exact congrArg _ row
  · have row := commandRow_answers can (cmdMonitorStatus_answers (c := commandOf 84#8 a) (s := s) none
      (by rw [commandOf, all]; rfl) (by rw [Command.byte, commandOf, all]; rfl) (readMonitors_all all))
    rw [indexes_flatMap] at row
    exact congrArg _ row
  · exact congrArg _ (commandRow_answers can (cmdLinkStats_answers (clears := false) none reads))
  · exact congrArg _ (commandRow_answers can (cmdNoticeMask_answers (writes := false) (mask := 0#32) none reads
      (by decide)))
  · exact congrArg _ (commandRow_answers can (cmdNoticeMask_answers (writes := true) none writes kinds))
  · have row : commandRow cmdNoticeMask (commandOf 3#8 a) s = answered a 3#8 .badValue 0#8 [] s := by
      rw [commandRow_of_canExecute can, cmdNoticeMask_refused none writes beyond]
      rfl
    exact congrArg _ row
  · exact congrArg _ (commandRow_answers can (cmdLinkStats_answers (clears := true) none clears))

end Sys2Proof.Machine
end

section
/-!
PROOF. The watch sets, MONITOR causes and ceilings (R41, R44, R108): what the invariants read of a screen and of a
monitor, what derives them again, and that every operation of the model keeps them.
-/

namespace Sys2Proof.Machine

/-! ### What the invariants read -/

/-- What the watch sets, causes and ceilings read of a screen. -/
structure ScreenView where
  state : ScreenState
  requested : Nat
  effective : Nat
  ceiling : Nat
  muted : Bool
  channelMuted : Fin 16 → Bool

/-- That view of a screen. -/
def Screen.view (x : Screen) : ScreenView :=
  ⟨x.state, x.fader.requested, x.fader.effective, x.ceiling, x.mutes.monitor, fun c => x.channels[c].mutes.monitor⟩

/-- What they read of a monitor. -/
def Monitor.view (m : Monitor) : Bool × MonitorContent × MonitorState := (m.enabled, m.content, m.state)

/-- What they read of the unit. -/
def State.view (s : State) : Vector ScreenView 8 × Vector (Bool × MonitorContent × MonitorState) 48 :=
  (s.screens.map Screen.view, s.monitors.map Monitor.view)

theorem view_eq_iff {s t : State} : t.view = s.view ↔
    (∀ i : Fin 8, t.screens[i].view = s.screens[i].view) ∧
      ∀ m : Fin 48, t.monitors[m].view = s.monitors[m].view := by
  have entries {α β : Type} {n : Nat} {f : α → β} {v w : Vector α n} :
      v.map f = w.map f ↔ ∀ i : Fin n, f v[i] = f w[i] :=
    ⟨fun same i => by simpa using congrArg (fun u => u[i]) same, map_eq_of_get⟩
  rw [State.view, State.view, Prod.mk.injEq, entries, entries]

/-- A monitor that is as its screen's state asks (R103, R108). -/
structure Monitor.Follows (m : Monitor) (st : ScreenState) : Prop where
  enabled : m.enabled = true → m.state ≠ .off ∧ (m.state = .suspended ↔ m.content.watch.holds st = false)
  disabled : m.enabled = false → m.state = .off

theorem follows_of_view {m n : Monitor} {st : ScreenState} (same : m.view = n.view) (holds : n.Follows st) :
    m.Follows st := by
  simp only [Monitor.view, Prod.mk.injEq] at same
  obtain ⟨enabled, content, state⟩ := same
  exact ⟨by rw [enabled, content, state]; exact holds.enabled, by rw [enabled, state]; exact holds.disabled⟩

/-- Every monitor is as its screen's state asks. -/
structure State.Watched (s : State) : Prop where
  follows : ∀ (m : Fin 48) (i : Fin 8), s.monitors[m].content.screen = i → s.monitors[m].Follows s.screens[i].state

theorem watched_iff {s : State} : s.Watched ↔ s.monitorsFollowWatchSets := by
  constructor
  · intro holds m
    have follows := holds.follows m _ rfl
    split
    · rename_i enabled; exact follows.enabled enabled
    · rename_i disabled; exact follows.disabled (Bool.eq_false_iff.mpr disabled)
  · refine fun holds => ⟨fun m i own => ?_⟩
    subst own
    have follows := holds m
    refine ⟨fun enabled => ?_, fun disabled => ?_⟩
    · rwa [if_pos enabled] at follows
    · rwa [if_neg (Bool.eq_false_iff.mp disabled)] at follows

/-- The content of a monitor that holds its action on screen `i`. -/
def Monitor.heldOn (m : Monitor) (i : Fin 8) : Option MonitorContent := if m.actsOn i then some m.content else none

/-- The contents that hold their actions on screen `i`. -/
def State.heldOn (s : State) (i : Fin 8) : List (Option MonitorContent) := s.monitors.toList.map (·.heldOn i)

theorem mutesScreen_eq (s : State) (i : Fin 8) :
    s.mutesScreen i = (s.heldOn i).any fun c => c.any fun c => c.action == .muteScreen := by
  rw [State.heldOn, List.any_map, State.mutesScreen]
  congr 1
  funext m
  cases acts : m.actsOn i <;> simp [Monitor.heldOn, acts]

theorem mutesChannel_eq (s : State) (i : Fin 8) (o : Fin 16) : s.mutesChannel i o =
    (s.heldOn i).any fun c => c.any fun c => c.action == .muteChannel && c.point == .output o := by
  rw [State.heldOn, List.any_map, State.mutesChannel]
  congr 1
  funext m
  cases acts : m.actsOn i <;> simp [Monitor.heldOn, acts]

/-- The ceiling that a content sets while its monitor holds its action. -/
def MonitorContent.ceiling (c : MonitorContent) : Nat :=
  match c.action with
  | .faderCeiling v => v
  | _ => 100

theorem Monitor.ceilingOn_eq (m : Monitor) (i : Fin 8) :
    m.ceilingOn i = (m.heldOn i).elim 100 MonitorContent.ceiling := by
  cases acts : m.actsOn i <;> cases action : m.content.action <;>
    simp [Monitor.ceilingOn, Monitor.heldOn, MonitorContent.ceiling, acts, action]

theorem ceilingOf_eq (s : State) (i : Fin 8) :
    s.ceilingOf i = (s.heldOn i).foldl (fun v c => min v (c.elim 100 MonitorContent.ceiling)) 100 := by
  rw [State.heldOn, List.foldl_map, State.ceilingOf]
  simp only [Monitor.ceilingOn_eq]

theorem heldOn_congr {s t : State} {i : Fin 8} (same : ∀ m : Fin 48, t.monitors[m].heldOn i = s.monitors[m].heldOn i) :
    t.heldOn i = s.heldOn i := by
  have maps := congrArg Vector.toList (map_eq_of_get (f := fun m : Monitor => m.heldOn i) same)
  simpa only [State.heldOn, Vector.toList_map] using maps

/-- The causes, the ceiling and the effective target of screen `i` are the ones derived from the monitors. -/
structure State.Derived (s : State) (i : Fin 8) : Prop where
  muted : s.screens[i].mutes.monitor = s.mutesScreen i
  ceiling : s.screens[i].ceiling = s.ceilingOf i
  effective : s.screens[i].fader.effective = min s.screens[i].fader.requested s.screens[i].ceiling
  channels : ∀ c : Fin 16, s.screens[i].channels[c].mutes.monitor = s.mutesChannel i c

theorem derived_iff {s : State} : (∀ i : Fin 8, s.Derived i) ↔ s.causesFollowTheMonitors :=
  ⟨fun holds i => ⟨(holds i).muted, (holds i).ceiling, (holds i).effective, (holds i).channels⟩, fun holds i =>
    have ⟨muted, ceiling, effective, channels⟩ := holds i
    ⟨muted, ceiling, effective, channels⟩⟩

/-- What holds of a screen's causes stands while its view and the contents held on it stand. -/
theorem derived_congr {s t : State} {i : Fin 8} (screen : t.screens[i].view = s.screens[i].view)
    (held : t.heldOn i = s.heldOn i) (holds : s.Derived i) : t.Derived i := by
  simp only [Screen.view, ScreenView.mk.injEq, funext_iff] at screen
  obtain ⟨-, requested, effective, ceiling, muted, channels⟩ := screen
  refine ⟨?_, ?_, ?_, fun c => ?_⟩
  · rw [muted, mutesScreen_eq, held, ← mutesScreen_eq]; exact holds.muted
  · rw [ceiling, ceilingOf_eq, held, ← ceilingOf_eq]; exact holds.ceiling
  · rw [effective, requested, ceiling]; exact holds.effective
  · rw [channels, mutesChannel_eq, held, ← mutesChannel_eq]; exact holds.channels c

/-! ### Keeping the invariants -/

/-- The invariants are kept: the watch sets by themselves, and with them the causes. -/
structure Keeps (s t : State) : Prop where
  watched : s.Watched → t.Watched
  derived : s.Watched → (∀ i : Fin 8, s.Derived i) → ∀ i : Fin 8, t.Derived i

theorem monitor_heldOn_congr {m n : Monitor} (same : m.view = n.view) (i : Fin 8) : m.heldOn i = n.heldOn i := by
  simp only [Monitor.view, Prod.mk.injEq] at same
  obtain ⟨enabled, content, state⟩ := same
  have acts : m.actsOn i = n.actsOn i := by rw [Monitor.actsOn, Monitor.actsOn, enabled, content, state]
  rw [Monitor.heldOn, Monitor.heldOn, acts, content]

/-- The watch sets are followed while the views of the screens and the monitors stand. -/
theorem watched_congr {s t : State} (same : t.view = s.view) (holds : s.Watched) : t.Watched := by
  obtain ⟨screens, monitors⟩ := view_eq_iff.mp same
  refine ⟨fun m i own => follows_of_view (monitors m) ?_⟩
  have content : t.monitors[m].content = s.monitors[m].content := congrArg (fun v => v.2.1) (monitors m)
  have state : t.screens[i].state = s.screens[i].state := congrArg ScreenView.state (screens i)
  rw [state]
  exact holds.follows m i (content ▸ own)

namespace Keeps

theorem refl (s : State) : Keeps s s := ⟨id, fun _ => id⟩

theorem trans {s t u : State} (first : Keeps s t) (second : Keeps t u) : Keeps s u :=
  ⟨second.watched ∘ first.watched,
    fun watch causes => second.derived (first.watched watch) (first.derived watch causes)⟩

/-- Whatever leaves the view. -/
theorem silent {s t : State} (same : t.view = s.view) : Keeps s t := by
  obtain ⟨screens, monitors⟩ := view_eq_iff.mp same
  exact ⟨watched_congr same, fun _ causes i =>
    derived_congr (screens i) (heldOn_congr fun m => monitor_heldOn_congr (monitors m) i) (causes i)⟩

/-- A part of an event after a change that leaves the view. -/
theorem after {s t u : State} (rest : Keeps t u) (same : t.view = s.view) : Keeps s u := (silent same).trans rest

/-- A part of an event before one. -/
theorem before {s t u : State} (first : Keeps s t) (same : u.view = t.view) : Keeps s u := first.trans (silent same)

/-- A part of an event under a condition. -/
theorem ite {s t : State} {p : Prop} [Decidable p] (h : Keeps s t) : Keeps s (if p then t else s) := by
  split
  · exact h
  · exact refl s

/-- A fold of parts of an event is one. -/
theorem foldl {α : Type} {f : State → α → State} (each : ∀ s x, Keeps s (f s x)) (l : List α) (s : State) :
    Keeps s (l.foldl f s) := by
  induction l generalizing s with
  | nil => exact refl s
  | cons x rest ih => exact (each s x).trans (ih _)

end Keeps

/-! ### What leaves the view -/

theorem onScreen_view_of {s : State} {i : Fin 8} {f : Screen → Screen}
    (same : (f s.screens[i]).view = s.screens[i].view) : (s.onScreen i f).view = s.view := by
  refine view_eq_iff.mpr ⟨fun j => ?_, fun m => rfl⟩
  rw [State.onScreen_get]
  split
  · subst j; exact same
  · rfl

theorem onMonitor_view_of {s : State} {m : Fin 48} {f : Monitor → Monitor}
    (same : (f s.monitors[m]).view = s.monitors[m].view) : (s.onMonitor m f).view = s.view := by
  refine view_eq_iff.mpr ⟨fun j => rfl, fun k => ?_⟩
  rw [State.onMonitor_get]
  split
  · subst k; exact same
  · rfl

theorem onChannel_view_of {s : State} {i : Fin 8} {c : Fin 16} {f : Channel → Channel}
    (same : ∀ ch, (f ch).mutes.monitor = ch.mutes.monitor) : (s.onChannel i c f).view = s.view := by
  refine onScreen_view_of ?_
  simp only [Screen.view, ScreenView.mk.injEq, true_and]
  funext d
  rw [modifyAt_get]
  split
  · exact same _
  · rfl

section Silent
variable (s : State)

@[simp] theorem onBanks_view (i : Fin 8) (c : Fin 16) (f : ChannelBanks → ChannelBanks) :
    (s.onBanks i c f).view = s.view := rfl
@[simp] theorem onFormat_view (k : Fin 32) (f : FormatEntry → FormatEntry) : (s.onFormat k f).view = s.view := rfl
@[simp] theorem onCueList_view (i : Fin 8) (f : CueList → CueList) : (s.onCueList i f).view = s.view := rfl
@[simp] theorem onLink_view (k : Fin 32) (f : CueLink → CueLink) : (s.onLink k f).view = s.view := rfl
@[simp] theorem onTimer_view (t : Fin 8) (f : Timer → Timer) : (s.onTimer t f).view = s.view := rfl
@[simp] theorem onLine_view (l : Fin 16) (f : BoothLine → BoothLine) : (s.onLine l f).view = s.view := rfl
@[simp] theorem onRun_view (f : RunRecord → RunRecord) : (s.onRun f).view = s.view := rfl
@[simp] theorem onHouse_view (f : House → House) : (s.onHouse f).view = s.view := rfl
@[simp] theorem onStats_view (f : LinkStats → LinkStats) : (s.onStats f).view = s.view := rfl

@[simp] theorem offerAOut_view : (offerAOut s).view = s.view := by rw [offerAOut_frame]; rfl
@[simp] theorem file_view (x : Option (Fin 8)) (b : NoticeBody) : (file x b s).view = s.view := by
  rw [file_frame]; rfl
@[simp] theorem fillSlot_view : (fillSlot s).view = s.view := by rw [fillSlot_frame]; rfl
@[simp] theorem appendReply_view (r : Reply) : (appendReply r s).view = s.view := by rw [appendReply_frame]; rfl
@[simp] theorem offerBOut_view : (offerBOut s).view = s.view := by rw [offerBOut_frame]; rfl
@[simp] theorem joinBOut_view (f : Frame) : (joinBOut f s).view = s.view := by rw [joinBOut_frame]; rfl
@[simp] theorem addUse_view (k : Option (Fin 32)) : (addUse k s).view = s.view := by rw [addUse_frame]; rfl
@[simp] theorem dropUse_view (k : Option (Fin 32)) : (dropUse k s).view = s.view := by rw [dropUse_frame]; rfl
@[simp] theorem cancelHeld_view (b : Bool) : (cancelHeld b s).view = s.view := by rw [cancelHeld_frame]; rfl
@[simp] theorem goChange_view (f : House → House) : (goChange f s).view = s.view := rfl
@[simp] theorem requestGoPulse_view : (requestGoPulse s).view = s.view := by rw [requestGoPulse_frame]; rfl
@[simp] theorem startTimer_view (t : Fin 8) (n : Nat) (m : RunMode) : (startTimer t n m s).view = s.view := rfl
@[simp] theorem stopTimer_view (t : Fin 8) : (stopTimer t s).view = s.view := rfl
@[simp] theorem setLink_view (k : Fin 32) (on : Bool) : (setLink k on s).view = s.view := rfl
@[simp] theorem writeLatch_view (l : Fin 16) (a : Bool) : (writeLatch l a s).view = s.view := rfl
@[simp] theorem startTrain_view (l : Fin 16) (n a b : Nat) : (startTrain l n a b s).view = s.view := rfl
@[simp] theorem setCueMute_view (i : Fin 8) (on : Bool) : (setCueMute i on s).view = s.view := onScreen_view_of rfl
@[simp] theorem swapBanks_view (i : Fin 8) : (swapBanks i s).view = s.view := onScreen_view_of rfl
@[simp] theorem armFormat_view (i : Fin 8) (k : Option (Fin 32)) : (armFormat i k s).view = s.view :=
  (onScreen_view_of rfl).trans (by simp)

@[simp] theorem endFormatFade_view (i : Fin 8) (cutShort : Bool) : (endFormatFade i cutShort s).view = s.view := by
  unfold endFormatFade
  extract_lets x dropped ended
  have ends : ended.view = s.view := (onScreen_view_of rfl).trans (dropUse_view ..)
  split
  · exact (file_view ..).trans ends
  · exact ends

@[simp] theorem takeFormat_view (i : Fin 8) (ms : Nat) : (takeFormat i ms s).view = s.view := by
  unfold takeFormat
  extract_lets ended taken
  have ends : ended.view = s.view := by
    dsimp only [ended]
    split
    · exact endFormatFade_view ..
    · rfl
  have takes : taken.view = s.view := (onScreen_view_of rfl).trans ends
  split
  · exact (endFormatFade_view ..).trans takes
  · exact takes

@[simp] theorem endSwap_view (i : Fin 8) (early : Bool) : (endSwap i early s).view = s.view :=
  (file_view ..).trans (onScreen_view_of rfl)

theorem Screen.clearAlign_view (x : Screen) : x.clearAlign.view = x.view := by
  simp only [Screen.view, Screen.clearAlign, ScreenView.mk.injEq, true_and]
  exact funext fun c => by rw [mapAt_get]

theorem Screen.alignAllBut_view (x : Screen) (test : Option (Fin 16)) : (x.alignAllBut test).view = x.view := by
  simp only [Screen.view, Screen.alignAllBut, ScreenView.mk.injEq, true_and]
  exact funext fun c => by rw [mapAt_get]

theorem Screen.restartMeters_view (x : Screen) : x.restartMeters.view = x.view := by
  simp only [Screen.view, Screen.restartMeters, ScreenView.mk.injEq, true_and]
  exact funext fun c => by rw [mapAt_get]

theorem Screen.setStages_view (x : Screen) (passed : List PassedChannel) : (x.setStages passed).view = x.view := by
  simp only [Screen.view, Screen.setStages, ScreenView.mk.injEq, true_and]
  exact funext fun c => by rw [mapAt_get]; split <;> rfl

theorem Screen.meterBlock_view (x : Screen) (periods points : List (List Int)) :
    (x.meterBlock periods points).view = x.view := by
  simp only [Screen.view, Screen.meterBlock, ScreenView.mk.injEq, true_and]
  exact funext fun c => by rw [mapAt_get]; split <;> rfl

theorem Screen.passed_view (x : Screen) (formats : Vector FormatEntry 32) (periods : List (List Int))
    (channels : List PassedChannel) : (x.passed formats periods channels).view = x.view := by
  have steered (y : Screen) : (y.steer formats).view = y.view := by rw [Screen.steer_frame]; rfl
  have peaked (y : Screen) : y.takeShowPeak.view = y.view := by rw [Screen.takeShowPeak_frame]; rfl
  rw [Screen.passed, steered, peaked, Screen.meterBlock_view, Screen.setStages_view]

@[simp] theorem endRun_view (r : AbortReason) : (endRun r s).view = s.view :=
  onScreen_view_of (Screen.clearAlign_view _)

@[simp] theorem overtakeRun_view (r : AbortReason) : (overtakeRun r s).view = s.view :=
  (file_view ..).trans (endRun_view ..)

@[simp] theorem emptyWindows_view (i : Fin 8) : (emptyWindows i s).view = s.view := by
  have meters := view_eq_iff.mp (onScreen_view_of (Screen.restartMeters_view s.screens[i]))
  refine view_eq_iff.mpr ⟨meters.1, fun m => ?_⟩
  rw [emptyWindows_monitors, mapAt_get]
  split <;> rfl

@[simp] theorem passChain_view (i : Fin 8) (f : Frame) : (passChain i f s).1.view = s.view := by
  unfold passChain
  dsimp only
  rw [gatherDwell_frame]
  exact onScreen_view_of (s := s) (Screen.passed_view ..)

@[simp] theorem enterSettle_view (pass : Nat) : (enterSettle pass s).view = s.view := rfl
@[simp] theorem writeCorrection_view (c : Fin 16) (d : Vector Int 31) : (writeCorrection c d s).view = s.view := rfl

/-- A fold of changes that leave the view leaves it. -/
theorem foldl_view {α : Type} {f : State → α → State} (each : ∀ s x, (f s x).view = s.view) (l : List α) :
    (l.foldl f s).view = s.view := by
  induction l generalizing s with
  | nil => rfl
  | cons x rest ih => rw [List.foldl_cons, ih, each]

@[simp] theorem fillListed_view (i : Fin 8) (fromFlat : Bool) (channels : List (Fin 16)) :
    (fillListed i fromFlat channels s).view = s.view := foldl_view s (fun _ _ => onBanks_view ..) _
@[simp] theorem copyBanks_view (i : Fin 8) : (copyBanks i s).view = s.view :=
  foldl_view s (fun _ _ => onBanks_view ..) _

end Silent

/-! ### What derives the causes again -/

theorem deriveMonitors_screen (i : Fin 8) (s : State) : (deriveMonitors i s).screens[i] =
    { s.screens[i] with
      ceiling := s.ceilingOf i
      fader := s.screens[i].fader.underCeiling s.timeBase (s.ceilingOf i)
      mutes := { s.screens[i].mutes with monitor := s.mutesScreen i }
      channels := mapAt (fun c ch => { ch with mutes := { ch.mutes with monitor := s.mutesChannel i c } })
        s.screens[i].channels } := onScreen_same ..

theorem deriveMonitors_other {i j : Fin 8} (s : State) (other : j ≠ i) :
    (deriveMonitors i s).screens[j] = s.screens[j] := modifyAt_other _ _ other

theorem deriveMonitors_state (i j : Fin 8) (s : State) :
    (deriveMonitors i s).screens[j].state = s.screens[j].state := by
  by_cases own : j = i
  · subst own; rw [deriveMonitors_screen]
  · rw [deriveMonitors_other s own]

@[simp] theorem deriveMonitors_monitors (i : Fin 8) (s : State) : (deriveMonitors i s).monitors = s.monitors := rfl

/-- A new time over a ramp sets the effective target and keeps the requested one (R40). -/
theorem Fader.rampTo_targets (f : Fader) (now : Word) (effective ms : Nat) :
    (f.rampTo now effective ms).requested = f.requested ∧ (f.rampTo now effective ms).effective = effective := by
  unfold Fader.rampTo
  dsimp only
  split <;> exact ⟨rfl, rfl⟩

/-- A fader under a ceiling keeps its requested target and is aimed at the lesser of the two (R41). -/
theorem Fader.underCeiling_targets (f : Fader) (now : Word) (ceiling : Nat) :
    (f.underCeiling now ceiling).requested = f.requested ∧
      (f.underCeiling now ceiling).effective = min f.requested ceiling := by
  unfold Fader.underCeiling
  dsimp only
  split
  · rename_i stands; exact ⟨rfl, stands.symm⟩
  · exact Fader.rampTo_targets ..

theorem deriveMonitors_derived (i : Fin 8) (s : State) : (deriveMonitors i s).Derived i := by
  obtain ⟨requested, effective⟩ := Fader.underCeiling_targets s.screens[i].fader s.timeBase (s.ceilingOf i)
  refine ⟨?_, ?_, ?_, fun c => ?_⟩
  all_goals rw [deriveMonitors_screen]
  · rfl
  · rfl
  · exact effective.trans (by rw [requested])
  · rw [mapAt_get]; rfl

theorem deriveMonitors_watched {i : Fin 8} {s : State} (holds : s.Watched) : (deriveMonitors i s).Watched := by
  refine ⟨fun m j own => ?_⟩
  rw [deriveMonitors_monitors, deriveMonitors_state]
  exact holds.follows m j own

/-- A monitor of another screen holds nothing here. -/
theorem heldOn_of_other {m : Monitor} {i : Fin 8} (other : m.content.screen ≠ i) : m.heldOn i = none := by
  simp [Monitor.heldOn, Monitor.actsOn, other]

/-- Nor does a disabled one. -/
theorem heldOn_of_disabled {m : Monitor} (disabled : m.enabled = false) (i : Fin 8) : m.heldOn i = none := by
  simp [Monitor.heldOn, Monitor.actsOn, disabled]

/-- Whatever changes screen `i` and what is held on it, and then derives its causes. -/
theorem Keeps.derives {s u : State} {i : Fin 8} (watched : s.Watched → u.Watched)
    (screens : ∀ j : Fin 8, j ≠ i → u.screens[j].view = s.screens[j].view)
    (held : ∀ j : Fin 8, j ≠ i → ∀ m : Fin 48, u.monitors[m].heldOn j = s.monitors[m].heldOn j) :
    Keeps s (deriveMonitors i u) := by
  refine ⟨fun holds => deriveMonitors_watched (watched holds), fun _ derived j => ?_⟩
  by_cases own : j = i
  · subst own; exact deriveMonitors_derived j u
  · refine derived_congr ?_ (heldOn_congr (held j own)) (derived j)
    rw [deriveMonitors_other u own]
    exact screens j own

/-! ### A change of a screen's state (R108, R109) -/

theorem Monitor.judge_content (m : Monitor) (st : ScreenState) : (m.judge st).content = m.content := by
  unfold Monitor.judge
  split <;> (try split) <;> (try split) <;> rfl

/-- A judged monitor is as the state asks. -/
theorem Monitor.judge_follows {m : Monitor} {old : ScreenState} (holds : m.Follows old) (st : ScreenState) :
    (m.judge st).Follows st := by
  unfold Monitor.judge
  split
  · rename_i enabled
    split
    · rename_i inside
      split
      · exact ⟨fun _ => ⟨nofun, by simp [inside]⟩, fun off => absurd (off.symm.trans enabled) nofun⟩
      · rename_i awake
        exact ⟨fun _ => ⟨(holds.enabled enabled).1, by simp [inside, awake]⟩, holds.disabled⟩
    · rename_i outside
      exact ⟨fun _ => ⟨nofun, by simpa using outside⟩, fun off => absurd (off.symm.trans enabled) nofun⟩
  · rename_i disabled
    exact ⟨fun enabled => absurd enabled disabled, holds.disabled⟩

theorem judgeMonitors_content (i : Fin 8) (st : ScreenState) (s : State) (m : Fin 48) :
    (judgeMonitors i st s).monitors[m].content = s.monitors[m].content := by
  rw [judgeMonitors_get]
  split
  · exact Monitor.judge_content ..
  · rfl

/-- Judging the monitors of a screen whose state has changed. -/
theorem judgeMonitors_watched {s u : State} (i : Fin 8) (st : ScreenState) (monitors : u.monitors = s.monitors)
    (own : u.screens[i].state = st) (others : ∀ j : Fin 8, j ≠ i → u.screens[j].view = s.screens[j].view)
    (holds : s.Watched) : (judgeMonitors i st u).Watched := by
  refine ⟨fun m j on => ?_⟩
  rw [judgeMonitors_content, monitors] at on
  have before := holds.follows m j on
  rw [judgeMonitors_screens, judgeMonitors_get, monitors]
  by_cases here : j = i
  · subst here
    rw [if_pos on, own]
    exact Monitor.judge_follows before st
  · have state : u.screens[j].state = s.screens[j].state := congrArg ScreenView.state (others j here)
    rw [if_neg (on ▸ here), state]
    exact before

theorem judgeMonitors_heldOn {i j : Fin 8} (other : j ≠ i) (st : ScreenState) (s : State) (m : Fin 48) :
    (judgeMonitors i st s).monitors[m].heldOn j = s.monitors[m].heldOn j := by
  by_cases own : s.monitors[m].content.screen = i
  · have elsewhere : s.monitors[m].content.screen ≠ j := own ▸ other.symm
    rw [heldOn_of_other elsewhere, heldOn_of_other (by rw [judgeMonitors_content]; exact elsewhere)]
  · rw [judgeMonitors_get, if_neg own]

/-- The monitors judged where nothing but screen `i` has changed. -/
theorem judgeMonitors_derives {s u : State} (i : Fin 8) (st : ScreenState) (monitors : u.monitors = s.monitors)
    (own : u.screens[i].state = st) (others : ∀ j : Fin 8, j ≠ i → u.screens[j].view = s.screens[j].view) :
    Keeps s (deriveMonitors i (judgeMonitors i st u)) := by
  refine Keeps.derives (judgeMonitors_watched i st monitors own others) (fun j other => ?_) fun j other m => ?_
  · rw [judgeMonitors_screens]
    exact others j other
  · rw [judgeMonitors_heldOn other, monitors]

theorem enterState_keeps (i : Fin 8) (st : ScreenState) (s : State) : Keeps s (enterState i st s) := by
  unfold enterState
  refine judgeMonitors_derives i st (State.onScreen_monitors ..) (by rw [onScreen_same]) fun j other => ?_
  rw [State.onScreen_get, if_neg other]

/-! ### A screen that is OFF -/

/-- A monitor of an OFF screen holds nothing. -/
theorem heldOn_of_off {m : Monitor} (holds : m.Follows .off) (i : Fin 8) : m.heldOn i = none := by
  cases enabled : m.enabled with
  | false => exact heldOn_of_disabled enabled i
  | true =>
    have suspended : m.state = .suspended := (holds.enabled enabled).2.mpr rfl
    simp [Monitor.heldOn, Monitor.actsOn, suspended, MonitorState.acting]

theorem derived_of_off {s : State} {i : Fin 8} {rehearsal : Bool} {live : BankName}
    (off : s.screens[i] = offScreen rehearsal live) (holds : s.Watched) : s.Derived i := by
  have none_ (c : Option MonitorContent) (mem : c ∈ s.heldOn i) : c = none := by
    obtain ⟨x, listed, rfl⟩ := List.mem_map.mp mem
    obtain ⟨k, low, rfl⟩ := Vector.mem_iff_getElem.mp (Vector.mem_toList_iff.mp listed)
    by_cases own : s.monitors[k].content.screen = i
    · have follows := holds.follows ⟨k, low⟩ i own
      rw [off] at follows
      exact heldOn_of_off follows i
    · exact heldOn_of_other own
  have ceiling : (s.heldOn i).foldl (fun v c => min v (c.elim 100 MonitorContent.ceiling)) 100 = 100 :=
    List.foldlRecOn (s.heldOn i) _ (motive := fun v => v = 100) rfl fun v full c mem => by
      rw [full, none_ c mem]; rfl
  have mutes (p : MonitorContent → Bool) : (s.heldOn i).any (fun c => c.any p) = false :=
    List.any_eq_false.mpr fun c mem => by rw [none_ c mem]; simp
  refine ⟨?_, ?_, ?_, fun c => ?_⟩
  · rw [mutesScreen_eq, mutes, off]; rfl
  · rw [ceilingOf_eq, ceiling, off]; rfl
  · rw [off]; rfl
  · rw [mutesChannel_eq, mutes, off]; simp [offScreen, restChannel]

theorem goOff_keeps (i : Fin 8) (s : State) : Keeps s (goOff i s) := by
  have screens := goOff_screens i s
  rw [goOff_eq] at screens ⊢
  generalize made : ((releaseUses s.screens[i] s).onScreen i Screen.off).onCueList i CueList.atStart = u at screens ⊢
  have monitors : u.monitors = s.monitors := by
    rw [← made, State.onCueList_monitors, State.onScreen_monitors, releaseUses_frame]
  rw [judgeMonitors_screens] at screens
  have others (j : Fin 8) (other : j ≠ i) : u.screens[j].view = s.screens[j].view := by
    rw [screens, modifyAt_other _ _ other]
  have off : u.screens[i] = offScreen s.screens[i].rehearsal s.screens[i].eqLive := by
    rw [screens, modifyAt_same]
    rfl
  have watched (holds : s.Watched) : (judgeMonitors i .off u).Watched :=
    judgeMonitors_watched i .off monitors (by rw [off]; rfl) others holds
  refine ⟨watched, fun holds derived j => ?_⟩
  by_cases own : j = i
  · subst own
    exact derived_of_off (by rw [judgeMonitors_screens]; exact off) (watched holds)
  · refine derived_congr ?_ (heldOn_congr fun m => ?_) (derived j)
    · rw [judgeMonitors_screens, others j own]
    · rw [judgeMonitors_heldOn own, monitors]

/-- A unit whose screens are all OFF and whose monitors are judged so. -/
theorem keeps_of_off {s t : State} (screens : ∀ i : Fin 8, ∃ rehearsal live, t.screens[i] = offScreen rehearsal live)
    (monitors : ∀ m : Fin 48, t.monitors[m].Follows .off) : Keeps s t := by
  have watched : t.Watched := ⟨fun m i _ => by
    obtain ⟨rehearsal, live, off⟩ := screens i
    rw [off]
    exact monitors m⟩
  refine ⟨fun _ => watched, fun _ _ i => ?_⟩
  obtain ⟨rehearsal, live, off⟩ := screens i
  exact derived_of_off off watched

/-! ### A fader's targets (R40, R41) -/

/-- A screen whose effective target is set under its ceiling. -/
theorem Keeps.aims {s : State} {i : Fin 8} {f : Screen → Screen} (requested : Nat)
    (shape : (f s.screens[i]).view = { s.screens[i].view with
      requested := requested, effective := min requested s.screens[i].ceiling }) : Keeps s (s.onScreen i f) := by
  have state (j : Fin 8) : (s.onScreen i f).screens[j].state = s.screens[j].state := by
    rw [State.onScreen_get]
    split
    · subst j; exact congrArg ScreenView.state shape
    · rfl
  refine ⟨fun holds => ⟨fun m j own => ?_⟩, fun _ derived j => ?_⟩
  · rw [state]
    exact holds.follows m j own
  · by_cases own : j = i
    · subst own
      obtain ⟨muted, ceiling, -, channels⟩ := derived j
      simp only [Screen.view, ScreenView.mk.injEq, funext_iff] at shape
      obtain ⟨-, asks, aims, same, mutes, channelMutes⟩ := shape
      refine ⟨?_, ?_, ?_, fun c => ?_⟩
      all_goals rw [onScreen_same]
      · exact mutes.trans muted
      · exact same.trans ceiling
      · rw [aims, asks, same]
      · exact (channelMutes c).trans (channels c)
    · exact derived_congr (s := s) (by rw [State.onScreen_get, if_neg own]) rfl (derived j)

/-! ### Screens and the house stop -/

theorem requestFader_keeps (i : Fin 8) (target ms : Nat) (s : State) : Keeps s (requestFader i target ms s) := by
  have targets := Fader.rampTo_targets { s.screens[i].fader with requested := target } s.timeBase
    (min target s.screens[i].ceiling) ms
  refine Keeps.aims target ?_
  simp only [Screen.view, Fader.request, targets]

theorem Fader.finish_targets (f : Fader) : f.finish.requested = f.requested ∧ f.finish.effective = f.effective := by
  unfold Fader.finish
  split <;> exact ⟨rfl, rfl⟩

theorem finishRamp_view (i : Fin 8) (s : State) :
    (s.onScreen i fun x => { x with fader := x.fader.finish }).view = s.view :=
  onScreen_view_of (by simp only [Screen.view, Fader.finish_targets])

theorem stopScreen_keeps (i : Fin 8) (s : State) : Keeps s (stopScreen i s) := by
  unfold stopScreen
  exact (enterState_keeps ..).after (onScreen_view_of (by split <;> rfl))

theorem resumeScreen_keeps (i : Fin 8) (s : State) : Keeps s (resumeScreen i s) :=
  (enterState_keeps i .dark _).after (onScreen_view_of rfl)

theorem houseStopsScreen_keeps (s : State) (i : Fin 8) : Keeps s (houseStopsScreen s i) := by
  unfold houseStopsScreen
  dsimp only
  split
  · split
    · exact .refl s
    · exact stopScreen_keeps i s
  · split
    · exact .refl s
    · exact stopScreen_keeps i s
  · split
    · exact (enterState_keeps ..).after (overtakeRun_view ..)
    · exact (stopScreen_keeps ..).after (overtakeRun_view ..)
  · exact .refl s

theorem houseReleasesScreen_keeps (s : State) (i : Fin 8) : Keeps s (houseReleasesScreen s i) :=
  .ite (resumeScreen_keeps i s)

section Triggers
variable {trig : Trigger → State → State} (causes : ∀ t s, Keeps s (trig t s))
include causes

theorem houseEntry_keeps (s : State) : Keeps s (houseEntry trig s) :=
  (Keeps.foldl houseStopsScreen_keeps _ s).trans ((causes _ _).after ((fillSlot_view _).trans (cancelHeld_view _ true)))

theorem houseRelease_keeps (s : State) : Keeps s (houseRelease trig s) :=
  (Keeps.foldl houseReleasesScreen_keeps _ s).trans ((causes _ _).after (fillSlot_view _))

theorem houseChange_keeps (f : House → House) (s : State) : Keeps s (houseChange trig f s) := by
  unfold houseChange
  dsimp only
  split
  · exact (houseEntry_keeps causes _).after (onHouse_view ..)
  · split
    · exact (houseRelease_keeps causes _).after (onHouse_view ..)
    · exact .silent (onHouse_view ..)

/-! ### The Cue Engine -/

theorem perform_keeps (source : Source) (owner : Option (Fin 8)) (i : Fin 8) (a : Action) (s : State) :
    Keeps s (perform trig source owner i a s) := by
  cases a with
  | fader target ms => exact requestFader_keeps i target ms s
  | houseStop => exact houseChange_keeps causes _ s
  | _ => exact .silent (by simp [perform])

theorem executeAction_keeps (source : Source) (owner : Option (Fin 8)) (i : Fin 8) (a : Action) (released : Bool)
    (s : State) : Keeps s (executeAction trig source owner i a released s) := by
  unfold executeAction
  split
  · exact .silent (file_view ..)
  · split
    · exact .silent (file_view ..)
    · exact (perform_keeps causes ..).after (file_view ..)

theorem holdAction_keeps (source : Source) (owner : Option (Fin 8)) (i : Fin 8) (a : Action) (s : State) :
    Keeps s (holdAction trig source owner i a s) := by
  unfold holdAction
  split
  · exact .silent (file_view ..)
  · split
    · exact executeAction_keeps causes ..
    · split
      · exact .silent (file_view ..)
      · exact .silent (file_view ..)

theorem fireAction_keeps (source : Source) (owner : Option (Fin 8)) (i : Fin 8) (a : Action) (held : Bool)
    (s : State) : Keeps s (fireAction trig source owner i a held s) := by
  unfold fireAction
  split
  · exact holdAction_keeps causes ..
  · exact executeAction_keeps causes ..

theorem fireLink_keeps (s : State) (k : Fin 32) : Keeps s (fireLink trig s k) := by
  unfold fireLink
  extract_lets l fired
  have fires : Keeps s fired := fireAction_keeps causes ..
  split
  · exact fires.before (setLink_view ..)
  · exact fires

end Triggers

theorem occursWithin_keeps (depth : Nat) (t : Trigger) (s : State) : Keeps s (occursWithin depth t s) := by
  induction depth generalizing t s with
  | zero => exact .refl s
  | succ depth ih => exact .foldl (fireLink_keeps ih) _ s

theorem occurs_keeps (t : Trigger) (s : State) : Keeps s (occurs t s) := occursWithin_keeps 3 t s

theorem judgeBoothInput_keeps (s : State) : Keeps s (judgeBoothInput occurs s) := houseChange_keeps occurs_keeps _ s

theorem goEvent_keeps (s : State) : Keeps s (goEvent s) := by
  unfold goEvent
  extract_lets items released
  have releases : Keeps s released :=
    (Keeps.foldl (fun s h => executeAction_keeps occurs_keeps ..) _ _).after (s := s) rfl
  refine releases.trans ?_
  split
  · exact occurs_keeps ..
  · exact (occurs_keeps ..).after (file_view ..)

theorem processEntry_keeps (i : Fin 8) (p : Word) (entries : List CueEntry) (s : State) (k : Fin 64) :
    Keeps s (processEntry i p entries s k) := by
  unfold processEntry
  split
  · exact .refl s
  · split
    · split
      · exact .silent (file_view ..)
      · exact (fireAction_keeps occurs_keeps ..).trans (occurs_keeps ..)
    · exact .refl s

theorem takeCues_keeps (i : Fin 8) (p : Word) (s : State) : Keeps s (takeCues i p s) :=
  (Keeps.foldl (processEntry_keeps i p s.cueLists[i].entries) _ s).before (onCueList_view ..)

/-! ### The Level Monitor Unit -/

/-- A monitor replaced by one of screen `i`, whose causes are then derived, where the old one held nothing elsewhere. -/
theorem replaceMonitor_keeps {s : State} {k : Fin 48} {f : Monitor → Monitor} {i : Fin 8}
    (own : (f s.monitors[k]).content.screen = i) (elsewhere : ∀ j, j ≠ i → s.monitors[k].heldOn j = none)
    (follows : s.Watched → (f s.monitors[k]).Follows s.screens[i].state) :
    Keeps s (deriveMonitors i (s.onMonitor k f)) := by
  refine Keeps.derives (fun holds => ⟨fun m j on => ?_⟩) (fun _ _ => rfl) fun j other m => ?_
  · rw [State.onMonitor_get] at on ⊢
    by_cases here : m = k
    · subst here
      rw [if_pos rfl] at on ⊢
      obtain rfl : i = j := own.symm.trans on
      exact follows holds
    · rw [if_neg here] at on ⊢
      exact holds.follows m j on
  · rw [State.onMonitor_get]
    split
    · rename_i here
      subst here
      rw [elsewhere j other, heldOn_of_other (own ▸ other.symm)]
    · rfl

/-- What a move keeps of a monitor: its content, and that it is neither OFF nor SUSPENDED (R105 to R107). -/
structure MovesAwake (m n : Monitor) : Prop where
  enabled : n.enabled = m.enabled
  content : n.content = m.content
  awake : m.state ≠ .off → m.state ≠ .suspended → n.state ≠ .off ∧ n.state ≠ .suspended

theorem Monitor.raise_awake (m : Monitor) (l : Level) : MovesAwake m (m.raise l).1 :=
  ⟨rfl, rfl, fun _ _ => ⟨nofun, nofun⟩⟩

theorem Monitor.letGo_awake (m : Monitor) (l : Level) : MovesAwake m (m.letGo l).1 := by
  unfold Monitor.letGo
  split <;> exact ⟨rfl, rfl, fun _ _ => ⟨nofun, nofun⟩⟩

theorem Monitor.move_awake (m : Monitor) (now : Word) (holds : Bool) (l : Level) :
    MovesAwake m (m.move now holds l).1 := by
  have stands : MovesAwake m m := ⟨rfl, rfl, fun off suspended => ⟨off, suspended⟩⟩
  have set (st : MonitorState) (mark : Option Word) (on : st ≠ .off) (awake : st ≠ .suspended) :
      MovesAwake m { m with state := st, mark := mark } := ⟨rfl, rfl, fun _ _ => ⟨on, awake⟩⟩
  unfold Monitor.move
  split
  · split
    · exact m.raise_awake l
    · exact set .pending _ nofun nofun
  · exact set .clear _ nofun nofun
  · split
    · exact m.raise_awake l
    · exact stands
  · split
    · exact m.letGo_awake l
    · exact set .releasing _ nofun nofun
  · exact set .raised _ nofun nofun
  · split
    · exact m.letGo_awake l
    · exact stands
  · exact stands

theorem State.evaluate_awake (s : State) (m : Monitor) : MovesAwake m (s.evaluate m).1 := by
  have moves := m.move_awake s.timeBase (s.conditionHolds m (s.reading m.content)) (s.reading m.content)
  exact ⟨moves.enabled, moves.content, moves.awake⟩

theorem evaluatedOn_iff {m : Monitor} {i : Fin 8} : m.evaluatedOn i = true ↔
    m.enabled = true ∧ m.content.screen = i ∧ m.state ≠ .off ∧ m.state ≠ .suspended := by
  simp [Monitor.evaluatedOn, and_assoc]

/-- An awake monitor that moves awake is as its screen's state asks. -/
theorem follows_of_awake {m n : Monitor} {st : ScreenState} (moves : MovesAwake m n) (enabled : m.enabled = true)
    (awake : m.state ≠ .suspended) (holds : m.Follows st) : n.Follows st := by
  obtain ⟨on, suspended⟩ := holds.enabled enabled
  have inside : m.content.watch.holds st ≠ false := fun outside => awake (suspended.mpr outside)
  obtain ⟨stays, watches⟩ := moves.awake on awake
  refine ⟨fun _ => ⟨stays, fun s => absurd s watches, fun outside => absurd (moves.content ▸ outside) inside⟩,
    fun off => ?_⟩
  rw [moves.enabled, enabled] at off
  cases off

/-- The evaluated monitors of screen `i`, as an update leaves them (R104). -/
def evaluated (i : Fin 8) (s : State) : State :=
  { s with monitors := mapAt (fun _ m => if m.evaluatedOn i then (s.evaluate m).1 else m) s.monitors }

theorem evaluated_get (i : Fin 8) (s : State) (m : Fin 48) : (evaluated i s).monitors[m] =
    if s.monitors[m].evaluatedOn i then (s.evaluate s.monitors[m]).1 else s.monitors[m] := by
  unfold evaluated
  rw [mapAt_get]

theorem evaluated_content (i : Fin 8) (s : State) (m : Fin 48) :
    (evaluated i s).monitors[m].content = s.monitors[m].content := by
  rw [evaluated_get]
  split
  · exact (s.evaluate_awake _).content
  · rfl

theorem evaluated_screens (i : Fin 8) (s : State) : (evaluated i s).screens = s.screens := by
  unfold evaluated
  rfl

theorem evaluated_derives (i : Fin 8) (s : State) : Keeps s (deriveMonitors i (evaluated i s)) := by
  refine Keeps.derives (fun holds => ⟨fun m j on => ?_⟩) (fun j _ => by rw [evaluated_screens]) fun j other m => ?_
  · rw [evaluated_content] at on
    have before := holds.follows m j on
    rw [evaluated_get, evaluated_screens]
    split
    · rename_i evaluates
      obtain ⟨enabled, -, -, awake⟩ := evaluatedOn_iff.mp evaluates
      exact follows_of_awake (s.evaluate_awake _) enabled awake before
    · exact before
  · by_cases own : s.monitors[m].evaluatedOn i = true
    · have elsewhere : s.monitors[m].content.screen ≠ j := (evaluatedOn_iff.mp own).2.1 ▸ other.symm
      rw [heldOn_of_other elsewhere, heldOn_of_other (by rw [evaluated_content]; exact elsewhere)]
    · rw [evaluated_get, if_neg own]

theorem reportEvent_keeps (s : State) (x : Fin 48 × MonitorEvent) : Keeps s (reportEvent s x) := by
  unfold reportEvent
  extract_lets c told
  have tells : Keeps s told := .ite (.silent (file_view ..))
  split
  · exact tells
  · exact tells.trans (occurs_keeps ..)

theorem evaluateMonitors_keeps (i : Fin 8) (s : State) : Keeps s (evaluateMonitors i s) := by
  unfold evaluateMonitors
  extract_lets events moved derived stopped
  have derives : Keeps s derived := evaluated_derives i s
  have stops : Keeps derived stopped := .ite (houseChange_keeps occurs_keeps ..)
  exact (derives.trans stops).trans (.foldl reportEvent_keeps _ _)

/-! ### The Alignment Engine -/

theorem startRun_keeps (i : Fin 8) (q : RunRequest) (s : State) : Keeps s (startRun i q s) := by
  unfold startRun
  extract_lets swapped entered filled
  have swaps : Keeps s swapped := .ite (.silent (endSwap_view ..))
  have enters : Keeps s entered := swaps.trans ((enterState_keeps ..).after (onRun_view ..))
  have fills : Keeps entered filled := .ite (.silent (fillListed_view ..))
  exact (enters.trans fills).before (onScreen_view_of (Screen.alignAllBut_view ..))

theorem completeRun_keeps (s : State) : Keeps s (completeRun s) := by
  unfold completeRun
  extract_lets i completed idle converged
  have clears : completed.view = s.view := onScreen_view_of (Screen.clearAlign_view _)
  have enters : Keeps s idle := ((enterState_keeps i .dark completed).after clears).before (onRun_view ..)
  exact enters.trans ((occurs_keeps ..).after (file_view ..))

theorem alignAllBut_view (i : Fin 8) (test : Option (Fin 16)) (s : State) :
    (s.onScreen i fun x => x.alignAllBut test).view = s.view := onScreen_view_of (s.screens[i].alignAllBut_view test)

theorem finishChannel_keeps (result : AlignResult) (s : State) : Keeps s (finishChannel result s) := by
  unfold finishChannel
  extract_lets written i reported next
  have reports : reported.view = s.view := by
    dsimp only [reported]
    split
    · rfl
    · exact file_view ..
  have nexts : next.view = s.view := (onRun_view ..).trans reports
  split
  · exact (completeRun_keeps next).after nexts
  · exact .silent ((enterSettle_view ..).trans ((alignAllBut_view i _ next).trans nexts))

theorem judgePass_keeps (c : Fin 16) (m : Vector Level 31) (s : State) : Keeps s (judgePass c m s) := by
  unfold judgePass
  extract_lets curve d deviation compared corrected
  have same : compared.view = s.view := rfl
  have corrects : corrected.view = s.view := writeCorrection_view ..
  split
  · exact (finishChannel_keeps ..).after same
  · split
    · split
      · exact .silent ((enterSettle_view ..).trans corrects)
      · exact (finishChannel_keeps ..).after corrects
    · exact (finishChannel_keeps ..).after same

theorem evaluatePass_keeps (c : Fin 16) (s : State) : Keeps s (evaluatePass c s) := by
  unfold evaluatePass
  extract_lets a scale m measured
  have same : measured.view = s.view := rfl
  split
  · exact (finishChannel_keeps ..).after same
  · split
    · exact (finishChannel_keeps ..).after same
    · exact (judgePass_keeps ..).after same

theorem dwellEnds_keeps (s : State) : Keeps s (dwellEnds s) := by
  unfold dwellEnds
  split
  · exact .refl s
  · exact evaluatePass_keeps ..

/-! ### A block taken -/

theorem noteArrival_view (i : Fin 8) (f : Frame) (s : State) : (noteArrival i f s).view = s.view := by
  unfold noteArrival
  dsimp only
  split
  · exact (file_view ..).trans (onScreen_view_of rfl)
  · exact onScreen_view_of rfl

theorem startShow_keeps (i : Fin 8) (position : Option Word) (s : State) : Keeps s (startShow i position s) := by
  have shown : (showStarted i s).view = (enterState i .inShow s).view :=
    (onScreen_view_of (s := emptyWindows i (enterState i .inShow s)) rfl).trans (emptyWindows_view ..)
  rw [startShow_eq]
  exact (enterState_keeps i .inShow s).trans ((occurs_keeps ..).after ((file_view ..).trans shown))

theorem endShow_keeps (i : Fin 8) (s : State) : Keeps s (endShow i s) :=
  (enterState_keeps i .dark s).trans ((occurs_keeps ..).after (file_view ..))

theorem actOnRun_keeps (i : Fin 8) (run : Bool) (position : Option Word) (s : State) :
    Keeps s (actOnRun i run position s) := by
  unfold actOnRun
  split
  · exact startShow_keeps ..
  · exact endShow_keeps ..
  · exact ((enterState_keeps ..).trans (startShow_keeps ..)).after (overtakeRun_view ..)
  · exact .refl s

theorem checkGap_view (i : Fin 8) (p : Word) (s : State) : (checkGap i p s).view = s.view := by
  unfold checkGap
  split
  · rfl
  · split
    · rfl
    · exact file_view ..

theorem handlePosition_keeps (i : Fin 8) (position : Option Word) (s : State) :
    Keeps s (handlePosition i position s) := by
  unfold handlePosition
  split
  · exact ((takeCues_keeps ..).after (checkGap_view ..)).before (onScreen_view_of rfl)
  · exact .refl s

theorem checkMismatch_view (i : Fin 8) (f : Frame) (s : State) : (checkMismatch i f s).view = s.view := by
  rcases checkMismatch_cases i f s with eq | ⟨body, eq⟩
  · rw [eq]
  · rw [eq, file_view]; exact onScreen_view_of rfl

theorem takeBlock_keeps (i : Fin 8) (f : Frame) (s : State) : Keeps s (takeBlock i f s) := by
  rw [takeBlock_eq, chained]
  have arrives := (actOnRun_keeps i f.run f.validPosition (noteArrival i f s)).after (noteArrival_view i f s)
  have handles := arrives.trans (handlePosition_keeps i f.validPosition _)
  have passes := handles.before ((passChain_view _ i f).trans (checkMismatch_view i f _))
  exact (passes.trans (evaluateMonitors_keeps i _)).before (joinBOut_view ..)

theorem handBlock_keeps (i : Fin 8) (f : Frame) (s : State) : Keeps s (handBlock i f s) := by
  unfold handBlock
  split
  · exact .silent (joinBOut_view ..)
  · exact takeBlock_keeps ..

theorem loseSource_keeps (i : Fin 8) (s : State) : Keeps s (loseSource i s) := by
  unfold loseSource
  extract_lets lost told made
  have makes : made.view = s.view := (joinBOut_view ..).trans ((file_view ..).trans (onScreen_view_of rfl))
  split
  · exact (enterState_keeps ..).after ((overtakeRun_view ..).trans makes)
  · exact .silent makes

theorem nextSilent_view (i : Fin 8) (s : State) : (nextSilent i s).view = s.view :=
  (onScreen_view_of (by split <;> rfl)).trans (joinBOut_view ..)

/-! ### Arriving frames -/

theorem joinIntake_view (c : Command) (s : State) : (joinIntake c s).view = s.view := by
  unfold joinIntake
  split <;> rfl

theorem joinForward_view (f : Frame) (s : State) : (joinForward f s).view = s.view := by
  unfold joinForward
  split
  · exact offerAOut_view _
  · rfl

theorem routeFrame_keeps (lane : Lane) (f : Frame) (s : State) : Keeps s (routeFrame lane f s) := by
  cases lane with
  | bIn => exact .silent (joinForward_view f s)
  | aIn =>
    show Keeps s (if f.kind = 1 then routeBlock f s else routeCommand f s)
    split
    · unfold routeBlock
      split
      · split
        · exact handBlock_keeps ..
        · exact .refl s
      · exact .silent (joinBOut_view ..)
    · unfold routeCommand
      split
      · exact .silent (joinIntake_view ..)
      · split
        · exact .silent ((joinBOut_view ..).trans (joinIntake_view ..))
        · exact .silent (joinBOut_view ..)

theorem receive_keeps (lane : Lane) (cutOff : Bool) (f : Frame) (s : State) : Keeps s (receive lane cutOff f s) := by
  unfold receive
  extract_lets counted
  have counts : counted.view = s.view := onStats_view ..
  split
  · exact .silent ((onStats_view ..).trans counts)
  · split
    · exact .silent ((onStats_view ..).trans counts)
    · exact (routeFrame_keeps ..).after counts

/-! ### Event rows -/

theorem eventRow_keeps {f : State → State} (acts : ∀ s, Keeps s (f s)) (s : State) : Keeps s (eventRow f s) := by
  unfold eventRow
  split
  · exact .refl s
  · exact acts s

theorem timedRow_keeps {due : State → Bool} {f : State → State} (acts : ∀ s, Keeps s (f s)) (s : State) :
    Keeps s (timedRow due f s) := eventRow_keeps (fun s => .ite (acts s)) s

theorem takeGo_keeps (s : State) : Keeps s (takeGo s) := by
  unfold takeGo
  extract_lets sensed
  split
  · exact (goEvent_keeps ..).after (onHouse_view ..)
  · exact .silent (onHouse_view ..)

theorem takeLine_keeps (l : Fin 16) (s : State) : Keeps s (takeLine l s) := by
  unfold takeLine
  extract_lets active taken
  have takes : taken.view = s.view := onLine_view ..
  split
  · exact (occurs_keeps ..).after ((file_view ..).trans takes)
  · exact (judgeBoothInput_keeps _).after takes
  · exact .silent takes

theorem expireTimer_keeps (t : Fin 8) (s : State) : Keeps s (expireTimer t s) :=
  (occurs_keeps _ _).after (onTimer_view ..)

/-! ### Commands -/

section Bodies
variable {suits : Bool} {size : Nat} {c : Command}

theorem unitCommand_keeps {check : State → Option Result} {effect : State → State × List Byte}
    (acts : ∀ s, check s = none → Keeps s (effect s).1) (s : State) :
    Keeps s (unitCommand suits check effect c s).1 := by
  unfold unitCommand applyUnit
  split
  · exact .refl s
  · split
    · exact .refl s
    · rename_i accepted
      exact acts s accepted

theorem applyScreen_keeps {success : Result} {check : Fin 8 → State → Option Result}
    {effect : Fin 8 → State → State × List Byte} (acts : ∀ i s, Keeps s (effect i s).1) (i : Fin 8) (s : State) :
    Keeps s (applyScreen success check effect i s).1 := by
  unfold applyScreen
  split
  · exact .refl s
  · exact acts i s

theorem applyList_keeps {check : Fin 8 → State → Option Result} {effect : Fin 8 → State → State × List Byte}
    (acts : ∀ i s, Keeps s (effect i s).1) (l : List (Fin 8)) (s : State) :
    Keeps s (applyList size check effect l s).1 := by
  induction l generalizing s with
  | nil => exact .refl s
  | cons i rest ih =>
    unfold applyList
    split
    · exact ih s
    · exact (acts i s).trans (ih _)

theorem screenCommand_keeps {check : Fin 8 → State → Option Result} {effect : Fin 8 → State → State × List Byte}
    (acts : ∀ i s, Keeps s (effect i s).1) (s : State) : Keeps s (screenCommand suits size check effect c s).1 := by
  unfold screenCommand
  split
  · exact .refl s
  · split
    · exact applyScreen_keeps acts _ s
    · exact applyList_keeps acts _ s

theorem oneScreenCommand_keeps {check : Fin 8 → State → Option Result} {effect : Fin 8 → State → State}
    (acts : ∀ i s, Keeps s (effect i s)) (s : State) : Keeps s (oneScreenCommand suits check effect c s).1 := by
  unfold oneScreenCommand
  split
  · exact .refl s
  · split
    · exact applyScreen_keeps acts _ s
    · exact .refl s

end Bodies

section Effects
variable (c : Command) (s : State)

theorem setUpScreen_keeps (i : Fin 8) (v : SetupValues) (k : Fin 32) : Keeps s (setUpScreen i v k s) := by
  unfold setUpScreen
  extract_lets configured entered
  have aims : Keeps s (s.onScreen i fun x => x.setUp v k s.timeBase) := Keeps.aims 70 rfl
  have enters : Keeps s entered :=
    (aims.trans ((enterState_keeps i .dark configured).after (addUse_view ..))).before (emptyWindows_view ..)
  split
  · exact enters.trans (stopScreen_keeps ..)
  · exact enters

theorem effectSetup_keeps (i : Fin 8) : Keeps s (effectSetup c i s).1 := by
  unfold effectSetup
  split
  · exact setUpScreen_keeps ..
  · exact .refl s

theorem effectFader_keeps (i : Fin 8) : Keeps s (effectFader c i s).1 := by
  unfold effectFader
  split
  · exact .refl s
  · exact requestFader_keeps ..

theorem setCommandMute_view (i : Fin 8) (channel : Option (Fin 16)) (on : Bool) :
    (setCommandMute i channel on s).view = s.view := by
  cases channel with
  | none => exact onScreen_view_of rfl
  | some k => exact onChannel_view_of fun _ => rfl

theorem effectMute_keeps (i : Fin 8) : Keeps s (effectMute c i s).1 := by
  unfold effectMute
  split
  · exact .refl s
  · exact .silent (setCommandMute_view ..)

theorem effectRehearsal_keeps (i : Fin 8) : Keeps s (effectRehearsal c i s).1 := by
  unfold effectRehearsal
  split
  · exact .refl s
  · exact .silent (onScreen_view_of rfl)

theorem effectChannelSetup_keeps (i : Fin 8) : Keeps s (effectChannelSetup c i s).1 := by
  unfold effectChannelSetup
  split
  · exact .refl s
  · exact .silent (onChannel_view_of fun _ => rfl)

theorem effectEqGraphic_keeps (i : Fin 8) : Keeps s (effectEqGraphic c i s).1 := by
  unfold effectEqGraphic
  split
  · exact .silent (onBanks_view ..)
  · exact .refl s

theorem effectEqSection_keeps (i : Fin 8) : Keeps s (effectEqSection c i s).1 := by
  unfold effectEqSection
  split
  · exact .silent (onBanks_view ..)
  · exact .refl s

theorem effectEqRead_keeps (i : Fin 8) : Keeps s (effectEqRead c i s).1 := by
  unfold effectEqRead
  split <;> exact .refl s

theorem effectCurveLoad_keeps : Keeps s (effectCurveLoad c s).1 := by
  unfold effectCurveLoad
  split
  · exact .silent rfl
  · exact .refl s

theorem effectAlignStart_keeps (i : Fin 8) : Keeps s (effectAlignStart c i s) := by
  unfold effectAlignStart
  split
  · exact startRun_keeps ..
  · exact .refl s

theorem abortByCommand_keeps (i : Fin 8) : Keeps s (abortByCommand i s) :=
  (enterState_keeps ..).after (overtakeRun_view ..)

theorem effectFormatLoad_keeps : Keeps s (effectFormatLoad c s).1 := by
  unfold effectFormatLoad
  split
  · exact .silent (onFormat_view ..)
  · exact .refl s

theorem effectFormatClear_keeps : Keeps s (effectFormatClear c s).1 := by
  unfold effectFormatClear
  split
  · exact .refl s
  · exact .silent (onFormat_view ..)

theorem effectFormatRead_keeps : Keeps s (effectFormatRead c s).1 := by
  unfold effectFormatRead
  split <;> exact .refl s

theorem effectArm_keeps (i : Fin 8) : Keeps s (effectArm c i s).1 := by
  unfold effectArm
  split
  · exact .refl s
  · exact .silent (armFormat_view ..)

theorem effectCuelistLoad_keeps (i : Fin 8) : Keeps s (effectCuelistLoad c i s).1 := by
  unfold effectCuelistLoad
  split
  · exact .refl s
  · exact .silent (onCueList_view ..)

theorem effectLinkLoad_keeps : Keeps s (effectLinkLoad c s).1 := by
  unfold effectLinkLoad
  split
  · exact .silent (onLink_view ..)
  · exact .refl s

theorem effectLinkFlag_keeps (on : Bool) : Keeps s (effectLinkFlag on c s).1 := by
  unfold effectLinkFlag
  split
  · exact .refl s
  · exact .silent (setLink_view ..)

theorem effectTimerStart_keeps : Keeps s (effectTimerStart c s).1 := by
  unfold effectTimerStart
  split
  · exact .silent (startTimer_view ..)
  · exact .refl s

theorem effectTimerStop_keeps : Keeps s (effectTimerStop c s).1 := by
  unfold effectTimerStop
  split
  · exact .refl s
  · exact .silent (stopTimer_view ..)

theorem effectTimerRead_keeps : Keeps s (effectTimerRead c s).1 := by
  unfold effectTimerRead
  split <;> exact .refl s

theorem effectCueFire_keeps : Keeps s (effectCueFire c s).1 := by
  unfold effectCueFire
  split
  · exact .refl s
  · exact fireLink_keeps occurs_keeps ..

theorem effectHouseSetup_keeps : Keeps s (effectHouseSetup c s).1 := by
  unfold effectHouseSetup
  split
  · exact .refl s
  · exact houseChange_keeps occurs_keeps ..

theorem effectLineSetup_keeps : Keeps s (effectLineSetup c s).1 := by
  unfold effectLineSetup
  split
  · exact (judgeBoothInput_keeps _).after (onLine_view ..)
  · exact .refl s

theorem effectLineSet_keeps : Keeps s (effectLineSet c s).1 := by
  unfold effectLineSet
  split
  · exact .silent (writeLatch_view ..)
  · exact .refl s

theorem effectNoticeMask_view : (effectNoticeMask c s).1.view = s.view := by
  unfold effectNoticeMask
  dsimp only
  split <;> rfl

theorem effectLinkStats_keeps : Keeps s (effectLinkStats c s).1 := by
  unfold effectLinkStats
  split
  · exact .silent rfl
  · exact .refl s

/-! ### The monitor commands (R102, R103, R107) -/

theorem loadedMonitor_follows (content : MonitorContent) (st : ScreenState) : (loadedMonitor content).Follows st :=
  ⟨nofun, fun _ => rfl⟩

theorem Monitor.enable_follows (m : Monitor) (st : ScreenState) : (m.enable st).Follows st := by
  cases inside : m.content.watch.holds st
  · exact ⟨fun _ => by simp [Monitor.enable, inside], nofun⟩
  · exact ⟨fun _ => by simp [Monitor.enable, inside], nofun⟩

theorem Monitor.disable_follows (m : Monitor) (st : ScreenState) : m.disable.Follows st :=
  ⟨nofun, fun _ => rfl⟩

/-- A latched monitor is an enabled one inside its watch set, and stays as its screen's state asks when it is cleared
(R107). -/
theorem acknowledged_follows {m : Monitor} {st : ScreenState} (latched : m.state = .latched) (holds : m.Follows st) :
    { m with state := .clear, mark := none : Monitor }.Follows st := by
  have enabled : m.enabled = true := by
    cases off : m.enabled with
    | true => rfl
    | false => rw [holds.disabled off] at latched; cases latched
  have inside : m.content.watch.holds st ≠ false := fun outside => by
    rw [(holds.enabled enabled).2.mpr outside] at latched
    cases latched
  exact ⟨fun _ => ⟨nofun, nofun, fun outside => absurd outside inside⟩,
    fun off => absurd (off.symm.trans enabled) nofun⟩

theorem effectMonitorLoad_keeps (accepted : checkMonitorLoad c s = none) : Keeps s (effectMonitorLoad c s).1 := by
  unfold effectMonitorLoad
  unfold checkMonitorLoad at accepted
  split
  · exact .refl s
  · rename_i k named
    simp only [named] at accepted
    have disabled : s.monitors[k].enabled = false :=
      firstFailure_eq_none.mp accepted (s.monitors[k].enabled, .inUse) (by simp)
    split
    · exact .refl s
    · exact replaceMonitor_keeps rfl (fun j _ => heldOn_of_disabled disabled j) fun _ => loadedMonitor_follows ..

theorem effectMonitorEnable_keeps : Keeps s (effectMonitorEnable c s).1 := by
  unfold effectMonitorEnable
  split
  · exact .refl s
  · dsimp only
    split
    · exact .refl s
    · exact replaceMonitor_keeps rfl (fun j other => heldOn_of_other other.symm) fun _ => Monitor.enable_follows ..

theorem effectMonitorDisable_keeps : Keeps s (effectMonitorDisable c s).1 := by
  unfold effectMonitorDisable
  split
  · exact .refl s
  · dsimp only
    split
    · exact replaceMonitor_keeps rfl (fun j other => heldOn_of_other other.symm) fun _ => Monitor.disable_follows ..
    · exact .refl s

theorem acknowledge_keeps {k : Fin 48} (latched : s.monitors[k].state = .latched) : Keeps s (acknowledge k s) := by
  unfold acknowledge
  extract_lets content l cleared
  have clears : Keeps s cleared := replaceMonitor_keeps rfl (fun j other => heldOn_of_other other.symm)
    fun holds => acknowledged_follows latched (holds.follows k _ rfl)
  exact clears.trans (reportEvent_keeps ..)

theorem effectMonitorAck_keeps (accepted : checkMonitorAck c s = none) : Keeps s (effectMonitorAck c s).1 := by
  unfold effectMonitorAck
  unfold checkMonitorAck at accepted
  split
  · exact .refl s
  · rename_i k named
    simp only [named] at accepted
    split at accepted
    · rename_i latched
      exact acknowledge_keeps s latched
    · cases accepted

theorem effectMonitorStatus_view : (effectMonitorStatus c s).1.view = s.view := by
  unfold effectMonitorStatus
  dsimp only
  split
  · exact foldl_view s (fun _ _ => onMonitor_view_of rfl) _
  · rfl

end Effects

/-! ### Every command -/

theorem cmdEqLoad_keeps (c : Command) (s : State) : Keeps s (cmdEqLoad c s).1 := by
  unfold cmdEqLoad
  split
  · exact screenCommand_keeps (fun i s => effectEqGraphic_keeps c s i) s
  · split
    · exact screenCommand_keeps (fun i s => effectEqSection_keeps c s i) s
    · exact screenCommand_keeps (fun _ s => .refl s) s

/-- Whatever command is executed, UNIT_RESET apart. -/
theorem bodyOf_keeps (code : Nat) (c : Command) (s : State) : Keeps s (bodyOf code c s).1 := by
  unfold bodyOf
  split
  case h_1 => exact unitCommand_keeps (fun s _ => .refl s) s
  case h_2 => exact unitCommand_keeps (fun s _ => .silent (effectNoticeMask_view c s)) s
  case h_3 => exact unitCommand_keeps (fun s _ => effectLinkStats_keeps c s) s
  case h_4 => exact screenCommand_keeps (fun i s => effectSetup_keeps c s i) s
  case h_5 => exact screenCommand_keeps (fun i s => goOff_keeps i s) s
  case h_6 => exact screenCommand_keeps (fun _ s => .refl s) s
  case h_7 => exact screenCommand_keeps (fun i s => resumeScreen_keeps i s) s
  case h_8 => exact screenCommand_keeps (fun i s => effectFader_keeps c s i) s
  case h_9 => exact screenCommand_keeps (fun i s => effectMute_keeps c s i) s
  case h_10 => exact screenCommand_keeps (fun i s => effectRehearsal_keeps c s i) s
  case h_11 => exact screenCommand_keeps (fun i s => effectChannelSetup_keeps c s i) s
  case h_12 => exact unitCommand_keeps (fun s _ => effectFormatLoad_keeps c s) s
  case h_13 => exact unitCommand_keeps (fun s _ => effectFormatClear_keeps c s) s
  case h_14 => exact screenCommand_keeps (fun i s => effectArm_keeps c s i) s
  case h_15 => exact screenCommand_keeps (fun i s => .silent (takeFormat_view s i _)) s
  case h_16 => exact unitCommand_keeps (fun s _ => effectFormatRead_keeps c s) s
  case h_17 => exact cmdEqLoad_keeps c s
  case h_18 => exact screenCommand_keeps (fun i s => .silent (copyBanks_view s i)) s
  case h_19 => exact screenCommand_keeps (fun i s => .silent (swapBanks_view s i)) s
  case h_20 => exact screenCommand_keeps (fun i s => effectEqRead_keeps c s i) s
  case h_21 => exact unitCommand_keeps (fun s _ => effectCurveLoad_keeps c s) s
  case h_22 => exact oneScreenCommand_keeps (fun i s => effectAlignStart_keeps c s i) s
  case h_23 => exact screenCommand_keeps (fun i s => abortByCommand_keeps s i) s
  case h_24 => exact unitCommand_keeps (fun s _ => .refl s) s
  case h_25 => exact unitCommand_keeps (effectMonitorLoad_keeps c) s
  case h_26 => exact unitCommand_keeps (fun s _ => effectMonitorEnable_keeps c s) s
  case h_27 => exact unitCommand_keeps (fun s _ => effectMonitorDisable_keeps c s) s
  case h_28 => exact unitCommand_keeps (effectMonitorAck_keeps c) s
  case h_29 => exact unitCommand_keeps (fun s _ => .silent (effectMonitorStatus_view c s)) s
  case h_30 => exact screenCommand_keeps (fun i s => effectCuelistLoad_keeps c s i) s
  case h_31 => exact screenCommand_keeps (fun _ s => .silent (onCueList_view ..)) s
  case h_32 => exact unitCommand_keeps (fun s _ => effectLinkLoad_keeps c s) s
  case h_33 => exact unitCommand_keeps (fun s _ => effectLinkFlag_keeps c s true) s
  case h_34 => exact unitCommand_keeps (fun s _ => effectLinkFlag_keeps c s false) s
  case h_35 => exact unitCommand_keeps (fun s _ => effectTimerStart_keeps c s) s
  case h_36 => exact unitCommand_keeps (fun s _ => effectTimerStop_keeps c s) s
  case h_37 => exact unitCommand_keeps (fun s _ => effectTimerRead_keeps c s) s
  case h_38 => exact unitCommand_keeps (fun s _ => effectCueFire_keeps c s) s
  case h_39 => exact unitCommand_keeps (fun s _ => .silent (requestGoPulse_view s)) s
  case h_40 => exact unitCommand_keeps (fun s _ => .silent (cancelHeld_view s false)) s
  case h_41 => exact unitCommand_keeps (fun s _ => .refl s) s
  case h_42 => exact unitCommand_keeps (fun s _ => effectHouseSetup_keeps c s) s
  case h_43 => exact unitCommand_keeps (fun s _ => houseChange_keeps occurs_keeps _ s) s
  case h_44 => exact unitCommand_keeps (fun s _ => houseChange_keeps occurs_keeps _ s) s
  case h_45 => exact unitCommand_keeps (fun s _ => .refl s) s
  case h_46 => exact unitCommand_keeps (fun s _ => effectLineSetup_keeps c s) s
  case h_47 => exact unitCommand_keeps (fun s _ => effectLineSet_keeps c s) s
  case h_48 => exact unitCommand_keeps (fun s _ => .refl s) s
  case h_49 => exact .refl s

/-! ### UNIT_RESET and power-on -/

/-- No watch set holds OFF, so that a monitor at rest is as an OFF screen asks (R97, R108). -/
theorem Monitor.rest_follows (m : Monitor) : m.rest.Follows .off := by
  refine ⟨fun enabled => ?_, fun disabled => ?_⟩
  · have on : m.enabled = true := enabled
    simp [Monitor.rest, on, WatchSet.holds]
  · have off : m.enabled = false := disabled
    simp [Monitor.rest, off]

theorem emptyMonitor_follows (st : ScreenState) : emptyMonitor.Follows st := ⟨nofun, fun _ => rfl⟩

/-- A cleared unit: every screen OFF and every monitor empty. -/
theorem keeps_of_cleared {s t : State} (screens : t.screens = Vector.replicate 8 (offScreen false .a))
    (monitors : t.monitors = Vector.replicate 48 emptyMonitor) : Keeps s t :=
  keeps_of_off (fun i => ⟨false, .a, by rw [screens]; simp⟩) fun m => by
    rw [monitors]
    simpa using emptyMonitor_follows .off

theorem resetUnit_keeps (scope : Scope) (s : State) : Keeps s (resetUnit scope s) := by
  cases scope with
  | keepTables =>
    rw [resetUnit_keepTables]
    refine keeps_of_off (fun i => ⟨s.screens[i].rehearsal, s.screens[i].eqLive, ?_⟩) fun m => ?_
    · simp [State.tablesKept, Screen.off]
    · simpa [State.tablesKept] using s.monitors[m].rest_follows
  | clear =>
    rw [resetUnit_clear]
    exact keeps_of_cleared rfl rfl

theorem fileReady_keeps (reason : ReadyReason) (s : State) : Keeps s (fileReady reason s) := .silent (file_view ..)

/-! ### Rows and steps -/

theorem executeThen_keeps {after : Answer → State → State} {body : Command → State → State × Answer} {c : Command}
    {s : State} (acts : Keeps s (body c s).1) (follows : ∀ a s, Keeps s (after a s)) :
    Keeps s (executeThen after body c s) :=
  acts.trans ((follows ..).after (appendReply_view ..))

theorem executeUnitReset_keeps (c : Command) (s : State) : Keeps s (executeUnitReset c s) := by
  have ready (scope : Scope) (a : Answer) (s : State) : Keeps s (readyAfter scope a s) := .ite (fileReady_keeps ..)
  have resets (scope : Scope) : Keeps s (cmdUnitResetIn scope c s).1 :=
    unitCommand_keeps (fun s _ => resetUnit_keeps scope s) s
  unfold executeUnitReset
  split
  · exact executeThen_keeps (resets _) (ready _)
  · split
    · exact executeThen_keeps (resets _) (ready _)
    · exact executeThen_keeps (unitCommand_keeps (fun s _ => .refl s) s) fun _ => .refl

theorem executeCommand_keeps (c : Command) (s : State) : Keeps s (executeCommand c s) := by
  unfold executeCommand
  split
  · exact executeUnitReset_keeps c s
  · exact executeThen_keeps (bodyOf_keeps _ c s) fun _ => .refl

theorem takeCommand_keeps (s : State) : Keeps s (takeCommand s) := by
  unfold takeCommand
  split
  · exact .refl s
  · split
    · exact (executeCommand_keeps ..).after (s := s) rfl
    · exact .refl s

theorem powerOnState_keeps (straps : Fin 8) (s : State) : Keeps s (powerOnState straps s) :=
  keeps_of_cleared rfl rfl

theorem settleEnds_keeps (s : State) : Keeps s (settleEnds s) := .silent rfl

theorem freedA_keeps (s : State) : Keeps s (offerAOut { s with aOut := none }) := .silent (offerAOut_view _)

theorem freedB_keeps (s : State) : Keeps s (offerBOut { s with bOut := none }) := .silent (offerBOut_view _)

/-- Whatever row is executed. -/
theorem exec_keeps {r : Instr} {s t : State} (answers : exec r s = .next t) : Keeps s t := by
  cases spells : r.command with
  | some c =>
    rw [exec_of_command spells] at answers
    cases answers
    exact .ite (executeCommand_keeps c s)
  | none =>
    cases r with
    | commandTake => cases answers; exact takeCommand_keeps s
    | blockArrival f => cases answers; exact eventRow_keeps (fun s => receive_keeps _ _ _ s) s
    | commandArrival f => cases answers; exact eventRow_keeps (fun s => receive_keeps _ _ _ s) s
    | forwardArrival f => cases answers; exact eventRow_keeps (fun s => receive_keeps _ _ _ s) s
    | discardedFrame lane cutOff f => cases answers; exact eventRow_keeps (fun s => receive_keeps _ _ _ s) s
    | aOutFrameSent => cases answers; exact eventRow_keeps freedA_keeps s
    | bOutFrameSent => cases answers; exact eventRow_keeps freedB_keeps s
    | resetnAssert => cases answers; exact .silent rfl
    | powerOnReset straps => cases answers; exact (powerOnState_keeps straps s).trans (fileReady_keeps ..)
    | sourceLost i => cases answers; exact timedRow_keeps (loseSource_keeps i) s
    | silentBlock i => cases answers; exact timedRow_keeps (fun s => .silent (nextSilent_view i s)) s
    | faderRampEnd i => cases answers; exact timedRow_keeps (fun s => .silent (finishRamp_view i s)) s
    | stopFadeEnd i => cases answers; exact timedRow_keeps (fun s => .silent (onScreen_view_of rfl)) s
    | formatCrossfadeEnd i =>
      cases answers; exact timedRow_keeps (fun s => .silent (endFormatFade_view s i false)) s
    | swapCrossfadeEnd i => cases answers; exact timedRow_keeps (fun s => .silent (endSwap_view s i false)) s
    | settleEnd => cases answers; exact timedRow_keeps settleEnds_keeps s
    | dwellEnd => cases answers; exact timedRow_keeps dwellEnds_keeps s
    | timerExpiry t => cases answers; exact timedRow_keeps (expireTimer_keeps t) s
    | pulsePhaseEnd l => cases answers; exact timedRow_keeps (fun s => .silent (onLine_view ..)) s
    | goPulseEnd => cases answers; exact timedRow_keeps (fun s => .silent (goChange_view ..)) s
    | hstopPinChange level => cases answers; exact .silent (onHouse_view ..)
    | hstopSensedChange => cases answers; exact timedRow_keeps (houseChange_keeps occurs_keeps _) s
    | goPinChange level => cases answers; exact .silent (goChange_view ..)
    | goSensedChange => cases answers; exact timedRow_keeps takeGo_keeps s
    | linePinChange l level =>
      cases answers
      exact (Keeps.ite (timedRow_keeps (takeLine_keeps l) _)).after (onLine_view ..)
    | lineFilterChange l => cases answers; exact timedRow_keeps (takeLine_keeps l) s
    | _ => cases spells

theorem step_keeps {s t : State} (steps : step s = .next t) : Keeps s t := by
  unfold step at steps
  split at steps
  · cases steps
    unfold passTime
    split
    · exact .refl s
    · split <;> exact .silent rfl
  · rename_i row rest _
    exact (exec_keeps steps).after (s := s) rfl

/-- Settles O55: the watch sets, and with them the causes, over every step. -/
theorem stepsKeepMonitorsAndCauses : Obligations.StepsKeepMonitorsAndCauses := by
  refine ⟨fun s t holds steps => ?_, fun s t holds steps => ?_⟩
  · exact watched_iff.mp ((step_keeps steps).watched (watched_iff.mpr holds))
  · obtain ⟨watch, causes⟩ := holds
    have watched := watched_iff.mpr watch
    exact ⟨watched_iff.mp ((step_keeps steps).watched watched),
      derived_iff.mp ((step_keeps steps).derived watched (derived_iff.mpr causes))⟩

end Sys2Proof.Machine
end

section
/-!
PROOF. The fader (R40, R41), and a change of a screen's state (R44, R108, R109): where a ramp stands, what a ceiling
makes of a fader, and which screens, monitors and causes a change of state writes.
-/

namespace Sys2Proof.Machine

/-! ### Ramps and ceilings (R40, R41) -/

section Ramps
variable {r : Ramp} {t : Nat}

theorem Ramp.positionAt_within (early : t ≤ r.duration) : r.positionAt t =
    if r.origin ≤ r.dest then r.origin + (r.dest - r.origin) * t / r.duration
    else r.origin - (r.origin - r.dest) * t / r.duration := by
  simp only [Ramp.positionAt, min_eq_left early]

theorem Ramp.positionAt_zero (r : Ramp) : r.positionAt 0 = r.origin := by simp [Ramp.positionAt]

theorem Ramp.positionAt_end (runs : 0 < r.duration) (late : r.duration ≤ t) : r.positionAt t = r.dest := by
  simp only [Ramp.positionAt, min_eq_right late, Nat.mul_div_cancel _ runs]
  split <;> omega

/-- The steps moved by a time do not fall as the time passes. -/
theorem Ramp.moved_mono (r : Ramp) (d t : Nat) :
    d * min t r.duration / r.duration ≤ d * min (t + 1) r.duration / r.duration :=
  Nat.div_le_div_right (Nat.mul_le_mul_left d (min_le_min_right _ (Nat.le_succ t)))

theorem Ramp.positionAt_rises (up : r.origin ≤ r.dest) : r.positionAt t ≤ r.positionAt (t + 1) := by
  simp only [Ramp.positionAt, if_pos up]
  exact Nat.add_le_add_left (r.moved_mono _ t) _

theorem Ramp.positionAt_falls (down : r.dest ≤ r.origin) : r.positionAt (t + 1) ≤ r.positionAt t := by
  by_cases up : r.origin ≤ r.dest
  · simp [Ramp.positionAt, le_antisymm up down]
  · simp only [Ramp.positionAt, if_neg up]
    exact Nat.sub_le_sub_left (r.moved_mono _ t) _

end Ramps

section Ceilings
variable {f : Fader} {now : Word} {ceiling : Nat}

theorem Fader.rampTo_at {effective ms : Nat} (stands : ms = 0 ∨ f.position now = effective) :
    f.rampTo now effective ms = ⟨effective, f.requested, effective, none⟩ := if_pos stands

theorem Fader.rampTo_away {effective ms : Nat} (moves : ¬(ms = 0 ∨ f.position now = effective)) :
    f.rampTo now effective ms =
      ⟨f.position now, f.requested, effective, some ⟨f.position now, effective, now, ms⟩⟩ := if_neg moves

theorem Fader.underCeiling_same (same : min f.requested ceiling = f.effective) : f.underCeiling now ceiling = f :=
  if_pos same

theorem Fader.underCeiling_changed (changes : min f.requested ceiling ≠ f.effective) :
    f.underCeiling now ceiling = f.rampTo now (min f.requested ceiling)
      (20 * (f.position now - min f.requested ceiling + (min f.requested ceiling - f.position now))) := if_neg changes

end Ceilings

theorem distance_eq (p e : Nat) : p - e + (e - p) = max p e - min p e := by omega

/-- Settles O15: where a ramp stands, and the three cases of a ceiling. -/
theorem rampsAndCeilingsMoveTheFader : Obligations.RampsAndCeilingsMoveTheFader := by
  refine ⟨fun r t runs => ⟨Ramp.positionAt_within, r.positionAt_zero, Ramp.positionAt_end runs,
    Ramp.positionAt_rises, Ramp.positionAt_falls⟩, fun f now ceiling => ⟨Fader.underCeiling_same, ?_, ?_⟩⟩
  · intro changes stands
    rw [Fader.underCeiling_changed changes, Fader.rampTo_at (.inr stands)]
  · intro changes away
    have apart : ¬(20 * (f.position now - min f.requested ceiling + (min f.requested ceiling - f.position now)) = 0 ∨
        f.position now = min f.requested ceiling) := by
      rintro (none | stands)
      · exact away (by omega)
      · exact away stands
    rw [Fader.underCeiling_changed changes, Fader.rampTo_away apart, distance_eq]

/-! ### A change of a screen's state (R44, R108, R109) -/

theorem enterState_monitor (i : Fin 8) (st : ScreenState) (s : State) (m : Fin 48) : (enterState i st s).monitors[m] =
    if s.monitors[m].content.screen = i then s.monitors[m].judge st else s.monitors[m] := by
  rw [enterState, deriveMonitors_monitors, judgeMonitors_get]
  rfl

theorem enterState_other {i j : Fin 8} (other : j ≠ i) (st : ScreenState) (s : State) :
    (enterState i st s).screens[j] = s.screens[j] := by
  rw [enterState, deriveMonitors_other _ other, judgeMonitors_screens, State.onScreen_get, if_neg other]

/-- The contents held on a screen are read off the monitors alone. -/
theorem heldOn_of_monitors {s t : State} (same : t.monitors = s.monitors) (i : Fin 8) : t.heldOn i = s.heldOn i := by
  rw [State.heldOn, same, State.heldOn]

theorem ceilingOf_deriveMonitors (i j : Fin 8) (s : State) : (deriveMonitors i s).ceilingOf j = s.ceilingOf j := by
  rw [ceilingOf_eq, heldOn_of_monitors (deriveMonitors_monitors i s), ← ceilingOf_eq]

theorem mutesScreen_deriveMonitors (i j : Fin 8) (s : State) :
    (deriveMonitors i s).mutesScreen j = s.mutesScreen j := by
  rw [mutesScreen_eq, heldOn_of_monitors (deriveMonitors_monitors i s), ← mutesScreen_eq]

theorem mutesChannel_deriveMonitors (i j : Fin 8) (s : State) (c : Fin 16) :
    (deriveMonitors i s).mutesChannel j c = s.mutesChannel j c := by
  rw [mutesChannel_eq, heldOn_of_monitors (deriveMonitors_monitors i s), ← mutesChannel_eq]

/-- A screen whose causes have been derived, in terms of the monitors afterwards. -/
theorem deriveMonitors_own (i : Fin 8) (s : State) : (deriveMonitors i s).screens[i] =
    { s.screens[i] with
      ceiling := (deriveMonitors i s).ceilingOf i
      fader := s.screens[i].fader.underCeiling s.timeBase ((deriveMonitors i s).ceilingOf i)
      mutes := { s.screens[i].mutes with monitor := (deriveMonitors i s).mutesScreen i }
      channels := (deriveMonitors i s).screens[i].channels } := by
  rw [ceilingOf_deriveMonitors, mutesScreen_deriveMonitors, deriveMonitors_screen]

theorem deriveMonitors_channel (i : Fin 8) (s : State) (c : Fin 16) : (deriveMonitors i s).screens[i].channels[c] =
    { s.screens[i].channels[c] with
      mutes := { s.screens[i].channels[c].mutes with monitor := (deriveMonitors i s).mutesChannel i c } } := by
  rw [mutesChannel_deriveMonitors, deriveMonitors_screen, mapAt_get]

/-- The screen that enters a state. -/
theorem enterState_own (i : Fin 8) (st : ScreenState) (s : State) : (enterState i st s).screens[i] =
    { s.screens[i] with
      state := st
      ceiling := (enterState i st s).ceilingOf i
      fader := s.screens[i].fader.underCeiling s.timeBase ((enterState i st s).ceilingOf i)
      mutes := { s.screens[i].mutes with monitor := (enterState i st s).mutesScreen i }
      channels := (enterState i st s).screens[i].channels } := by
  have own := deriveMonitors_own i (judgeMonitors i st (s.onScreen i fun x => { x with state := st }))
  rw [judgeMonitors_screens, onScreen_same] at own
  exact own

theorem enterState_channel (i : Fin 8) (st : ScreenState) (s : State) (c : Fin 16) :
    (enterState i st s).screens[i].channels[c] = { s.screens[i].channels[c] with
      mutes := { s.screens[i].channels[c].mutes with monitor := (enterState i st s).mutesChannel i c } } := by
  have own := deriveMonitors_channel i (judgeMonitors i st (s.onScreen i fun x => { x with state := st })) c
  rw [judgeMonitors_screens, onScreen_same] at own
  exact own

/-! ### What the monitors give (R41, R44) -/

theorem actsOn_iff {m : Monitor} {i : Fin 8} : m.actsOn i = true ↔ m.enabled = true ∧ m.content.screen = i ∧
    (m.state = .raised ∨ m.state = .releasing ∨ m.state = .latched) := by
  cases state : m.state <;> simp [Monitor.actsOn, MonitorState.acting, state]

/-- Some monitor has a property exactly when the list of the table holds one that has it. -/
theorem any_monitors {s : State} {p : Monitor → Bool} :
    s.monitors.toList.any p = true ↔ ∃ m : Fin 48, p s.monitors[m] = true := by
  rw [List.any_eq_true]
  constructor
  · rintro ⟨x, listed, holds⟩
    obtain ⟨k, low, rfl⟩ := Vector.mem_iff_getElem.mp (Vector.mem_toList_iff.mp listed)
    exact ⟨⟨k, low⟩, holds⟩
  · rintro ⟨m, holds⟩
    exact ⟨_, Vector.mem_toList_iff.mpr (Vector.getElem_mem m.isLt), holds⟩

/-- The least of some bounds and 100: none above it, and 100 or one of them. -/
theorem foldl_min_le {α : Type} (bound : α → Nat) (l : List α) (v : Nat) :
    l.foldl (fun v x => min v (bound x)) v ≤ v := by
  induction l generalizing v with
  | nil => exact le_refl v
  | cons x rest ih => exact (ih _).trans (min_le_left ..)

theorem foldl_min_le_of_mem {α : Type} (bound : α → Nat) {l : List α} {x : α} (listed : x ∈ l) (v : Nat) :
    l.foldl (fun v x => min v (bound x)) v ≤ bound x := by
  induction l generalizing v with
  | nil => cases listed
  | cons y rest ih =>
    rcases List.mem_cons.mp listed with rfl | later
    · exact (foldl_min_le bound rest _).trans (min_le_right ..)
    · exact ih later _

theorem foldl_min_attained {α : Type} (bound : α → Nat) (l : List α) (v : Nat) :
    l.foldl (fun v x => min v (bound x)) v = v ∨ ∃ x ∈ l, l.foldl (fun v x => min v (bound x)) v = bound x := by
  induction l generalizing v with
  | nil => exact .inl rfl
  | cons y rest ih =>
    rw [List.foldl_cons]
    rcases ih (min v (bound y)) with first | ⟨x, listed, eq⟩
    · rcases min_choice v (bound y) with start | here
      · exact .inl (first.trans start)
      · exact .inr ⟨y, List.mem_cons_self, first.trans here⟩
    · exact .inr ⟨x, List.mem_cons_of_mem y listed, eq⟩

theorem ceilingOn_of_acts {m : Monitor} {i : Fin 8} {v : Nat} (acts : m.actsOn i = true)
    (action : m.content.action = .faderCeiling v) : m.ceilingOn i = v := by simp [Monitor.ceilingOn, acts, action]

theorem ceilingOn_cases (m : Monitor) (i : Fin 8) : m.ceilingOn i = 100 ∨
    (m.actsOn i = true ∧ m.content.action = .faderCeiling (m.ceilingOn i)) := by
  unfold Monitor.ceilingOn
  split
  · rename_i v action
    split
    · rename_i acts; exact .inr ⟨acts, action⟩
    · exact .inl rfl
  · exact .inl rfl

theorem ceilingOf_le (s : State) (i : Fin 8) : s.ceilingOf i ≤ 100 :=
  foldl_min_le (fun m : Monitor => m.ceilingOn i) _ 100

theorem ceilingOf_le_monitor (s : State) (i : Fin 8) (m : Fin 48) : s.ceilingOf i ≤ s.monitors[m].ceilingOn i :=
  foldl_min_le_of_mem (fun m : Monitor => m.ceilingOn i) (Vector.mem_toList_iff.mpr (Vector.getElem_mem m.isLt)) 100

/-- The ceiling is 100 or the one that an acting monitor sets. -/
theorem ceilingOf_attained (s : State) (i : Fin 8) : s.ceilingOf i = 100 ∨
    ∃ m : Fin 48, s.monitors[m].actsOn i = true ∧ s.monitors[m].content.action = .faderCeiling (s.ceilingOf i) := by
  rcases foldl_min_attained (fun m : Monitor => m.ceilingOn i) s.monitors.toList 100 with full | ⟨x, listed, eq⟩
  · exact .inl full
  · obtain ⟨k, low, rfl⟩ := Vector.mem_iff_getElem.mp (Vector.mem_toList_iff.mp listed)
    have ceiling : s.ceilingOf i = s.monitors[k].ceilingOn i := eq
    rcases ceilingOn_cases s.monitors[k] i with full | ⟨acts, action⟩
    · exact .inl (ceiling.trans full)
    · exact .inr ⟨⟨k, low⟩, acts, ceiling ▸ action⟩

/-- Settles O13: the monitors judged and the causes derived, and what the causes are of the acting monitors. -/
theorem aChangeOfStateJudgesMonitorsAndDerivesCauses : Obligations.AChangeOfStateJudgesMonitorsAndDerivesCauses := by
  refine ⟨fun i st s => ⟨enterState_frame s i st, fun j other => enterState_other other st s, fun m => ?_,
    enterState_own i st s, enterState_channel i st s⟩, fun s i => ⟨?_, fun c => ?_, ceilingOf_le s i, ?_, ?_⟩⟩
  · rw [enterState_monitor, ite_and]
    rfl
  · simp only [State.mutesScreen, any_monitors, Bool.and_eq_true, actsOn_iff, beq_iff_eq]
  · simp only [State.mutesChannel, any_monitors, Bool.and_eq_true, actsOn_iff, beq_iff_eq, and_assoc]
  · intro m c acts action
    exact (ceilingOf_le_monitor s i m).trans (ceilingOn_of_acts (actsOn_iff.mpr acts) action).le
  · rcases ceilingOf_attained s i with full | ⟨m, acts, action⟩
    · exact .inl full
    · exact .inr ⟨m, actsOn_iff.mp acts, action⟩

end Sys2Proof.Machine
end

section
/-!
PROOF. The commands of a screen: FADER_SET, MUTE_SET, REHEARSAL_SET and CHANNEL_SETUP (R32, R40, R43, R46), SCREEN_CLOSE
and SCREEN_RESUME (R27, R28), and SCREEN_SETUP (R21). Each is said once as what its body answers; the set-up rests on
what a screen does on which no monitor acts.
-/

namespace Sys2Proof.Machine

/-! ### FADER_SET, MUTE_SET, REHEARSAL_SET and CHANNEL_SETUP (R32, R40, R43, R46) -/

theorem isOff_eq_false {s : State} {i : Fin 8} (on : s.screens[i].state ≠ .off) : s.isOff i = false :=
  beq_eq_false_iff_ne.mpr on

theorem isAligning_eq_false {s : State} {i : Fin 8} (free : s.screens[i].state ≠ .inAlign) : s.isAligning i = false :=
  beq_eq_false_iff_ne.mpr free

/-- A row of the screen class that its one screen refuses. -/
theorem commandRow_refuses {body : Command → State → State × Answer} {c : Command} {s : State} {why : Result}
    {mask : BitVec 8} (can : s.canExecute = true) (refuses : body c s = (s, ⟨why, mask, []⟩)) :
    commandRow body c s = appendReply ⟨c.tag, c.code, why, mask, []⟩ s := by
  rw [commandRow_of_canExecute can, refuses]

/-- What a request makes of a screen's fader. -/
theorem requestFader_eq (i : Fin 8) (target ms : Nat) (s : State) :
    requestFader i target ms s = s.onScreen i fun x => { x with
      fader := if ms = 0 ∨ s.screens[i].fader.position s.timeBase = min target s.screens[i].ceiling then
          ⟨min target s.screens[i].ceiling, target, min target s.screens[i].ceiling, none⟩
        else ⟨s.screens[i].fader.position s.timeBase, target, min target s.screens[i].ceiling,
          some ⟨s.screens[i].fader.position s.timeBase, min target s.screens[i].ceiling, s.timeBase, ms⟩⟩ } :=
  onScreen_congr rfl

section Writes
variable {c : Command} {s : State} {i : Fin 8}

theorem cmdFaderSet_answers {target ms : Nat} (selector : c.selector = BitVec.ofNat 8 i.val) (most : target ≤ 100)
    (soon : ms ≤ 60000) (payload : c.payload = byteOf target :: bytes2 ms) (on : s.screens[i].state ≠ .off)
    (free : s.screens[i].state ≠ .inAlign) : cmdFaderSet c s = (requestFader i target ms s, ⟨.ok, 0#8, []⟩) := by
  have byte : c.num 0 = target := by
    simp only [Command.num, Command.byte, payload]
    exact toNat_ofNat_byte (by omega)
  have time : c.num2 1 = ms := by
    simp only [Command.num2, Command.byte, payload]
    exact nat2_bytes2 (by omega)
  have reads : readFader c = some (target, ms) := by
    rw [readFader, byte, time, readRange_eq_some (Nat.zero_le _) most, readRange_eq_some (Nat.zero_le _) soon]
    rfl
  refine (screenCommand_answers (by rw [payload]; rfl) selector ?_).trans ?_
  · simp [checkFader, firstFailure, isOff_eq_false on, isAligning_eq_false free, reads]
  · simp only [effectFader, reads]

theorem readMute_eq {channel : Option (Fin 16)} {on : Bool} (payload : c.payload = [indexByte channel, flagByte on]) :
    readMute c = some (channel, on) ∧ readFlag (c.byte 1) = some on := by
  have named : readOptional 16 (c.byte 0) = some channel := by
    rw [Command.byte, payload]
    exact readOptional_indexByte (by decide) channel
  have flag : readFlag (c.byte 1) = some on := by
    rw [Command.byte, payload]
    exact readFlag_flagByte on
  exact ⟨by rw [readMute, named, flag]; rfl, flag⟩

theorem cmdMuteSet_answers {channel : Option (Fin 16)} {on : Bool} (selector : c.selector = BitVec.ofNat 8 i.val)
    (payload : c.payload = [indexByte channel, flagByte on]) (serves : s.screens[i].state ≠ .off)
    (used : s.screens[i].hasChannel channel = true) :
    cmdMuteSet c s = (setCommandMute i channel on s, ⟨.ok, 0#8, []⟩) := by
  obtain ⟨reads, flag⟩ := readMute_eq payload
  refine (screenCommand_answers (by rw [payload]; rfl) selector ?_).trans ?_
  · have inUse : s.screens[i].hasChannel channel = true := used
    simp only [checkMute, reads, flag, isOff_eq_false serves, inUse]
    rfl
  · simp only [effectMute, reads]

theorem cmdMuteSet_refused {k : Fin 16} {on : Bool} (selector : c.selector = BitVec.ofNat 8 i.val)
    (payload : c.payload = [indexByte (some k), flagByte on]) (serves : s.screens[i].state ≠ .off)
    (unused : s.screens[i].count ≤ k.val) : cmdMuteSet c s = (s, ⟨.badValue, screenFlag i, []⟩) := by
  obtain ⟨reads, flag⟩ := readMute_eq payload
  have length : (c.payload.length == 2) = true := by rw [payload]; rfl
  have beyond : s.screens[i].hasChannel (some k) = false := decide_eq_false unused.not_gt
  rw [cmdMuteSet, length]
  refine screenCommand_refused selector ?_
  simp only [checkMute, reads, flag, isOff_eq_false serves, beyond]
  rfl

theorem cmdRehearsalSet_answers {on : Bool} (selector : c.selector = BitVec.ofNat 8 i.val)
    (payload : c.payload = [flagByte on]) :
    cmdRehearsalSet c s = (s.onScreen i fun x => { x with rehearsal := on }, ⟨.ok, 0#8, []⟩) := by
  have flag : readFlag (c.byte 0) = some on := by
    rw [Command.byte, payload]
    exact readFlag_flagByte on
  refine (screenCommand_answers (by rw [payload]; rfl) selector ?_).trans ?_
  · simp [checkRehearsal, flag]
  · simp only [effectRehearsal, flag]

theorem cmdChannelSetup_answers {k : Fin 16} {trim : Int} {delay : Nat} (selector : c.selector = BitVec.ofNat 8 i.val)
    (low : -48 ≤ trim) (high : trim ≤ 24) (soon : delay ≤ 4800)
    (payload : c.payload = byteOf k.val :: signed1 trim ++ bytes2 delay) (on : s.screens[i].state ≠ .off)
    (free : s.screens[i].state ≠ .inAlign) (used : k.val < s.screens[i].count) :
    cmdChannelSetup c s =
      (s.onChannel i k fun ch => { ch with trim := trim, delay := delay }, ⟨.ok, 0#8, []⟩) := by
  have level : c.int 1 = trim := by
    simp only [Command.int, Command.byte, payload]
    exact toInt_ofInt_byte (by omega) (by omega)
  have time : c.num2 2 = delay := by
    simp only [Command.num2, Command.byte, payload]
    exact nat2_bytes2 (by omega)
  have reads : readChannelSetup c = some (k, trim, delay) := by
    rw [readChannelSetup, readIndex_byteOf (by decide) payload, level, time, readLevel_eq_some low high,
      readRange_eq_some (Nat.zero_le _) soon]
    rfl
  have inUse : s.screens[i].hasChannel (some k) = true := decide_eq_true used
  refine (screenCommand_answers (by rw [payload]; rfl) selector ?_).trans ?_
  · simp only [checkChannelSetup, reads, isOff_eq_false on, isAligning_eq_false free, inUse]
    rfl
  · simp only [effectChannelSetup, reads]

end Writes

/-- Settles O14: each command's body answers with its one write. -/
theorem faderMuteRehearsalAndChannelCommandsWriteTheirFields :
    Obligations.FaderMuteRehearsalAndChannelCommandsWriteTheirFields := by
  refine ⟨fun i a s target ms can names most soon payload on free => ?_, fun i a s on can names serves =>
    ⟨fun payload => ?_, fun c used payload => ?_, fun c unused payload => ?_⟩, fun i a s can names =>
    ⟨fun on payload => ?_, fun c trim delay on free used low high soon payload => ?_⟩⟩
  · refine congrArg _ ((commandRow_answers can (cmdFaderSet_answers (c := commandOf 20#8 a) names most soon payload on
      free)).trans ?_)
    rw [requestFader_eq]
    rfl
  · exact congrArg _ (commandRow_answers can (cmdMuteSet_answers (channel := none) names payload serves rfl))
  · exact congrArg _ (commandRow_answers can
      (cmdMuteSet_answers (channel := some c) names payload serves (decide_eq_true used)))
  · exact congrArg _ (commandRow_refuses can (cmdMuteSet_refused names payload serves unused))
  · exact congrArg _ (commandRow_answers can (cmdRehearsalSet_answers names payload))
  · exact congrArg _ (commandRow_answers can (cmdChannelSetup_answers names low high soon payload on free used))

/-! ### SCREEN_CLOSE and SCREEN_RESUME (R27, R28, R51) -/

theorem dropUse_format (k : Option (Fin 32)) (s : State) (j : Fin 32) : (dropUse k s).formats[j] =
    { s.formats[j] with useCount := s.formats[j].useCount - if k = some j then 1 else 0 } := by
  cases k with
  | none => rfl
  | some k =>
    rw [dropUse, State.onFormat, modifyAt_get]
    by_cases own : j = k
    · subst own; simp
    · simp [own, Ne.symm own]

theorem addUse_format (k j : Fin 32) (s : State) : (addUse (some k) s).formats[j] =
    if j = k then { s.formats[j] with useCount := s.formats[j].useCount + 1 } else s.formats[j] := by
  rw [addUse, State.onFormat, modifyAt_get]

theorem Screen.uses_eq (x : Screen) (k : Fin 32) : x.uses k = (if x.activeFormat = some k then 1 else 0) +
    (if x.pendingFormat = some k then 1 else 0) + (if x.outgoingFormat = some k then 1 else 0) := by
  simp only [Screen.uses, List.filter_cons, List.filter_nil, beq_iff_eq]
  split <;> split <;> split <;> rfl

theorem releaseUses_format (x : Screen) (s : State) (k : Fin 32) : (releaseUses x s).formats[k] =
    { s.formats[k] with useCount := s.formats[k].useCount - x.uses k } := by
  simp only [releaseUses, dropUse_format, x.uses_eq, Nat.sub_sub, FormatEntry.mk.injEq, true_and]
  omega

theorem goOff_monitor (i : Fin 8) (s : State) (m : Fin 48) : (goOff i s).monitors[m] =
    if s.monitors[m].content.screen = i then s.monitors[m].judge .off else s.monitors[m] := by
  rw [goOff_eq, judgeMonitors_get, State.onCueList_monitors, State.onScreen_monitors, releaseUses_frame]

/-- No watch set holds OFF: judged there, an enabled monitor is suspended (R108). -/
theorem Monitor.judge_off (m : Monitor) : m.judge .off =
    if m.enabled = true then { m with state := .suspended, mark := none, prev := none } else m := by
  simp [Monitor.judge, WatchSet.holds]

theorem isEmpty_of_nil {l : List Byte} (empty : l = []) : l.isEmpty = true := by rw [empty]; rfl

section CloseAndResume
variable {c : Command} {s : State} {i : Fin 8}

theorem cmdScreenClose_answers (selector : c.selector = BitVec.ofNat 8 i.val) (empty : c.payload = [])
    (closes : s.screens[i].state = .dark ∨ s.screens[i].state = .stopped) :
    cmdScreenClose c s = (goOff i s, ⟨.ok, 0#8, []⟩) := by
  refine screenCommand_answers (isEmpty_of_nil empty) selector ?_
  rcases closes with dark | stopped
  · rw [checkClose, dark]
  · rw [checkClose, stopped]

theorem cmdScreenResume_answers (selector : c.selector = BitVec.ofNat 8 i.val) (empty : c.payload = [])
    (stopped : s.screens[i].state = .stopped) (free : s.stopActive = false) :
    cmdScreenResume c s = (resumeScreen i s, ⟨.ok, 0#8, []⟩) := by
  refine screenCommand_answers (isEmpty_of_nil empty) selector ?_
  rw [checkResume, stopped, free]
  rfl

theorem cmdScreenResume_refused (selector : c.selector = BitVec.ofNat 8 i.val) (empty : c.payload = [])
    (stopped : s.screens[i].state = .stopped) (stop : s.stopActive = true) :
    cmdScreenResume c s = (s, ⟨.stopActive, screenFlag i, []⟩) := by
  rw [cmdScreenResume, isEmpty_of_nil empty]
  refine screenCommand_refused selector ?_
  rw [checkResume, stopped, stop]
  rfl

end CloseAndResume

/-- Settles O12: the fields that going OFF writes, and the resume as one change of state. -/
theorem closeAndResumeMoveTheScreen : Obligations.CloseAndResumeMoveTheScreen := by
  refine ⟨fun i a s can names empty closes => ⟨goOff i s, ?_, goOff_frame s i, ?_, fun j other => ?_, fun k => ?_, ?_,
    fun j other => ?_, fun m => ?_⟩, fun i a s can names empty stopped => ⟨fun free => ?_, fun stop => ?_⟩⟩
  · exact congrArg _ (commandRow_answers can (cmdScreenClose_answers names empty closes))
  · rw [goOff_screens, modifyAt_same]
    rfl
  · rw [goOff_screens, modifyAt_other _ _ other]
  · rw [goOff_formats, releaseUses_format]
  · rw [goOff_cueLists, modifyAt_same]
    rfl
  · rw [goOff_cueLists, modifyAt_other _ _ other]
  · rw [goOff_monitor, Monitor.judge_off, ite_and]
  · exact congrArg _ (commandRow_answers can (cmdScreenResume_answers names empty stopped free))
  · exact congrArg _ (commandRow_refuses can (cmdScreenResume_refused names empty stopped stop))

/-! ### A screen on which no monitor acts (R44) -/

section Unheld
variable {s : State} {i : Fin 8} (unheld : ∀ m : Fin 48, s.monitors[m].heldOn i = none)
include unheld

theorem heldOn_eq_none {c : Option MonitorContent} (listed : c ∈ s.heldOn i) : c = none := by
  obtain ⟨x, mem, rfl⟩ := List.mem_map.mp listed
  obtain ⟨k, low, rfl⟩ := Vector.mem_iff_getElem.mp (Vector.mem_toList_iff.mp mem)
  exact unheld ⟨k, low⟩

theorem ceilingOf_unheld : s.ceilingOf i = 100 := by
  rw [ceilingOf_eq]
  exact List.foldlRecOn (s.heldOn i) _ (motive := fun v => v = 100) rfl fun v full c listed => by
    rw [full, heldOn_eq_none unheld listed]
    rfl

theorem mutesScreen_unheld : s.mutesScreen i = false := by
  rw [mutesScreen_eq]
  exact List.any_eq_false.mpr fun c listed => by rw [heldOn_eq_none unheld listed]; simp

theorem mutesChannel_unheld (c : Fin 16) : s.mutesChannel i c = false := by
  rw [mutesChannel_eq]
  exact List.any_eq_false.mpr fun c listed => by rw [heldOn_eq_none unheld listed]; simp

end Unheld

/-- A screen on which the monitors set nothing: no cause, no ceiling below 100, and the fader aimed at its request. -/
structure Screen.Unheld (x : Screen) : Prop where
  ceiling : x.ceiling = 100
  aims : min x.fader.requested 100 = x.fader.effective
  muted : x.mutes.monitor = false
  channels : ∀ c : Fin 16, x.channels[c].mutes.monitor = false

/-- Such a screen, where no monitor acts, enters a state and changes nothing else of itself. -/
theorem enterState_unheld {i : Fin 8} {st : ScreenState} {s : State} (screen : s.screens[i].Unheld)
    (unheld : ∀ m : Fin 48, (enterState i st s).monitors[m].heldOn i = none) :
    (enterState i st s).screens[i] = { s.screens[i] with state := st } := by
  have channels : (enterState i st s).screens[i].channels = s.screens[i].channels := table_ext fun c => by
    rw [enterState_channel, mutesChannel_unheld unheld c, ← screen.channels c]
  rw [enterState_own, channels, ceilingOf_unheld unheld, mutesScreen_unheld unheld,
    Fader.underCeiling_same screen.aims, ← screen.ceiling, ← screen.muted]

/-! ### Monitors that wait (R108) -/

/-- A monitor as R108 makes it inside and outside its watch set, when it has nothing under way. -/
def Monitor.waiting (m : Monitor) (st : ScreenState) : Monitor :=
  { m with state := if m.content.watch.holds st then .clear else .suspended, mark := none, prev := none }

theorem Monitor.waiting_waiting (m : Monitor) (st st' : ScreenState) : (m.waiting st).waiting st' = m.waiting st' :=
  rfl

/-- A suspended or newly CLEAR monitor waits in the state against which it is judged. -/
theorem Monitor.judge_suspended {m : Monitor} (enabled : m.enabled = true) (suspended : m.state = .suspended)
    (st : ScreenState) : m.judge st = m.waiting st := by
  cases inside : m.content.watch.holds st
  · simp [Monitor.judge, Monitor.waiting, enabled, inside]
  · simp [Monitor.judge, Monitor.waiting, enabled, inside, suspended]

theorem Monitor.judge_waiting {m : Monitor} (enabled : m.enabled = true) (st st' : ScreenState) :
    (m.waiting st).judge st' = m.waiting st' := by
  have still : (m.waiting st).enabled = true := enabled
  cases before : m.content.watch.holds st
  · exact (Monitor.judge_suspended still (by simp [Monitor.waiting, before]) st').trans (m.waiting_waiting st st')
  · cases inside : m.content.watch.holds st'
    · simp [Monitor.judge, inside, Monitor.waiting, enabled]
    · simp [Monitor.judge, inside, Monitor.waiting, enabled, before]

/-- What a set-up makes of a monitor of its screen. -/
def Monitor.begun (m : Monitor) (st : ScreenState) : Monitor :=
  if m.enabled then m.waiting st else { m with prev := none }

/-- An OFF screen's monitor judged in DARK, its previous reading emptied. -/
theorem Monitor.judge_dark_begun {m : Monitor} (holds : m.Follows .off) :
    { m.judge .dark with prev := none } = m.begun .dark := by
  cases enabled : m.enabled with
  | false => simp [Monitor.judge, Monitor.begun, enabled]
  | true =>
    rw [Monitor.judge_suspended enabled ((holds.enabled enabled).2.mpr rfl), Monitor.begun, if_pos enabled]
    rfl

theorem Monitor.begun_judge (m : Monitor) (st st' : ScreenState) : (m.begun st).judge st' = m.begun st' := by
  cases enabled : m.enabled with
  | false => simp [Monitor.judge, Monitor.begun, enabled]
  | true => rw [Monitor.begun, Monitor.begun, if_pos enabled, if_pos enabled, Monitor.judge_waiting enabled]

/-- A waiting or a disabled monitor holds no action. -/
theorem Monitor.waiting_heldOn (m : Monitor) (st : ScreenState) (i : Fin 8) : (m.waiting st).heldOn i = none := by
  cases inside : m.content.watch.holds st <;>
    simp [Monitor.heldOn, Monitor.actsOn, Monitor.waiting, inside, MonitorState.acting]

theorem Monitor.begun_heldOn (m : Monitor) (st : ScreenState) (i : Fin 8) : (m.begun st).heldOn i = none := by
  cases enabled : m.enabled with
  | false =>
    refine heldOn_of_disabled ?_ i
    simp [Monitor.begun, enabled]
  | true => rw [Monitor.begun, if_pos enabled]; exact m.waiting_heldOn st i

theorem Monitor.judge_off_heldOn {m : Monitor} (holds : m.Follows .off) (st : ScreenState) (i : Fin 8) :
    (m.judge st).heldOn i = none := by
  cases enabled : m.enabled with
  | false =>
    refine heldOn_of_disabled ?_ i
    rw [Monitor.judge_enabled, enabled]
  | true =>
    rw [Monitor.judge_suspended enabled ((holds.enabled enabled).2.mpr rfl)]
    exact m.waiting_heldOn st i

theorem begun_content (m : Monitor) (st : ScreenState) : (m.begun st).content = m.content := by
  unfold Monitor.begun
  split <;> rfl

/-! ### SCREEN_SETUP (R21) -/

/-- The screen set up and DARK, its windows emptied, as `setUpScreen` has it before it asks for a house stop. -/
def setupEntered (i : Fin 8) (v : SetupValues) (k : Fin 32) (s : State) : State :=
  emptyWindows i (enterState i .dark (addUse (some k) (s.onScreen i fun x => x.setUp v k s.timeBase)))

/-- The screen record of a screen set up from OFF, in a state. -/
def setupRecord (rehearsal : Bool) (live : BankName) (v : SetupValues) (k : Fin 32) (now : Word)
    (st : ScreenState) : Screen := { (offScreen rehearsal live).setUp v k now with state := st }

section Setup
variable {i : Fin 8} {v : SetupValues} {k : Fin 32} {s : State} {rehearsal : Bool} {live : BankName}

theorem setupRecord_unheld (now : Word) (st : ScreenState) :
    (setupRecord rehearsal live v k now st).Unheld :=
  ⟨rfl, rfl, rfl, fun c => by simp [setupRecord, Screen.setUp, offScreen, restChannel]⟩

/-- The windows of an OFF screen are empty already (R20). -/
theorem setupRecord_restartMeters (now : Word) (st : ScreenState) :
    (setupRecord rehearsal live v k now st).restartMeters = setupRecord rehearsal live v k now st := by
  simp [Screen.restartMeters_eq, setupRecord, Screen.setUp, offScreen, restChannel, Meter.restart, restMeter,
    restSteerMeter, silence]

theorem setupEntered_frame (i : Fin 8) (v : SetupValues) (k : Fin 32) (s : State) : setupEntered i v k s =
    { s with
      screens := (setupEntered i v k s).screens
      formats := (setupEntered i v k s).formats
      monitors := (setupEntered i v k s).monitors } := by
  unfold setupEntered
  rw [emptyWindows_frame, enterState_frame, addUse_frame]
  rfl

theorem setUpScreen_eq (i : Fin 8) (v : SetupValues) (k : Fin 32) (s : State) : setUpScreen i v k s =
    if s.stopActive && v.stopPolicy != .exempt then stopScreen i (setupEntered i v k s) else setupEntered i v k s := by
  have house : (setupEntered i v k s).stopActive = s.stopActive := by
    rw [State.stopActive, setupEntered_frame]
    rfl
  rw [← house]
  rfl

theorem setupEntered_formats (i : Fin 8) (v : SetupValues) (k : Fin 32) (s : State) :
    (setupEntered i v k s).formats = (addUse (some k) s).formats := by
  unfold setupEntered
  rw [emptyWindows_frame, enterState_frame]
  rfl

theorem setupEntered_other {j : Fin 8} (other : j ≠ i) : (setupEntered i v k s).screens[j] = s.screens[j] := by
  rw [setupEntered, emptyWindows, State.onScreen_get, if_neg other, enterState_other other, addUse_frame,
    State.onScreen_get, if_neg other]

theorem setupEntered_monitor (holds : s.Watched) (off : s.screens[i].state = .off) (m : Fin 48) :
    (setupEntered i v k s).monitors[m] =
      if s.monitors[m].content.screen = i then s.monitors[m].begun .dark else s.monitors[m] := by
  have judged (m : Fin 48) : (enterState i .dark (addUse (some k) (s.onScreen i fun x => x.setUp v k
      s.timeBase))).monitors[m] =
      if s.monitors[m].content.screen = i then s.monitors[m].judge .dark else s.monitors[m] := by
    rw [enterState_monitor, addUse_frame]
    rfl
  rw [setupEntered, emptyWindows_monitors, mapAt_get, judged]
  by_cases own : s.monitors[m].content.screen = i
  · rw [if_pos own, if_pos own, if_pos (by rw [Monitor.judge_content, own])]
    exact Monitor.judge_dark_begun (off ▸ holds.follows m i own)
  · rw [if_neg own, if_neg own, if_neg own]

theorem setupEntered_screen (holds : s.Watched) (off : s.screens[i] = offScreen rehearsal live) :
    (setupEntered i v k s).screens[i] = setupRecord rehearsal live v k s.timeBase .dark := by
  generalize made : addUse (some k) (s.onScreen i fun x => x.setUp v k s.timeBase) = u
  have screen : u.screens[i] = setupRecord rehearsal live v k s.timeBase .off := by
    rw [← made, addUse_frame]
    exact (onScreen_same ..).trans (by rw [off]; rfl)
  have monitors : u.monitors = s.monitors := by rw [← made, addUse_frame]; rfl
  have unheld (m : Fin 48) : (enterState i .dark u).monitors[m].heldOn i = none := by
    rw [enterState_monitor, monitors]
    split
    · rename_i own
      have follows := holds.follows m i own
      rw [off] at follows
      exact Monitor.judge_off_heldOn follows .dark i
    · rename_i other
      exact heldOn_of_other other
  have quiet : u.screens[i].Unheld := screen ▸ setupRecord_unheld s.timeBase .off
  rw [setupEntered, made, emptyWindows_screen, enterState_unheld quiet unheld, screen]
  exact setupRecord_restartMeters s.timeBase .dark

theorem setupEntered_timeBase : (setupEntered i v k s).timeBase = s.timeBase := by rw [setupEntered_frame]

/-- What a stop makes of a screen's record, the monitors apart (R26, R45). -/
def Screen.stopping (x : Screen) (now : Word) : Screen :=
  if x.stopPolicy = .fade ∧ x.stopFadeMs ≠ 0 then { x with stopFade := some now }
  else { x with mutes := { x.mutes with stop := true } }

theorem stopScreen_eq (i : Fin 8) (s : State) :
    stopScreen i s = enterState i .stopped (s.onScreen i fun x => x.stopping s.timeBase) := rfl

theorem Screen.Unheld.stopping {x : Screen} (unheld : x.Unheld) (now : Word) : (x.stopping now).Unheld := by
  unfold Screen.stopping
  split <;> exact ⟨unheld.ceiling, unheld.aims, unheld.muted, unheld.channels⟩

theorem stopScreen_other {j : Fin 8} (other : j ≠ i) : (stopScreen i s).screens[j] = s.screens[j] := by
  rw [stopScreen_eq, enterState_other other, State.onScreen_get, if_neg other]

theorem stopScreen_monitor (m : Fin 48) : (stopScreen i s).monitors[m] =
    if s.monitors[m].content.screen = i then s.monitors[m].judge .stopped else s.monitors[m] := by
  rw [stopScreen_eq, enterState_monitor]
  rfl

theorem stopScreen_screen {x : Screen} (screen : s.screens[i] = x) (quiet : x.Unheld)
    (unheld : ∀ m : Fin 48, (stopScreen i s).monitors[m].heldOn i = none) :
    (stopScreen i s).screens[i] = { x.stopping s.timeBase with state := .stopped } := by
  rw [stopScreen_eq] at unheld ⊢
  have stops : (s.onScreen i fun x => x.stopping s.timeBase).screens[i] = x.stopping s.timeBase :=
    (onScreen_same ..).trans (by rw [screen])
  rw [enterState_unheld (stops ▸ quiet.stopping s.timeBase) unheld, stops]

theorem setupStopped_monitor (holds : s.Watched) (off : s.screens[i].state = .off) (m : Fin 48) :
    (stopScreen i (setupEntered i v k s)).monitors[m] =
      if s.monitors[m].content.screen = i then s.monitors[m].begun .stopped else s.monitors[m] := by
  rw [stopScreen_monitor, setupEntered_monitor holds off]
  by_cases own : s.monitors[m].content.screen = i
  · rw [if_pos own, if_pos own, if_pos (by rw [begun_content, own]), Monitor.begun_judge]
  · rw [if_neg own, if_neg own, if_neg own]

theorem setupStopped_screen (holds : s.Watched) (off : s.screens[i] = offScreen rehearsal live) :
    (stopScreen i (setupEntered i v k s)).screens[i] =
      { (setupRecord rehearsal live v k s.timeBase .dark).stopping s.timeBase with state := .stopped } := by
  have stops := stopScreen_screen (setupEntered_screen (v := v) (k := k) holds off) (setupRecord_unheld ..) fun m => by
    rw [setupStopped_monitor holds (by rw [off]; rfl)]
    split
    · exact Monitor.begun_heldOn ..
    · rename_i other; exact heldOn_of_other other
  rwa [setupEntered_timeBase] at stops

end Setup

section Reading
variable {c : Command} {s : State} {v : SetupValues} {k : Fin 32}

/-- The five fixed bytes read back, whatever follows them; the two times are as the payload's length gives them. -/
theorem readSetup_eq {rest : List Byte} (least : 1 ≤ v.count) (most : v.count ≤ 16) (fade : v.stopFadeMs ≤ 5000)
    (catchup : v.catchup ≤ 15000)
    (payload : c.payload = setupPayload v.count k v.mic v.stopPolicy v.resumePolicy ++ rest)
    (fades : (if 7 ≤ c.payload.length then c.num2 5 else 2000) = v.stopFadeMs)
    (catches : (if 9 ≤ c.payload.length then c.num2 7 else 750) = v.catchup) : readSetup c = some v := by
  have count : c.num 0 = v.count := by
    simp only [Command.num, Command.byte, payload]
    exact toNat_ofNat_byte (by omega)
  have mic : readOptional 16 (c.byte 2) = some v.mic := by
    rw [Command.byte, payload]
    exact readOptional_indexByte (by decide) v.mic
  have stops : readCode [.mute, .fade, .exempt] (c.byte 3) = some v.stopPolicy := by
    rw [Command.byte, payload]
    cases policy : v.stopPolicy <;> rfl
  have resumes : readCode [.auto, .manual] (c.byte 4) = some v.resumePolicy := by
    rw [Command.byte, payload]
    cases policy : v.resumePolicy <;> rfl
  rw [readSetup, count, mic, stops, resumes, fades, catches, readRange_eq_some least most,
    readRange_eq_some (Nat.zero_le _) fade, readRange_eq_some (Nat.zero_le _) catchup]
  rfl

theorem readSetupFormat_eq {rest : List Byte}
    (payload : c.payload = setupPayload v.count k v.mic v.stopPolicy v.resumePolicy ++ rest)
    (valid : s.formats[k].valid = true) : readSetupFormat c s = some k := by
  have index : readIndex 32 (c.byte 1) = some k := by
    rw [Command.byte, payload]
    exact readIndex_ofNat (by decide) k
  rw [readSetupFormat, index, Option.filter_some, if_pos valid]

/-- The three lengths of the payload (section 11.4): the times follow, or take their defaults. -/
def setupPayloads (v : SetupValues) (k : Fin 32) (p : List Byte) : Prop :=
  let fixed := setupPayload v.count k v.mic v.stopPolicy v.resumePolicy
  (p = fixed ∧ v.stopFadeMs = 2000 ∧ v.catchup = 750) ∨ (p = fixed ++ bytes2 v.stopFadeMs ∧ v.catchup = 750) ∨
    p = fixed ++ bytes2 v.stopFadeMs ++ bytes2 v.catchup

theorem setupPayloads_reads (least : 1 ≤ v.count) (most : v.count ≤ 16) (fade : v.stopFadeMs ≤ 5000)
    (catchup : v.catchup ≤ 15000) (payload : setupPayloads v k c.payload) (valid : s.formats[k].valid = true) :
    [5, 7, 9].contains c.payload.length = true ∧ readSetup c = some v ∧ readSetupFormat c s = some k := by
  have fadeBytes := nat2_bytes2 (n := v.stopFadeMs) (by omega)
  have catchupBytes := nat2_bytes2 (n := v.catchup) (by omega)
  rcases payload with ⟨five, fadeIs, catchupIs⟩ | ⟨seven, catchupIs⟩ | nine
  · have bare : c.payload = setupPayload v.count k v.mic v.stopPolicy v.resumePolicy ++ [] := by simp [five]
    refine ⟨by rw [five]; rfl, readSetup_eq least most fade catchup bare ?_ ?_, readSetupFormat_eq bare valid⟩
    · rw [five, fadeIs]; rfl
    · rw [five, catchupIs]; rfl
  · refine ⟨by rw [seven]; rfl, readSetup_eq least most fade catchup seven ?_ ?_, readSetupFormat_eq seven valid⟩
    · simp only [Command.num2, Command.byte, seven]; exact fadeBytes
    · rw [seven, catchupIs]; rfl
  · have joined := nine.trans (List.append_assoc ..)
    refine ⟨by rw [nine]; rfl, readSetup_eq least most fade catchup joined ?_ ?_, readSetupFormat_eq joined valid⟩
    · simp only [Command.num2, Command.byte, nine]; exact fadeBytes
    · simp only [Command.num2, Command.byte, nine]; exact catchupBytes

theorem cmdScreenSetup_answers {i : Fin 8} (selector : c.selector = BitVec.ofNat 8 i.val)
    (length : [5, 7, 9].contains c.payload.length = true) (off : s.screens[i].state = .off)
    (reads : readSetup c = some v) (format : readSetupFormat c s = some k)
    (fits : ∀ t ∈ s.formats[k].terms, t.output.val < v.count) :
    cmdScreenSetup c s = (setUpScreen i v k s, ⟨.ok, 0#8, []⟩) := by
  have suits : s.formats[k].fits v.count = true := List.all_eq_true.mpr fun t listed => decide_eq_true (fits t listed)
  have isOff : s.isOff i = true := beq_iff_eq.mpr off
  refine (screenCommand_answers length selector ?_).trans ?_
  · simp only [checkSetup, reads, format, suits, isOff]
    rfl
  · simp only [effectSetup, reads, format]

end Reading

/-- What SCREEN_SETUP of an OFF screen leaves, as the obligation lists it. -/
structure SetupLeaves (i : Fin 8) (v : SetupValues) (k : Fin 32) (st : ScreenState) (s t : State) : Prop where
  frame : t = { s with screens := t.screens, formats := t.formats, monitors := t.monitors }
  others : ∀ j : Fin 8, j ≠ i → t.screens[j] = s.screens[j]
  formats : t.formats = (addUse (some k) s).formats
  monitors : ∀ m : Fin 48, t.monitors[m] =
    if s.monitors[m].content.screen = i then s.monitors[m].begun st else s.monitors[m]

section Leaves
variable {i : Fin 8} {v : SetupValues} {k : Fin 32} {s : State}

theorem setupEntered_leaves (holds : s.Watched) (off : s.screens[i].state = .off) :
    SetupLeaves i v k .dark s (setupEntered i v k s) :=
  ⟨setupEntered_frame i v k s, fun _ => setupEntered_other, setupEntered_formats i v k s,
    setupEntered_monitor holds off⟩

theorem setupStopped_leaves (holds : s.Watched) (off : s.screens[i].state = .off) :
    SetupLeaves i v k .stopped s (stopScreen i (setupEntered i v k s)) := by
  refine ⟨?_, fun j other => ?_, ?_, setupStopped_monitor holds off⟩
  · rw [stopScreen_eq, enterState_frame]
    conv_lhs => rw [setupEntered_frame]
    conv_rhs => rw [setupEntered_frame]
    rfl
  · rw [stopScreen_other other, setupEntered_other other]
  · rw [stopScreen_eq, enterState_frame]
    exact setupEntered_formats i v k s

end Leaves

section Finish
variable {i : Fin 8} {v : SetupValues} {k : Fin 32} {s t : State} {st : ScreenState}

theorem SetupLeaves.format (leaves : SetupLeaves i v k st s t) :
    t.formats[k] = { s.formats[k] with useCount := s.formats[k].useCount + 1 } := by
  rw [leaves.formats, addUse_format, if_pos rfl]

theorem SetupLeaves.otherFormats (leaves : SetupLeaves i v k st s t) (j : Fin 32) (other : j ≠ k) :
    t.formats[j] = s.formats[j] := by
  rw [leaves.formats, addUse_format, if_neg other]

theorem SetupLeaves.monitor (leaves : SetupLeaves i v k st s t) (m : Fin 48) : t.monitors[m] =
    if s.monitors[m].content.screen ≠ i then s.monitors[m]
    else if s.monitors[m].enabled then { s.monitors[m] with
      state := if s.monitors[m].content.watch.holds st then .clear else .suspended
      mark := none
      prev := none }
    else { s.monitors[m] with prev := none } := by
  rw [leaves.monitors, ite_not]
  rfl

/-- The screen's record after the set-up, with or without the stop, and the stop with or without a fade. -/
def setupResult (rehearsal : Bool) (live : BankName) (v : SetupValues) (k : Fin 32) (now : Word)
    (stops fades : Bool) : Screen :=
  { setupRecord rehearsal live v k now (if stops then .stopped else .dark) with
    mutes := ⟨false, stops && !fades, false, false, false⟩
    stopFade := if stops && fades then some now else none }

/-- A stop that fades starts its fade; another adds STOP at once (R45). -/
theorem setupRecord_stopping (rehearsal : Bool) (live : BankName) (now : Word) :
    { (setupRecord rehearsal live v k now .dark).stopping now with state := .stopped } =
      setupResult rehearsal live v k now true (v.stopPolicy == .fade && v.stopFadeMs != 0) := by
  unfold Screen.stopping
  split
  · rename_i fades
    obtain ⟨policy, time⟩ := fades
    have asks : (v.stopPolicy == .fade && v.stopFadeMs != 0) = true := by
      rw [Bool.and_eq_true, beq_iff_eq, bne_iff_ne]
      exact ⟨policy, time⟩
    rw [asks]
    rfl
  · rename_i mutes
    have asks : (v.stopPolicy == .fade && v.stopFadeMs != 0) = false := by
      rw [← Bool.not_eq_true, Bool.and_eq_true, beq_iff_eq, bne_iff_ne]
      exact mutes
    rw [asks]
    rfl

theorem setUpScreen_screen {rehearsal : Bool} {live : BankName} (holds : s.Watched)
    (off : s.screens[i] = offScreen rehearsal live) :
    (setUpScreen i v k s).screens[i] = setupResult rehearsal live v k s.timeBase
      (s.stopActive && v.stopPolicy != .exempt) (v.stopPolicy == .fade && v.stopFadeMs != 0) := by
  rw [setUpScreen_eq]
  cases s.stopActive && v.stopPolicy != .exempt
  · exact setupEntered_screen holds off
  · exact (setupStopped_screen holds off).trans (setupRecord_stopping ..)

theorem setUpScreen_leaves (holds : s.Watched) (off : s.screens[i].state = .off) :
    SetupLeaves i v k (if s.stopActive && v.stopPolicy != .exempt then .stopped else .dark) s
      (setUpScreen i v k s) := by
  rw [setUpScreen_eq]
  split
  · exact setupStopped_leaves holds off
  · exact setupEntered_leaves holds off

end Finish

/-- Settles O11: no monitor acts on a screen that was OFF, so that the set-up's two changes of state add nothing. -/
theorem screenSetupConfiguresTheScreen : Obligations.ScreenSetupConfiguresTheScreen := by
  intro i a s n fade catchup k mic sp rp rehearsal live can names least most fadeMost catchupMost payload off watch
    valid fits stops fades state
  have isOff : s.screens[i].state = .off := by rw [off]; rfl
  have holds := watched_iff.mpr watch
  obtain ⟨length, reads, format⟩ := setupPayloads_reads (c := commandOf 16#8 a)
    (v := ⟨n, mic, sp, rp, fade, catchup⟩) least most fadeMost catchupMost payload valid
  have leaves := setUpScreen_leaves (v := ⟨n, mic, sp, rp, fade, catchup⟩) (k := k) holds isOff
  refine ⟨setUpScreen i _ k s, congrArg _ (commandRow_answers can
    (cmdScreenSetup_answers names length isOff reads format fits)), leaves.frame, ?_, leaves.others, leaves.format,
    leaves.otherFormats, leaves.monitor⟩
  exact setUpScreen_screen holds off

end Sys2Proof.Machine
end

section
/-!
PROOF. The house stop (R26, R27, R138, R143 to R148): what a change of the controller settles, that it is taken whole as
an entry, a release or neither, and what an entry and a release do to a screen.
-/

namespace Sys2Proof.Machine

/-! ### The controller (R143, R145) -/

theorem settle_drive (h : House) (now : Word) : (h.settle now).drive = true ↔ h.lineOutput = true ∧
    (h.set.command = true ∨ h.set.monitor = true ∨ h.set.cue = true ∨ h.set.boothInput = true) := by
  simp [House.settle, or_assoc]

theorem settle_sensed (h : House) (now : Word) : (h.settle now).hstopSensed =
    if h.drive = true ∧ (h.settle now).drive = false then h.hstopOthers else h.hstopSensed := by
  have sensed : (h.settle now).hstopSensed =
    if h.drive && !(h.settle now).drive then h.hstopOthers else h.hstopSensed := rfl
  simp only [sensed, Bool.and_eq_true, Bool.not_eq_true']

theorem settle_line (h : House) (now : Word) : (h.settle now).set.line = true ↔
    h.lineInput = true ∧ (h.settle now).hstopSensed = true ∧ (h.settle now).drive = false := by
  have line : (h.settle now).set.line = (h.lineInput && (h.settle now).hstopSensed && !(h.settle now).drive) := rfl
  rw [line, Bool.and_eq_true, Bool.and_eq_true, Bool.not_eq_true', and_assoc]

/-- What else a change settles: the reading at which the pin last changed. -/
theorem settle_frame (h : House) (now : Word) : h.settle now = { h with
    drive := (h.settle now).drive
    hstopSensed := (h.settle now).hstopSensed
    hstopSince := if (h.settle now).hstopPin = h.hstopPin then h.hstopSince else now
    set := { h.set with line := (h.settle now).set.line } } := rfl

/-! ### A change taken whole (R143, R146 to R148) -/

theorem sourceSet_isEmpty_iff {x : SourceSet} : x.isEmpty = true ↔ x = ⟨false, false, false, false, false⟩ := by
  cases x
  simp [SourceSet.isEmpty, and_assoc]

theorem houseChange_eq_changed (f : House → House) (s : State) : houseChange occurs f s = changed f s := by
  have before : s.stopActive = !s.house.set.isEmpty := rfl
  have after : (settled f s).stopActive = !(settled f s).house.set.isEmpty := rfl
  have whole : houseChange occurs f s =
      if s.house.set.isEmpty && !(settled f s).house.set.isEmpty then entered (settled f s)
      else if !s.house.set.isEmpty && (settled f s).house.set.isEmpty then released (settled f s)
      else settled f s := rfl
  rw [whole, changed, before, after]
  cases s.house.set.isEmpty <;> cases (settled f s).house.set.isEmpty <;> rfl

/-- A change from a non-empty set to a non-empty set reaches the controller alone (R147). -/
theorem changed_of_sources {f : House → House} {s : State} (before : s.house.set ≠ ⟨false, false, false, false, false⟩)
    (after : ((f s.house).settle s.timeBase).set ≠ ⟨false, false, false, false, false⟩) :
    changed f s = { s with house := (f s.house).settle s.timeBase } := by
  have held : s.stopActive = true := by
    rw [State.stopActive, Bool.eq_false_iff.mpr (mt sourceSet_isEmpty_iff.mp before)]
    rfl
  have holds : (settled f s).stopActive = true := by
    have kept : (settled f s).house.set.isEmpty = false := Bool.eq_false_iff.mpr (mt sourceSet_isEmpty_iff.mp after)
    rw [State.stopActive, kept]
    rfl
  rw [changed, held, holds]
  rfl

/-- The waiting slot leaves with the set as it stands when the lane takes it (R179). -/
theorem aOutFrameSent_slot {s : State} {slot : HouseSlot} (runs : s.inReset = false) (filled : s.slot = some slot)
    (noReply : s.replies = []) (turn : s.forward = [] ∨ s.lastChosen = .forwardBuffer) :
    exec .aOutFrameSent s = .next { s with
      slot := none
      lastChosen := .noticeSide
      aOut := some (noticeFrame s.unit ⟨.houseState s.house.set slot.count, none, slot.stamp⟩) } := by
  have row : exec .aOutFrameSent s = .next (eventRow (fun s => offerAOut { s with aOut := none }) s) := rfl
  rw [row, eventRow_runs runs, offerAOut_idle (by exact runs) rfl,
    chooseFrame_slot (by exact noReply) (by exact filled) (by exact turn)]

/-! ### The held list and the screens (R26, R27, R138) -/

theorem cancelHeld_empty {s : State} (byHouseStop : Bool) (empty : s.held = []) : cancelHeld byHouseStop s = s := by
  rw [cancelHeld, empty]
  rfl

theorem cancelHeld_filled {s : State} (byHouseStop : Bool) (filled : s.held ≠ []) : cancelHeld byHouseStop s =
    file none (.goCancelled s.held.length byHouseStop) { s with held := [] } :=
  if_neg (by rwa [List.isEmpty_iff])

section Screens
variable {i : Fin 8} {s u : State}

/-- A screen is stopped by its record in the state before a run on it is overtaken, which the overtaking leaves. -/
theorem stopScreen_mutes (policy : u.screens[i].stopPolicy = .mute ∨
      u.screens[i].stopPolicy = .fade ∧ u.screens[i].stopFadeMs = 0) :
    stopScreen i u = enterState i .stopped (u.onScreen i fun x =>
      { x with mutes := { x.mutes with stop := true } }) := by
  rw [stopScreen_eq]
  congr 1
  refine onScreen_congr (if_neg ?_)
  rintro ⟨fade, time⟩
  rcases policy with mute | ⟨-, none⟩
  · exact absurd (mute.symm.trans fade) nofun
  · exact time none

theorem stopScreen_fades (fade : u.screens[i].stopPolicy = .fade) (time : u.screens[i].stopFadeMs ≠ 0) :
    stopScreen i u = enterState i .stopped (u.onScreen i fun x => { x with stopFade := some u.timeBase }) := by
  rw [stopScreen_eq]
  congr 1
  exact onScreen_congr (if_pos ⟨fade, time⟩)

theorem houseStopsScreen_still (still : s.screens[i].state = .off ∨ s.screens[i].state = .stopped) :
    houseStopsScreen s i = s := by
  unfold houseStopsScreen
  rcases still with off | stopped
  · simp only [off]
  · simp only [stopped]

theorem houseStopsScreen_serving (serves : s.screens[i].state = .dark ∨ s.screens[i].state = .inShow) :
    houseStopsScreen s i = if s.screens[i].stopPolicy = .exempt then s else stopScreen i s := by
  unfold houseStopsScreen
  rcases serves with dark | inShow
  · simp only [dark]
  · simp only [inShow]

theorem houseStopsScreen_aligning (aligns : s.screens[i].state = .inAlign) : houseStopsScreen s i =
    if s.screens[i].stopPolicy = .exempt then enterState i .dark (overtakeRun .houseStop s)
    else stopScreen i (overtakeRun .houseStop s) := by
  unfold houseStopsScreen
  simp only [aligns]

theorem houseReleasesScreen_resumes (stopped : s.screens[i].state = .stopped)
    (auto : s.screens[i].resumePolicy = .auto) : houseReleasesScreen s i = resumeScreen i s := if_pos ⟨stopped, auto⟩

theorem houseReleasesScreen_stays (stays : s.screens[i].state ≠ .stopped ∨ s.screens[i].resumePolicy = .manual) :
    houseReleasesScreen s i = s := by
  refine if_neg ?_
  rintro ⟨stopped, auto⟩
  rcases stays with elsewhere | manual
  · exact elsewhere stopped
  · exact absurd (manual.symm.trans auto) nofun

/-- Overtaking a run leaves every screen's stop policy and fade time. -/
theorem overtakeRun_policy (reason : AbortReason) (s : State) (i : Fin 8) :
    (overtakeRun reason s).screens[i].stopPolicy = s.screens[i].stopPolicy ∧
      (overtakeRun reason s).screens[i].stopFadeMs = s.screens[i].stopFadeMs := by
  have screens : (overtakeRun reason s).screens = modifyAt s.screens s.run.screen Screen.clearAlign := by
    rw [overtakeRun, file_screens]
    rfl
  rw [screens, modifyAt_get]
  split
  · simp only [Screen.clearAlign, and_self]
  · exact ⟨rfl, rfl⟩

theorem overtakeRun_timeBase (reason : AbortReason) (s : State) : (overtakeRun reason s).timeBase = s.timeBase := by
  rw [overtakeRun_frame]

theorem stops_of_mute {x : Screen} (mutes : x.stopPolicy = .mute ∨ x.stopPolicy = .fade ∧ x.stopFadeMs = 0) :
    x.stopPolicy ≠ .exempt := by
  rcases mutes with mute | ⟨fade, -⟩
  · rw [mute]; exact nofun
  · rw [fade]; exact nofun

theorem stops_of_fade {x : Screen} (fade : x.stopPolicy = .fade) : x.stopPolicy ≠ .exempt := by rw [fade]; exact nofun

end Screens

/-- Settles O41: the controller, the change taken whole, the held list, and each screen by its state and policy. -/
theorem aChangeOfTheSourceSetIsTakenWhole : Obligations.AChangeOfTheSourceSetIsTakenWhole := by
  refine ⟨fun h now => ⟨settle_drive h now, settle_sensed h now, settle_line h now, settle_frame h now⟩,
    houseChange_eq_changed, fun f s => ?_, fun s active => ?_, fun s => ⟨cancelHeld_empty true, cancelHeld_filled true⟩,
    fun i s => ⟨houseStopsScreen_still, fun serves => ⟨fun exempt => ?_, fun mutes => ?_, fun fade time => ?_⟩,
      fun aligns => ⟨fun exempt => ?_, fun mutes => ?_, fun fade time => ?_⟩, houseReleasesScreen_resumes,
      houseReleasesScreen_stays⟩⟩
  · intro h before after
    refine ⟨(houseChange_eq_changed f s).trans (changed_of_sources before after), fun slot runs filled none turn => ?_⟩
    exact aOutFrameSent_slot runs filled none turn
  · intro judged
    have active_eq : active = s.boothInputActive := by
      rw [Bool.eq_iff_iff, judged, boothInputActive_iff]
    rw [active_eq]
    exact houseChange_eq_changed _ s
  · rw [houseStopsScreen_serving serves, if_pos exempt]
  · rw [houseStopsScreen_serving serves, if_neg (stops_of_mute mutes), stopScreen_mutes mutes]
  · rw [houseStopsScreen_serving serves, if_neg (stops_of_fade fade), stopScreen_fades fade time]
  · rw [houseStopsScreen_aligning aligns, if_pos exempt]
  · obtain ⟨policy, ms⟩ := overtakeRun_policy .houseStop s i
    rw [houseStopsScreen_aligning aligns, if_neg (stops_of_mute mutes),
      stopScreen_mutes (by rw [policy, ms]; exact mutes)]
  · obtain ⟨policy, ms⟩ := overtakeRun_policy .houseStop s i
    rw [houseStopsScreen_aligning aligns, if_neg (stops_of_fade fade),
      stopScreen_fades (policy.trans fade) (by rw [ms]; exact time), overtakeRun_timeBase]

end Sys2Proof.Machine
end

section
/-!
PROOF. ALIGN_START (R80 to R83): that its payload reads back, and what an accepted start makes of the run record, the
screen, its monitors and the staging banks.
-/

namespace Sys2Proof.Machine

/-! ### The payload (R80) -/

theorem hasRepeat_eq_false {α : Type} [DecidableEq α] {l : List α} (nodup : l.Nodup) : hasRepeat l = false := by
  induction l with
  | nil => rfl
  | cons x rest ih =>
    obtain ⟨fresh, later⟩ := List.nodup_cons.mp nodup
    simp [hasRepeat, fresh, ih later]

section Payload
variable {c : Command} {s : State} {q : RunRequest} {count : Nat}

theorem alignPayload_length (q : RunRequest) : (alignPayload q).length = 10 + q.channels.length := by
  simp [alignPayload, bytes2, signed1]
  omega

theorem readRunCurve_eq (payload : c.payload = alignPayload q) (valid : s.curves[q.curve].valid = true) :
    readRunCurve c s = some q.curve := by
  have index : readIndex 4 (c.byte 0) = some q.curve := by
    rw [Command.byte, payload]
    exact readIndex_ofNat (by decide) q.curve
  rw [readRunCurve, index, Option.filter_some, if_pos valid]

theorem readRunParameters_eq (payload : c.payload = alignPayload q) (ok : q.ok count) : readRunParameters c =
    some ⟨q.mode, q.passesMax, q.settleMs, q.dwellMs, q.testLevel, q.fromFlat⟩ := by
  obtain ⟨passLow, passHigh, settleLow, settleHigh, dwellLow, dwellHigh, levelLow, levelHigh, -⟩ := ok
  have mode : readCode [.measureOnly, .correct] (c.byte 1) = some q.mode := by
    rw [Command.byte, payload]
    cases mode : q.mode <;> simp [alignPayload, mode, AlignMode.code, byteOf, readCode]
  have passes : c.num 2 = q.passesMax := by
    simp only [Command.num, Command.byte, payload]
    exact toNat_ofNat_byte (by omega)
  have settle : c.num2 3 = q.settleMs := by
    simp only [Command.num2, Command.byte, payload]
    exact nat2_bytes2 (by omega)
  have dwell : c.num2 5 = q.dwellMs := by
    simp only [Command.num2, Command.byte, payload]
    exact nat2_bytes2 (by omega)
  have level : c.int 7 = q.testLevel := by
    simp only [Command.int, Command.byte, payload]
    exact toInt_ofInt_byte (le_trans (by decide) levelLow) (lt_of_le_of_lt levelHigh (by decide))
  have flag : readFlag (c.byte 8) = some q.fromFlat := by
    rw [Command.byte, payload]
    exact readFlag_flagByte q.fromFlat
  rw [readRunParameters, mode, passes, settle, dwell, level, flag, readRange_eq_some passLow passHigh,
    readRange_eq_some settleLow settleHigh, readRange_eq_some dwellLow dwellHigh, readLevel_eq_some levelLow levelHigh]
  rfl

theorem readRunChannels_eq (payload : c.payload = alignPayload q) (ok : q.ok count) :
    readRunChannels c count = some q.channels := by
  obtain ⟨-, -, -, -, -, -, -, -, some, most, nodup, used⟩ := ok
  have number : c.num 9 = q.channels.length := by
    simp only [Command.num, Command.byte, payload]
    exact toNat_ofNat_byte (by omega)
  have least : 1 ≤ q.channels.length := List.length_pos_iff.mpr some
  have listed : c.payload.drop 10 = q.channels.map fun k => byteOf k.val := by rw [payload]; rfl
  have taken : (c.payload.drop 10).take q.channels.length = q.channels.map fun k => byteOf k.val := by
    rw [listed, List.take_of_length_le (by simp)]
  have reads : (q.channels.map fun k => byteOf k.val).map (readIndex 16) = q.channels.map Option.some := by
    rw [List.map_map]
    exact List.map_congr_left fun k _ => readIndex_ofNat (by decide) k
  have inUse : (q.channels.all fun k => decide (k.val < count)) = true :=
    List.all_eq_true.mpr fun k mem => decide_eq_true (used k mem)
  rw [readRunChannels, number, readRange_eq_some least most]
  simp only [Option.bind_eq_bind, Option.bind_some, taken, reads, allSome_map_some, hasRepeat_eq_false nodup, inUse]
  rfl

theorem cmdAlignStart_answers {i : Fin 8} (selector : c.selector = BitVec.ofNat 8 i.val)
    (payload : c.payload = alignPayload q) (idle : s.run.engine = .idle) (free : s.stopActive = false)
    (dark : s.screens[i].state = .dark) (mic : s.screens[i].micChannel ≠ none)
    (valid : s.curves[q.curve].valid = true) (ok : q.ok s.screens[i].count) :
    cmdAlignStart c s = (startRun i q s, ⟨.accepted, 0#8, []⟩) := by
  have curve := readRunCurve_eq payload valid
  have parameters := readRunParameters_eq payload ok
  have channels := readRunChannels_eq payload ok
  have number : c.num 9 = q.channels.length := by
    simp only [Command.num, Command.byte, payload]
    obtain ⟨-, -, -, -, -, -, -, -, -, most, -⟩ := ok
    exact toNat_ofNat_byte (by omega)
  have length : alignLengthSuits c = true := by
    rw [alignLengthSuits, number, payload, alignPayload_length]
    simp
  have named : s.screens[i].micChannel.isNone = false := by
    rw [Option.isNone_eq_false_iff, ← Option.ne_none_iff_isSome]
    exact mic
  rw [cmdAlignStart, length]
  refine (oneScreenCommand_accepted selector ?_).trans ?_
  · simp only [checkAlignStart, idle, free, dark, named, curve, parameters, channels]
    rfl
  · simp only [effectAlignStart, curve, parameters, channels]

end Payload

/-! ### The staging banks (R82) -/

theorem onStaging_fillStaging (live : BankName) (fromFlat : Bool) (x : ChannelBanks) :
    x.onStaging live (fillStaging fromFlat) = withStaging live (fun _ =>
      if fromFlat then { x.bank live with graphic := Vector.replicate 31 0, origin := .copied, passStamp := 0 }
      else { x.bank live with origin := .copied }) x := by
  cases live <;> rfl

/-- What fills a staging bank does not read it. -/
theorem onStaging_fillStaging_twice (live : BankName) (fromFlat : Bool) (x : ChannelBanks) :
    (x.onStaging live (fillStaging fromFlat)).onStaging live (fillStaging fromFlat) =
      x.onStaging live (fillStaging fromFlat) := by
  cases live <;> rfl

theorem onBanks_get (i j : Fin 8) (k c : Fin 16) (f : ChannelBanks → ChannelBanks) (s : State) :
    (s.onBanks i k f).eq[j][c] = if j = i ∧ c = k then f s.eq[j][c] else s.eq[j][c] := by
  rw [State.onBanks_eq, modifyAt_get]
  by_cases own : j = i
  · rw [if_pos own, modifyAt_get]
    simp only [own, true_and]
  · rw [if_neg own, if_neg fun both => own both.1]

theorem fillListed_frame (i : Fin 8) (fromFlat : Bool) (channels : List (Fin 16)) (s : State) :
    fillListed i fromFlat channels s = { s with eq := (fillListed i fromFlat channels s).eq } := by
  unfold fillListed
  induction channels generalizing s with
  | nil => rfl
  | cons k rest ih => rw [List.foldl_cons, ih]; rfl

theorem fillListed_get (i j : Fin 8) (fromFlat : Bool) (channels : List (Fin 16)) (c : Fin 16) (s : State) :
    (fillListed i fromFlat channels s).eq[j][c] = if j = i ∧ c ∈ channels then
      s.eq[j][c].onStaging s.screens[i].eqLive (fillStaging fromFlat) else s.eq[j][c] := by
  unfold fillListed
  induction channels generalizing s with
  | nil => simp
  | cons k rest ih =>
    rw [List.foldl_cons, ih, onBanks_get]
    by_cases own : j = i
    · by_cases here : c = k
      · simp [own, here, onStaging_fillStaging_twice]
      · simp [own, here]
    · simp [own]

/-! ### The start (R81, R83) -/

/-- The state in which a start enters ALIGN: the swap ended, the run rebuilt. -/
def startReady (i : Fin 8) (q : RunRequest) (s : State) : State :=
  (if s.screens[i].eqSwap = none then s else endedSwap i true s).onRun fun _ => rebuiltRun i q s.timeBase

theorem endSwap_eq (i : Fin 8) (early : Bool) (s : State) : endSwap i early s = endedSwap i early s := by
  unfold endSwap endedSwap
  dsimp only
  rw [onScreen_same]

theorem endedSwap_screens (i : Fin 8) (early : Bool) (s : State) :
    (endedSwap i early s).screens = modifyAt s.screens i fun x => { x with eqSwap := none } := file_screens ..

theorem startReady_screens (i : Fin 8) (q : RunRequest) (s : State) :
    (startReady i q s).screens = modifyAt s.screens i fun x => { x with eqSwap := none } := by
  unfold startReady
  split
  · rename_i free
    refine table_ext fun j => ?_
    rw [modifyAt_get]
    split
    · rename_i own
      rw [own, ← free]
      rfl
    · rfl
  · exact endedSwap_screens i true s

theorem startReady_screen (i : Fin 8) (q : RunRequest) (s : State) :
    (startReady i q s).screens[i] = { s.screens[i] with eqSwap := none } := by
  rw [startReady_screens, modifyAt_same]

theorem endedSwap_frame (i : Fin 8) (early : Bool) (s : State) : (endedSwap i early s).timeBase = s.timeBase ∧
    (endedSwap i early s).monitors = s.monitors ∧ (endedSwap i early s).eq = s.eq := by
  rw [← endSwap_eq, endSwap_frame]
  exact ⟨rfl, rfl, rfl⟩

theorem startReady_kept (i : Fin 8) (q : RunRequest) (s : State) : (startReady i q s).timeBase = s.timeBase ∧
    (startReady i q s).monitors = s.monitors ∧ (startReady i q s).eq = s.eq := by
  unfold startReady
  split
  · exact ⟨rfl, rfl, rfl⟩
  · exact endedSwap_frame i true s

/-- A start, step by step. -/
theorem startRun_eq (i : Fin 8) (q : RunRequest) (s : State) : startRun i q s =
    (if q.mode = .correct then fillListed i q.fromFlat q.channels (enterState i .inAlign (startReady i q s))
      else enterState i .inAlign (startReady i q s)).onScreen i fun x => x.alignAllBut q.channels.head? := by
  have ready : (if s.screens[i].eqSwap.isSome then endSwap i true s else s) =
      if s.screens[i].eqSwap = none then s else endedSwap i true s := by
    cases swap : s.screens[i].eqSwap with
    | none => rfl
    | some _ => exact endSwap_eq i true s
  have time : (if s.screens[i].eqSwap = none then s else endedSwap i true s).timeBase = s.timeBase := by
    split
    · rfl
    · exact (endedSwap_frame i true s).1
  unfold startRun
  rw [ready]
  dsimp only
  rw [time]
  rfl

theorem startRun_frame (i : Fin 8) (q : RunRequest) (s : State) :
    startRun i q s = { (if s.screens[i].eqSwap = none then s else endedSwap i true s) with
      run := (startRun i q s).run
      screens := (startRun i q s).screens
      monitors := (startRun i q s).monitors
      eq := (startRun i q s).eq } := by
  rw [startRun_eq]
  split
  · rw [fillListed_frame, enterState_frame]
    rfl
  · rw [enterState_frame]
    rfl

theorem startRun_run (i : Fin 8) (q : RunRequest) (s : State) : (startRun i q s).run = rebuiltRun i q s.timeBase := by
  rw [startRun_eq, State.onScreen_run]
  split
  · rw [fillListed_frame, enterState_frame]
    rfl
  · rw [enterState_frame]
    rfl

theorem startRun_monitors (i : Fin 8) (q : RunRequest) (s : State) (m : Fin 48) : (startRun i q s).monitors[m] =
    if s.monitors[m].content.screen = i then s.monitors[m].judge .inAlign else s.monitors[m] := by
  have entered : (startRun i q s).monitors = (enterState i .inAlign (startReady i q s)).monitors := by
    rw [startRun_eq, State.onScreen_monitors]
    split
    · rw [fillListed_frame]
    · rfl
  rw [entered, enterState_monitor, (startReady_kept i q s).2.1]

theorem startRun_screens (i : Fin 8) (q : RunRequest) (s : State) : (startRun i q s).screens =
    modifyAt (enterState i .inAlign (startReady i q s)).screens i fun x => x.alignAllBut q.channels.head? := by
  rw [startRun_eq, State.onScreen_screens]
  split
  · rw [fillListed_frame]
  · rfl

theorem startRun_eq_get (i j : Fin 8) (q : RunRequest) (c : Fin 16) (s : State) : (startRun i q s).eq[j][c] =
    if j = i ∧ q.mode = .correct ∧ c ∈ q.channels then
      s.eq[j][c].onStaging s.screens[i].eqLive (fillStaging q.fromFlat) else s.eq[j][c] := by
  have kept : (enterState i .inAlign (startReady i q s)).eq = s.eq := by
    rw [enterState_frame]
    exact (startReady_kept i q s).2.2
  have live : (enterState i .inAlign (startReady i q s)).screens[i].eqLive = s.screens[i].eqLive := by
    rw [enterState_own, startReady_screen]
  rw [startRun_eq, State.onScreen_eq]
  by_cases correct : q.mode = .correct
  · rw [if_pos correct, fillListed_get, kept, live]
    simp only [correct, true_and]
  · rw [if_neg correct, kept, if_neg fun all => correct all.2.1]

/-! ### The monitors of a screen in ALIGN (R108) -/

/-- No watch set holds ALIGN either: an enabled monitor is suspended there. -/
theorem Monitor.judge_inAlign (m : Monitor) : m.judge .inAlign =
    if m.enabled = true then { m with state := .suspended, mark := none, prev := none } else m := by
  simp [Monitor.judge, WatchSet.holds]

/-- In ALIGN nothing is held. -/
theorem enterAlign_unheld (i : Fin 8) (s : State) (m : Fin 48) :
    (enterState i .inAlign s).monitors[m].heldOn i = none := by
  rw [enterState_monitor]
  split
  · rw [Monitor.judge_inAlign]
    split
    · simp [Monitor.heldOn, Monitor.actsOn, MonitorState.acting]
    · rename_i disabled
      exact heldOn_of_disabled (Bool.eq_false_iff.mpr disabled) i
  · rename_i other
    exact heldOn_of_other other

theorem startRun_screen (i : Fin 8) (q : RunRequest) (s : State) : (startRun i q s).screens[i] =
    { s.screens[i] with
      state := .inAlign
      eqSwap := none
      ceiling := 100
      fader := s.screens[i].fader.underCeiling s.timeBase 100
      mutes := { s.screens[i].mutes with monitor := false }
      channels := (startRun i q s).screens[i].channels } := by
  have unheld := enterAlign_unheld i (startReady i q s)
  rw [startRun_screens, modifyAt_same, enterState_own, ceilingOf_unheld unheld, mutesScreen_unheld unheld,
    startReady_screen, (startReady_kept i q s).1, Screen.alignAllBut]

theorem startRun_channel (i : Fin 8) (q : RunRequest) (s : State) (c : Fin 16) :
    (startRun i q s).screens[i].channels[c] = { s.screens[i].channels[c] with
      mutes := { s.screens[i].channels[c].mutes with
        align := decide (c.val < s.screens[i].count ∧ q.channels.head? ≠ some c)
        monitor := false } } := by
  have count : (enterState i .inAlign (startReady i q s)).screens[i].count = s.screens[i].count := by
    rw [Screen.count, enterState_own, startReady_screen, Screen.count]
  rw [startRun_screens, modifyAt_same, Screen.alignAllBut, mapAt_get, count, enterState_channel,
    mutesChannel_unheld (enterAlign_unheld i (startReady i q s)), startReady_screen, Bool.decide_and]
  simp [bne, beq_eq_decide]

/-- Settles O27: in ALIGN no monitor acts, so that the start leaves no cause and no ceiling. -/
theorem alignStartBeginsARun : Obligations.AlignStartBeginsARun := by
  intro i a s q can names idle free dark mic valid ok payload u
  refine ⟨startRun i q s, ?_, startRun_frame i q s, startRun_run i q s, startRun_screen i q s,
    startRun_channel i q s, fun m => ?_, fun j other => ?_, fun j c => ?_⟩
  · exact congrArg _ ((commandRow_of_canExecute can).trans (by
      rw [cmdAlignStart_answers (c := commandOf 64#8 a) names payload idle free dark mic valid ok]
      rfl))
  · rw [startRun_monitors, Monitor.judge_inAlign, ite_and]
  · rw [startRun_screens, modifyAt_other _ _ other, enterState_other other, startReady_screens,
      modifyAt_other _ _ other]
  · rw [startRun_eq_get]
    split
    · rename_i listed
      rw [onStaging_fillStaging, listed.1]
    · rfl

end Sys2Proof.Machine
end

section
/-!
PROOF. The meter point and what reads it (R31 to R36, R42, R45, R59, R86). A number found bit by bit is the last one
that its condition holds for, so that a reading is the rounded level of its energy; what a meter holds after blocks, and
what a block leaves on a screen; the mute stage, the comparison with the format, and the dwell's accumulator and
filters.
-/

namespace Sys2Proof.Machine

/-! ### Numbers found bit by bit -/

/-- The powers of two below 2^`n`, the highest first. -/
def descendingBits (n : Nat) : List Nat := ((List.range n).map fun b => 2 ^ b).reverse

theorem descendingBits_succ (n : Nat) : descendingBits (n + 1) = 2 ^ n :: descendingBits n := by
  simp [descendingBits, List.range_succ]

/-- A search by bits, from a start whose next 2^`n` fails, ends at the start or where the condition holds, and just
before it fails. -/
theorem foldl_bits (holds : Nat → Bool) {n start : Nat} (fails : holds (start + 2 ^ n) = false) :
    ((descendingBits n).foldl (fun k b => if holds (k + b) then k + b else k) start = start ∨
      holds ((descendingBits n).foldl (fun k b => if holds (k + b) then k + b else k) start) = true) ∧
    holds ((descendingBits n).foldl (fun k b => if holds (k + b) then k + b else k) start + 1) = false := by
  induction n generalizing start with
  | zero => exact ⟨.inl rfl, fails⟩
  | succ n ih =>
    rw [descendingBits_succ, List.foldl_cons]
    cases next : holds (start + 2 ^ n) with
    | false => exact ih next
    | true =>
      rw [if_pos rfl]
      have beyond : holds (start + 2 ^ n + 2 ^ n) = false := by rwa [add_assoc, ← two_mul, ← pow_succ']
      obtain ⟨reached, last⟩ := ih beyond
      refine ⟨.inr ?_, last⟩
      rcases reached with stays | moves
      · rw [stays]; exact next
      · exact moves

/-! ### Readings (R33, R35) -/

/-- A condition kept to the steps of a level. -/
def onScale (holds : Nat → Bool) (k : Nat) : Bool := decide (k ≤ 240) && holds k

theorem highestStep_eq (holds : Nat → Bool) : highestStep holds =
    (descendingBits 8).foldl (fun k b => if onScale holds (k + b) then k + b else k) 0 := rfl

/-- The step found is at most 240; it is 0 or holds, and is 240 or the next fails. -/
theorem highestStep_spec (holds : Nat → Bool) : highestStep holds ≤ 240 ∧
    (highestStep holds ≠ 0 → holds (highestStep holds) = true) ∧
    (highestStep holds ≠ 240 → holds (highestStep holds + 1) = false) := by
  have found := foldl_bits (onScale holds) (n := 8) (start := 0) rfl
  rw [← highestStep_eq] at found
  generalize highestStep holds = k at found ⊢
  obtain ⟨reached, last⟩ := found
  rw [onScale, Bool.and_eq_true, decide_eq_true_eq] at reached
  have most : k ≤ 240 := by
    rcases reached with none | ⟨most, -⟩
    · omega
    · exact most
  refine ⟨most, fun some => (reached.resolve_left some).2, fun below => ?_⟩
  have within : decide (k + 1 ≤ 240) = true := decide_eq_true (by omega)
  rwa [onScale, within, Bool.true_and] at last

/-- An energy reaches a step when its level, in steps, is at least half a step below it. -/
theorem reachesStep_iff {num den k : Nat} (some : 0 < num) (whole : 0 < den) (most : k ≤ 240) :
    reachesStep num den k = true ↔ (k : ℝ) - 240 - 1 / 2 ≤ 20 * Real.logb 10 ((num : ℝ) / den) := by
  have numPos : (0 : ℝ) < num := by exact_mod_cast some
  have denPos : (0 : ℝ) < den := by exact_mod_cast whole
  have exponent : ((481 - 2 * k : Nat) : ℝ) = 481 - 2 * k := by
    rw [Nat.cast_sub (by omega)]
    push_cast
    ring
  have logs : Real.logb 10 ((num : ℝ) ^ 40 * 10 ^ (481 - 2 * k)) = 40 * Real.logb 10 num + (481 - 2 * k) := by
    rw [Real.logb_mul (by positivity) (by positivity), Real.logb_pow, Real.logb_pow, exponent,
      Real.logb_self_eq_one (by norm_num)]
    push_cast
    ring
  have reals : reachesStep num den k = true ↔ (den : ℝ) ^ 40 ≤ (num : ℝ) ^ 40 * 10 ^ (481 - 2 * k) := by
    rw [reachesStep, decide_eq_true_eq]
    exact_mod_cast Iff.rfl
  rw [reals, ← Real.logb_le_logb (b := 10) (by norm_num) (by positivity) (by positivity), logs, Real.logb_pow,
    Real.logb_div numPos.ne' denPos.ne']
  constructor
  · intro reaches
    push_cast at reaches
    linarith
  · intro reaches
    push_cast
    linarith

theorem levelOf_eq {num den : Nat} (whole : 0 < den) :
    levelOf num den = -240 + (highestStep (reachesStep num den) : Int) := if_neg whole.ne'

theorem levelOf_zero {den : Nat} (whole : 0 < den) : levelOf 0 den = -240 := by
  have fails (k : Nat) : reachesStep 0 den k = false := by
    rw [reachesStep, decide_eq_false_iff_not, not_le]
    simpa using Nat.pow_pos whole
  obtain ⟨-, reached, -⟩ := highestStep_spec (reachesStep 0 den)
  have none : highestStep (reachesStep 0 den) = 0 := by
    by_contra some
    exact absurd (reached some) (by rw [fails]; exact nofun)
  rw [levelOf_eq whole, none]
  rfl

/-- A step that is at least half a step below a level, and whose successor is not, is the level's rounding. -/
theorem rounded_of_step {r : ℝ} {k : Nat} (most : k ≤ 240) (reached : k ≠ 0 → (k : ℝ) - 240 - 1 / 2 ≤ r)
    (last : k ≠ 240 → r < ((k + 1 : Nat) : ℝ) - 240 - 1 / 2) {l : Int} (level : l = -240 + (k : Int)) :
    -240 ≤ l ∧ l ≤ 0 ∧ (l ≠ -240 → (l : ℝ) - 1 / 2 ≤ r) ∧ (l ≠ 0 → r < (l : ℝ) + 1 / 2) := by
  have value : (l : ℝ) = -240 + k := by rw [level]; push_cast; rfl
  refine ⟨by omega, by omega, fun above => ?_, fun below => ?_⟩
  · have reaches := reached (by omega)
    linarith
  · have misses := last (by omega)
    push_cast at misses
    linarith

theorem levelOf_near {num den : Nat} (some : 0 < num) (whole : 0 < den) :
    -240 ≤ levelOf num den ∧ levelOf num den ≤ 0 ∧
      (levelOf num den ≠ -240 → (levelOf num den : ℝ) - 1 / 2 ≤ 20 * Real.logb 10 ((num : ℝ) / den)) ∧
      (levelOf num den ≠ 0 → 20 * Real.logb 10 ((num : ℝ) / den) < (levelOf num den : ℝ) + 1 / 2) := by
  obtain ⟨most, reached, last⟩ := highestStep_spec (reachesStep num den)
  refine rounded_of_step most (fun above => (reachesStep_iff some whole most).mp (reached above)) (fun below => ?_)
    (levelOf_eq whole)
  have next : highestStep (reachesStep num den) + 1 ≤ 240 := by omega
  exact not_le.mp (mt (reachesStep_iff some whole next).mpr (by rw [last below]; exact nofun))

/-! ### What a meter holds after blocks (R33, R34) -/

/-- The energies of the whole seconds of blocks of these energies, in order. -/
def secondEnergies (e : List Nat) : List Nat :=
  (List.range (e.length / 1500)).map fun j => ((e.drop (1500 * j)).take 1500).sum

theorem secondEnergies_length (e : List Nat) : (secondEnergies e).length = e.length / 1500 := by simp [secondEnergies]

/-- Within a second nothing is added. -/
theorem secondEnergies_within {e : List Nat} (x : Nat) (within : e.length % 1500 + 1 ≠ 1500) :
    secondEnergies (e ++ [x]) = secondEnergies e := by
  have count : (e ++ [x]).length / 1500 = e.length / 1500 := by simp; omega
  rw [secondEnergies, secondEnergies, count]
  refine List.map_congr_left fun j listed => ?_
  have bound := List.mem_range.mp listed
  rw [List.drop_append_of_le_length (by omega), List.take_append_of_le_length (by simp; omega)]

/-- The block that completes a second adds that second's energy. -/
theorem secondEnergies_full {e : List Nat} (x : Nat) (full : e.length % 1500 + 1 = 1500) :
    secondEnergies (e ++ [x]) = secondEnergies e ++ [(e.drop (1500 * (e.length / 1500))).sum + x] := by
  have count : (e ++ [x]).length / 1500 = e.length / 1500 + 1 := by simp; omega
  rw [secondEnergies, secondEnergies, count, List.range_succ, List.map_append]
  congr 1
  · refine List.map_congr_left fun j listed => ?_
    have bound := List.mem_range.mp listed
    rw [List.drop_append_of_le_length (by omega), List.take_append_of_le_length (by simp; omega)]
  · rw [List.map_singleton, List.drop_append_of_le_length (by omega), List.take_of_length_le (by simp; omega)]
    simp

/-- The last seconds together hold the energy of their blocks. -/
theorem secondEnergies_drop_sum (e : List Nat) {a q : Nat} (first : a ≤ q) (whole : 1500 * q ≤ e.length) :
    (((List.range q).map fun j => ((e.drop (1500 * j)).take 1500).sum).drop a).sum =
      ((e.take (1500 * q)).drop (1500 * a)).sum := by
  induction q with
  | zero => simp
  | succ q ih =>
    rcases Nat.lt_or_ge q a with past | within
    · obtain rfl : a = q + 1 := by omega
      rw [List.drop_eq_nil_of_le (by simp), List.drop_eq_nil_of_le (by simp)]
    · rw [List.range_succ, List.map_append, List.drop_append_of_le_length (by simpa using within), List.sum_append,
        ih within (by omega), Nat.mul_succ, List.take_add,
        List.drop_append_of_le_length (by simp; omega), List.sum_append]
      simp

/-- What a meter that was restarted holds when it has taken blocks of these energies. -/
structure Meter.Gathers (m : Meter) (scale : Nat) (e : List Nat) : Prop where
  window : m.window = e.reverse.take 450
  secondEnergy : m.secondEnergy = (e.drop (1500 * (e.length / 1500))).sum
  secondBlocks : m.secondBlocks = e.length % 1500
  seconds : m.seconds = (secondEnergies e).reverse.take 60
  short : m.short = if e = [] then -240 else levelOf m.window.sum (m.window.length * 32 * scale)
  long : m.long = if e.length / 1500 = 0 then -240 else levelOf m.seconds.sum (m.seconds.length * 48000 * scale)

theorem Meter.restart_gathers (m : Meter) (scale : Nat) : m.restart.Gathers scale [] :=
  ⟨rfl, rfl, rfl, rfl, rfl, rfl⟩

/-- Taking the next block, within its second. -/
theorem Meter.take_within {m : Meter} {scale : Nat} {squares : List Nat} (within : m.secondBlocks + 1 ≠ 1500) :
    m.take scale squares = ⟨levelOf (squares.foldl max 0) scale,
      levelOf ((squares.sum :: m.window).take 450).sum (((squares.sum :: m.window).take 450).length * 32 * scale),
      m.long, (squares.sum :: m.window).take 450, m.secondEnergy + squares.sum, m.secondBlocks + 1, m.seconds⟩ := by
  have notFull : ¬(m.secondBlocks + 1 = Config.secondBlocks) := within
  simp only [Meter.take, if_neg notFull]
  rfl

/-- Taking the block that completes a second. -/
theorem Meter.take_full {m : Meter} {scale : Nat} {squares : List Nat} (full : m.secondBlocks + 1 = 1500) :
    m.take scale squares = ⟨levelOf (squares.foldl max 0) scale,
      levelOf ((squares.sum :: m.window).take 450).sum (((squares.sum :: m.window).take 450).length * 32 * scale),
      levelOf (((m.secondEnergy + squares.sum) :: m.seconds).take 60).sum
        ((((m.secondEnergy + squares.sum) :: m.seconds).take 60).length * 48000 * scale),
      (squares.sum :: m.window).take 450, 0, 0, ((m.secondEnergy + squares.sum) :: m.seconds).take 60⟩ := by
  have isFull : m.secondBlocks + 1 = Config.secondBlocks := full
  simp only [Meter.take, if_pos isFull]
  rfl

/-- A window takes the newest value in front and forgets the oldest beyond its size. -/
theorem take_cons_take {α : Type} (x : α) (l : List α) (n : Nat) :
    (x :: l.take (n + 1)).take (n + 1) = (x :: l).take (n + 1) := by
  rw [List.take_succ_cons, List.take_succ_cons, List.take_take, Nat.min_eq_left (Nat.le_succ n)]

theorem Meter.Gathers.take {m : Meter} {scale : Nat} {e : List Nat} (gathers : m.Gathers scale e)
    (squares : List Nat) : (m.take scale squares).Gathers scale (e ++ [squares.sum]) := by
  obtain ⟨window, secondEnergy, secondBlocks, seconds, short, long⟩ := gathers
  have window_next : (squares.sum :: m.window).take 450 = (e ++ [squares.sum]).reverse.take 450 := by
    rw [window, List.reverse_append, List.reverse_singleton, List.singleton_append]
    exact take_cons_take ..
  have some : e ++ [squares.sum] ≠ [] := by simp
  by_cases full : m.secondBlocks + 1 = 1500
  · have completes : e.length % 1500 + 1 = 1500 := secondBlocks ▸ full
    have count : (e ++ [squares.sum]).length / 1500 = e.length / 1500 + 1 := by simp; omega
    rw [Meter.take_full full]
    refine ⟨window_next, ?_, ?_, ?_, (if_neg some).symm, (if_neg (by omega)).symm⟩
    · rw [List.drop_eq_nil_of_le (by rw [count]; simp; omega)]
      rfl
    · simp; omega
    · rw [seconds, secondEnergy, secondEnergies_full _ completes, List.reverse_append, List.reverse_singleton,
        List.singleton_append]
      exact take_cons_take ..
  · have within : e.length % 1500 + 1 ≠ 1500 := secondBlocks ▸ full
    have count : (e ++ [squares.sum]).length / 1500 = e.length / 1500 := by simp; omega
    rw [Meter.take_within full]
    refine ⟨window_next, ?_, ?_, ?_, (if_neg some).symm, ?_⟩
    · rw [count, List.drop_append_of_le_length (by omega), List.sum_append, secondEnergy]
      simp
    · rw [secondBlocks]; simp; omega
    · rw [secondEnergies_within _ within]
      exact seconds
    · rw [count]
      exact long

/-- A meter restarted that has then taken blocks. -/
def Meter.after (m : Meter) (scale : Nat) (blocks : List (List Nat)) : Meter :=
  blocks.foldl (fun m squares => m.take scale squares) m.restart

theorem Meter.after_snoc (m : Meter) (scale : Nat) (blocks : List (List Nat)) (squares : List Nat) :
    m.after scale (blocks ++ [squares]) = (m.after scale blocks).take scale squares := by
  rw [Meter.after, List.foldl_append]
  rfl

theorem Meter.after_gathers (m : Meter) (scale : Nat) (blocks : List (List Nat)) :
    (m.after scale blocks).Gathers scale (blocks.map List.sum) := by
  induction blocks using List.reverseRecOn with
  | nil => exact m.restart_gathers scale
  | append_singleton blocks squares ih =>
    rw [Meter.after_snoc, List.map_append, List.map_singleton]
    exact ih.take squares

theorem Meter.take_peak (m : Meter) (scale : Nat) (squares : List Nat) :
    (m.take scale squares).peak = levelOf (squares.foldl max 0) scale := rfl

theorem Meter.after_peak (m : Meter) {scale : Nat} {blocks : List (List Nat)} {squares : List Nat}
    (last : blocks.getLast? = some squares) :
    (m.after scale blocks).peak = levelOf (squares.foldl max 0) scale := by
  obtain ⟨front, rfl⟩ := List.getLast?_eq_some_iff.mp last
  rw [Meter.after_snoc, Meter.take_peak]

theorem Meter.after_short (m : Meter) (scale : Nat) (blocks : List (List Nat)) : (m.after scale blocks).short =
    if blocks = [] then -240
    else levelOf ((blocks.map List.sum).drop (blocks.length - 450)).sum (min blocks.length 450 * 32 * scale) := by
  have gathers := m.after_gathers scale blocks
  have window : (m.after scale blocks).window = ((blocks.map List.sum).drop (blocks.length - 450)).reverse := by
    rw [gathers.window, List.take_reverse, List.length_map]
  have size : blocks.length - (blocks.length - 450) = min blocks.length 450 := by omega
  rw [gathers.short, window, List.sum_reverse, List.length_reverse, List.length_drop, List.length_map, size]
  simp only [List.map_eq_nil_iff]

theorem Meter.after_long (m : Meter) (scale : Nat) (blocks : List (List Nat)) : (m.after scale blocks).long =
    if blocks.length / 1500 = 0 then -240
    else levelOf (((blocks.map List.sum).take (1500 * (blocks.length / 1500))).drop
      (1500 * (blocks.length / 1500 - min (blocks.length / 1500) 60))).sum
        (min (blocks.length / 1500) 60 * 48000 * scale) := by
  have gathers := m.after_gathers scale blocks
  have count : (blocks.map List.sum).length / 1500 = blocks.length / 1500 := by rw [List.length_map]
  have seconds : (m.after scale blocks).seconds =
      ((secondEnergies (blocks.map List.sum)).drop (blocks.length / 1500 - 60)).reverse := by
    rw [gathers.seconds, List.take_reverse, secondEnergies_length, count]
  have size : blocks.length / 1500 - (blocks.length / 1500 - 60) = min (blocks.length / 1500) 60 := by omega
  have first : blocks.length / 1500 - min (blocks.length / 1500) 60 = blocks.length / 1500 - 60 := by omega
  rw [gathers.long, seconds, List.sum_reverse, List.length_reverse, List.length_drop, secondEnergies_length, count,
    size, first, secondEnergies, count]
  rw [secondEnergies_drop_sum _ (by omega) (by rw [List.length_map]; omega)]

/-! ### What a block leaves on a screen (R34 to R36) -/

/-- One channel's squares added, period by period. -/
theorem zipWith_square {g : Nat → Nat} {xs : List Int} (whole : xs.length = 32) :
    ((List.range 32).map g).zipWith (fun a v => a + square v) xs =
      (List.range 32).map fun k => g k + square (xs.getD k 0) := by
  refine List.ext_getElem (by simp [whole]) fun k _ bound => ?_
  have inside : k < xs.length := by simpa [whole] using bound
  simp [inside]

theorem foldl_squares {channels : List (List Int)} (whole : ∀ xs ∈ channels, xs.length = 32) (g : Nat → Nat) :
    channels.foldl (fun acc xs => acc.zipWith (fun a v => a + square v) xs) ((List.range 32).map g) =
      (List.range 32).map fun k => g k + (channels.map fun xs => square (xs.getD k 0)).sum := by
  induction channels generalizing g with
  | nil => rfl
  | cons xs rest ih =>
    rw [List.foldl_cons, zipWith_square (whole xs List.mem_cons_self),
      ih fun ys mem => whole ys (List.mem_cons_of_mem xs mem)]
    simp only [List.map_cons, List.sum_cons, add_assoc]

theorem sumSquares_eq {channels : List (List Int)} (whole : ∀ xs ∈ channels, xs.length = 32) :
    sumSquares channels = (List.range 32).map fun k => (channels.map fun xs => square (xs.getD k 0)).sum := by
  have silent : List.replicate Config.blockPeriods 0 = (List.range 32).map fun _ => 0 := by decide
  rw [sumSquares, silent, foldl_squares whole]
  simp only [Nat.zero_add]

section Passed
variable (x : Screen) (formats : Vector FormatEntry 32) (periods : List (List Int)) (channels : List PassedChannel)

/-- What a block has left before `show_peak_long` and the steering move. -/
def Screen.metered : Screen := (x.setStages channels).meterBlock periods (channels.map (·.samples))

theorem Screen.passed_eq :
    x.passed formats periods channels = ((x.metered periods channels).takeShowPeak).steer formats :=
  rfl

theorem Screen.passed_metered : (x.passed formats periods channels).channels = (x.metered periods channels).channels ∧
    (x.passed formats periods channels).inputs = (x.metered periods channels).inputs ∧
    (x.passed formats periods channels).sum = (x.metered periods channels).sum := by
  rw [Screen.passed_eq, Screen.steer_frame, Screen.takeShowPeak_frame]
  exact ⟨rfl, rfl, rfl⟩

theorem Screen.metered_channel (c : Fin 16) : (x.metered periods channels).channels[c] = match channels[c.val]? with
    | none => x.channels[c]
    | some p => { x.channels[c] with
      line := p.line
      eqMemory := p.eqMemory
      meter := x.channels[c].meter.take (8388608 * 8388608) (p.samples.map square) } := by
  rw [Screen.metered, Screen.meterBlock, mapAt_get, Screen.setStages, mapAt_get, List.getElem?_map]
  cases channels[c.val]? <;> rfl

theorem Screen.metered_input (c : Fin 16) : (x.metered periods channels).inputs[c] =
    x.inputs[c].take (8388608 * 8388608) (periods.map fun p => square (p.getD c.val 0)) := by
  rw [Screen.metered, Screen.meterBlock, mapAt_get, channelSamples, List.map_map]
  rfl

theorem Screen.metered_sum (whole : ∀ p ∈ channels, p.samples.length = 32) : (x.metered periods channels).sum =
    x.sum.take (8388608 * 8388608)
      ((List.range 32).map fun k => (channels.map fun p => square (p.samples.getD k 0)).sum) := by
  have points : ∀ xs ∈ channels.map (·.samples), xs.length = 32 := by
    intro xs mem
    obtain ⟨p, listed, rfl⟩ := List.mem_map.mp mem
    exact whole p listed
  have sum : (x.metered periods channels).sum = x.sum.take fullSquare (sumSquares (channels.map (·.samples))) := rfl
  rw [sum, sumSquares_eq points]
  simp only [List.map_map]
  rfl

theorem Screen.metered_kept : (x.metered periods channels).state = x.state ∧
    (x.metered periods channels).showPeakLong = x.showPeakLong := by
  simp only [Screen.metered, Screen.meterBlock, Screen.setStages, and_self]

theorem Screen.takeShowPeak_showPeakLong (y : Screen) : y.takeShowPeak.showPeakLong =
    if y.state = .inShow then max y.showPeakLong y.sum.long else y.showPeakLong := by
  unfold Screen.takeShowPeak
  split <;> rfl

theorem Screen.passed_showPeakLong : (x.passed formats periods channels).showPeakLong =
    if x.state = .inShow then max x.showPeakLong (x.passed formats periods channels).sum.long else x.showPeakLong := by
  obtain ⟨state, peak⟩ := x.metered_kept periods channels
  rw [(x.passed_metered formats periods channels).2.2, Screen.passed_eq, Screen.steer_frame]
  dsimp only
  rw [Screen.takeShowPeak_showPeakLong, state, peak]

end Passed

/-! ### The mute stage (R42, R45) -/

section MuteStage
variable {now : Word} {x : Screen} {c : Fin 16} {xs : List Int}

theorem screenMutes_any {m : ScreenMutes} : m.any = false ↔ m = ⟨false, false, false, false, false⟩ := by
  cases m
  simp [ScreenMutes.any, and_assoc]

theorem channelMutes_any {m : ChannelMutes} : m.any = false ↔ m = ⟨false, false, false⟩ := by
  cases m
  simp [ChannelMutes.any, and_assoc]

theorem muteStage_muted (muted : x.mutes ≠ ⟨false, false, false, false, false⟩ ∨
      x.channels[c].mutes ≠ ⟨false, false, false⟩) : muteStage now x c xs = List.replicate xs.length 0 := by
  have any : (x.mutes.any || x.channels[c].mutes.any) = true := by
    rw [Bool.or_eq_true, ← Bool.not_eq_false, ← Bool.not_eq_false, screenMutes_any, channelMutes_any]
    exact muted
  rw [muteStage, if_pos any, List.map_const']

theorem muteStage_open (screen : x.mutes = ⟨false, false, false, false, false⟩)
    (channel : x.channels[c].mutes = ⟨false, false, false⟩) : muteStage now x c xs = match x.stopFade with
      | none => xs
      | some start => xs.map fun v =>
        quotient (v * ((x.stopFadeMs - min (elapsed now start) x.stopFadeMs : Nat) : Int)) x.stopFadeMs := by
  have none : ¬(x.mutes.any || x.channels[c].mutes.any) = true := by
    rw [screenMutes_any.mpr screen, channelMutes_any.mpr channel]
    exact nofun
  refine (if_neg none).trans ?_
  cases x.stopFade <;> rfl

/-- In a stop fade each sample is multiplied by the part of the fade that is left, within the last bit. -/
theorem muteStage_fades {start : Word} (screen : x.mutes = ⟨false, false, false, false, false⟩)
    (channel : x.channels[c].mutes = ⟨false, false, false⟩) (fades : x.stopFade = some start)
    (within : elapsed now start ≤ x.stopFadeMs) (runs : 0 < x.stopFadeMs) :
    (muteStage now x c xs).length = xs.length ∧
      ∀ (k : Nat) (v : Int), xs[k]? = some v → ∃ y, (muteStage now x c xs)[k]? = some y ∧
        |y * x.stopFadeMs - v * (x.stopFadeMs - elapsed now start)| < x.stopFadeMs := by
  rw [muteStage_open screen channel, fades]
  refine ⟨List.length_map .., fun k v sample => ⟨_, by rw [List.getElem?_map, sample]; rfl, ?_⟩⟩
  have left : ((x.stopFadeMs - min (elapsed now start) x.stopFadeMs : Nat) : Int) =
      (x.stopFadeMs : Int) - elapsed now start := by
    rw [min_eq_left within, Nat.cast_sub within]
  rw [left]
  exact quotient_near _ runs

end MuteStage

/-! ### The meter point and the comparison with the format (R31, R32, R59) -/

theorem meterPoint_eq (s : State) (i : Fin 8) (x : Screen) (periods : List (List Int)) (c : Fin 16) :
    meterPoint s i x periods c = {
      samples := (readLine (extendLine x.channels[c].line (eqStage s i x c (trimStage s x periods c)).1)
        x.channels[c].delay).map fun v => max (-8388608) (min 8388607 (quotient v (2 ^ 32)))
      line := (extendLine x.channels[c].line (eqStage s i x c (trimStage s x periods c)).1).take 4800
      eqMemory := (eqStage s i x c (trimStage s x periods c)).2 } := by
  simp only [meterPoint, limitSample_eq]
  rfl

section Mismatch
variable {i : Fin 8} {f : Frame} {s : State}

theorem mismatchOf_eq (e : FormatEntry) (isMatrix : Bool) (count : Nat) : mismatchOf e isMatrix count =
    if ¬(isMatrix = true ↔ e.kind = .matrix) then
      if count < e.inputsExpected then some .kindAndCount else some .kind
    else if count < e.inputsExpected then some .count else none := by
  have kind : (isMatrix != (e.kind == .matrix)) = true ↔ ¬(isMatrix = true ↔ e.kind = .matrix) := by
    rw [bne_iff_ne, ne_eq, Bool.eq_iff_iff, beq_iff_eq]
  simp only [mismatchOf, Bool.and_eq_true, kind, decide_eq_true_eq]
  split_ifs <;> simp_all

/-- The first block in SHOW is compared. -/
theorem checkMismatch_compares {k : Fin 32} (active : s.screens[i].activeFormat = some k)
    (plays : s.screens[i].state = .inShow) (first : s.screens[i].mismatchReported = false) : checkMismatch i f s =
      (mismatchOf s.formats[k] f.matrix f.channelCount).elim s fun what =>
        file (some i) (.formatMismatch k what) (s.onScreen i fun x => { x with mismatchReported := true }) := by
  simp only [checkMismatch, active, plays, first, and_self, if_true]
  cases mismatchOf s.formats[k] f.matrix f.channelCount <;> rfl

/-- No other is. -/
theorem checkMismatch_stays (other : s.screens[i].activeFormat = none ∨ s.screens[i].state ≠ .inShow ∨
      s.screens[i].mismatchReported = true) : checkMismatch i f s = s := by
  cases active : s.screens[i].activeFormat with
  | none => simp only [checkMismatch, active]
  | some k =>
    have notFirst : ¬(s.screens[i].state = .inShow ∧ s.screens[i].mismatchReported = false) := by
      rintro ⟨plays, first⟩
      rcases other with none | elsewhere | reported
      · exact absurd (none.symm.trans active) nofun
      · exact elsewhere plays
      · exact absurd (reported.symm.trans first) nofun
    simp only [checkMismatch, active, if_neg notFirst]

end Mismatch

/-! ### The dwell (R86) -/

section Dwell
variable {i : Fin 8} {periods : List (List Int)} {s : State}

theorem micSamples_eq (x : Screen) (periods : List (List Int)) : x.micSamples periods = match x.micChannel with
    | none => List.replicate periods.length 0
    | some c => periods.map fun p => p.getD c.val 0 := by
  cases mic : x.micChannel with
  | none => simp only [Screen.micSamples, mic, List.map_const']
  | some c => simp only [Screen.micSamples, mic, channelSamples]

theorem gatherDwell_gathers (aligns : s.screens[i].state = .inAlign) (dwells : s.run.engine = .dwell) :
    gatherDwell i periods s =
      { s with run := { s.run with acc := s.run.acc.take (s.screens[i].micSamples periods) } } :=
  if_pos ⟨aligns, dwells⟩

theorem gatherDwell_stays (other : s.screens[i].state ≠ .inAlign ∨ s.run.engine ≠ .dwell) :
    gatherDwell i periods s = s :=
  if_neg fun both => other.elim (fun elsewhere => elsewhere both.1) fun busy => busy both.2

/-- What the accumulator holds of samples. -/
structure DwellAcc.Holds (a : DwellAcc) (all : List Int) : Prop where
  gathered : a.gathered = all
  total : a.total = (all.map square).sum
  samples : a.samples = all.length
  fullScale : a.fullScale = all.any fun v => v == 8388607 || v == -8388608
  bands : ∀ b : Fin 31, a.bands[b] = Config.gear.energyIn b.val all

theorem emptyAcc_holds : emptyAcc.Holds [] :=
  ⟨rfl, rfl, rfl, rfl, fun b => by rw [energyIn_nil]; simp [emptyAcc]⟩

theorem DwellAcc.Holds.take {a : DwellAcc} {all : List Int} (holds : a.Holds all) (xs : List Int) :
    (a.take xs).Holds (all ++ xs) := by
  obtain ⟨gathered, total, samples, fullScale, bands⟩ := holds
  refine ⟨?_, ?_, ?_, ?_, fun b => ?_⟩
  · rw [DwellAcc.take_gathered, gathered]
  · rw [DwellAcc.take_total, total, List.map_append, List.sum_append]
  · rw [DwellAcc.take_samples, samples, List.length_append]
  · rw [DwellAcc.take_fullScale, fullScale, List.any_append]
  · rw [DwellAcc.take_bands_of (by rw [gathered]; exact bands b), gathered]

theorem foldl_take_holds {a : DwellAcc} {all : List Int} (holds : a.Holds all) (blocks : List (List Int)) :
    (blocks.foldl DwellAcc.take a).Holds (all ++ blocks.flatten) := by
  induction blocks generalizing a all with
  | nil => simpa using holds
  | cons xs rest ih =>
    rw [List.foldl_cons, List.flatten_cons, ← List.append_assoc]
    exact ih (holds.take xs)

theorem any_fullScale {all : List Int} : (all.any fun v => v == 8388607 || v == -8388608) = true ↔
    ∃ v ∈ all, v = 8388607 ∨ v = -8388608 := by
  simp only [List.any_eq_true, Bool.or_eq_true, beq_iff_eq]

/-- A band's share of the samples' energy (R86). -/
theorem energyIn_le (b : Nat) (xs : List Int) : Config.gear.energyIn b xs ≤ (xs.map square).sum :=
  Config.gear.share b xs

end Dwell

/-! ### The band filters (R86, section 4.1) -/

/-- The square of a response that is given an amplitude within half a step lies within a step of its energy. -/
theorem square_of_gives {r : ℝ} (gives : Config.gives r 1) :
    (10 : ℝ) ^ ((-1 / 2 : ℝ) / 20) ≤ r ^ 2 ∧ r ^ 2 ≤ (10 : ℝ) ^ ((1 / 2 : ℝ) / 20) := by
  obtain ⟨low, high⟩ := gives
  rw [one_mul] at low high
  have squared (x : ℝ) : Config.amplitude x ^ 2 = (10 : ℝ) ^ (x / 20) := by
    rw [Config.amplitude, ← Real.rpow_mul_natCast (by norm_num)]
    congr 1
    push_cast
    ring
  have positive := Config.Witness.amplitude_pos (-1 / 2)
  rw [← squared, ← squared]
  exact ⟨pow_le_pow_left₀ positive.le low 2, pow_le_pow_left₀ (positive.le.trans low) high 2⟩

theorem div_two_rpow (x y : ℝ) : x / 2 ^ y = x * 2 ^ (-y) := by
  rw [Real.rpow_neg (by norm_num), div_eq_mul_inv]

/-- The laws of the band filters, with the edges of a band and the level steps written out. -/
theorem bandResponse_meets {r : Fin 31 → ℝ → ℝ} (responds : Config.BandResponse r) (b : Fin 31) {hz : ℝ} (low : 0 ≤ hz)
    (high : hz ≤ 24000) :
    let centre : ℝ := 20 * 2 ^ ((b.val : ℝ) / 3)
    let passed := r b hz ^ 2
    (hz = centre → (10 : ℝ) ^ ((-1 / 2 : ℝ) / 20) ≤ passed ∧ passed ≤ (10 : ℝ) ^ ((1 / 2 : ℝ) / 20)) ∧
    (centre / 2 ^ (1 / 6 : ℝ) ≤ hz → hz ≤ centre * 2 ^ (1 / 6 : ℝ) → (10 : ℝ) ^ (-1 / 40 : ℝ) ≤ 2 * passed) ∧
    (hz ≤ centre / 2 ^ (1 / 6 : ℝ) ∨ centre * 2 ^ (1 / 6 : ℝ) ≤ hz → 2 * passed ≤ (10 : ℝ) ^ (1 / 40 : ℝ)) ∧
    (hz ≤ centre / 2 ^ (1 / 3 : ℝ) ∨ centre * 2 ^ (1 / 3 : ℝ) ≤ hz → passed ≤ 1 - (10 : ℝ) ^ (-1 / 40 : ℝ)) := by
  intro centre passed
  rw [div_two_rpow, div_two_rpow]
  refine ⟨fun at_centre => ?_, fun above below => responds.inside b hz above below,
    fun outside => responds.outside b hz low high outside, fun far => responds.far b hz low high far⟩
  rw [show passed = r b centre ^ 2 from congrArg (fun f => r b f ^ 2) at_centre]
  exact square_of_gives (responds.centre b)

/-- Settles O18: the readings, the meters, the mute stage and the dwell, and the band filters by the part's laws. -/
theorem readingsAreLevelStepsAndMutesAreSilent : Obligations.ReadingsAreLevelStepsAndMutesAreSilent := by
  refine ⟨fun num den whole => ⟨fun none => ?_, fun some => levelOf_near some whole⟩, fun now x c xs =>
      ⟨muteStage_muted, fun screen channel none => ?_, fun start => muteStage_fades⟩,
    fun m scale blocks => ⟨fun none => ?_, fun squares => m.after_peak, m.after_short scale blocks,
      m.after_long scale blocks⟩, fun x formats periods channels whole => ⟨fun c => ?_, fun c => ?_, ?_,
      x.passed_showPeakLong formats periods channels⟩, fun line xs delay k => readLine_get, meterPoint_eq,
    fun i f s => ⟨fun k active plays first => ?_, checkMismatch_stays⟩,
    fun i periods s => ⟨fun aligns dwells => ?_, gatherDwell_stays⟩, fun blocks => ?_, ?_⟩
  · rw [none, levelOf_zero whole]
  · rw [muteStage_open screen channel, none]
  · rw [none]
    rfl
  · have metered := congrArg (fun v => v[c]) (x.passed_metered formats periods channels).1
    refine metered.trans ((x.metered_channel periods channels c).trans ?_)
    cases channels[c.val]? <;> rfl
  · rw [(x.passed_metered formats periods channels).2.1, Screen.metered_input]
  · rw [(x.passed_metered formats periods channels).2.2, Screen.metered_sum x periods channels whole]
  · intro kind few filed
    rw [checkMismatch_compares active plays first, mismatchOf_eq]
    refine ⟨fun differs lacks => ?_, fun differs suits => ?_, fun same lacks => ?_, fun same suits => ?_⟩
    · rw [if_pos differs, if_pos lacks]
      rfl
    · rw [if_pos differs, if_neg suits]
      rfl
    · rw [if_neg same, if_pos lacks]
      rfl
    · rw [if_neg same, if_neg suits]
      rfl
  · have microphone := micSamples_eq s.screens[i] periods
    exact (gatherDwell_gathers aligns dwells).trans
      (congrArg (fun xs => { s with run := { s.run with acc := s.run.acc.take xs } }) microphone)
  · obtain ⟨-, total, samples, fullScale, bands⟩ := foldl_take_holds emptyAcc_holds blocks
    refine ⟨total, samples, ?_, fun b => ⟨bands b, ?_⟩⟩
    · rw [fullScale]
      exact any_fullScale
    · rw [bands b, total]
      exact energyIn_le b.val _
  · obtain ⟨h, summable, responds, energies⟩ := Config.gear.filters
    exact ⟨h, energies, summable, responds, fun b hz low high => bandResponse_meets responds b low high⟩

end Sys2Proof.Machine
end

section
/-!
PROOF. The audio chain from decode to the mute stage (R30, R31, R42, R49, R50, R56, R64, R65, R72, R84): the fader law
and the gain factors, the routing of a format, crossfades, the noise, the cascade of an EQ bank, and the samples of a
block.
-/

namespace Sys2Proof.Machine

/-! ### The fader law and the gain factors (R30) -/

theorem faderGain_low {p : Nat} (on : 1 ≤ p) (low : p < 40) :
    faderGain p = some (6 * (-10 - 2 * (40 - (p : Int)))) := by
  rw [faderGain, if_neg (by omega), if_pos low]

theorem faderGain_high {p : Nat} (high : 40 ≤ p) : faderGain p = some (2 * ((p : Int) - 70)) := by
  rw [faderGain, if_neg (by omega), if_neg (by omega)]

/-- The amplitude factor of `k` sixths of a dB, in units of 2^-32. -/
noncomputable def exactFactor (k : Int) : ℝ := 2 ^ 32 * (10 : ℝ) ^ ((k : ℝ) / 120)

theorem exactFactor_pos (k : Int) : 0 < exactFactor k := by
  unfold exactFactor
  positivity

/-- Its 120th power is a power of ten, up to the unit. -/
theorem exactFactor_pow (k : Int) : exactFactor k ^ 120 = 2 ^ (120 * Config.fractionBits) * (10 : ℝ) ^ k := by
  have unit : 32 * 120 = 120 * Config.fractionBits := rfl
  rw [exactFactor, mul_pow, ← pow_mul, unit, ← Real.rpow_mul_natCast (by norm_num), ← Real.rpow_intCast]
  congr 2
  push_cast
  ring

/-- A condition on a number's 120th power and a power of ten is one on the number and the factor. -/
theorem pow_le_iff {f : Nat} {k : Int} : (f : ℝ) ≤ exactFactor k ↔
    (f : ℝ) ^ 120 ≤ 2 ^ (120 * Config.fractionBits) * (10 : ℝ) ^ k := by
  rw [← exactFactor_pow]
  exact (pow_le_pow_iff_left₀ (Nat.cast_nonneg f) (exactFactor_pos k).le (by norm_num)).symm

theorem pow_eq_iff {f : Nat} {k : Int} : (f : ℝ) = exactFactor k ↔
    (f : ℝ) ^ 120 = 2 ^ (120 * Config.fractionBits) * (10 : ℝ) ^ k := by
  rw [← exactFactor_pow]
  exact (pow_left_inj₀ (Nat.cast_nonneg f) (exactFactor_pos k).le (by norm_num)).symm

/-- The two powers that the model compares, as reals. -/
theorem zpow_of_nonneg {k : Int} (up : 0 ≤ k) : (10 : ℝ) ^ k = 10 ^ k.toNat := by
  rw [← zpow_natCast, Int.toNat_of_nonneg up]

theorem zpow_of_neg {k : Int} (down : ¬0 ≤ k) : (10 : ℝ) ^ k * 10 ^ (-k).toNat = 1 := by
  rw [← zpow_natCast, Int.toNat_of_nonneg (by omega), ← zpow_add₀ (by norm_num), add_neg_cancel, zpow_zero]

theorem factorAtLeast_iff {f : Nat} {k : Int} : factorAtLeast k f = true ↔ (f : ℝ) ≤ exactFactor k := by
  rw [pow_le_iff, factorAtLeast]
  by_cases up : 0 ≤ k
  · rw [if_pos up, decide_eq_true_eq, zpow_of_nonneg up, mul_comm ((2 : ℝ) ^ _)]
    exact_mod_cast Iff.rfl
  · have inverse := zpow_of_neg up
    have tens : (0 : ℝ) < 10 ^ (-k).toNat := by positivity
    rw [if_neg up, decide_eq_true_eq, ← mul_le_mul_iff_left₀ tens, mul_assoc, inverse, mul_one]
    exact_mod_cast Iff.rfl

theorem factorExact_iff {f : Nat} {k : Int} : factorExact k f = true ↔ (f : ℝ) = exactFactor k := by
  rw [pow_eq_iff, factorExact]
  by_cases up : 0 ≤ k
  · rw [if_pos up, beq_iff_eq, zpow_of_nonneg up, mul_comm ((2 : ℝ) ^ _)]
    exact_mod_cast Iff.rfl
  · have inverse := zpow_of_neg up
    have tens : (10 : ℝ) ^ (-k).toNat ≠ 0 := by positivity
    rw [if_neg up, beq_iff_eq, ← mul_left_inj' tens, mul_assoc, inverse, mul_one]
    exact_mod_cast Iff.rfl

/-- The gains of a screen stay below the highest bit of a factor. -/
theorem exactFactor_lt {k : Int} (bound : k ≤ 360) : exactFactor k < ((2 ^ 42 : Nat) : ℝ) := by
  have exponent : (k : ℝ) / 120 ≤ 3 := by
    have cast : (k : ℝ) ≤ 360 := by exact_mod_cast bound
    linarith
  have power : (10 : ℝ) ^ ((k : ℝ) / 120) ≤ 10 ^ (3 : ℝ) := Real.rpow_le_rpow_of_exponent_le (by norm_num) exponent
  have cube : (10 : ℝ) ^ (3 : ℝ) = 1000 := by norm_num
  rw [exactFactor]
  push_cast
  nlinarith

/-- The factor found bit by bit. -/
def floorFactor (k : Int) : Nat := factorBits.foldl (fun f b => if factorAtLeast k (f + b) then f + b else f) 0

theorem floorFactor_spec {k : Int} (bound : k ≤ 360) :
    (floorFactor k : ℝ) ≤ exactFactor k ∧ exactFactor k < floorFactor k + 1 := by
  have beyond : factorAtLeast k (0 + 2 ^ 42) = false := by
    rw [Bool.eq_false_iff, ne_eq, factorAtLeast_iff, not_le, Nat.zero_add]
    exact exactFactor_lt bound
  have found := foldl_bits (factorAtLeast k) beyond
  have same : (descendingBits 42).foldl (fun f b => if factorAtLeast k (f + b) then f + b else f) 0 = floorFactor k :=
    rfl
  rw [same, Bool.eq_false_iff, ne_eq, factorAtLeast_iff, factorAtLeast_iff, not_le] at found
  obtain ⟨reached, last⟩ := found
  refine ⟨?_, by exact_mod_cast last⟩
  rcases reached with none | within
  · rw [none]
    exact_mod_cast (exactFactor_pos k).le
  · exact within

theorem gainFactor_eq (k : Int) : gainFactor k =
    if factorExact k (floorFactor k) then (floorFactor k : Int)
    else if Config.gainRoundsUp k then (floorFactor k : Int) + 1 else floorFactor k := rfl

theorem gainFactor_near {k : Int} (bound : k ≤ 360) :
    |(gainFactor k : ℝ) - 2 ^ 32 * (10 : ℝ) ^ ((k : ℝ) / 120)| < 1 := by
  obtain ⟨low, high⟩ := floorFactor_spec bound
  rw [← exactFactor, abs_lt, gainFactor_eq]
  split
  · push_cast
    constructor <;> linarith
  · rename_i inexact
    have strict : (floorFactor k : ℝ) < exactFactor k :=
      lt_of_le_of_ne low fun same => inexact (factorExact_iff.mpr same)
    split
    · push_cast
      constructor <;> linarith
    · push_cast
      constructor <;> linarith

/-! ### Decode, fader and trim (R30, R31, R49, R50) -/

/-- A period's mix is the sum of its inputs times their factors. -/
theorem mixPeriod_eq (factors : List (Nat × Int)) (period : List Int) :
    mixPeriod factors period = (factors.map fun x => x.2 * period.getD x.1 0).sum := by
  rw [mixPeriod, ← List.foldl_map (g := fun acc y => acc + y) (f := fun x : Nat × Int => x.2 * period.getD x.1 0),
    List.sum_eq_foldl]

/-- What a term gives an output under an offset and a gain. -/
def termPart (offset : Level) (gain : Int) (period : List Int) (t : RoutingTerm) : Int :=
  if t.gain = -240 ∨ offset = -240 then 0
  else (if t.invert then -1 else 1) * gainFactor (3 * (t.gain + offset) + gain) * period.getD t.input.val 0

section Routing
variable (f : FormatEntry) (state : Option Direction) (o : Fin 16) (g : Int) (period : List Int)

/-- The terms of an output whose own gain is not silence. -/
theorem heard_eq (terms : List RoutingTerm) (offset : Level) (audible : offset ≠ -240) :
    ((terms.filter fun t => t.output == o && t.gain != silence).map fun t =>
        (if t.invert then -gainFactor (3 * (t.gain + offset) + g) else gainFactor (3 * (t.gain + offset) + g)) *
          period.getD t.input.val 0).sum =
      ((terms.filter fun t => t.output == o).map (termPart offset g period)).sum := by
  induction terms with
  | nil => rfl
  | cons t rest ih =>
    by_cases named : t.output = o
    · by_cases silent : t.gain = -240
      · simpa [named, silent, silence, termPart] using ih
      · have part : termPart offset g period t =
            (if t.invert then -gainFactor (3 * (t.gain + offset) + g) else gainFactor (3 * (t.gain + offset) + g)) *
              period.getD t.input.val 0 := by
          rw [termPart, if_neg (by rintro (a | b); exacts [silent a, audible b])]
          split
          · rw [neg_one_mul]
          · rw [one_mul]
        simpa [named, silent, silence, part] using ih
    · simpa [named] using ih

theorem mixPeriod_routing : mixPeriod (routingFactors f state o (some g)) period =
    ((f.terms.filter fun t => t.output == o).map (termPart (rowOffset (f.rowFor state) o) g period)).sum := by
  rw [mixPeriod_eq]
  by_cases silent : rowOffset (f.rowFor state) o = -240
  · have quiet (t : RoutingTerm) : termPart (rowOffset (f.rowFor state) o) g period t = 0 := by
      rw [termPart, if_pos (.inr silent)]
    have none : routingFactors f state o (some g) = [] := if_pos silent
    rw [none, List.map_congr_left fun t _ => quiet t]
    simp
  · have heard : routingFactors f state o (some g) =
        (f.terms.filter fun t => t.output == o && t.gain != silence).map fun t =>
          (t.input.val, if t.invert then -gainFactor (3 * (t.gain + rowOffset (f.rowFor state) o) + g)
            else gainFactor (3 * (t.gain + rowOffset (f.rowFor state) o) + g)) := if_neg silent
    rw [heard, List.map_map, ← heard_eq o g period f.terms _ silent]
    rfl

end Routing

section Decode
variable {s : State} {x : Screen} {periods : List (List Int)} {c : Fin 16}

/-- What one format with a steering state gives an output, under the fader and the trim. -/
def underFormat (s : State) (x : Screen) (periods : List (List Int)) (c : Fin 16) (k : Fin 32)
    (state : Option Direction) : List Int :=
  periods.map (mixPeriod (routingFactors s.formats[k] state c (x.faderAndTrim s.timeBase c)))

theorem underFormat_off {k : Fin 32} {state : Option Direction}
    (off : faderGain (x.fader.position s.timeBase) = none) :
    underFormat s x periods c k state = List.replicate periods.length 0 := by
  have none : x.faderAndTrim s.timeBase c = none := by rw [Screen.faderAndTrim, off]; rfl
  have silent : mixPeriod [] = fun _ => 0 := rfl
  rw [underFormat, none, routingFactors, silent, List.map_const']

theorem underFormat_gain {k : Fin 32} {state : Option Direction} {g : Int}
    (on : faderGain (x.fader.position s.timeBase) = some g) :
    underFormat s x periods c k state = periods.map fun p =>
      ((s.formats[k].terms.filter fun t => t.output == c).map
        (termPart (rowOffset (s.formats[k].rowFor state) c) (g + 3 * x.channels[c].trim) p)).sum := by
  have some_ : x.faderAndTrim s.timeBase c = some (g + 3 * x.channels[c].trim) := by
    rw [Screen.faderAndTrim, on]
    rfl
  rw [underFormat, some_]
  exact List.map_congr_left fun p _ => mixPeriod_routing ..

theorem decodeChannel_none (none : x.activeFormat = none) :
    decodeChannel s x periods c = List.replicate periods.length 0 := by
  simp only [decodeChannel, none, List.map_const']

theorem decodeChannel_alone {k : Fin 32} (active : x.activeFormat = some k) (still : x.formatFade = none) :
    decodeChannel s x periods c = underFormat s x periods c k x.steering.state := by
  simp only [decodeChannel, active, still]
  rfl

theorem decodeChannel_fades {fade : FormatFade} {a o : Fin 32} (fades : x.formatFade = some fade)
    (active : x.activeFormat = some a) (outgoing : x.outgoingFormat = some o) : decodeChannel s x periods c =
      crossfade (elapsed s.timeBase fade.start) fade.duration (underFormat s x periods c a x.steering.state)
        (underFormat s x periods c o none) := by
  simp only [decodeChannel, fades, active, outgoing]
  rfl

/-- The row that shapes an output, as the format's matrix part lists it by steering state (R49). -/
theorem rowFor_eq (f : FormatEntry) (state : Option Direction) : f.rowFor state = match f.matrix, state with
    | none, _ => []
    | some m, none => m.neutral
    | some m, some .left => m.left
    | some m, some .centre => m.centre
    | some m, some .right => m.right
    | some m, some .surround => m.surround := by
  cases matrix : f.matrix with
  | none => simp only [FormatEntry.rowFor, matrix]
  | some m =>
    cases state with
    | none => simp only [FormatEntry.rowFor, matrix, MatrixPart.row]
    | some d => cases d <;> simp only [FormatEntry.rowFor, matrix, MatrixPart.row]

end Decode

/-! ### Crossfades (R56, R72) -/

theorem crossfade_between {t d k : Nat} {incoming outgoing : List Int} {x y : Int} (runs : 0 < d) (within : t ≤ d)
    (here : incoming[k]? = some x) (there : outgoing[k]? = some y) :
    ∃ v, (crossfade t d incoming outgoing)[k]? = some v ∧ |v * d - (x * t + y * (d - t))| < d := by
  have zipped : (incoming.zip outgoing)[k]? = some (x, y) :=
    List.getElem?_zip_eq_some.mpr ⟨here, there⟩
  refine ⟨quotient (x * min t d + y * ((d - min t d : Nat) : Int)) d, by
    rw [crossfade, List.getElem?_map, zipped]; rfl, ?_⟩
  have exact_ : x * (t : Int) + y * ((d : Int) - t) = x * (min t d : Nat) + y * ((d - min t d : Nat) : Int) := by
    rw [min_eq_left within, Nat.cast_sub within]
  rw [exact_]
  exact quotient_near _ runs

/-! ### Trim and the noise (R31, R84) -/

section Noise
variable {s : State} {x : Screen} {periods : List (List Int)} {c : Fin 16}

theorem trimStage_tested (aligns : x.state = .inAlign) (tested : s.run.channels[s.run.position]? = some c) :
    trimStage s x periods c = (List.range 32).map fun k =>
      Config.gear.noise s.run.testLevel (32 * s.fresh + k) * gainFactor (3 * x.channels[c].trim) := by
  have test : s.run.underTest = some c := tested
  rw [trimStage, if_pos aligns, if_pos test]
  rfl

theorem trimStage_silenced (aligns : x.state = .inAlign) (other : s.run.channels[s.run.position]? ≠ some c) :
    trimStage s x periods c = List.replicate periods.length 0 := by
  have rest : ¬s.run.underTest = some c := other
  rw [trimStage, if_pos aligns, if_neg rest, List.map_const']

theorem trimStage_decodes (other : x.state ≠ .inAlign) :
    trimStage s x periods c = decodeChannel s x periods c := if_neg other

/-- A level of the generator as the number of steps below full scale. -/
theorem level_eq_neg {level : Level} (low : -120 ≤ level) (high : level ≤ -20) :
    ∃ k : Nat, level = -(k : Int) ∧ 20 ≤ k ∧ k ≤ 120 := by
  have below : (-120 : Int) ≤ level := low
  have above : @LE.le Int _ level (-20) := high
  have value : @Eq Int level (-(level.natAbs : Int)) := by omega
  exact ⟨level.natAbs, value, by omega, by omega⟩

/-- The squares of a stretch of the noise add up to its energy. -/
theorem noise_squares (level : Level) (n size : Nat) :
    ((List.range size).map fun t => square (Config.gear.noise level (n + t))).sum =
      Config.energy (Config.stretch (Config.gear.noise level) n size) := by
  rw [Config.energy, Config.stretch, List.map_map]
  rfl

/-- An energy ratio within a factor of 10^(1/20) of 10^(−k/20) is a level within one step of −k. -/
theorem level_of_ratio {r : ℝ} {k : Nat} (pos : 0 < r) (low : 1 ≤ r ^ 20 * 10 ^ (k + 1)) (high : r ^ 20 * 10 ^ k ≤ 10) :
    |20 * Real.logb 10 r - (-(k : Int) : Int)| ≤ 1 := by
  have logs (j : Nat) : Real.logb 10 (r ^ 20 * 10 ^ j) = 20 * Real.logb 10 r + j := by
    rw [Real.logb_mul (by positivity) (by positivity), Real.logb_pow, Real.logb_pow,
      Real.logb_self_eq_one (by norm_num)]
    push_cast
    ring
  have floor := Real.logb_le_logb_of_le (b := 10) (by norm_num) one_pos low
  have ceiling := Real.logb_le_logb_of_le (b := 10) (by norm_num) (by positivity) high
  rw [Real.logb_one, logs] at floor
  rw [Real.logb_self_eq_one (by norm_num), logs] at ceiling
  rw [abs_le]
  push_cast at floor ceiling ⊢
  constructor <;> linarith

/-- Over a second the noise has its test level within a step (R84). -/
theorem noise_level {k : Nat} (low : 20 ≤ k) (high : k ≤ 120) (n : Nat) :
    |20 * Real.logb 10 ((Config.energy (Config.stretch (Config.gear.noise (-(k : Int))) n 48000) : ℝ) / 48000 /
      (8388608 * 8388608)) - (-(k : Int) : Int)| ≤ 1 := by
  obtain ⟨least, most⟩ := Config.gear.level k n low high
  have whole : (Config.fullSecond : ℝ) = 48000 * (8388608 * 8388608) := by
    norm_num [Config.fullSecond, Config.secondPeriods, Config.secondBlocks, Config.blockPeriods, Config.fullScale]
  have periods : Config.secondPeriods = 48000 := rfl
  rw [periods] at least most
  generalize Config.energy (Config.stretch (Config.gear.noise (-(k : Int))) n 48000) = e at least most ⊢
  have least' : (Config.fullSecond : ℝ) ^ 20 ≤ (e : ℝ) ^ 20 * 10 ^ (k + 1) := by exact_mod_cast least
  have most' : (e : ℝ) ^ 20 * 10 ^ k ≤ (Config.fullSecond : ℝ) ^ 20 * 10 := by exact_mod_cast most
  have full : (0 : ℝ) < Config.fullSecond := by rw [whole]; norm_num
  rw [div_div, ← whole]
  generalize (Config.fullSecond : ℝ) = w at least' most' full ⊢
  have some : (0 : ℝ) < e := by
    refine lt_of_le_of_ne (Nat.cast_nonneg e) fun none => ?_
    rw [← none, zero_pow (by norm_num), zero_mul] at least'
    exact absurd least' (not_le.mpr (by positivity))
  have w20 : (0 : ℝ) < w ^ 20 := by positivity
  refine level_of_ratio (div_pos some full) ?_ ?_
  · rw [div_pow, div_mul_eq_mul_div, le_div_iff₀ w20, one_mul]
    exact least'
  · rw [div_pow, div_mul_eq_mul_div, div_le_iff₀ w20, mul_comm 10]
    exact most'

end Noise

/-! ### The EQ stage (R31, R64, R65, R72) -/

section EqStage
variable {s : State} {i : Fin 8} {x : Screen} {c : Fin 16} {xs : List Int}

/-- The samples that the bank of a name gives a channel. -/
def throughBank (s : State) (i : Fin 8) (x : Screen) (c : Fin 16) (xs : List Int) (name : BankName) : List Int :=
  (passStages (s.eq[i][c].bank name).stages (x.channels[c].eqMemory.bank name) xs).1

theorem other_eq (name : BankName) : name.other = if name = .a then .b else .a := by cases name <;> rfl

theorem eqStage_tested (tested : x.state = .inAlign ∧ s.run.channels[s.run.position]? = some c) :
    (eqStage s i x c xs).1 = throughBank s i x c xs (if x.eqLive = .a then .b else .a) := by
  have test : x.state = .inAlign ∧ s.run.underTest = some c := tested
  rw [← other_eq]
  simp only [eqStage, if_pos test]
  rfl

theorem eqStage_live (other : ¬(x.state = .inAlign ∧ s.run.channels[s.run.position]? = some c))
    (still : x.eqSwap = none) : (eqStage s i x c xs).1 = throughBank s i x c xs x.eqLive := by
  have rest : ¬(x.state = .inAlign ∧ s.run.underTest = some c) := other
  simp only [eqStage, if_neg rest, still]
  rfl

theorem eqStage_swaps {w : SwapFade} (other : ¬(x.state = .inAlign ∧ s.run.channels[s.run.position]? = some c))
    (swaps : x.eqSwap = some w) : (eqStage s i x c xs).1 = crossfade (elapsed s.timeBase w.start) 50
      (throughBank s i x c xs x.eqLive) (throughBank s i x c xs w.outgoing) := by
  have rest : ¬(x.state = .inAlign ∧ s.run.underTest = some c) := other
  simp only [eqStage, if_neg rest, swaps]
  rfl

end EqStage

section Bank
variable (b : EqBank)

theorem stages_eq : b.stages =
    (if b.graphic.toList.all (· == 0) then none else some (Config.eqFilters.graphic b.graphic.toList)) ::
      b.sections.toList.map (fun q =>
        if q.type = .none ∨ (q.gain = 0 ∧ (q.type = .peak ∨ q.type = .lowShelf ∨ q.type = .highShelf)) then none
        else some (Config.eqFilters.parametric q.type q.freq q.gain q.q)) := by
  simp only [EqBank.stages, EqSection.isFlat_iff]

/-- Only a filter of the part stands in a cascade, and each rests in silence. -/
theorem stages_rest {filter : Config.EqFilter} (mem : some filter ∈ b.stages) (n : Nat) :
    filter [] (List.replicate n 0) = (List.replicate n 0, []) := by
  rw [stages_eq] at mem
  rcases List.mem_cons.mp mem with graphic | section_
  · split at graphic
    · cases graphic
    · cases graphic
      exact Config.eqFilters.graphic_rest _ n
  · obtain ⟨q, -, is⟩ := List.mem_map.mp section_
    split at is
    · cases is
    · cases is
      exact Config.eqFilters.parametric_rest _ _ _ _ n

/-- A bank that adds nothing has no filters. -/
theorem stages_flat (graphic : ∀ g ∈ b.graphic.toList, g = 0)
    (sections : ∀ q ∈ b.sections.toList, q.type = .none ∨
      (q.gain = 0 ∧ (q.type = .peak ∨ q.type = .lowShelf ∨ q.type = .highShelf))) :
    ∀ stage ∈ b.stages, stage = none := by
  intro stage mem
  rw [stages_eq] at mem
  rcases List.mem_cons.mp mem with rfl | listed
  · exact if_pos (List.all_eq_true.mpr fun g hg => beq_iff_eq.mpr (graphic g hg))
  · obtain ⟨q, hq, rfl⟩ := List.mem_map.mp listed
    exact if_pos (sections q hq)

theorem passStages_silent (n : Nat) :
    passStages b.stages restStages (List.replicate n 0) = (List.replicate n 0, restStages) := by
  have rest := passStages_rest (stages := b.stages) (n := n) fun f mem => stages_rest b mem n
  rwa [EqBank.stages_length] at rest

end Bank

/-- One stage of a cascade: what it makes of the block, and the memories so far with its own behind. -/
def stageStep (memories : List (List Int)) (y : List Int × List (List Int)) (stage : Option Config.EqFilter × Nat) :
    List Int × List (List Int) :=
  let z := match stage.1 with
    | none => (y.1, [])
    | some filter => filter (memories.getD stage.2 []) y.1
  (z.1, y.2 ++ [z.2])

theorem foldl_stageStep (memories : List (List Int)) (stages : List (Option Config.EqFilter)) (k : Nat)
    (xs : List Int) (before : List (List Int)) :
    (stages.zipIdx k).foldl (stageStep memories) (xs, before) =
      ((passStages stages (memories.drop k) xs).1, before ++ (passStages stages (memories.drop k) xs).2) := by
  induction stages generalizing k xs before with
  | nil => simp [passStages]
  | cons stage rest ih =>
    have head : (memories.drop k).headD [] = memories.getD k [] := by
      rw [List.headD_eq_head?_getD, List.head?_drop, List.getD_eq_getElem?_getD]
    rw [List.zipIdx_cons, List.foldl_cons]
    cases stage with
    | none =>
      rw [stageStep, ih, passStages, List.tail_drop]
      simp
    | some filter =>
      rw [stageStep, ih, passStages, head, List.tail_drop]
      simp

theorem passStages_foldl (memories : List (List Int)) (stages : List (Option Config.EqFilter)) (xs : List Int) :
    passStages stages memories xs = stages.zipIdx.foldl (stageStep memories) (xs, []) := by
  rw [foldl_stageStep]
  rfl

/-! ### The responses (R64, R65) -/

/-- A response meets two gains when it lies between them, each within half a level step. -/
def meets (low high actual : ℝ) : Prop :=
  (10 : ℝ) ^ ((low - 1 / 2) / 40) ≤ actual ∧ actual ≤ (10 : ℝ) ^ ((high + 1 / 2) / 40)

theorem meets_of_gives {actual gain : ℝ} (gives : Config.gives actual (Config.amplitude gain)) :
    meets gain gain actual := amplitude_half_step.mp gives

/-- The full amplitude is a gain of no steps. -/
theorem meets_of_gives_one {actual : ℝ} (gives : Config.gives actual 1) : meets 0 0 actual :=
  meets_of_gives (by rwa [amplitude_zero])

theorem eq_zero_of_gives {actual : ℝ} (gives : Config.gives actual 0) : actual = 0 := by
  obtain ⟨low, high⟩ := gives
  rw [zero_mul] at low high
  exact le_antisymm high low

theorem toList_getD {n : Nat} (gains : Vector Int n) (b : Fin n) : gains.toList.getD b.val 0 = gains[b] := by
  simp [List.getD_eq_getElem?_getD]

theorem graphic_meets (gains : Vector Int 31) (range : ∀ g ∈ gains.toList, -48 ≤ g ∧ g ≤ 24) :
    ∃ h, (Config.eqFilters.graphic gains.toList).follows h ∧ Differentiable ℝ (Config.response h) ∧
      (∀ b : Fin 31, meets gains[b] gains[b] (Config.response h (20 * 2 ^ ((b.val : ℝ) / 3)))) ∧
      ∀ (b : Nat) (_ : b + 1 < 31) (hz : ℝ), 20 * 2 ^ ((b : ℝ) / 3) ≤ hz → hz ≤ 20 * 2 ^ (((b : ℝ) + 1) / 3) →
        meets (min gains[b] gains[b + 1] : Int) (max gains[b] gains[b + 1] : Int) (Config.response h hz) := by
  obtain ⟨h, follows, responds⟩ := Config.eqFilters.graphic_responds gains.toList (by simp) range
  refine ⟨h, follows, responds.smooth, fun b => ?_, fun b next hz low high => ?_⟩
  · have centre := responds.centre b.val b.isLt
    rw [toList_getD] at centre
    exact meets_of_gives centre
  · have upper : Config.bandHz (b + 1) = 20 * 2 ^ (((b : ℝ) + 1) / 3) := by
      rw [Config.bandHz]
      push_cast
      rfl
    have between := responds.between b (by omega) hz low (upper ▸ high)
    have here := toList_getD gains ⟨b, by omega⟩
    have there := toList_getD gains ⟨b + 1, next⟩
    simp only at here there
    rw [here, there] at between
    rw [Int.cast_min, Int.cast_max]
    exact amplitude_half_step.mp between

section Sections
variable {type : SectionType} {freq : Nat} {gain : Int} {r : ℝ → ℝ} (responds : Config.SectionResponse type freq gain r)
include responds

theorem peak_meets (peak : type = .peak) :
    meets gain gain (r (20 * 2 ^ ((freq : ℝ) / 12))) ∧ meets 0 0 (r 0) ∧ meets 0 0 (r 24000) := by
  subst peak
  exact ⟨meets_of_gives (responds.centre rfl), meets_of_gives_one (by simpa [SectionType.below] using responds.lowest),
    meets_of_gives_one (by simpa [SectionType.above] using responds.highest)⟩

theorem lowShelf_meets (shelf : type = .lowShelf) : meets gain gain (r 0) ∧ meets 0 0 (r 24000) := by
  subst shelf
  exact ⟨meets_of_gives (by simpa [SectionType.below, SectionType.full] using responds.lowest),
    meets_of_gives_one (by simpa [SectionType.above] using responds.highest)⟩

theorem highShelf_meets (shelf : type = .highShelf) : meets 0 0 (r 0) ∧ meets gain gain (r 24000) := by
  subst shelf
  exact ⟨meets_of_gives_one (by simpa [SectionType.below] using responds.lowest),
    meets_of_gives (by simpa [SectionType.above, SectionType.full] using responds.highest)⟩

theorem lowCut_meets (cut : type = .lowCut) : r 0 = 0 ∧ meets 0 0 (r 24000) := by
  subst cut
  exact ⟨eq_zero_of_gives (by simpa [SectionType.below, SectionType.full] using responds.lowest),
    meets_of_gives_one (by simpa [SectionType.above] using responds.highest)⟩

theorem highCut_meets (cut : type = .highCut) : meets 0 0 (r 0) ∧ r 24000 = 0 := by
  subst cut
  exact ⟨meets_of_gives_one (by simpa [SectionType.below] using responds.lowest),
    eq_zero_of_gives (by simpa [SectionType.above, SectionType.full] using responds.highest)⟩

end Sections

/-- A cut, and a bell or shelf whose gain is not 0, has an effect for its Q to shape. -/
theorem full_ne_one {type : SectionType} {gain : Int}
    (acts : type = .lowCut ∨ type = .highCut ∨ (type ≠ .none ∧ gain ≠ 0)) : type.full gain ≠ 1 := by
  rcases acts with rfl | rfl | ⟨some, moved⟩
  · exact zero_ne_one
  · exact zero_ne_one
  · cases type with
    | none => exact absurd rfl some
    | peak => exact amplitude_ne_one moved
    | lowShelf => exact amplitude_ne_one moved
    | highShelf => exact amplitude_ne_one moved
    | lowCut => exact zero_ne_one
    | highCut => exact zero_ne_one

/-! ### The samples of a block (R31, R42) -/

/-- The channels in use are the first ones. -/
theorem inUse_get {x : Screen} {c : Fin 16} (used : c.val < x.count) : x.inUse[c.val]? = some c := by
  have kept : (indexes 16).take (c.val + 1) =
      ((indexes 16).take (c.val + 1)).filter fun k => decide (k.val < x.count) := by
    refine (List.filter_eq_self.mpr fun k mem => ?_).symm
    obtain ⟨j, bound, rfl⟩ := List.mem_iff_getElem.mp mem
    rw [List.length_take] at bound
    have below : j < c.val + 1 := lt_of_lt_of_le bound (min_le_left ..)
    simp [indexes]
    omega
  have split := List.take_append_drop (c.val + 1) (indexes 16)
  have inside : c.val < ((indexes 16).take (c.val + 1)).length := by simp [indexes]
  rw [Screen.inUse, ← split, List.filter_append, ← kept, List.getElem?_append_left inside]
  simp [indexes]

theorem inUse_length {x : Screen} (most : x.count ≤ 16) : x.inUse.length = x.count := by
  have counts (n : Nat) (bound : n ≤ 16) : ((indexes 16).filter fun c => decide (c.val < n)).length = n := by
    interval_cases n <;> rfl
  exact counts x.count most

/-- In rows of one length laid end to end, row `k` holds entry `c` at `k` lengths and `c`. -/
theorem flatMap_get {α : Type} (row : Nat → List α) {m n k c : Nat} (even : ∀ j, (row j).length = m) (here : k < n)
    (inside : c < m) : ((List.range n).flatMap row)[k * m + c]? = (row k)[c]? := by
  have size (n : Nat) : ((List.range n).flatMap row).length = n * m := by
    simp [List.length_flatMap, even]
  induction n with
  | zero => omega
  | succ n ih =>
    rw [List.range_succ, List.flatMap_append, List.flatMap_singleton]
    rcases Nat.lt_or_ge k n with earlier | last
    · have bound : k * m + c < n * m := by nlinarith
      rw [List.getElem?_append_left (by rw [size]; exact bound), ih earlier]
    · obtain rfl : k = n := by omega
      rw [List.getElem?_append_right (by rw [size]; omega), size, Nat.add_sub_cancel_left]

theorem passChain_sample {i : Fin 8} {f : Frame} {s : State} {k : Nat} {c : Fin 16} (here : k < 32)
    (used : c.val < s.screens[i].count) (most : s.screens[i].count ≤ 16) :
    (passChain i f s).2[k * s.screens[i].count + c.val]? =
      some ((muteStage s.timeBase s.screens[i] c
        (meterPoint s i s.screens[i] (blockPeriodsOf f) c).samples).getD k 0) := by
  generalize out_eq : (s.screens[i].inUse.zip (s.screens[i].inUse.map
    (meterPoint s i s.screens[i] (blockPeriodsOf f)))).map
      (fun p => muteStage s.timeBase s.screens[i] p.1 p.2.samples) = out
  have samples : (passChain i f s).2 = (List.range 32).flatMap fun k => out.map fun xs => xs.getD k 0 := by
    rw [← out_eq]
    rfl
  have size : out.length = s.screens[i].count := by
    rw [← out_eq, List.length_map, List.length_zip, List.length_map, min_self, inUse_length most]
  have channel : out[c.val]? = some (muteStage s.timeBase s.screens[i] c
      (meterPoint s i s.screens[i] (blockPeriodsOf f) c).samples) := by
    have zipped : (s.screens[i].inUse.zip (s.screens[i].inUse.map
        (meterPoint s i s.screens[i] (blockPeriodsOf f))))[c.val]? =
        some (c, meterPoint s i s.screens[i] (blockPeriodsOf f) c) :=
      List.getElem?_zip_eq_some.mpr ⟨inUse_get used, by rw [List.getElem?_map, inUse_get used]; rfl⟩
    rw [← out_eq, List.getElem?_map, zipped]
    rfl
  rw [samples, flatMap_get _ (fun j => by rw [List.length_map, size]) here used, List.getElem?_map, channel]
  rfl

/-- Settles O19: the stages of the chain one by one; the noise, the analyser and the filters by the laws of the part's
free values. -/
theorem theFaderLaw : Obligations.TheFaderLaw := by
  refine ⟨⟨rfl, rfl, fun p => faderGain_low, fun p => faderGain_high⟩, fun k => gainFactor_near,
    fun s x periods c => ⟨decodeChannel_none, fun k active still => ?_, fun fade a o fades active outgoing => ?_⟩,
    fun t d incoming outgoing runs same => ⟨crossfade_start runs same, fun done => crossfade_end runs done same,
      fun k x y within => crossfade_between runs within⟩,
    fun s x periods c => ⟨trimStage_tested, trimStage_silenced, trimStage_decodes⟩, fun level n low high => ?_,
    fun level low high => ?_, fun s i x c xs => ⟨eqStage_tested, eqStage_live, fun w => eqStage_swaps⟩,
    fun b => ⟨stages_eq b, fun memories xs graphic sections => passStages_unchanged (stages_flat b graphic sections) ..,
      passStages_silent b, fun memories xs => passStages_foldl memories b.stages xs⟩,
    ⟨graphic_meets, fun type freq gain index low high => ?_⟩,
    fun i f s => ⟨passChain_screen i f s, fun k c => passChain_sample⟩⟩
  · have alone := decodeChannel_alone (s := s) (periods := periods) (c := c) active still
    exact ⟨fun off => alone.trans (underFormat_off off), fun g on => alone.trans ((underFormat_gain on).trans
      (congrArg (fun row => periods.map fun p => ((s.formats[k].terms.filter fun t => t.output == c).map
        (termPart (rowOffset row c) (g + 3 * x.channels[c].trim) p)).sum) (rowFor_eq s.formats[k] x.steering.state)))⟩
  · have incoming : decodeChannel s { x with formatFade := none } periods c =
        underFormat s x periods c a x.steering.state := decodeChannel_alone active rfl
    have outgoing_ : decodeChannel s
          { x with formatFade := none, activeFormat := some o, steering := ⟨none, none, 0⟩ } periods c =
        underFormat s x periods c o none := decodeChannel_alone rfl rfl
    rw [decodeChannel_fades fades active outgoing, incoming, outgoing_]
  · obtain ⟨k, rfl, least, most⟩ := level_eq_neg low high
    intro mean
    have value : mean = (Config.energy (Config.stretch (Config.gear.noise (-(k : Int))) n 48000) : ℝ) / 48000 :=
      congrArg (fun e : Nat => (e : ℝ) / 48000) (noise_squares _ n 48000)
    rw [value]
    exact noise_level least most n
  · obtain ⟨k, rfl, least, most⟩ := level_eq_neg low high
    obtain ⟨long, equal⟩ := Config.gear.equal k least most
    exact ⟨long, fun size n b enough => (equal size n b enough).symm⟩
  · obtain ⟨h, responds, sharper⟩ := Config.eqFilters.parametric_responds type freq gain (by omega) low high
    refine ⟨h, fun q bound => ?_, fun q q' bound bound' less acts =>
      sharper q (by omega) q' (by omega) less (full_ne_one acts)⟩
    obtain ⟨follows, section_⟩ := responds q (by omega)
    exact ⟨follows, section_, peak_meets section_, lowShelf_meets section_, highShelf_meets section_,
      lowCut_meets section_, highCut_meets section_⟩

end Sys2Proof.Machine
end

section
/-!
PROOF. The requests for formats and the ends of their crossfades (R51, R54 to R58), FORMAT_ARM, FORMAT_TAKE and EQ_SWAP
(R71, R73): what each leaves of the screens and of the use counts, said once for the commands here and for the
invariant of the use counts below.
-/

namespace Sys2Proof.Machine

/-! ### The references that a request moves (R51, R54 to R58) -/

section References
variable (i : Fin 8) (s : State)

@[simp] theorem addUse_screens (k : Option (Fin 32)) : (addUse k s).screens = s.screens := by rw [addUse_frame]
@[simp] theorem dropUse_screens (k : Option (Fin 32)) : (dropUse k s).screens = s.screens := by rw [dropUse_frame]
@[simp] theorem file_formats (screen : Option (Fin 8)) (body : NoticeBody) :
    (file screen body s).formats = s.formats := by rw [file_frame]

theorem addUse_useCount (k : Option (Fin 32)) (j : Fin 32) : (addUse k s).formats[j] =
    { s.formats[j] with useCount := s.formats[j].useCount + if k = some j then 1 else 0 } := by
  cases k with
  | none => rfl
  | some k =>
    rw [addUse_format]
    by_cases own : j = k
    · subst own; simp
    · simp [own, Ne.symm own]

theorem armFormat_screens (k : Option (Fin 32)) :
    (armFormat i k s).screens = modifyAt s.screens i fun x => { x with pendingFormat := k } := by
  rw [armFormat, State.onScreen_screens, addUse_screens, dropUse_screens]

theorem armFormat_format (k : Option (Fin 32)) (j : Fin 32) : (armFormat i k s).formats[j] =
    { s.formats[j] with
      useCount := s.formats[j].useCount - (if s.screens[i].pendingFormat = some j then 1 else 0) +
        (if k = some j then 1 else 0) } := by
  rw [armFormat, State.onScreen_formats, addUse_useCount, dropUse_format]

theorem endFormatFade_screens (cutShort : Bool) : (endFormatFade i cutShort s).screens =
    modifyAt s.screens i fun x => { x with outgoingFormat := none, formatFade := none } := by
  unfold endFormatFade
  dsimp only
  split
  · rw [file_screens, State.onScreen_screens, dropUse_screens]
  · rw [State.onScreen_screens, dropUse_screens]

theorem endFormatFade_formats (cutShort : Bool) :
    (endFormatFade i cutShort s).formats = (dropUse s.screens[i].outgoingFormat s).formats := by
  unfold endFormatFade
  dsimp only
  split
  · rw [file_formats, State.onScreen_formats]
  · rw [State.onScreen_formats]

/-- A screen without a crossfade in flight, as a take finds it (R58). -/
def cutCrossfade (i : Fin 8) (s : State) : State :=
  if s.screens[i].formatFade.isSome then endFormatFade i true s else s

theorem takeFormat_eq (ms : Nat) : takeFormat i ms s =
    if ms = 0 then endFormatFade i false (takenFormat i ms (cutCrossfade i s))
    else takenFormat i ms (cutCrossfade i s) := rfl

end References

/-! ### FORMAT_ARM and FORMAT_TAKE (R54, R55) -/

section Commands
variable {c : Command} {s : State} {i : Fin 8}

theorem cmdFormatArm_answers {k : Option (Fin 32)} (selector : c.selector = BitVec.ofNat 8 i.val)
    (payload : c.payload = [indexByte k]) (on : s.screens[i].state ≠ .off)
    (admits : ∀ j, k = some j →
      s.formats[j].valid = true ∧ ∀ t ∈ s.formats[j].terms, t.output.val < s.screens[i].count) :
    cmdFormatArm c s = (armFormat i k s, ⟨.ok, 0#8, []⟩) := by
  have named : readOptional 32 (c.byte 0) = some k := by
    rw [Command.byte, payload]
    exact readOptional_indexByte (by decide) k
  refine (screenCommand_answers (by rw [payload]; rfl) selector ?_).trans ?_
  · cases k with
    | none => simp [checkArm, named, firstFailure, isOff_eq_false on]
    | some j =>
      obtain ⟨valid, inUse⟩ := admits j rfl
      have fits : s.formats[j].fits s.screens[i].count = true :=
        List.all_eq_true.mpr fun t listed => decide_eq_true (inUse t listed)
      simp only [checkArm, named, isOff_eq_false on, valid, fits]
      rfl
  · simp only [effectArm, named]

theorem takeTime_eq {ms : Nat} (most : ms ≤ 2000) (payload : c.payload = bytes2 ms) : c.num2 0 = ms := by
  simp only [Command.num2, Command.byte, payload]
  exact nat2_bytes2 (by omega)

theorem cmdFormatTake_answers {ms : Nat} (selector : c.selector = BitVec.ofNat 8 i.val) (most : ms ≤ 2000)
    (payload : c.payload = bytes2 ms) (on : s.screens[i].state ≠ .off) (free : s.screens[i].state ≠ .inAlign)
    (pending : s.screens[i].pendingFormat.isNone = false) :
    cmdFormatTake c s = (takeFormat i ms s, ⟨.ok, 0#8, []⟩) := by
  have time := takeTime_eq most payload
  refine (screenCommand_answers (by rw [payload]; rfl) selector ?_).trans (by rw [time])
  simp only [checkTake, isOff_eq_false on, time, most.not_gt, decide_false, isAligning_eq_false free, pending]
  rfl

theorem cmdFormatTake_refused {ms : Nat} (selector : c.selector = BitVec.ofNat 8 i.val) (most : ms ≤ 2000)
    (payload : c.payload = bytes2 ms) (nothing : s.screens[i].pendingFormat = none) :
    cmdFormatTake c s = (s, ⟨.badState, screenFlag i, []⟩) := by
  have length : (c.payload.length == 2) = true := by rw [payload]; rfl
  rw [cmdFormatTake, length]
  refine screenCommand_refused selector ?_
  simp only [checkTake, takeTime_eq most payload, most.not_gt, decide_false, nothing]
  cases s.isOff i <;> cases s.isAligning i <;> rfl

/-- A crossfade between two formats ends. -/
theorem endFormatFade_eq {x o : Fin 32} (cutShort : Bool)
    (active : s.screens[i].activeFormat = some x) (outgoing : s.screens[i].outgoingFormat = some o) :
    endFormatFade i cutShort s = endedCrossfade i cutShort x o s := by
  simp only [endFormatFade, active, outgoing]
  rfl

/-- What a take makes of a screen between two formats (R55, R57, R58). -/
theorem takeFormat_between {ms : Nat} {x y : Fin 32} (active : (cutCrossfade i s).screens[i].activeFormat = some x)
    (pending : (cutCrossfade i s).screens[i].pendingFormat = some y) : takeFormat i ms s =
    if ms = 0 then endedCrossfade i false y x (takenFormat i 0 (cutCrossfade i s))
    else takenFormat i ms (cutCrossfade i s) := by
  rw [takeFormat_eq]
  by_cases atOnce : ms = 0
  · subst atOnce
    rw [if_pos rfl, if_pos rfl]
    exact endFormatFade_eq false (by rw [takenFormat, onScreen_same]; exact pending)
      (by rw [takenFormat, onScreen_same]; exact active)
  · rw [if_neg atOnce, if_neg atOnce]

theorem cutCrossfade_still (still : s.screens[i].formatFade = none) : cutCrossfade i s = s := by
  rw [cutCrossfade, still]
  rfl

theorem cutCrossfade_fading {x o : Fin 32} (fading : s.screens[i].formatFade ≠ none)
    (active : s.screens[i].activeFormat = some x) (outgoing : s.screens[i].outgoingFormat = some o) :
    cutCrossfade i s = endedCrossfade i true x o s := by
  rw [cutCrossfade, if_pos (Option.ne_none_iff_isSome.mp fading), endFormatFade_eq true active outgoing]

theorem endedCrossfade_screen (cutShort : Bool) (x o : Fin 32) : (endedCrossfade i cutShort x o s).screens[i] =
    { s.screens[i] with outgoingFormat := none, formatFade := none } := by
  rw [endedCrossfade, file_screens, onScreen_same]
  rfl

/-! ### EQ_SWAP (R71) -/

theorem cmdEqSwap_answers (selector : c.selector = BitVec.ofNat 8 i.val) (empty : c.payload = [])
    (on : s.screens[i].state ≠ .off) (free : s.screens[i].state ≠ .inAlign) (still : s.screens[i].eqSwap = none) :
    cmdEqSwap c s = (swapBanks i s, ⟨.ok, 0#8, []⟩) := by
  have idle : s.eqBusy i = false := by rw [State.eqBusy, isAligning_eq_false free, still]; rfl
  refine screenCommand_answers (isEmpty_of_nil empty) selector ?_
  simp [checkSwap, firstFailure, isOff_eq_false on, idle]

end Commands

theorem BankName.other_eq (x : BankName) : x.other = if x = .a then .b else .a := by cases x <;> rfl

/-- Settles O22: each row's body answers with its request, and a take falls into the crossfade cut short, the formats
moved and, at a duration of 0, the crossfade ended. -/
theorem formatTakesAndEqSwapsCrossfade : Obligations.FormatTakesAndEqSwapsCrossfade := by
  refine ⟨fun i a s k can names on payload admits => ?_,
    fun i a s ms x y can names most payload on free active pending => ?_,
    fun i a s ms can names most payload nothing => ?_,
    fun i s fade x o runs fades time active outgoing => ?_,
    fun i a s => ⟨fun can names empty on free still => ?_, fun w runs swaps time => ?_⟩⟩
  · refine ⟨armFormat i k s, congrArg _ (commandRow_answers can (cmdFormatArm_answers names payload on admits)),
      armFormat_frame s i k, ?_, fun j other => ?_, fun j => armFormat_format i s k j⟩
    · rw [armFormat_screens, modifyAt_same]
    · rw [armFormat_screens, modifyAt_other _ _ other]
  · have row : exec (.formatTake a) s = .next (answered a 35#8 .ok 0#8 [] (takeFormat i ms s)) :=
      congrArg _ (commandRow_answers can
        (cmdFormatTake_answers names most payload on free (by rw [pending]; rfl)))
    refine ⟨fun still lasts => ?_, fun still atOnce => ?_, fun o fading outgoing => ?_⟩
    · rw [row, takeFormat_between (x := x) (y := y), cutCrossfade_still still, if_neg lasts.ne']
      all_goals rwa [cutCrossfade_still still]
    · rw [row, takeFormat_between (x := x) (y := y), cutCrossfade_still still, if_pos atOnce]
      all_goals rwa [cutCrossfade_still still]
    · have cut := cutCrossfade_fading fading active outgoing
      have takes := takeFormat_between (ms := ms) (x := x) (y := y)
        (by rw [cut, endedCrossfade_screen]; exact active) (by rw [cut, endedCrossfade_screen]; exact pending)
      rw [cut] at takes
      refine ⟨fun lasts => ?_, fun atOnce => ?_⟩
      · rw [row, takes, if_neg lasts.ne']
      · rw [row, takes, if_pos atOnce]
  · exact congrArg _ (commandRow_refuses can (cmdFormatTake_refused names most payload nothing))
  · exact congrArg _ ((timedRow_due runs ((dueFormatFadeEnd_iff i s).mpr ⟨fade, fades, time⟩)).trans
      (endFormatFade_eq false active outgoing))
  · refine congrArg _ ((commandRow_answers can (cmdEqSwap_answers names empty on free still)).trans ?_)
    simp only [swapBanks, BankName.other_eq]
    rfl
  · exact congrArg _ ((timedRow_due runs ((dueSwapEnd_iff i s).mpr ⟨w, swaps, time⟩)).trans (endSwap_eq i false s))

end Sys2Proof.Machine
end

section
/-!
PROOF. The use counts of the formats (R51): what the invariant reads of the unit, the changes that move references, and
that every operation of the model keeps the counts true.
-/

namespace Sys2Proof.Machine

/-! ### What the counts read -/

/-- What the use counts read of a screen. -/
structure ScreenRefs where
  off : Bool
  active : Option (Fin 32)
  pending : Option (Fin 32)
  outgoing : Option (Fin 32)
  fades : Bool

/-- That of a screen. -/
def Screen.refs (x : Screen) : ScreenRefs :=
  ⟨x.state == .off, x.activeFormat, x.pendingFormat, x.outgoingFormat, x.formatFade.isSome⟩

/-- That of the unit, with the counts themselves. -/
def State.refs (s : State) : (Fin 8 → ScreenRefs) × (Fin 32 → Nat) :=
  (fun i => s.screens[i].refs, fun k => s.formats[k].useCount)

/-- A screen holds no outgoing format outside a crossfade, and none at all when OFF (R19, R57). -/
structure Screen.RefsStand (x : Screen) : Prop where
  still : x.formatFade = none → x.outgoingFormat = none
  off : x.state = .off → x.activeFormat = none ∧ x.pendingFormat = none ∧ x.outgoingFormat = none

theorem useCountsAreTrue_iff {s : State} : s.useCountsAreTrue ↔
    (∀ k : Fin 32, s.formats[k].useCount = s.uses k) ∧ ∀ i : Fin 8, s.screens[i].RefsStand :=
  ⟨fun ⟨counts, stands⟩ => ⟨counts, fun i => ⟨(stands i).1, (stands i).2⟩⟩,
    fun ⟨counts, stands⟩ => ⟨counts, fun i => ⟨(stands i).still, (stands i).off⟩⟩⟩

theorem refs_eq_iff {x y : Screen} : x.refs = y.refs ↔ (x.state = .off ↔ y.state = .off) ∧
    x.activeFormat = y.activeFormat ∧ x.pendingFormat = y.pendingFormat ∧ x.outgoingFormat = y.outgoingFormat ∧
    (x.formatFade = none ↔ y.formatFade = none) := by
  have states (a b : ScreenState) : (a == .off) = (b == .off) ↔ (a = .off ↔ b = .off) := by
    rw [Bool.eq_iff_iff, beq_iff_eq, beq_iff_eq]
  have fades (a b : Option FormatFade) : a.isSome = b.isSome ↔ (a = none ↔ b = none) := by
    cases a <;> cases b <;> simp
  simp only [Screen.refs, ScreenRefs.mk.injEq, states, fades]

theorem refsStand_of_refs {x y : Screen} (same : x.refs = y.refs) (stands : y.RefsStand) : x.RefsStand := by
  obtain ⟨off, active, pending, outgoing, fades⟩ := refs_eq_iff.mp same
  refine ⟨fun still => ?_, fun isOff => ?_⟩
  · rw [outgoing]; exact stands.still (fades.mp still)
  · rw [active, pending, outgoing]; exact stands.off (off.mp isOff)

theorem uses_of_refs {x y : Screen} (same : x.refs = y.refs) (k : Fin 32) : x.uses k = y.uses k := by
  obtain ⟨-, active, pending, outgoing, -⟩ := refs_eq_iff.mp same
  rw [x.uses_eq, y.uses_eq, active, pending, outgoing]

theorem uses_eq_sum (s : State) (k : Fin 32) : s.uses k = ∑ i : Fin 8, s.screens[i].uses k := by
  have entries : (List.finRange 8).map (fun i => s.screens[i]) = s.screens.toList :=
    List.ext_getElem (by simp) fun j _ _ => by simp
  rw [State.uses, ← entries, List.map_map, Fin.sum_univ_def]
  rfl

theorem uses_le (s : State) (i : Fin 8) (k : Fin 32) : s.screens[i].uses k ≤ s.uses k := by
  rw [uses_eq_sum]
  exact Finset.single_le_sum (f := fun i : Fin 8 => s.screens[i].uses k) (fun _ _ => Nat.zero_le _) (Finset.mem_univ i)

/-! ### Keeping the counts -/

/-- The counts stay true. -/
structure KeepsCounts (s t : State) : Prop where
  counts : s.useCountsAreTrue → t.useCountsAreTrue

namespace KeepsCounts

theorem refl (s : State) : KeepsCounts s s := ⟨id⟩

theorem trans {s t u : State} (first : KeepsCounts s t) (second : KeepsCounts t u) : KeepsCounts s u :=
  ⟨second.counts ∘ first.counts⟩

/-- The references of one screen move, and the counts with them. -/
theorem moves {s t : State} (i : Fin 8)
    (others : ∀ j : Fin 8, j ≠ i → t.screens[j].refs = s.screens[j].refs)
    (stands : s.useCountsAreTrue → s.screens[i].RefsStand → t.screens[i].RefsStand)
    (counts : ∀ k : Fin 32, s.screens[i].RefsStand → s.screens[i].uses k ≤ s.formats[k].useCount →
      t.formats[k].useCount + s.screens[i].uses k = s.formats[k].useCount + t.screens[i].uses k) :
    KeepsCounts s t := by
  refine ⟨fun holds => ?_⟩
  obtain ⟨trueCounts, allStand⟩ := useCountsAreTrue_iff.mp holds
  refine useCountsAreTrue_iff.mpr ⟨fun k => ?_, fun j => ?_⟩
  · have moved := counts k (allStand i) (trueCounts k ▸ uses_le s i k)
    have before := Finset.add_sum_erase Finset.univ (fun j : Fin 8 => s.screens[j].uses k) (Finset.mem_univ i)
    have after := Finset.add_sum_erase Finset.univ (fun j : Fin 8 => t.screens[j].uses k) (Finset.mem_univ i)
    have rest : ∑ j ∈ Finset.univ.erase i, t.screens[j].uses k = ∑ j ∈ Finset.univ.erase i, s.screens[j].uses k :=
      Finset.sum_congr rfl fun j mem => uses_of_refs (others j (Finset.ne_of_mem_erase mem)) k
    rw [trueCounts, uses_eq_sum] at moved
    rw [uses_eq_sum]
    omega
  · by_cases own : j = i
    · subst own; exact stands holds (allStand j)
    · exact refsStand_of_refs (others j own) (allStand j)

/-- Whatever leaves the references. -/
theorem silent {s t : State} (same : t.refs = s.refs) : KeepsCounts s t := by
  have screens (i : Fin 8) : t.screens[i].refs = s.screens[i].refs := congrFun (congrArg Prod.fst same) i
  have counts (k : Fin 32) : t.formats[k].useCount = s.formats[k].useCount := congrFun (congrArg Prod.snd same) k
  exact moves 0 (fun j _ => screens j) (fun _ => refsStand_of_refs (screens 0)) fun k _ _ => by
    rw [counts, uses_of_refs (screens 0)]

/-- A part of an event after a change that leaves the references. -/
theorem after {s t u : State} (rest : KeepsCounts t u) (same : t.refs = s.refs) : KeepsCounts s u :=
  (silent same).trans rest

/-- A part of an event before one. -/
theorem before {s t u : State} (first : KeepsCounts s t) (same : u.refs = t.refs) : KeepsCounts s u :=
  first.trans (silent same)

/-- A part of an event under a condition. -/
theorem ite {s t : State} {p : Prop} [Decidable p] (part : KeepsCounts s t) : KeepsCounts s (if p then t else s) := by
  split
  · exact part
  · exact refl s

/-- A fold of parts of an event is one. -/
theorem foldl {α : Type} {f : State → α → State} (each : ∀ s x, KeepsCounts s (f s x)) (l : List α) (s : State) :
    KeepsCounts s (l.foldl f s) := by
  induction l generalizing s with
  | nil => exact refl s
  | cons x rest ih => exact (each s x).trans (ih _)

/-- A unit whose screens are all OFF and whose formats are free (R18, R51). -/
theorem free {s t : State} (screens : ∀ i : Fin 8, ∃ rehearsal live, t.screens[i] = offScreen rehearsal live)
    (formats : ∀ k : Fin 32, t.formats[k].useCount = 0) : KeepsCounts s t := by
  refine ⟨fun _ => useCountsAreTrue_iff.mpr ⟨fun k => ?_, fun i => ?_⟩⟩
  · rw [formats, uses_eq_sum]
    refine (Finset.sum_eq_zero fun i _ => ?_).symm
    obtain ⟨rehearsal, live, off⟩ := screens i
    rw [off]
    rfl
  · obtain ⟨rehearsal, live, off⟩ := screens i
    rw [off]
    exact ⟨fun _ => rfl, fun _ => ⟨rfl, rfl, rfl⟩⟩

end KeepsCounts

/-! ### What leaves the references -/

theorem refs_congr {s t : State} (screens : t.screens = s.screens) (formats : t.formats = s.formats) :
    t.refs = s.refs := by
  rw [State.refs, screens, formats]
  rfl

theorem onScreen_refs_of {s : State} {i : Fin 8} {f : Screen → Screen}
    (same : (f s.screens[i]).refs = s.screens[i].refs) : (s.onScreen i f).refs = s.refs := by
  refine Prod.ext (funext fun j => ?_) rfl
  show (s.onScreen i f).screens[j].refs = s.screens[j].refs
  rw [State.onScreen_get]
  split
  · subst j; exact same
  · rfl

theorem onFormat_refs_of {s : State} {k : Fin 32} {f : FormatEntry → FormatEntry}
    (same : (f s.formats[k]).useCount = s.formats[k].useCount) : (s.onFormat k f).refs = s.refs := by
  refine Prod.ext rfl (funext fun j => ?_)
  show (s.onFormat k f).formats[j].useCount = s.formats[j].useCount
  rw [State.onFormat_get]
  split
  · subst j; exact same
  · rfl

section Silent
variable (s : State)

@[simp] theorem onChannel_refs (i : Fin 8) (c : Fin 16) (f : Channel → Channel) : (s.onChannel i c f).refs = s.refs :=
  onScreen_refs_of rfl
@[simp] theorem onBanks_refs (i : Fin 8) (c : Fin 16) (f : ChannelBanks → ChannelBanks) :
    (s.onBanks i c f).refs = s.refs := rfl
@[simp] theorem onMonitor_refs (m : Fin 48) (f : Monitor → Monitor) : (s.onMonitor m f).refs = s.refs := rfl
@[simp] theorem onCueList_refs (i : Fin 8) (f : CueList → CueList) : (s.onCueList i f).refs = s.refs := rfl
@[simp] theorem onLink_refs (k : Fin 32) (f : CueLink → CueLink) : (s.onLink k f).refs = s.refs := rfl
@[simp] theorem onTimer_refs (t : Fin 8) (f : Timer → Timer) : (s.onTimer t f).refs = s.refs := rfl
@[simp] theorem onLine_refs (l : Fin 16) (f : BoothLine → BoothLine) : (s.onLine l f).refs = s.refs := rfl
@[simp] theorem onRun_refs (f : RunRecord → RunRecord) : (s.onRun f).refs = s.refs := rfl
@[simp] theorem onHouse_refs (f : House → House) : (s.onHouse f).refs = s.refs := rfl
@[simp] theorem onStats_refs (f : LinkStats → LinkStats) : (s.onStats f).refs = s.refs := rfl

@[simp] theorem offerAOut_refs : (offerAOut s).refs = s.refs := by rw [offerAOut_frame]; rfl
@[simp] theorem file_refs (x : Option (Fin 8)) (b : NoticeBody) : (file x b s).refs = s.refs := by rw [file_frame]; rfl
@[simp] theorem fillSlot_refs : (fillSlot s).refs = s.refs := by rw [fillSlot_frame]; rfl
@[simp] theorem appendReply_refs (r : Reply) : (appendReply r s).refs = s.refs := by rw [appendReply_frame]; rfl
@[simp] theorem offerBOut_refs : (offerBOut s).refs = s.refs := by rw [offerBOut_frame]; rfl
@[simp] theorem joinBOut_refs (f : Frame) : (joinBOut f s).refs = s.refs := by rw [joinBOut_frame]; rfl
@[simp] theorem cancelHeld_refs (b : Bool) : (cancelHeld b s).refs = s.refs := by rw [cancelHeld_frame]; rfl
@[simp] theorem goChange_refs (f : House → House) : (goChange f s).refs = s.refs := rfl
@[simp] theorem requestGoPulse_refs : (requestGoPulse s).refs = s.refs := by rw [requestGoPulse_frame]; rfl
@[simp] theorem startTimer_refs (t : Fin 8) (n : Nat) (m : RunMode) : (startTimer t n m s).refs = s.refs := rfl
@[simp] theorem stopTimer_refs (t : Fin 8) : (stopTimer t s).refs = s.refs := rfl
@[simp] theorem setLink_refs (k : Fin 32) (on : Bool) : (setLink k on s).refs = s.refs := rfl
@[simp] theorem writeLatch_refs (l : Fin 16) (a : Bool) : (writeLatch l a s).refs = s.refs := rfl
@[simp] theorem startTrain_refs (l : Fin 16) (n a b : Nat) : (startTrain l n a b s).refs = s.refs := rfl
@[simp] theorem requestFader_refs (i : Fin 8) (p ms : Nat) : (requestFader i p ms s).refs = s.refs :=
  onScreen_refs_of rfl
@[simp] theorem setCueMute_refs (i : Fin 8) (on : Bool) : (setCueMute i on s).refs = s.refs := onScreen_refs_of rfl
@[simp] theorem swapBanks_refs (i : Fin 8) : (swapBanks i s).refs = s.refs := onScreen_refs_of rfl
@[simp] theorem endSwap_refs (i : Fin 8) (early : Bool) : (endSwap i early s).refs = s.refs :=
  (file_refs ..).trans (onScreen_refs_of rfl)
@[simp] theorem deriveMonitors_refs (i : Fin 8) : (deriveMonitors i s).refs = s.refs := onScreen_refs_of rfl
theorem Screen.clearAlign_refs (x : Screen) : x.clearAlign.refs = x.refs := by
  simp only [Screen.refs, Screen.clearAlign]
theorem Screen.alignAllBut_refs (x : Screen) (test : Option (Fin 16)) : (x.alignAllBut test).refs = x.refs := by
  simp only [Screen.refs, Screen.alignAllBut]
theorem Screen.restartMeters_refs (x : Screen) : x.restartMeters.refs = x.refs := by
  simp only [Screen.refs, Screen.restartMeters]

@[simp] theorem endRun_refs (r : AbortReason) : (endRun r s).refs = s.refs :=
  onScreen_refs_of (Screen.clearAlign_refs _)
@[simp] theorem overtakeRun_refs (r : AbortReason) : (overtakeRun r s).refs = s.refs :=
  (file_refs ..).trans (endRun_refs ..)
@[simp] theorem emptyWindows_refs (i : Fin 8) : (emptyWindows i s).refs = s.refs := by
  have screens : (emptyWindows i s).screens = (s.onScreen i Screen.restartMeters).screens := by
    unfold emptyWindows
    rfl
  exact (refs_congr screens rfl).trans (onScreen_refs_of s.screens[i].restartMeters_refs)
@[simp] theorem enterSettle_refs (pass : Nat) : (enterSettle pass s).refs = s.refs := rfl
@[simp] theorem writeCorrection_refs (c : Fin 16) (d : Vector Int 31) : (writeCorrection c d s).refs = s.refs := rfl
@[simp] theorem alignAllBut_refs (i : Fin 8) (test : Option (Fin 16)) :
    (s.onScreen i fun x => x.alignAllBut test).refs = s.refs := onScreen_refs_of (s.screens[i].alignAllBut_refs test)

theorem Screen.passed_refs (x : Screen) (formats : Vector FormatEntry 32) (periods : List (List Int))
    (channels : List PassedChannel) : (x.passed formats periods channels).refs = x.refs := by
  have staged : (x.setStages channels).refs = x.refs := by simp only [Screen.refs, Screen.setStages]
  have metered (y : Screen) (points : List (List Int)) : (y.meterBlock periods points).refs = y.refs := by
    simp only [Screen.refs, Screen.meterBlock]
  have peaked (y : Screen) : y.takeShowPeak.refs = y.refs := by rw [Screen.takeShowPeak_frame]; rfl
  have steered (y : Screen) : (y.steer formats).refs = y.refs := by rw [Screen.steer_frame]; rfl
  rw [Screen.passed, steered, peaked, metered, staged]

@[simp] theorem passChain_refs (i : Fin 8) (f : Frame) : (passChain i f s).1.refs = s.refs := by
  unfold passChain
  dsimp only
  rw [gatherDwell_frame]
  exact onScreen_refs_of (s := s) (Screen.passed_refs ..)

/-- A fold of changes that leave the references leaves them. -/
theorem foldl_refs {α : Type} {f : State → α → State} (each : ∀ s x, (f s x).refs = s.refs) (l : List α) :
    (l.foldl f s).refs = s.refs := by
  induction l generalizing s with
  | nil => rfl
  | cons x rest ih => rw [List.foldl_cons, ih, each]

@[simp] theorem fillListed_refs (i : Fin 8) (fromFlat : Bool) (channels : List (Fin 16)) :
    (fillListed i fromFlat channels s).refs = s.refs := foldl_refs s (fun _ _ => onBanks_refs ..) _
@[simp] theorem copyBanks_refs (i : Fin 8) : (copyBanks i s).refs = s.refs :=
  foldl_refs s (fun _ _ => onBanks_refs ..) _

end Silent

/-! ### What moves references, or a screen in or out of OFF -/

/-- A change to a state other than OFF: the references stand, and no more is asked of them. -/
theorem enterState_counts (i : Fin 8) (st : ScreenState) (on : st ≠ .off) (s : State) :
    KeepsCounts s (enterState i st s) := by
  refine .moves i (fun j other => by rw [enterState_other other]) (fun _ stands => ?_) fun k _ _ => ?_
  · rw [enterState_own]
    exact ⟨stands.still, fun off => absurd off on⟩
  · rw [enterState_own, enterState_frame]
    rfl

/-- A format armed on a screen in service (R54). -/
theorem armFormat_counts {i : Fin 8} {s : State} (on : s.screens[i].state ≠ .off) (k : Option (Fin 32)) :
    KeepsCounts s (armFormat i k s) := by
  have own : (armFormat i k s).screens[i] = { s.screens[i] with pendingFormat := k } := by
    rw [armFormat_screens, modifyAt_same]
  refine .moves i (fun j other => by rw [armFormat_screens, modifyAt_other _ _ other]) (fun _ stands => ?_)
    fun j _ enough => ?_
  · rw [own]
    exact ⟨stands.still, fun off => absurd off on⟩
  · rw [Screen.uses_eq] at enough
    rw [own, armFormat_format, Screen.uses_eq, Screen.uses_eq]
    dsimp only
    omega

/-- The end of a crossfade releases the outgoing format (R57, R58). -/
theorem endFormatFade_counts (i : Fin 8) (cutShort : Bool) (s : State) : KeepsCounts s (endFormatFade i cutShort s) := by
  have own : (endFormatFade i cutShort s).screens[i] =
      { s.screens[i] with outgoingFormat := none, formatFade := none } := by
    rw [endFormatFade_screens, modifyAt_same]
  refine .moves i (fun j other => by rw [endFormatFade_screens, modifyAt_other _ _ other]) (fun _ stands => ?_)
    fun j _ enough => ?_
  · rw [own]
    exact ⟨fun _ => rfl, fun off => ⟨(stands.off off).1, (stands.off off).2.1, rfl⟩⟩
  · rw [Screen.uses_eq] at enough
    rw [own, endFormatFade_formats, dropUse_format, Screen.uses_eq, Screen.uses_eq]
    simp only [reduceCtorEq, if_false]
    omega

/-- The references of a screen without an outgoing format move on at a take (R55). -/
theorem takenFormat_counts {i : Fin 8} {s : State} (still : s.screens[i].outgoingFormat = none) (ms : Nat) :
    KeepsCounts s (takenFormat i ms s) := by
  refine .moves i (fun j other => by rw [takenFormat, State.onScreen_get, if_neg other]) (fun _ stands => ?_)
    fun j _ _ => ?_
  · rw [takenFormat, onScreen_same]
    exact ⟨nofun, fun off => ⟨(stands.off off).2.1, rfl, (stands.off off).1⟩⟩
  · rw [takenFormat, onScreen_same, State.onScreen_formats, Screen.uses_eq, Screen.uses_eq, still]
    simp only [reduceCtorEq, if_false]
    omega

theorem cutCrossfade_counts (i : Fin 8) (s : State) : KeepsCounts s (cutCrossfade i s) :=
  .ite (endFormatFade_counts i true s)

/-- A take finds no outgoing format once a crossfade in flight is cut short (R57, R58). -/
theorem cutCrossfade_outgoing {i : Fin 8} {s : State} (holds : s.useCountsAreTrue) :
    (cutCrossfade i s).screens[i].outgoingFormat = none := by
  by_cases fading : s.screens[i].formatFade.isSome
  · rw [cutCrossfade, if_pos fading, endFormatFade_screens, modifyAt_same]
  · rw [cutCrossfade, if_neg fading]
    exact ((useCountsAreTrue_iff.mp holds).2 i).still (Option.not_isSome_iff_eq_none.mp fading)

theorem takeFormat_counts (i : Fin 8) (ms : Nat) (s : State) : KeepsCounts s (takeFormat i ms s) := by
  have takes : KeepsCounts s (takenFormat i ms (cutCrossfade i s)) := ⟨fun holds =>
    (takenFormat_counts (cutCrossfade_outgoing holds) ms).counts ((cutCrossfade_counts i s).counts holds)⟩
  rw [takeFormat_eq]
  split
  · exact takes.trans (endFormatFade_counts ..)
  · exact takes

/-- A screen that goes OFF releases its references (R19, R28). -/
theorem goOff_counts (i : Fin 8) (s : State) : KeepsCounts s (goOff i s) := by
  have own : (goOff i s).screens[i] = offScreen s.screens[i].rehearsal s.screens[i].eqLive := by
    rw [goOff_screens, modifyAt_same]
    rfl
  refine .moves i (fun j other => by rw [goOff_screens, modifyAt_other _ _ other]) (fun _ _ => ?_) fun k _ enough => ?_
  · rw [own]
    exact ⟨fun _ => rfl, fun _ => ⟨rfl, rfl, rfl⟩⟩
  · rw [own, goOff_formats, releaseUses_format]
    exact Nat.sub_add_cancel enough

/-- A screen set up from OFF takes its one reference (R21). -/
theorem setupEntered_counts {i : Fin 8} {s : State} (off : s.screens[i].state = .off) (v : SetupValues) (k : Fin 32) :
    KeepsCounts s (setupEntered i v k s) := by
  have own : (setupEntered i v k s).screens[i].refs = { s.screens[i].refs with off := false, active := some k } := by
    rw [setupEntered, emptyWindows_screen, enterState_own, addUse_screens, onScreen_same]
    rfl
  simp only [Screen.refs, ScreenRefs.mk.injEq] at own
  obtain ⟨on, active, pending, outgoing, fades⟩ := own
  refine .moves i (fun j other => by rw [setupEntered_other other]) (fun _ stands => ⟨fun still => ?_, fun isOff => ?_⟩)
    fun j stands _ => ?_
  · rw [still] at fades
    rw [outgoing]
    exact stands.still (Option.isSome_eq_false_iff.mp fades.symm |> Option.isNone_iff_eq_none.mp)
  · rw [isOff] at on
    cases on
  · rw [setupEntered_formats, addUse_useCount, Screen.uses_eq, Screen.uses_eq, active, pending, outgoing,
      (stands.off off).1]
    simp only [reduceCtorEq, if_false]
    omega

/-! ### Screens and the house stop -/

theorem stopScreen_counts (i : Fin 8) (s : State) : KeepsCounts s (stopScreen i s) := by
  unfold stopScreen
  exact (enterState_counts i .stopped nofun _).after (onScreen_refs_of (by split <;> rfl))

theorem resumeScreen_counts (i : Fin 8) (s : State) : KeepsCounts s (resumeScreen i s) :=
  (enterState_counts i .dark nofun _).after (onScreen_refs_of rfl)

theorem setUpScreen_counts {i : Fin 8} {s : State} (off : s.screens[i].state = .off) (v : SetupValues) (k : Fin 32) :
    KeepsCounts s (setUpScreen i v k s) := by
  rw [setUpScreen_eq]
  split
  · exact (setupEntered_counts off v k).trans (stopScreen_counts ..)
  · exact setupEntered_counts off v k

theorem houseStopsScreen_counts (s : State) (i : Fin 8) : KeepsCounts s (houseStopsScreen s i) := by
  unfold houseStopsScreen
  dsimp only
  split
  · split
    · exact .refl s
    · exact stopScreen_counts i s
  · split
    · exact .refl s
    · exact stopScreen_counts i s
  · split
    · exact (enterState_counts i .dark nofun _).after (overtakeRun_refs ..)
    · exact (stopScreen_counts ..).after (overtakeRun_refs ..)
  · exact .refl s

theorem houseReleasesScreen_counts (s : State) (i : Fin 8) : KeepsCounts s (houseReleasesScreen s i) :=
  .ite (resumeScreen_counts i s)

/-! ### The Cue Engine -/

/-- An action that is not skipped finds its screen in service, where it arms a format (R119). -/
theorem on_of_arms {k : Option (Fin 32)} {i : Fin 8} {s : State} (performed : skipReason (.formatArm k) i s = none) :
    s.screens[i].state ≠ .off := by
  intro off
  cases k <;> simp only [skipReason, firstFailure, off, beq_self_eq_true, if_true, reduceCtorEq] at performed

section Triggers
variable {trig : Trigger → State → State} (causes : ∀ t s, KeepsCounts s (trig t s))
include causes

theorem houseEntry_counts (s : State) : KeepsCounts s (houseEntry trig s) :=
  (KeepsCounts.foldl houseStopsScreen_counts _ s).trans
    ((causes _ _).after ((fillSlot_refs _).trans (cancelHeld_refs _ true)))

theorem houseRelease_counts (s : State) : KeepsCounts s (houseRelease trig s) :=
  (KeepsCounts.foldl houseReleasesScreen_counts _ s).trans ((causes _ _).after (fillSlot_refs _))

theorem houseChange_counts (f : House → House) (s : State) : KeepsCounts s (houseChange trig f s) := by
  unfold houseChange
  dsimp only
  split
  · exact (houseEntry_counts causes _).after (onHouse_refs ..)
  · split
    · exact (houseRelease_counts causes _).after (onHouse_refs ..)
    · exact .silent (onHouse_refs ..)

theorem perform_counts {source : Source} {owner : Option (Fin 8)} {i : Fin 8} {a : Action} {s : State}
    (arms : ∀ k, a = .formatArm k → s.screens[i].state ≠ .off) : KeepsCounts s (perform trig source owner i a s) := by
  cases a with
  | formatArm k => exact armFormat_counts (arms k rfl) k
  | formatTake ms => exact takeFormat_counts i ms s
  | houseStop => exact houseChange_counts causes _ s
  | _ => exact .silent (by simp [perform])

theorem executeAction_counts (source : Source) (owner : Option (Fin 8)) (i : Fin 8) (a : Action) (released : Bool)
    (s : State) : KeepsCounts s (executeAction trig source owner i a released s) := by
  unfold executeAction
  split
  · exact .silent (file_refs ..)
  · rename_i performed
    split
    · exact .silent (file_refs ..)
    · refine (perform_counts causes fun k arms => ?_).after (file_refs ..)
      subst arms
      rw [file_screens]
      exact on_of_arms performed

theorem holdAction_counts (source : Source) (owner : Option (Fin 8)) (i : Fin 8) (a : Action) (s : State) :
    KeepsCounts s (holdAction trig source owner i a s) := by
  unfold holdAction
  split
  · exact .silent (file_refs ..)
  · split
    · exact executeAction_counts causes ..
    · split
      · exact .silent (file_refs ..)
      · exact .silent (file_refs ..)

theorem fireAction_counts (source : Source) (owner : Option (Fin 8)) (i : Fin 8) (a : Action) (held : Bool)
    (s : State) : KeepsCounts s (fireAction trig source owner i a held s) := by
  unfold fireAction
  split
  · exact holdAction_counts causes ..
  · exact executeAction_counts causes ..

theorem fireLink_counts (s : State) (k : Fin 32) : KeepsCounts s (fireLink trig s k) := by
  unfold fireLink
  extract_lets l fired
  have fires : KeepsCounts s fired := fireAction_counts causes ..
  split
  · exact fires.before (setLink_refs ..)
  · exact fires

end Triggers

theorem occursWithin_counts (depth : Nat) (t : Trigger) (s : State) : KeepsCounts s (occursWithin depth t s) := by
  induction depth generalizing t s with
  | zero => exact .refl s
  | succ depth ih => exact .foldl (fireLink_counts ih) _ s

theorem occurs_counts (t : Trigger) (s : State) : KeepsCounts s (occurs t s) := occursWithin_counts 3 t s

theorem judgeBoothInput_counts (s : State) : KeepsCounts s (judgeBoothInput occurs s) :=
  houseChange_counts occurs_counts _ s

theorem goEvent_counts (s : State) : KeepsCounts s (goEvent s) := by
  unfold goEvent
  extract_lets items released
  have releases : KeepsCounts s released :=
    (KeepsCounts.foldl (fun s h => executeAction_counts occurs_counts ..) _ _).after (s := s) (refs_congr rfl rfl)
  refine releases.trans ?_
  split
  · exact occurs_counts ..
  · exact (occurs_counts ..).after (file_refs ..)

theorem processEntry_counts (i : Fin 8) (p : Word) (entries : List CueEntry) (s : State) (k : Fin 64) :
    KeepsCounts s (processEntry i p entries s k) := by
  unfold processEntry
  split
  · exact .refl s
  · split
    · split
      · exact .silent (file_refs ..)
      · exact (fireAction_counts occurs_counts ..).trans (occurs_counts ..)
    · exact .refl s

theorem takeCues_counts (i : Fin 8) (p : Word) (s : State) : KeepsCounts s (takeCues i p s) :=
  (KeepsCounts.foldl (processEntry_counts i p s.cueLists[i].entries) _ s).before (onCueList_refs ..)

/-! ### The Level Monitor Unit -/

theorem reportEvent_counts (s : State) (x : Fin 48 × MonitorEvent) : KeepsCounts s (reportEvent s x) := by
  unfold reportEvent
  extract_lets c told
  have tells : KeepsCounts s told := .ite (.silent (file_refs ..))
  split
  · exact tells
  · exact tells.trans (occurs_counts ..)

theorem evaluated_refs (i : Fin 8) (s : State) : (evaluated i s).refs = s.refs :=
  refs_congr (evaluated_screens i s) (by unfold evaluated; rfl)

theorem evaluateMonitors_counts (i : Fin 8) (s : State) : KeepsCounts s (evaluateMonitors i s) := by
  unfold evaluateMonitors
  extract_lets events moved derived stopped
  have derives : KeepsCounts s derived := .silent ((deriveMonitors_refs ..).trans (evaluated_refs i s))
  have stops : KeepsCounts derived stopped := .ite (houseChange_counts occurs_counts ..)
  exact (derives.trans stops).trans (.foldl reportEvent_counts _ _)

theorem acknowledge_counts (k : Fin 48) (s : State) : KeepsCounts s (acknowledge k s) := by
  unfold acknowledge
  extract_lets content l cleared
  have clears : cleared.refs = s.refs := (deriveMonitors_refs ..).trans (onMonitor_refs ..)
  exact (reportEvent_counts ..).after clears

/-! ### The Alignment Engine -/

theorem startRun_counts (i : Fin 8) (q : RunRequest) (s : State) : KeepsCounts s (startRun i q s) := by
  unfold startRun
  extract_lets swapped entered filled
  have swaps : KeepsCounts s swapped := .ite (.silent (endSwap_refs ..))
  have enters : KeepsCounts s entered := swaps.trans ((enterState_counts i .inAlign nofun _).after (onRun_refs ..))
  have fills : KeepsCounts entered filled := .ite (.silent (fillListed_refs ..))
  exact (enters.trans fills).before (alignAllBut_refs ..)

theorem completeRun_counts (s : State) : KeepsCounts s (completeRun s) := by
  unfold completeRun
  extract_lets i completed idle converged
  have clears : completed.refs = s.refs := onScreen_refs_of (Screen.clearAlign_refs _)
  have enters : KeepsCounts s idle := ((enterState_counts i .dark nofun completed).after clears).before (onRun_refs ..)
  exact enters.trans ((occurs_counts ..).after (file_refs ..))

theorem finishChannel_counts (result : AlignResult) (s : State) : KeepsCounts s (finishChannel result s) := by
  unfold finishChannel
  extract_lets written i reported next
  have reports : reported.refs = s.refs := by
    dsimp only [reported]
    split
    · rfl
    · exact file_refs ..
  have nexts : next.refs = s.refs := (onRun_refs ..).trans reports
  split
  · exact (completeRun_counts next).after nexts
  · exact .silent ((enterSettle_refs ..).trans ((alignAllBut_refs next i _).trans nexts))

theorem judgePass_counts (c : Fin 16) (m : Vector Level 31) (s : State) : KeepsCounts s (judgePass c m s) := by
  unfold judgePass
  extract_lets curve d deviation compared corrected
  have same : compared.refs = s.refs := rfl
  have corrects : corrected.refs = s.refs := writeCorrection_refs ..
  split
  · exact (finishChannel_counts ..).after same
  · split
    · split
      · exact .silent ((enterSettle_refs ..).trans corrects)
      · exact (finishChannel_counts ..).after corrects
    · exact (finishChannel_counts ..).after same

theorem evaluatePass_counts (c : Fin 16) (s : State) : KeepsCounts s (evaluatePass c s) := by
  unfold evaluatePass
  extract_lets a scale m measured
  have same : measured.refs = s.refs := rfl
  split
  · exact (finishChannel_counts ..).after same
  · split
    · exact (finishChannel_counts ..).after same
    · exact (judgePass_counts ..).after same

theorem dwellEnds_counts (s : State) : KeepsCounts s (dwellEnds s) := by
  unfold dwellEnds
  split
  · exact .refl s
  · exact evaluatePass_counts ..

/-! ### A block taken -/

theorem noteArrival_refs (i : Fin 8) (f : Frame) (s : State) : (noteArrival i f s).refs = s.refs := by
  unfold noteArrival
  dsimp only
  split
  · exact (file_refs ..).trans (onScreen_refs_of rfl)
  · exact onScreen_refs_of rfl

theorem startShow_counts (i : Fin 8) (position : Option Word) (s : State) : KeepsCounts s (startShow i position s) := by
  have shown : (showStarted i s).refs = (enterState i .inShow s).refs :=
    (onScreen_refs_of (s := emptyWindows i (enterState i .inShow s)) rfl).trans (emptyWindows_refs ..)
  rw [startShow_eq]
  exact (enterState_counts i .inShow nofun s).trans ((occurs_counts ..).after ((file_refs ..).trans shown))

theorem endShow_counts (i : Fin 8) (s : State) : KeepsCounts s (endShow i s) :=
  (enterState_counts i .dark nofun s).trans ((occurs_counts ..).after (file_refs ..))

theorem actOnRun_counts (i : Fin 8) (run : Bool) (position : Option Word) (s : State) :
    KeepsCounts s (actOnRun i run position s) := by
  unfold actOnRun
  split
  · exact startShow_counts ..
  · exact endShow_counts ..
  · exact ((enterState_counts i .dark nofun _).trans (startShow_counts ..)).after (overtakeRun_refs ..)
  · exact .refl s

theorem checkGap_refs (i : Fin 8) (p : Word) (s : State) : (checkGap i p s).refs = s.refs := by
  unfold checkGap
  split
  · rfl
  · split
    · rfl
    · exact file_refs ..

theorem handlePosition_counts (i : Fin 8) (position : Option Word) (s : State) :
    KeepsCounts s (handlePosition i position s) := by
  unfold handlePosition
  split
  · exact ((takeCues_counts ..).after (checkGap_refs ..)).before (onScreen_refs_of rfl)
  · exact .refl s

theorem checkMismatch_refs (i : Fin 8) (f : Frame) (s : State) : (checkMismatch i f s).refs = s.refs := by
  rcases checkMismatch_cases i f s with eq | ⟨body, eq⟩
  · rw [eq]
  · rw [eq, file_refs]; exact onScreen_refs_of rfl

theorem takeBlock_counts (i : Fin 8) (f : Frame) (s : State) : KeepsCounts s (takeBlock i f s) := by
  rw [takeBlock_eq, chained]
  have arrives := (actOnRun_counts i f.run f.validPosition (noteArrival i f s)).after (noteArrival_refs i f s)
  have handles := arrives.trans (handlePosition_counts i f.validPosition _)
  have passes := handles.before ((passChain_refs _ i f).trans (checkMismatch_refs i f _))
  exact (passes.trans (evaluateMonitors_counts i _)).before (joinBOut_refs ..)

theorem handBlock_counts (i : Fin 8) (f : Frame) (s : State) : KeepsCounts s (handBlock i f s) := by
  unfold handBlock
  split
  · exact .silent (joinBOut_refs ..)
  · exact takeBlock_counts ..

theorem loseSource_counts (i : Fin 8) (s : State) : KeepsCounts s (loseSource i s) := by
  unfold loseSource
  extract_lets lost told made
  have makes : made.refs = s.refs := (joinBOut_refs ..).trans ((file_refs ..).trans (onScreen_refs_of rfl))
  split
  · exact (enterState_counts i .dark nofun _).after ((overtakeRun_refs ..).trans makes)
  · exact .silent makes

theorem nextSilent_refs (i : Fin 8) (s : State) : (nextSilent i s).refs = s.refs :=
  (onScreen_refs_of (by split <;> rfl)).trans (joinBOut_refs ..)

/-! ### Arriving frames -/

theorem joinIntake_refs (c : Command) (s : State) : (joinIntake c s).refs = s.refs := by
  unfold joinIntake
  split <;> rfl

theorem joinForward_refs (f : Frame) (s : State) : (joinForward f s).refs = s.refs := by
  unfold joinForward
  split
  · exact offerAOut_refs _
  · rfl

theorem routeCommand_refs (f : Frame) (s : State) : (routeCommand f s).refs = s.refs := by
  unfold routeCommand
  split
  · exact joinIntake_refs ..
  · split
    · exact (joinBOut_refs ..).trans (joinIntake_refs ..)
    · exact joinBOut_refs ..

theorem routeBlock_counts (f : Frame) (s : State) : KeepsCounts s (routeBlock f s) := by
  unfold routeBlock
  split
  · split
    · exact handBlock_counts ..
    · exact .refl s
  · exact .silent (joinBOut_refs ..)

theorem receive_counts (lane : Lane) (cutOff : Bool) (f : Frame) (s : State) :
    KeepsCounts s (receive lane cutOff f s) := by
  have routes (s : State) : KeepsCounts s (routeFrame lane f s) := by
    unfold routeFrame
    split
    · split
      · exact routeBlock_counts f s
      · exact .silent (routeCommand_refs f s)
    · exact .silent (joinForward_refs f s)
  unfold receive
  extract_lets counted
  have counts : counted.refs = s.refs := onStats_refs ..
  split
  · exact .silent ((onStats_refs ..).trans counts)
  · split
    · exact .silent ((onStats_refs ..).trans counts)
    · exact (routes counted).after counts

/-! ### Event rows -/

theorem eventRow_counts {f : State → State} (acts : ∀ s, KeepsCounts s (f s)) (s : State) :
    KeepsCounts s (eventRow f s) := by
  unfold eventRow
  split
  · exact .refl s
  · exact acts s

theorem timedRow_counts {due : State → Bool} {f : State → State} (acts : ∀ s, KeepsCounts s (f s)) (s : State) :
    KeepsCounts s (timedRow due f s) := eventRow_counts (fun s => .ite (acts s)) s

theorem takeGo_counts (s : State) : KeepsCounts s (takeGo s) := by
  unfold takeGo
  extract_lets sensed
  split
  · exact (goEvent_counts ..).after (onHouse_refs ..)
  · exact .silent (onHouse_refs ..)

theorem takeLine_counts (l : Fin 16) (s : State) : KeepsCounts s (takeLine l s) := by
  unfold takeLine
  extract_lets active taken
  have takes : taken.refs = s.refs := onLine_refs ..
  split
  · exact (occurs_counts ..).after ((file_refs ..).trans takes)
  · exact (judgeBoothInput_counts _).after takes
  · exact .silent takes

theorem expireTimer_counts (t : Fin 8) (s : State) : KeepsCounts s (expireTimer t s) :=
  (occurs_counts _ _).after (onTimer_refs ..)

/-! ### Commands -/

section Bodies
variable {suits : Bool} {size : Nat} {c : Command}

theorem unitCommand_counts {check : State → Option Result} {effect : State → State × List Byte}
    (acts : ∀ s, check s = none → KeepsCounts s (effect s).1) (s : State) :
    KeepsCounts s (unitCommand suits check effect c s).1 := by
  unfold unitCommand applyUnit
  split
  · exact .refl s
  · split
    · exact .refl s
    · rename_i accepted
      exact acts s accepted

theorem applyScreen_counts {success : Result} {check : Fin 8 → State → Option Result}
    {effect : Fin 8 → State → State × List Byte} (acts : ∀ i s, check i s = none → KeepsCounts s (effect i s).1)
    (i : Fin 8) (s : State) : KeepsCounts s (applyScreen success check effect i s).1 := by
  unfold applyScreen
  split
  · exact .refl s
  · rename_i accepted
    exact acts i s accepted

theorem applyList_counts {check : Fin 8 → State → Option Result} {effect : Fin 8 → State → State × List Byte}
    (acts : ∀ i s, check i s = none → KeepsCounts s (effect i s).1) (l : List (Fin 8)) (s : State) :
    KeepsCounts s (applyList size check effect l s).1 := by
  induction l generalizing s with
  | nil => exact .refl s
  | cons i rest ih =>
    unfold applyList
    split
    · exact ih s
    · rename_i accepted
      exact (acts i s accepted).trans (ih _)

theorem screenCommand_counts {check : Fin 8 → State → Option Result} {effect : Fin 8 → State → State × List Byte}
    (acts : ∀ i s, check i s = none → KeepsCounts s (effect i s).1) (s : State) :
    KeepsCounts s (screenCommand suits size check effect c s).1 := by
  unfold screenCommand
  split
  · exact .refl s
  · split
    · exact applyScreen_counts acts _ s
    · exact applyList_counts acts _ s

theorem oneScreenCommand_counts {check : Fin 8 → State → Option Result} {effect : Fin 8 → State → State}
    (acts : ∀ i s, KeepsCounts s (effect i s)) (s : State) :
    KeepsCounts s (oneScreenCommand suits check effect c s).1 := by
  unfold oneScreenCommand
  split
  · exact .refl s
  · split
    · exact applyScreen_counts (fun i s _ => acts i s) _ s
    · exact .refl s

end Bodies

section Effects
variable (c : Command) (s : State)

/-- SCREEN_SETUP sets up a screen that is OFF (R21). -/
theorem effectSetup_counts {i : Fin 8} (accepted : checkSetup c i s = none) : KeepsCounts s (effectSetup c i s).1 := by
  have isOff := firstFailure_eq_none.mp accepted (!s.isOff i, .badState) (List.mem_cons_self ..)
  have off : s.screens[i].state = .off := beq_iff_eq.mp (Bool.not_eq_eq_eq_not.mp isOff)
  unfold effectSetup
  split
  · exact setUpScreen_counts off ..
  · exact .refl s

/-- FORMAT_ARM finds its screen in service (R54). -/
theorem effectArm_counts {i : Fin 8} (accepted : checkArm c i s = none) : KeepsCounts s (effectArm c i s).1 := by
  have isOn : s.isOff i = false := by
    unfold checkArm at accepted
    split at accepted
    all_goals exact firstFailure_eq_none.mp accepted (s.isOff i, .badState) (List.mem_cons_self ..)
  unfold effectArm
  split
  · exact .refl s
  · exact armFormat_counts (beq_eq_false_iff_ne.mp isOn) _

/-- A content that FORMAT_LOAD reads has no reference to it (R181). -/
theorem readFormat_useCount {f : FormatEntry} (reads : readFormat c = some f) : f.useCount = 0 := by
  simp only [readFormat, Option.bind_eq_bind, Option.bind_eq_some_iff] at reads
  obtain ⟨label, -, kind, -, inputs, -, count, -, terms, -, matrix, -, content⟩ := reads
  split at content
  · cases content; rfl
  · cases content

theorem useCount_of_free {k : Fin 32} (free : formatInUse (some k) s = false) : s.formats[k].useCount = 0 :=
  Nat.eq_zero_of_not_pos (of_decide_eq_false free)

/-- FORMAT_LOAD rewrites a format that no screen refers to (R52). -/
theorem effectFormatLoad_counts (accepted : checkFormatLoad c s = none) : KeepsCounts s (effectFormatLoad c s).1 := by
  have free := firstFailure_eq_none.mp accepted (formatInUse (readIndex 32 (c.byte 0)) s, .inUse) (by simp)
  unfold effectFormatLoad
  split
  · rename_i k f named reads
    rw [named] at free
    exact .silent (onFormat_refs_of ((readFormat_useCount c reads).trans (useCount_of_free s free).symm))
  · exact .refl s

/-- FORMAT_CLEAR clears one (R53). -/
theorem effectFormatClear_counts (accepted : checkFormatClear c s = none) :
    KeepsCounts s (effectFormatClear c s).1 := by
  have free := firstFailure_eq_none.mp accepted (formatInUse (readIndex 32 (c.byte 0)) s, .inUse) (by simp)
  unfold effectFormatClear
  split
  · exact .refl s
  · rename_i k named
    rw [named] at free
    exact .silent (onFormat_refs_of (useCount_of_free s free).symm)

theorem effectFormatRead_refs : (effectFormatRead c s).1.refs = s.refs := by
  unfold effectFormatRead
  split <;> rfl

theorem effectFader_refs (i : Fin 8) : (effectFader c i s).1.refs = s.refs := by
  unfold effectFader
  split <;> simp

theorem effectMute_refs (i : Fin 8) : (effectMute c i s).1.refs = s.refs := by
  unfold effectMute setCommandMute
  split
  · rfl
  · split
    · exact onScreen_refs_of rfl
    · exact onChannel_refs ..

theorem effectRehearsal_refs (i : Fin 8) : (effectRehearsal c i s).1.refs = s.refs := by
  unfold effectRehearsal
  split
  · rfl
  · exact onScreen_refs_of rfl

theorem effectChannelSetup_refs (i : Fin 8) : (effectChannelSetup c i s).1.refs = s.refs := by
  unfold effectChannelSetup
  split <;> simp

theorem effectEqGraphic_refs (i : Fin 8) : (effectEqGraphic c i s).1.refs = s.refs := by
  unfold effectEqGraphic
  split <;> rfl

theorem effectEqSection_refs (i : Fin 8) : (effectEqSection c i s).1.refs = s.refs := by
  unfold effectEqSection
  split <;> rfl

theorem effectEqRead_refs (i : Fin 8) : (effectEqRead c i s).1.refs = s.refs := by
  unfold effectEqRead
  split <;> rfl

theorem effectCurveLoad_refs : (effectCurveLoad c s).1.refs = s.refs := by
  unfold effectCurveLoad
  split <;> rfl

theorem effectAlignStart_counts (i : Fin 8) : KeepsCounts s (effectAlignStart c i s) := by
  unfold effectAlignStart
  split
  · exact startRun_counts ..
  · exact .refl s

theorem abortByCommand_counts (i : Fin 8) : KeepsCounts s (abortByCommand i s) :=
  (enterState_counts i .dark nofun _).after (overtakeRun_refs ..)

theorem effectMonitorLoad_refs : (effectMonitorLoad c s).1.refs = s.refs := by
  unfold effectMonitorLoad
  split
  · rfl
  · split <;> simp

theorem effectMonitorEnable_refs : (effectMonitorEnable c s).1.refs = s.refs := by
  unfold effectMonitorEnable
  split
  · rfl
  · dsimp only
    split <;> simp

theorem effectMonitorDisable_refs : (effectMonitorDisable c s).1.refs = s.refs := by
  unfold effectMonitorDisable
  split
  · rfl
  · dsimp only
    split <;> simp

theorem effectMonitorAck_counts : KeepsCounts s (effectMonitorAck c s).1 := by
  unfold effectMonitorAck
  split
  · exact .refl s
  · exact acknowledge_counts ..

theorem effectMonitorStatus_refs : (effectMonitorStatus c s).1.refs = s.refs := by
  unfold effectMonitorStatus
  dsimp only
  split
  · exact foldl_refs s (fun _ _ => onMonitor_refs ..) _
  · rfl

theorem effectCuelistLoad_refs (i : Fin 8) : (effectCuelistLoad c i s).1.refs = s.refs := by
  unfold effectCuelistLoad
  split <;> rfl

theorem effectLinkLoad_refs : (effectLinkLoad c s).1.refs = s.refs := by
  unfold effectLinkLoad
  split <;> rfl

theorem effectLinkFlag_refs (on : Bool) : (effectLinkFlag on c s).1.refs = s.refs := by
  unfold effectLinkFlag
  split <;> rfl

theorem effectTimerStart_refs : (effectTimerStart c s).1.refs = s.refs := by
  unfold effectTimerStart
  split <;> rfl

theorem effectTimerStop_refs : (effectTimerStop c s).1.refs = s.refs := by
  unfold effectTimerStop
  split <;> rfl

theorem effectTimerRead_refs : (effectTimerRead c s).1.refs = s.refs := by
  unfold effectTimerRead
  split <;> rfl

theorem effectCueFire_counts : KeepsCounts s (effectCueFire c s).1 := by
  unfold effectCueFire
  split
  · exact .refl s
  · exact fireLink_counts occurs_counts ..

theorem effectHouseSetup_counts : KeepsCounts s (effectHouseSetup c s).1 := by
  unfold effectHouseSetup
  split
  · exact .refl s
  · exact houseChange_counts occurs_counts ..

theorem effectLineSetup_counts : KeepsCounts s (effectLineSetup c s).1 := by
  unfold effectLineSetup
  split
  · exact (judgeBoothInput_counts _).after (onLine_refs ..)
  · exact .refl s

theorem effectLineSet_refs : (effectLineSet c s).1.refs = s.refs := by
  unfold effectLineSet
  split <;> rfl

theorem effectLinkStats_refs : (effectLinkStats c s).1.refs = s.refs := by
  unfold effectLinkStats
  split <;> rfl

end Effects

/-! ### Every command -/

theorem cmdEqLoad_counts (c : Command) (s : State) : KeepsCounts s (cmdEqLoad c s).1 := by
  unfold cmdEqLoad
  split
  · exact screenCommand_counts (fun i s _ => .silent (effectEqGraphic_refs c s i)) s
  · split
    · exact screenCommand_counts (fun i s _ => .silent (effectEqSection_refs c s i)) s
    · exact screenCommand_counts (fun _ s _ => .refl s) s

/-- Whatever command is executed, UNIT_RESET apart. -/
theorem bodyOf_counts (code : Nat) (c : Command) (s : State) : KeepsCounts s (bodyOf code c s).1 := by
  unfold bodyOf
  split
  case h_1 => exact unitCommand_counts (fun s _ => .refl s) s
  case h_2 => exact unitCommand_counts (fun s _ => .silent (refs_congr rfl rfl)) s
  case h_3 => exact unitCommand_counts (fun s _ => .silent (effectLinkStats_refs c s)) s
  case h_4 => exact screenCommand_counts (fun i s => effectSetup_counts c s) s
  case h_5 => exact screenCommand_counts (fun i s _ => goOff_counts i s) s
  case h_6 => exact screenCommand_counts (fun _ s _ => .refl s) s
  case h_7 => exact screenCommand_counts (fun i s _ => resumeScreen_counts i s) s
  case h_8 => exact screenCommand_counts (fun i s _ => .silent (effectFader_refs c s i)) s
  case h_9 => exact screenCommand_counts (fun i s _ => .silent (effectMute_refs c s i)) s
  case h_10 => exact screenCommand_counts (fun i s _ => .silent (effectRehearsal_refs c s i)) s
  case h_11 => exact screenCommand_counts (fun i s _ => .silent (effectChannelSetup_refs c s i)) s
  case h_12 => exact unitCommand_counts (effectFormatLoad_counts c) s
  case h_13 => exact unitCommand_counts (effectFormatClear_counts c) s
  case h_14 => exact screenCommand_counts (fun i s => effectArm_counts c s) s
  case h_15 => exact screenCommand_counts (fun i s _ => takeFormat_counts i _ s) s
  case h_16 => exact unitCommand_counts (fun s _ => .silent (effectFormatRead_refs c s)) s
  case h_17 => exact cmdEqLoad_counts c s
  case h_18 => exact screenCommand_counts (fun i s _ => .silent (copyBanks_refs s i)) s
  case h_19 => exact screenCommand_counts (fun i s _ => .silent (swapBanks_refs s i)) s
  case h_20 => exact screenCommand_counts (fun i s _ => .silent (effectEqRead_refs c s i)) s
  case h_21 => exact unitCommand_counts (fun s _ => .silent (effectCurveLoad_refs c s)) s
  case h_22 => exact oneScreenCommand_counts (fun i s => effectAlignStart_counts c s i) s
  case h_23 => exact screenCommand_counts (fun i s _ => abortByCommand_counts s i) s
  case h_24 => exact unitCommand_counts (fun s _ => .refl s) s
  case h_25 => exact unitCommand_counts (fun s _ => .silent (effectMonitorLoad_refs c s)) s
  case h_26 => exact unitCommand_counts (fun s _ => .silent (effectMonitorEnable_refs c s)) s
  case h_27 => exact unitCommand_counts (fun s _ => .silent (effectMonitorDisable_refs c s)) s
  case h_28 => exact unitCommand_counts (fun s _ => effectMonitorAck_counts c s) s
  case h_29 => exact unitCommand_counts (fun s _ => .silent (effectMonitorStatus_refs c s)) s
  case h_30 => exact screenCommand_counts (fun i s _ => .silent (effectCuelistLoad_refs c s i)) s
  case h_31 => exact screenCommand_counts (fun _ s _ => .silent (onCueList_refs ..)) s
  case h_32 => exact unitCommand_counts (fun s _ => .silent (effectLinkLoad_refs c s)) s
  case h_33 => exact unitCommand_counts (fun s _ => .silent (effectLinkFlag_refs c s true)) s
  case h_34 => exact unitCommand_counts (fun s _ => .silent (effectLinkFlag_refs c s false)) s
  case h_35 => exact unitCommand_counts (fun s _ => .silent (effectTimerStart_refs c s)) s
  case h_36 => exact unitCommand_counts (fun s _ => .silent (effectTimerStop_refs c s)) s
  case h_37 => exact unitCommand_counts (fun s _ => .silent (effectTimerRead_refs c s)) s
  case h_38 => exact unitCommand_counts (fun s _ => effectCueFire_counts c s) s
  case h_39 => exact unitCommand_counts (fun s _ => .silent (requestGoPulse_refs s)) s
  case h_40 => exact unitCommand_counts (fun s _ => .silent (cancelHeld_refs s false)) s
  case h_41 => exact unitCommand_counts (fun s _ => .refl s) s
  case h_42 => exact unitCommand_counts (fun s _ => effectHouseSetup_counts c s) s
  case h_43 => exact unitCommand_counts (fun s _ => houseChange_counts occurs_counts _ s) s
  case h_44 => exact unitCommand_counts (fun s _ => houseChange_counts occurs_counts _ s) s
  case h_45 => exact unitCommand_counts (fun s _ => .refl s) s
  case h_46 => exact unitCommand_counts (fun s _ => effectLineSetup_counts c s) s
  case h_47 => exact unitCommand_counts (fun s _ => .silent (effectLineSet_refs c s)) s
  case h_48 => exact unitCommand_counts (fun s _ => .refl s) s
  case h_49 => exact .refl s

/-! ### UNIT_RESET and power-on -/

/-- A cleared unit: every screen OFF and every format invalid (R48). -/
theorem counts_of_cleared {s t : State} (screens : t.screens = Vector.replicate 8 (offScreen false .a))
    (formats : t.formats = Vector.replicate 32 invalidFormat) : KeepsCounts s t :=
  .free (fun i => ⟨false, .a, by rw [screens]; simp⟩) fun k => by rw [formats]; simp [invalidFormat]

theorem resetUnit_counts (scope : Scope) (s : State) : KeepsCounts s (resetUnit scope s) := by
  cases scope with
  | keepTables =>
    rw [resetUnit_keepTables]
    refine .free (fun i => ⟨s.screens[i].rehearsal, s.screens[i].eqLive, ?_⟩) fun k => ?_
    · simp [State.tablesKept, Screen.off]
    · simp [State.tablesKept, FormatEntry.unused]
  | clear =>
    rw [resetUnit_clear]
    exact counts_of_cleared rfl rfl

theorem fileReady_refs (reason : ReadyReason) (s : State) : (fileReady reason s).refs = s.refs := file_refs ..

/-! ### Rows and steps -/

theorem executeThen_counts {after : Answer → State → State} {body : Command → State → State × Answer} {c : Command}
    {s : State} (acts : KeepsCounts s (body c s).1) (follows : ∀ a s, KeepsCounts s (after a s)) :
    KeepsCounts s (executeThen after body c s) :=
  acts.trans ((follows ..).after (appendReply_refs ..))

theorem executeUnitReset_counts (c : Command) (s : State) : KeepsCounts s (executeUnitReset c s) := by
  have ready (scope : Scope) (a : Answer) (s : State) : KeepsCounts s (readyAfter scope a s) :=
    .ite (.silent (fileReady_refs ..))
  have resets (scope : Scope) : KeepsCounts s (cmdUnitResetIn scope c s).1 :=
    unitCommand_counts (fun s _ => resetUnit_counts scope s) s
  unfold executeUnitReset
  split
  · exact executeThen_counts (resets _) (ready _)
  · split
    · exact executeThen_counts (resets _) (ready _)
    · exact executeThen_counts (unitCommand_counts (fun s _ => .refl s) s) fun _ => .refl

theorem executeCommand_counts (c : Command) (s : State) : KeepsCounts s (executeCommand c s) := by
  unfold executeCommand
  split
  · exact executeUnitReset_counts c s
  · exact executeThen_counts (bodyOf_counts _ c s) fun _ => .refl

theorem takeCommand_counts (s : State) : KeepsCounts s (takeCommand s) := by
  unfold takeCommand
  split
  · exact .refl s
  · split
    · exact (executeCommand_counts ..).after (s := s) (refs_congr rfl rfl)
    · exact .refl s

theorem freedA_refs (s : State) : (offerAOut { s with aOut := none }).refs = s.refs :=
  (offerAOut_refs _).trans (refs_congr rfl rfl)

theorem freedB_refs (s : State) : (offerBOut { s with bOut := none }).refs = s.refs :=
  (offerBOut_refs _).trans (refs_congr rfl rfl)

/-- Whatever row is executed. -/
theorem exec_counts {r : Instr} {s t : State} (answers : exec r s = .next t) : KeepsCounts s t := by
  cases spells : r.command with
  | some c =>
    rw [exec_of_command spells] at answers
    cases answers
    exact .ite (executeCommand_counts c s)
  | none =>
    cases r with
    | commandTake => cases answers; exact takeCommand_counts s
    | blockArrival f => cases answers; exact eventRow_counts (fun s => receive_counts _ _ _ s) s
    | commandArrival f => cases answers; exact eventRow_counts (fun s => receive_counts _ _ _ s) s
    | forwardArrival f => cases answers; exact eventRow_counts (fun s => receive_counts _ _ _ s) s
    | discardedFrame lane cutOff f => cases answers; exact eventRow_counts (fun s => receive_counts _ _ _ s) s
    | aOutFrameSent => cases answers; exact eventRow_counts (fun s => .silent (freedA_refs s)) s
    | bOutFrameSent => cases answers; exact eventRow_counts (fun s => .silent (freedB_refs s)) s
    | resetnAssert => cases answers; exact .silent (refs_congr rfl rfl)
    | powerOnReset straps => cases answers; exact (counts_of_cleared rfl rfl).before (fileReady_refs ..)
    | sourceLost i => cases answers; exact timedRow_counts (loseSource_counts i) s
    | silentBlock i => cases answers; exact timedRow_counts (fun s => .silent (nextSilent_refs i s)) s
    | faderRampEnd i => cases answers; exact timedRow_counts (fun s => .silent (onScreen_refs_of rfl)) s
    | stopFadeEnd i => cases answers; exact timedRow_counts (fun s => .silent (onScreen_refs_of rfl)) s
    | formatCrossfadeEnd i => cases answers; exact timedRow_counts (endFormatFade_counts i false) s
    | swapCrossfadeEnd i => cases answers; exact timedRow_counts (fun s => .silent (endSwap_refs s i false)) s
    | settleEnd => cases answers; exact timedRow_counts (fun s => .silent (onRun_refs ..)) s
    | dwellEnd => cases answers; exact timedRow_counts dwellEnds_counts s
    | timerExpiry t => cases answers; exact timedRow_counts (expireTimer_counts t) s
    | pulsePhaseEnd l => cases answers; exact timedRow_counts (fun s => .silent (onLine_refs ..)) s
    | goPulseEnd => cases answers; exact timedRow_counts (fun s => .silent (goChange_refs ..)) s
    | hstopPinChange level => cases answers; exact .silent (onHouse_refs ..)
    | hstopSensedChange => cases answers; exact timedRow_counts (houseChange_counts occurs_counts _) s
    | goPinChange level => cases answers; exact .silent (goChange_refs ..)
    | goSensedChange => cases answers; exact timedRow_counts takeGo_counts s
    | linePinChange l level =>
      cases answers
      exact (KeepsCounts.ite (timedRow_counts (takeLine_counts l) _)).after (onLine_refs ..)
    | lineFilterChange l => cases answers; exact timedRow_counts (takeLine_counts l) s
    | _ => cases spells

theorem step_counts {s t : State} (steps : step s = .next t) : KeepsCounts s t := by
  unfold step at steps
  split at steps
  · cases steps
    unfold passTime
    split
    · exact .refl s
    · split <;> exact .silent (refs_congr rfl rfl)
  · rename_i row rest _
    exact (exec_counts steps).after (s := s) (refs_congr rfl rfl)

/-- Settles O57: every step keeps the counts. -/
theorem stepsKeepTheUseCountsTrue : Obligations.StepsKeepTheUseCountsTrue :=
  fun _ _ holds steps => (step_counts steps).counts holds

end Sys2Proof.Machine
end

section
/-!
PROOF. The steering (R60 to R63): what the candidate of an update is in terms of the four strengths, how an update
counts it, and the meters and strengths of a block by the laws of the chain.
-/

namespace Sys2Proof.Machine

/-! ### The candidate (R61) -/

section Candidate
variable {enter : Nat} {lr cs : Int}

/-- The four strengths are the two dominance values and their negatives (R60). -/
theorem forall_strength {p : Int → Prop} : (∀ d, p (strength lr cs d)) ↔ p lr ∧ p (-lr) ∧ p cs ∧ p (-cs) :=
  ⟨fun every => ⟨every .left, every .right, every .centre, every .surround⟩, fun ⟨left, right, centre, surround⟩ d => by
    cases d <;> assumption⟩

/-- The stronger direction of the horizontal axis. -/
theorem strength_horizontal (lr cs : Int) : strength lr cs (if 0 ≤ lr then .left else .right) = lr.natAbs := by
  split <;> simp only [strength] <;> omega

/-- The stronger direction of the depth axis. -/
theorem strength_depth (lr cs : Int) : strength lr cs (if 0 ≤ cs then .centre else .surround) = cs.natAbs := by
  split <;> simp only [strength] <;> omega

/-- The candidate is the depth direction where it reaches the threshold and the horizontal one is no stronger, the
horizontal one where it alone reaches the threshold or is the stronger, and else none. -/
theorem steerCandidate_cases (enter : Nat) (lr cs : Int) :
    (steerCandidate enter lr cs = some (if 0 ≤ cs then .centre else .surround) ∧
      enter ≤ cs.natAbs ∧ lr.natAbs ≤ cs.natAbs) ∨
    (steerCandidate enter lr cs = some (if 0 ≤ lr then .left else .right) ∧
      enter ≤ lr.natAbs ∧ cs.natAbs < lr.natAbs) ∨
    (steerCandidate enter lr cs = none ∧ lr.natAbs < enter ∧ cs.natAbs < enter) := by
  unfold steerCandidate
  dsimp only
  rw [strength_horizontal, strength_depth]
  split
  · exact .inl ⟨rfl, by omega⟩
  · split
    · exact .inr (.inl ⟨rfl, by omega⟩)
    · exact .inr (.inr ⟨rfl, by omega⟩)

theorem steerCandidate_eq_none : steerCandidate enter lr cs = none ↔ ∀ d, strength lr cs d < enter := by
  rw [forall_strength (p := fun v => v < enter)]
  rcases steerCandidate_cases enter lr cs with ⟨candidate, reach⟩ | ⟨candidate, reach⟩ | ⟨candidate, below⟩
  all_goals simp only [candidate, reduceCtorEq, false_iff, true_iff]
  all_goals omega

/-- A candidate reaches the threshold, and no direction is stronger. -/
theorem steerCandidate_strongest {d : Direction} (candidate : steerCandidate enter lr cs = some d) :
    enter ≤ strength lr cs d ∧ ∀ e, strength lr cs e ≤ strength lr cs d := by
  rw [forall_strength (p := fun v => v ≤ strength lr cs d)]
  rcases steerCandidate_cases enter lr cs with ⟨is, reach⟩ | ⟨is, reach⟩ | ⟨is, -⟩
  · obtain rfl := Option.some.inj (is.symm.trans candidate)
    rw [strength_depth]; omega
  · obtain rfl := Option.some.inj (is.symm.trans candidate)
    rw [strength_horizontal]; omega
  · rw [is] at candidate; cases candidate

/-- A tie goes to the depth axis. -/
theorem steerCandidate_tie (tie : lr.natAbs = cs.natAbs) :
    steerCandidate enter lr cs ≠ some .left ∧ steerCandidate enter lr cs ≠ some .right := by
  rcases steerCandidate_cases enter lr cs with ⟨is, -⟩ | ⟨-, reach⟩ | ⟨is, -⟩
  · rw [is]; split <;> exact ⟨nofun, nofun⟩
  · omega
  · rw [is]; exact ⟨nofun, nofun⟩

end Candidate

/-! ### An update (R61, R62) -/

section Update
variable {x : Steering} {m : MatrixPart} {lr cs : Int}

theorem Steering.update_candidate (x : Steering) (m : MatrixPart) (lr cs : Int) :
    (x.update m lr cs).candidate = steerCandidate m.enter lr cs := by
  simp only [Steering.update, apply_ite Steering.candidate, ite_self]

/-- No candidate, or one that is the state already, is not counted. -/
theorem Steering.update_uncounted (holds : 1 ≤ m.hold) (settled : steerCandidate m.enter lr cs = none ∨
      steerCandidate m.enter lr cs = steerJudge m.exit lr cs x.state) :
    (x.update m lr cs).state = steerJudge m.exit lr cs x.state ∧ (x.update m lr cs).counter = 0 := by
  have never : ¬((steerCandidate m.enter lr cs).isSome ∧ 0 = m.hold) := fun both => by omega
  simp only [Steering.update, if_pos settled, if_neg never, and_self]

/-- Another candidate is counted, and entered when its count reaches the hold. -/
theorem Steering.update_counted (some : steerCandidate m.enter lr cs ≠ none)
    (moves : steerCandidate m.enter lr cs ≠ steerJudge m.exit lr cs x.state) :
    let n := if steerCandidate m.enter lr cs = x.candidate ∧ 0 < x.counter then x.counter + 1 else 1
    (n = m.hold → (x.update m lr cs).state = steerCandidate m.enter lr cs ∧ (x.update m lr cs).counter = 0) ∧
    (n ≠ m.hold → (x.update m lr cs).state = steerJudge m.exit lr cs x.state ∧ (x.update m lr cs).counter = n) := by
  have unsettled : ¬(steerCandidate m.enter lr cs = none ∨
      steerCandidate m.enter lr cs = steerJudge m.exit lr cs x.state) := not_or.mpr ⟨some, moves⟩
  intro n
  have update : x.update m lr cs = if (steerCandidate m.enter lr cs).isSome ∧ n = m.hold then
      ⟨steerCandidate m.enter lr cs, steerCandidate m.enter lr cs, 0⟩
    else ⟨steerJudge m.exit lr cs x.state, steerCandidate m.enter lr cs, n⟩ := by
    simp only [Steering.update, if_neg unsettled, n]
  refine ⟨fun reaches => ?_, fun short => ?_⟩
  · rw [update, if_pos ⟨Option.ne_none_iff_isSome.mp some, reaches⟩]
    exact ⟨rfl, rfl⟩
  · rw [update, if_neg fun both => short both.2]
    exact ⟨rfl, rfl⟩

end Update

/-- Settles O23: a block by the laws of the chain, an update by its candidate. -/
theorem steeringCountsItsCandidate : Obligations.SteeringCountsItsCandidate := by
  refine ⟨fun x formats periods channels => ?_, fun x m lr cs ok => ?_⟩
  · obtain ⟨sum, difference⟩ := x.passed_steerMeters formats periods channels
    exact ⟨sum, difference, fun k m active part => Screen.passed_steering active part periods channels,
      fun none => Screen.passed_stands none periods channels⟩
  · obtain ⟨-, -, -, -, -, holds, -⟩ := ok
    intro strengthOf judged y
    have same : strengthOf = strength lr cs := rfl
    have exits : judged = steerJudge m.exit lr cs x.state := rfl
    rw [same, exits, x.update_candidate m lr cs]
    exact ⟨steerCandidate_eq_none, fun d => steerCandidate_strongest, steerCandidate_tie, Steering.update_uncounted holds,
      Steering.update_counted⟩

end Sys2Proof.Machine
end

section
/-!
PROOF. FORMAT_LOAD and FORMAT_CLEAR (R48, R51 to R53): each field of a format reads back from the bytes that spell it
(section 11.4), from the pairs of a steering row up to the whole payload, and the checks of the two commands follow.
-/

namespace Sys2Proof.Machine

/-! ### Counted lists of records of one size -/

theorem flatMap_length {α β : Type} {n : Nat} {record : α → List β} (size : ∀ x, (record x).length = n) (l : List α) :
    (l.flatMap record).length = n * l.length := by
  rw [List.length_flatMap, List.map_congr_left fun x _ => size x, List.map_const', List.sum_replicate, smul_eq_mul,
    Nat.mul_comm]

/-- Records of one size are cut apart again, whatever follows them. -/
theorem chunks_flatMap {α β : Type} {n : Nat} {record : α → List β} (size : ∀ x, (record x).length = n) (l : List α)
    (rest : List β) : chunks n l.length (l.flatMap record ++ rest) = l.map record := by
  induction l with
  | nil => rfl
  | cons x more ih =>
    rw [List.length_cons, chunks, List.flatMap_cons, List.append_assoc, List.take_left' (size x),
      List.drop_left' (size x), ih, List.map_cons]

/-- Records that each read back read back as a list. -/
theorem allSome_map_read {α β : Type} {write : α → β} {read : β → Option α} {l : List α}
    (reads : ∀ x ∈ l, read (write x) = some x) : allSome ((l.map write).map read) = some l := by
  rw [List.map_map, List.map_congr_left (f := read ∘ write) (g := some) reads, allSome_map_some]

/-! ### Routing terms (R49) -/

theorem RoutingTerm.bytes_length (t : RoutingTerm) : t.bytes.length = 5 := rfl

theorem readTerm_bytes {t : RoutingTerm} (low : -240 ≤ t.gain) (high : t.gain ≤ 0) : readTerm t.bytes = some t := by
  have output : readIndex 16 (t.bytes.getD 0 0#8) = some t.output := readIndex_ofNat (by decide) t.output
  have input : readIndex 16 (t.bytes.getD 1 0#8) = some t.input := readIndex_ofNat (by decide) t.input
  have gain : signedPair (t.bytes.getD 2 0#8) (t.bytes.getD 3 0#8) = t.gain :=
    signedPair_signed2 (le_trans (by decide) low) (lt_of_le_of_lt high (by decide))
  have invert : readFlag (t.bytes.getD 4 0#8) = some t.invert := readFlag_flagByte t.invert
  rw [readTerm, output, input, gain, readLevel_eq_some low high, invert]
  rfl

/-! ### Steering rows and the matrix part (R52) -/

/-- The three bytes of a pair. -/
def RowPair.bytes (p : RowPair) : List Byte := bytes1 p.output.val ++ signed2 p.offset

theorem RowPair.bytes_length (p : RowPair) : p.bytes.length = 3 := rfl

theorem rowBytes_eq (row : List RowPair) :
    rowBytes row = BitVec.ofNat 8 row.length :: row.flatMap RowPair.bytes := rfl

theorem readPair_bytes {p : RowPair} (low : -240 ≤ p.offset) (high : p.offset ≤ 24) : readPair p.bytes = some p := by
  have output : readIndex 16 (p.bytes.getD 0 0#8) = some p.output := readIndex_ofNat (by decide) p.output
  have offset : signedPair (p.bytes.getD 1 0#8) (p.bytes.getD 2 0#8) = p.offset :=
    signedPair_signed2 (le_trans (by decide) low) (lt_of_le_of_lt high (by decide))
  rw [readPair, output, offset, readLevel_eq_some low high]
  rfl

/-- What R52 asks of a steering row. -/
structure RowOk (row : List RowPair) : Prop where
  short : row.length ≤ 16
  once : (row.map (·.output)).Nodup
  offsets : ∀ p ∈ row, -240 ≤ p.offset ∧ p.offset ≤ 24

theorem readRow_bytes {row : List RowPair} (ok : RowOk row) :
    readRow row.length (row.flatMap RowPair.bytes) = some row := by
  have cut := chunks_flatMap RowPair.bytes_length row []
  rw [List.append_nil] at cut
  have pairs : allSome ((chunks 3 row.length (row.flatMap RowPair.bytes)).map readPair) = some row := by
    rw [cut]
    exact allSome_map_read fun p listed => readPair_bytes (ok.offsets p listed).1 (ok.offsets p listed).2
  rw [readRow, pairs]
  simp only [Option.bind_eq_bind, Option.bind_some, hasRepeat_eq_false ok.once, ok.short]
  rfl

/-- A row's count and pairs stand at the front of the bytes that its row and others spell. -/
theorem rows_cons {row : List RowPair} (short : row.length ≤ 16) (rest : List Byte) :
    (BitVec.ofNat 8 row.length).toNat = row.length ∧
      (row.flatMap RowPair.bytes ++ rest).take (3 * row.length) = row.flatMap RowPair.bytes ∧
      (row.flatMap RowPair.bytes ++ rest).drop (3 * row.length) = rest :=
  ⟨toNat_ofNat_byte (by omega), List.take_left' (flatMap_length RowPair.bytes_length row),
    List.drop_left' (flatMap_length RowPair.bytes_length row)⟩

theorem splitRows_bytes {rows : List (List RowPair)} (short : ∀ row ∈ rows, row.length ≤ 16) :
    splitRows rows.length (rows.flatMap rowBytes) =
      rows.map fun row => (row.length, row.flatMap RowPair.bytes) := by
  induction rows with
  | nil => rfl
  | cons row more ih =>
    obtain ⟨number, own, others⟩ := rows_cons (short row (by simp)) (more.flatMap rowBytes)
    rw [List.flatMap_cons, rowBytes_eq, List.length_cons, List.cons_append, splitRows, number, own, others,
      ih fun row listed => short row (by simp [listed]), List.map_cons]

theorem rowsFit_bytes {rows : List (List RowPair)} (short : ∀ row ∈ rows, row.length ≤ 16) :
    rowsFit rows.length (rows.flatMap rowBytes) = true := by
  induction rows with
  | nil => rfl
  | cons row more ih =>
    obtain ⟨number, -, others⟩ := rows_cons (short row (by simp)) (more.flatMap rowBytes)
    have enough : 3 * row.length ≤ (row.flatMap RowPair.bytes ++ more.flatMap rowBytes).length := by
      rw [List.length_append, flatMap_length RowPair.bytes_length]
      omega
    rw [List.flatMap_cons, rowBytes_eq, List.length_cons, List.cons_append, rowsFit, number, others,
      ih fun row listed => short row (by simp [listed]), decide_eq_true enough]
    rfl

section Matrix
variable {m : MatrixPart}

/-- The five steering rows of a matrix part. -/
def MatrixPart.rows (m : MatrixPart) : List (List RowPair) := [m.neutral, m.left, m.centre, m.right, m.surround]

theorem MatrixPart.bytes_drop (m : MatrixPart) : m.bytes.drop 4 = m.rows.flatMap rowBytes := rfl

theorem MatrixPart.bytes_length (m : MatrixPart) : 4 ≤ m.bytes.length := by
  have length : m.bytes.length = (m.rows.flatMap rowBytes).length + 4 := rfl
  omega

theorem rowOk_of_ok (ok : m.ok) : ∀ row ∈ m.rows, RowOk row := by
  obtain ⟨-, -, -, -, -, -, -, rows⟩ := ok
  exact fun row listed =>
    have ⟨short, once, offsets⟩ := rows row listed
    ⟨short, once, offsets⟩

theorem readMatrix_bytes (ok : m.ok) : readMatrix m.bytes = some m := by
  have rowsOk := rowOk_of_ok ok
  obtain ⟨enterLow, enterHigh, exitLow, exitHigh, below, holdLow, holdHigh, -⟩ := ok
  have enter : (m.bytes.getD 0 0#8).toNat = m.enter := toNat_ofNat_byte (by omega)
  have exit : (m.bytes.getD 1 0#8).toNat = m.exit := toNat_ofNat_byte (by omega)
  have hold : nat2 (m.bytes.getD 2 0#8) (m.bytes.getD 3 0#8) = m.hold := nat2_bytes2 (by omega)
  have rows : allSome ((splitRows 5 (m.bytes.drop 4)).map fun r => readRow r.1 r.2) = some m.rows := by
    rw [m.bytes_drop, show 5 = m.rows.length from rfl, splitRows_bytes fun row listed => (rowsOk row listed).short]
    exact allSome_map_read fun row listed => readRow_bytes (rowsOk row listed)
  rw [readMatrix, enter, exit, hold, rows, readRange_eq_some enterLow enterHigh, readRange_eq_some exitLow exitHigh,
    readRange_eq_some holdLow holdHigh]
  simp only [Option.bind_eq_bind, Option.bind_some, MatrixPart.rows, if_pos below]
  rfl

end Matrix

/-! ### The payload (section 11.4, R52, R165) -/

/-- The bytes of a format's matrix part, none where it has none. -/
def FormatEntry.matrixBytes (f : FormatEntry) : List Byte := f.matrix.elim [] MatrixPart.bytes

theorem formatPayload_eq (k : Fin 32) (f : FormatEntry) : formatPayload k f =
    (byteOf k.val :: f.label.toList) ++ (byteOf f.kind.code :: byteOf f.inputsExpected :: byteOf f.terms.length ::
      (f.terms.flatMap RoutingTerm.bytes ++ f.matrixBytes)) := by
  unfold formatPayload FormatEntry.matrixBytes
  cases f.matrix <;> simp

section Payload
variable {c : Command} {k : Fin 32} {f : FormatEntry} (payload : c.payload = formatPayload k f)
include payload

theorem formatPayload_index : readIndex 32 (c.byte 0) = some k := by
  rw [Command.byte, payload, formatPayload_eq]
  exact readIndex_ofNat (by decide) k

theorem formatPayload_label : (c.payload.drop 1).take 8 = f.label.toList := by
  rw [payload, formatPayload_eq, List.cons_append, List.drop_one, List.tail_cons, List.take_left' (by simp)]

/-- The payload past the label. -/
theorem formatPayload_fields : c.payload.drop 9 = byteOf f.kind.code :: byteOf f.inputsExpected ::
    byteOf f.terms.length :: (f.terms.flatMap RoutingTerm.bytes ++ f.matrixBytes) := by
  rw [payload, formatPayload_eq, List.drop_left' (by simp)]

theorem formatPayload_byte (j : Nat) : c.byte (9 + j) = (byteOf f.kind.code :: byteOf f.inputsExpected ::
    byteOf f.terms.length :: (f.terms.flatMap RoutingTerm.bytes ++ f.matrixBytes)).getD j 0#8 := by
  rw [← formatPayload_fields payload, Command.byte, List.getD_eq_getElem?_getD, List.getD_eq_getElem?_getD,
    List.getElem?_drop]

/-- The payload past the counts. -/
theorem formatPayload_terms : c.payload.drop 12 = f.terms.flatMap RoutingTerm.bytes ++ f.matrixBytes := by
  rw [← List.drop_drop (i := 3) (j := 9), formatPayload_fields payload]
  rfl

theorem formatPayload_kind : c.byte 9 = byteOf f.kind.code := formatPayload_byte payload 0

variable (ok : f.ok)
include ok

theorem formatPayload_inputs : c.num 10 = f.inputsExpected := by
  obtain ⟨-, -, most, -⟩ := ok
  rw [Command.num, formatPayload_byte payload 1]
  exact toNat_ofNat_byte (by omega)

theorem formatPayload_count : c.num 11 = f.terms.length := by
  obtain ⟨-, -, -, -, most, -⟩ := ok
  rw [Command.num, formatPayload_byte payload 2]
  exact toNat_ofNat_byte (by omega)

theorem formatPayload_chunks : chunks 5 (c.num 11) (c.payload.drop 12) = f.terms.map RoutingTerm.bytes := by
  rw [formatPayload_count payload ok, formatPayload_terms payload, chunks_flatMap RoutingTerm.bytes_length]

/-- The payload past the terms. -/
theorem formatPayload_matrix : c.payload.drop (12 + 5 * c.num 11) = f.matrixBytes := by
  rw [← List.drop_drop, formatPayload_terms payload, formatPayload_count payload ok,
    List.drop_left' (flatMap_length RoutingTerm.bytes_length _)]

theorem formatPayload_length : c.payload.length = 12 + 5 * c.num 11 + f.matrixBytes.length := by
  rw [formatPayload_count payload ok, payload, formatPayload_eq]
  simp only [List.length_append, List.length_cons, Vector.length_toList, flatMap_length RoutingTerm.bytes_length]
  omega

theorem formatLengthSuits_eq : formatLengthSuits c = true := by
  have length := formatPayload_length payload ok
  have bytes := formatPayload_matrix payload ok
  have kindByte : c.num 9 = f.kind.code := by
    rw [Command.num, formatPayload_kind payload]
    cases f.kind <;> rfl
  have enough : 12 ≤ c.payload.length := by omega
  rw [formatLengthSuits, decide_eq_true enough]
  obtain ⟨-, -, -, -, -, -, -, part⟩ := ok
  cases kind : f.kind with
  | discrete =>
    rw [kind] at part kindByte
    have none_ : f.matrixBytes = [] := by rw [FormatEntry.matrixBytes, part]; rfl
    rw [none_, List.length_nil, Nat.add_zero] at length
    simp [kindByte, FormatKind.code, length]
  | matrix =>
    rw [kind] at part kindByte
    obtain ⟨-, m, some_, mOk⟩ := part
    have matrix : f.matrixBytes = m.bytes := by rw [FormatEntry.matrixBytes, some_]; rfl
    have rows : rowsFit 5 (c.payload.drop (12 + 5 * c.num 11 + 4)) = true := by
      rw [← List.drop_drop, bytes, matrix, m.bytes_drop]
      exact rowsFit_bytes (rows := m.rows) fun row listed => (rowOk_of_ok mOk row listed).short
    have room := m.bytes_length
    rw [matrix] at length
    have fits : 12 + 5 * c.num 11 + 4 ≤ c.payload.length := by omega
    simp [kindByte, FormatKind.code, rows, fits]

theorem invertsAreFlags_eq : invertsAreFlags c = true := by
  rw [invertsAreFlags, formatPayload_chunks payload ok, List.all_map]
  exact List.all_eq_true.mpr fun t _ => congrArg Option.isSome (readFlag_flagByte t.invert)

theorem readMatrixPart_eq : readMatrixPart c f.kind = some f.matrix := by
  have bytes := formatPayload_matrix payload ok
  obtain ⟨-, -, -, -, -, -, -, part⟩ := ok
  cases kind : f.kind with
  | discrete =>
    rw [kind] at part
    rw [part]
    rfl
  | matrix =>
    rw [kind] at part
    obtain ⟨-, m, some_, mOk⟩ := part
    rw [readMatrixPart, bytes, FormatEntry.matrixBytes, some_, Option.elim_some, readMatrix_bytes mOk]
    rfl

/-- The whole content reads back (R52). -/
theorem readFormat_eq : readFormat c = some { f with valid := true, useCount := 0 } := by
  have matrix := readMatrixPart_eq payload ok
  have cut := formatPayload_chunks payload ok
  have inputs := formatPayload_inputs payload ok
  have count := formatPayload_count payload ok
  obtain ⟨characters, inputsLow, inputsHigh, few, most, gains, once, part⟩ := ok
  have label : readLabel ((c.payload.drop 1).take 8) = some f.label := by
    rw [formatPayload_label payload, readLabel,
      if_pos (List.all_eq_true.mpr fun b listed => decide_eq_true (characters b listed)), toVector_toList]
  have kind : readCode [.discrete, .matrix] (c.byte 9) = some f.kind := by
    rw [formatPayload_kind payload]
    cases f.kind <;> rfl
  have terms : allSome ((chunks 5 f.terms.length (c.payload.drop 12)).map readTerm) = some f.terms := by
    rw [← count, cut]
    exact allSome_map_read fun t listed => readTerm_bytes (gains t listed).1 (gains t listed).2
  have two : (f.kind != .matrix || f.inputsExpected == 2) = true := by
    cases kind : f.kind with
    | discrete => rfl
    | matrix =>
      rw [kind] at part
      rw [part.1]
      rfl
  rw [readFormat, label, kind, inputs, count, readRange_eq_some inputsLow inputsHigh, readRange_eq_some few most]
  simp only [Option.bind_eq_bind, Option.bind_some, terms, matrix, hasRepeat_eq_false once, two]
  rfl

end Payload

/-! ### The two commands (R52, R53) -/

theorem formatInUse_of_free {k : Fin 32} {s : State} (free : s.formats[k].useCount = 0) :
    formatInUse (some k) s = false := decide_eq_false (Nat.not_lt.mpr free.le)

theorem formatInUse_of_used {k : Fin 32} {s : State} (used : 0 < s.formats[k].useCount) :
    formatInUse (some k) s = true := decide_eq_true used

section Commands
variable {c : Command} {s : State} {k : Fin 32}

theorem cmdFormatLoad_answers {f : FormatEntry} (selector : c.selector = 14#8) (payload : c.payload = formatPayload k f)
    (ok : f.ok) (free : s.formats[k].useCount = 0) :
    cmdFormatLoad c s = (s.onFormat k fun _ => { f with valid := true, useCount := 0 }, ⟨.ok, 0#8, []⟩) := by
  have index := formatPayload_index payload
  have content := readFormat_eq payload ok
  refine (unitCommand_answers (formatLengthSuits_eq payload ok) selector ?_).trans ?_
  · simp only [checkFormatLoad, index, invertsAreFlags_eq payload ok, formatInUse_of_free free, content]
    rfl
  · simp only [effectFormatLoad, index, content]

theorem cmdFormatLoad_refused {f : FormatEntry} (selector : c.selector = 14#8) (payload : c.payload = formatPayload k f)
    (ok : f.ok) (used : 0 < s.formats[k].useCount) : cmdFormatLoad c s = (s, ⟨.inUse, 0#8, []⟩) := by
  rw [cmdFormatLoad, formatLengthSuits_eq payload ok]
  refine unitCommand_refused selector ?_
  simp only [checkFormatLoad, formatPayload_index payload, invertsAreFlags_eq payload ok, formatInUse_of_used used]
  rfl

theorem cmdFormatClear_answers (selector : c.selector = 14#8) (payload : c.payload = [byteOf k.val])
    (free : s.formats[k].useCount = 0) :
    cmdFormatClear c s = (s.onFormat k fun _ => invalidFormat, ⟨.ok, 0#8, []⟩) := by
  have index : readIndex 32 (c.byte 0) = some k := readIndex_byteOf (by decide) payload
  refine (unitCommand_answers (by rw [payload]; rfl) selector ?_).trans ?_
  · simp only [checkFormatClear, index, formatInUse_of_free free]
    rfl
  · simp only [effectFormatClear, index]

theorem cmdFormatClear_refused (selector : c.selector = 14#8) (payload : c.payload = [byteOf k.val])
    (used : 0 < s.formats[k].useCount) : cmdFormatClear c s = (s, ⟨.inUse, 0#8, []⟩) := by
  have index : readIndex 32 (c.byte 0) = some k := readIndex_byteOf (by decide) payload
  have length : (c.payload.length == 1) = true := by rw [payload]; rfl
  rw [cmdFormatClear, length]
  refine unitCommand_refused selector ?_
  simp only [checkFormatClear, index, formatInUse_of_used used]
  rfl

end Commands

/-- Settles O20: the payload reads back as the content, which the free entry takes. -/
theorem formatLoadStoresEveryAdmittedContent : Obligations.FormatLoadStoresEveryAdmittedContent :=
  fun _ _ _ _ can none free ok payload =>
    congrArg _ (commandRow_answers can (cmdFormatLoad_answers none payload ok free))

/-- Settles O21: the checks of the two commands, and what FORMAT_CLEAR writes. -/
theorem aFormatInUseIsKeptAndAFreeOneCleared : Obligations.AFormatInUseIsKeptAndAFreeOneCleared := by
  refine fun k a s can none => ⟨fun used payload => ?_, fun f used payload ok => ?_, fun free payload => ?_⟩
  · exact congrArg _ (commandRow_refuses can (cmdFormatClear_refused none payload used))
  · exact congrArg _ (commandRow_refuses can (cmdFormatLoad_refused none payload ok used))
  · exact congrArg _ (commandRow_answers can (cmdFormatClear_answers none payload free))

end Sys2Proof.Machine
end

section
/-!
PROOF. The live banks (R66). All but a few parts of an event leave the banks as they stand, whatever they do to their
roles; EQ_LOAD, EQ_COPY, the filling at ALIGN_START and the correction at the end of a DWELL write on the staging side
alone, and no role changes in their event before they write.
-/

namespace Sys2Proof.Machine

/-! ### What a write of staging banks leaves -/

/-- No bank that is live in `s` is another one in `t` (R66). -/
structure LeavesLive (s t : State) : Prop where
  live : ∀ (i : Fin 8) (c : Fin 16), t.eq[i][c].bank s.screens[i].eqLive = s.eq[i][c].bank s.screens[i].eqLive

/-- No live bank is written and no screen's banks change their roles. -/
structure WritesStaging (s t : State) : Prop extends LeavesLive s t where
  roles : ∀ i : Fin 8, t.screens[i].eqLive = s.screens[i].eqLive

namespace LeavesLive

theorem of_banks {s t : State} (same : t.eq = s.eq) : LeavesLive s t := ⟨fun _ _ => by rw [same]⟩

/-- A part of an event before one that leaves the banks, but perhaps not their roles. -/
theorem before {s t u : State} (first : LeavesLive s t) (same : u.eq = t.eq) : LeavesLive s u :=
  ⟨fun i c => by rw [same]; exact first.live i c⟩

end LeavesLive

namespace WritesStaging

theorem refl (s : State) : WritesStaging s s := ⟨.of_banks rfl, fun _ => rfl⟩

theorem trans {s t u : State} (first : WritesStaging s t) (second : WritesStaging t u) : WritesStaging s u :=
  ⟨⟨fun i c => by rw [← first.live i c, ← first.roles i]; exact second.live i c⟩,
    fun i => (second.roles i).trans (first.roles i)⟩

end WritesStaging

theorem onStaging_bank (live : BankName) (f : EqBank → EqBank → EqBank) (x : ChannelBanks) :
    (x.onStaging live f).bank live = x.bank live := by
  cases live <;> rfl

/-- The one write of the model on the banks: the staging side of a channel. -/
theorem onBanks_writesStaging (i : Fin 8) (c : Fin 16) (f : EqBank → EqBank → EqBank) (s : State) :
    WritesStaging s (s.onBanks i c fun x => x.onStaging s.screens[i].eqLive f) := by
  refine ⟨⟨fun j k => ?_⟩, fun _ => rfl⟩
  rw [onBanks_get]
  split
  · rename_i own
    rw [own.1, onStaging_bank]
  · rfl

theorem fillListed_writesStaging (i : Fin 8) (fromFlat : Bool) (channels : List (Fin 16)) (s : State) :
    WritesStaging s (fillListed i fromFlat channels s) := by
  induction channels generalizing s with
  | nil => exact .refl s
  | cons c rest ih => exact (onBanks_writesStaging i c _ s).trans (ih _)

/-- EQ_COPY fills the staging banks as the start of a CORRECT run that is not from flat does (R70, R82). -/
theorem copyBanks_eq_fillListed (i : Fin 8) (s : State) : copyBanks i s = fillListed i false (indexes 16) s := rfl

/-! ### What leaves the banks -/

section Banks
variable (s : State)

@[simp] theorem offerAOut_banks : (offerAOut s).eq = s.eq := by rw [offerAOut_frame]
@[simp] theorem file_banks (x : Option (Fin 8)) (b : NoticeBody) : (file x b s).eq = s.eq := by rw [file_frame]
@[simp] theorem fillSlot_banks : (fillSlot s).eq = s.eq := by rw [fillSlot_frame]
@[simp] theorem appendReply_banks (r : Reply) : (appendReply r s).eq = s.eq := by rw [appendReply_frame]
@[simp] theorem offerBOut_banks : (offerBOut s).eq = s.eq := by rw [offerBOut_frame]
@[simp] theorem joinBOut_banks (f : Frame) : (joinBOut f s).eq = s.eq := by rw [joinBOut_frame]
@[simp] theorem cancelHeld_banks (b : Bool) : (cancelHeld b s).eq = s.eq := by rw [cancelHeld_frame]
@[simp] theorem deriveMonitors_banks (i : Fin 8) : (deriveMonitors i s).eq = s.eq := by rw [deriveMonitors_frame]
@[simp] theorem enterState_banks (i : Fin 8) (st : ScreenState) : (enterState i st s).eq = s.eq := by
  rw [enterState_frame]
@[simp] theorem emptyWindows_banks (i : Fin 8) : (emptyWindows i s).eq = s.eq := by rw [emptyWindows_frame]
@[simp] theorem addUse_banks (k : Option (Fin 32)) : (addUse k s).eq = s.eq := by rw [addUse_frame]
@[simp] theorem goOff_banks (i : Fin 8) : (goOff i s).eq = s.eq := by rw [goOff_frame]
@[simp] theorem overtakeRun_banks (r : AbortReason) : (overtakeRun r s).eq = s.eq := by rw [overtakeRun_frame]
@[simp] theorem stopScreen_banks (i : Fin 8) : (stopScreen i s).eq = s.eq := by rw [stopScreen_frame]
@[simp] theorem houseStopsScreen_banks (i : Fin 8) : (houseStopsScreen s i).eq = s.eq := by
  rw [houseStopsScreen_frame]
@[simp] theorem resumeScreen_banks (i : Fin 8) : (resumeScreen i s).eq = s.eq := by rw [resumeScreen_frame]
@[simp] theorem houseReleasesScreen_banks (i : Fin 8) : (houseReleasesScreen s i).eq = s.eq := by
  rw [houseReleasesScreen_frame]
@[simp] theorem armFormat_banks (i : Fin 8) (k : Option (Fin 32)) : (armFormat i k s).eq = s.eq := by
  rw [armFormat_frame]
@[simp] theorem endFormatFade_banks (i : Fin 8) (cutShort : Bool) : (endFormatFade i cutShort s).eq = s.eq := by
  rw [endFormatFade_frame]
@[simp] theorem takeFormat_banks (i : Fin 8) (ms : Nat) : (takeFormat i ms s).eq = s.eq := by rw [takeFormat_frame]
@[simp] theorem endSwap_banks (i : Fin 8) (early : Bool) : (endSwap i early s).eq = s.eq := by rw [endSwap_frame]
@[simp] theorem finishStopFade_banks (i : Fin 8) : (finishStopFade i s).eq = s.eq := rfl
@[simp] theorem settleEnds_banks : (settleEnds s).eq = s.eq := rfl
@[simp] theorem goChange_banks (f : House → House) : (goChange f s).eq = s.eq := rfl
@[simp] theorem requestGoPulse_banks : (requestGoPulse s).eq = s.eq := by rw [requestGoPulse_frame]
@[simp] theorem passChain_banks (i : Fin 8) (f : Frame) : (passChain i f s).1.eq = s.eq := by rw [passChain_frame]

/-- A fold of changes that leave the banks leaves them. -/
theorem foldl_banks {α : Type} {f : State → α → State} (each : ∀ s x, (f s x).eq = s.eq) (l : List α) :
    (l.foldl f s).eq = s.eq := by
  induction l generalizing s with
  | nil => rfl
  | cons x rest ih => rw [List.foldl_cons, ih, each]

end Banks

/-! ### The house stop and the Cue Engine -/

section Triggers
variable {trig : Trigger → State → State} (causes : ∀ t s, (trig t s).eq = s.eq)
include causes

theorem houseEntry_banks (s : State) : (houseEntry trig s).eq = s.eq := by
  rw [houseEntry, causes, fillSlot_banks, cancelHeld_banks, foldl_banks _ houseStopsScreen_banks]

theorem houseRelease_banks (s : State) : (houseRelease trig s).eq = s.eq := by
  rw [houseRelease, causes, fillSlot_banks, foldl_banks _ houseReleasesScreen_banks]

theorem houseChange_banks (f : House → House) (s : State) : (houseChange trig f s).eq = s.eq := by
  unfold houseChange
  dsimp only
  split
  · exact houseEntry_banks causes _
  · split
    · exact houseRelease_banks causes _
    · rfl

theorem perform_banks (source : Source) (owner : Option (Fin 8)) (i : Fin 8) (a : Action) (s : State) :
    (perform trig source owner i a s).eq = s.eq := by
  cases a with
  | formatArm k => exact armFormat_banks s i k
  | formatTake ms => exact takeFormat_banks s i ms
  | goOut => exact requestGoPulse_banks s
  | houseStop => exact houseChange_banks causes _ s
  | notice code => exact file_banks ..
  | _ => rfl

theorem executeAction_banks (source : Source) (owner : Option (Fin 8)) (i : Fin 8) (a : Action) (released : Bool)
    (s : State) : (executeAction trig source owner i a released s).eq = s.eq := by
  unfold executeAction
  split
  · exact file_banks ..
  · split
    · exact file_banks ..
    · rw [perform_banks causes, file_banks]

theorem holdAction_banks (source : Source) (owner : Option (Fin 8)) (i : Fin 8) (a : Action) (s : State) :
    (holdAction trig source owner i a s).eq = s.eq := by
  unfold holdAction
  split
  · exact file_banks ..
  · split
    · exact executeAction_banks causes ..
    · split <;> exact file_banks ..

theorem fireAction_banks (source : Source) (owner : Option (Fin 8)) (i : Fin 8) (a : Action) (held : Bool)
    (s : State) : (fireAction trig source owner i a held s).eq = s.eq := by
  unfold fireAction
  split
  · exact holdAction_banks causes ..
  · exact executeAction_banks causes ..

theorem fireLink_banks (s : State) (k : Fin 32) : (fireLink trig s k).eq = s.eq := by
  unfold fireLink
  extract_lets l fired
  have fires : fired.eq = s.eq := fireAction_banks causes ..
  split <;> exact fires

end Triggers

theorem occursWithin_banks (depth : Nat) (t : Trigger) (s : State) : (occursWithin depth t s).eq = s.eq := by
  induction depth generalizing t s with
  | zero => rfl
  | succ depth ih => exact foldl_banks s (fireLink_banks ih) _

@[simp] theorem occurs_banks (t : Trigger) (s : State) : (occurs t s).eq = s.eq := occursWithin_banks 3 t s

theorem judgeBoothInput_banks (s : State) : (judgeBoothInput occurs s).eq = s.eq :=
  houseChange_banks occurs_banks _ s

theorem goEvent_banks (s : State) : (goEvent s).eq = s.eq := by
  unfold goEvent
  extract_lets items released
  have releases : released.eq = s.eq := foldl_banks _ (fun s h => executeAction_banks occurs_banks ..) _
  rw [occurs_banks]
  split
  · exact releases
  · exact (file_banks ..).trans releases

theorem processEntry_banks (i : Fin 8) (p : Word) (entries : List CueEntry) (s : State) (k : Fin 64) :
    (processEntry i p entries s k).eq = s.eq := by
  unfold processEntry
  split
  · rfl
  · split
    · split
      · exact file_banks ..
      · exact (occurs_banks ..).trans (fireAction_banks occurs_banks ..)
    · rfl

theorem takeCues_banks (i : Fin 8) (p : Word) (s : State) : (takeCues i p s).eq = s.eq :=
  foldl_banks s (processEntry_banks i p s.cueLists[i].entries) _

/-! ### The Level Monitor Unit -/

theorem reportEvent_banks (s : State) (x : Fin 48 × MonitorEvent) : (reportEvent s x).eq = s.eq := by
  unfold reportEvent
  extract_lets c told
  have tells : told.eq = s.eq := by
    dsimp only [told]
    split
    · exact file_banks ..
    · rfl
  split
  · exact tells
  · exact (occurs_banks ..).trans tells

theorem evaluateMonitors_banks (i : Fin 8) (s : State) : (evaluateMonitors i s).eq = s.eq := by
  unfold evaluateMonitors
  extract_lets events moved derived stopped
  have derives : derived.eq = s.eq := deriveMonitors_banks moved i
  have stops : stopped.eq = s.eq := by
    dsimp only [stopped]
    split
    · exact (houseChange_banks occurs_banks ..).trans derives
    · exact derives
  exact (foldl_banks _ reportEvent_banks _).trans stops

/-! ### The Alignment Engine (R82, R89) -/

theorem startRun_leavesLive (i : Fin 8) (q : RunRequest) (s : State) : LeavesLive s (startRun i q s) := by
  refine ⟨fun j c => ?_⟩
  rw [startRun_eq_get]
  split
  · rename_i listed
    rw [listed.1, onStaging_bank]
  · rfl

theorem completeRun_banks (s : State) : (completeRun s).eq = s.eq := by
  unfold completeRun
  dsimp only
  rw [occurs_banks, file_banks, State.onRun_eq, enterState_banks, State.onScreen_eq, State.onRun_eq]

theorem finishChannel_banks (result : AlignResult) (s : State) : (finishChannel result s).eq = s.eq := by
  unfold finishChannel
  extract_lets written i reported next
  have nexts : next.eq = s.eq := by
    dsimp only [next, reported]
    split
    · rfl
    · exact file_banks ..
  split
  · exact (completeRun_banks next).trans nexts
  · exact nexts

theorem writeCorrection_leavesLive (c : Fin 16) (d : Vector Int 31) (s : State) :
    LeavesLive s (writeCorrection c d s) := (onBanks_writesStaging s.run.screen c _ s).toLeavesLive.before rfl

theorem judgePass_leavesLive (c : Fin 16) (m : Vector Level 31) (s : State) : LeavesLive s (judgePass c m s) := by
  unfold judgePass
  extract_lets curve d deviation compared corrected
  have corrects : LeavesLive s corrected := ⟨(writeCorrection_leavesLive c d compared).live⟩
  split
  · exact .of_banks (finishChannel_banks .converged compared)
  · split
    · split
      · exact corrects.before rfl
      · exact corrects.before (finishChannel_banks ..)
    · exact .of_banks (finishChannel_banks .notConverged compared)

theorem dwellEnds_leavesLive (s : State) : LeavesLive s (dwellEnds s) := by
  unfold dwellEnds
  split
  · exact .of_banks rfl
  · unfold evaluatePass
    extract_lets a scale m measured
    split
    · exact .of_banks (finishChannel_banks .noSignal measured)
    · split
      · exact .of_banks (finishChannel_banks .clipped measured)
      · exact ⟨(judgePass_leavesLive _ m measured).live⟩

/-! ### A block taken, and other arriving frames -/

theorem noteArrival_banks (i : Fin 8) (f : Frame) (s : State) : (noteArrival i f s).eq = s.eq := by
  unfold noteArrival
  dsimp only
  split
  · exact file_banks ..
  · rfl

theorem startShow_banks (i : Fin 8) (position : Option Word) (s : State) : (startShow i position s).eq = s.eq := by
  unfold startShow
  dsimp only
  rw [occurs_banks, file_banks, State.onCueList_eq, State.onScreen_eq, emptyWindows_banks, enterState_banks]

theorem endShow_banks (i : Fin 8) (s : State) : (endShow i s).eq = s.eq := by
  unfold endShow
  dsimp only
  rw [occurs_banks, file_banks, enterState_banks]

theorem actOnRun_banks (i : Fin 8) (run : Bool) (position : Option Word) (s : State) :
    (actOnRun i run position s).eq = s.eq := by
  unfold actOnRun
  split
  · exact startShow_banks ..
  · exact endShow_banks ..
  · rw [startShow_banks, enterState_banks, overtakeRun_banks]
  · rfl

theorem checkGap_banks (i : Fin 8) (p : Word) (s : State) : (checkGap i p s).eq = s.eq := by
  unfold checkGap
  split
  · rfl
  · split
    · rfl
    · exact file_banks ..

theorem handlePosition_banks (i : Fin 8) (position : Option Word) (s : State) :
    (handlePosition i position s).eq = s.eq := by
  unfold handlePosition
  split
  · exact (takeCues_banks ..).trans (checkGap_banks ..)
  · rfl

theorem checkMismatch_banks (i : Fin 8) (f : Frame) (s : State) : (checkMismatch i f s).eq = s.eq := by
  rcases checkMismatch_cases i f s with same | ⟨body, told⟩
  · rw [same]
  · rw [told, file_banks, State.onScreen_eq]

theorem takeBlock_banks (i : Fin 8) (f : Frame) (s : State) : (takeBlock i f s).eq = s.eq := by
  rw [takeBlock_eq, joinBOut_banks, evaluateMonitors_banks, chained, passChain_banks, checkMismatch_banks,
    handlePosition_banks, actOnRun_banks, noteArrival_banks]

theorem handBlock_banks (i : Fin 8) (f : Frame) (s : State) : (handBlock i f s).eq = s.eq := by
  unfold handBlock
  split
  · exact joinBOut_banks ..
  · exact takeBlock_banks ..

theorem makeSilent_banks (i : Fin 8) (s : State) : (makeSilent i s).eq = s.eq := joinBOut_banks ..

theorem loseSource_banks (i : Fin 8) (s : State) : (loseSource i s).eq = s.eq := by
  unfold loseSource
  extract_lets lost told made
  have makes : made.eq = s.eq := (makeSilent_banks ..).trans (file_banks ..)
  split
  · exact (enterState_banks ..).trans ((overtakeRun_banks ..).trans makes)
  · exact makes

theorem nextSilent_banks (i : Fin 8) (s : State) : (nextSilent i s).eq = s.eq := makeSilent_banks ..

theorem joinIntake_banks (c : Command) (s : State) : (joinIntake c s).eq = s.eq := by
  unfold joinIntake
  split <;> rfl

theorem joinForward_banks (f : Frame) (s : State) : (joinForward f s).eq = s.eq := by
  unfold joinForward
  split
  · exact offerAOut_banks _
  · rfl

theorem routeCommand_banks (f : Frame) (s : State) : (routeCommand f s).eq = s.eq := by
  unfold routeCommand
  split
  · exact joinIntake_banks ..
  · split
    · exact (joinBOut_banks ..).trans (joinIntake_banks ..)
    · exact joinBOut_banks ..

theorem routeBlock_banks (f : Frame) (s : State) : (routeBlock f s).eq = s.eq := by
  unfold routeBlock
  split
  · split
    · exact handBlock_banks ..
    · rfl
  · exact joinBOut_banks ..

theorem routeFrame_banks (lane : Lane) (f : Frame) (s : State) : (routeFrame lane f s).eq = s.eq := by
  unfold routeFrame
  split
  · split
    · exact routeBlock_banks f s
    · exact routeCommand_banks f s
  · exact joinForward_banks f s

theorem receive_banks (lane : Lane) (cutOff : Bool) (f : Frame) (s : State) : (receive lane cutOff f s).eq = s.eq := by
  unfold receive
  dsimp only
  split
  · rfl
  · split
    · rfl
    · exact routeFrame_banks ..

/-! ### The wires and the timers -/

theorem takeGo_banks (s : State) : (takeGo s).eq = s.eq := by
  unfold takeGo
  dsimp only
  split
  · exact goEvent_banks _
  · rfl

theorem takeLine_banks (l : Fin 16) (s : State) : (takeLine l s).eq = s.eq := by
  unfold takeLine
  dsimp only
  split
  · exact (occurs_banks ..).trans (file_banks ..)
  · exact judgeBoothInput_banks _
  · rfl

theorem expireTimer_banks (t : Fin 8) (s : State) : (expireTimer t s).eq = s.eq := occurs_banks ..

/-! ### The classes of commands: what each effect does, from screen to screen, the command does -/

section Bodies
variable {R : State → State → Prop} (refl : ∀ s, R s s) {suits : Bool} {size : Nat} {c : Command}
include refl

theorem unitCommand_rel {check : State → Option Result} {effect : State → State × List Byte}
    (acts : ∀ s, R s (effect s).1) (s : State) : R s (unitCommand suits check effect c s).1 := by
  unfold unitCommand applyUnit
  split
  · exact refl s
  · split
    · exact refl s
    · exact acts s

theorem applyScreen_rel {success : Result} {check : Fin 8 → State → Option Result}
    {effect : Fin 8 → State → State × List Byte} (acts : ∀ i s, R s (effect i s).1) (i : Fin 8) (s : State) :
    R s (applyScreen success check effect i s).1 := by
  unfold applyScreen
  split
  · exact refl s
  · exact acts i s

theorem oneScreenCommand_rel {check : Fin 8 → State → Option Result} {effect : Fin 8 → State → State}
    (acts : ∀ i s, R s (effect i s)) (s : State) : R s (oneScreenCommand suits check effect c s).1 := by
  unfold oneScreenCommand
  split
  · exact refl s
  · split
    · exact applyScreen_rel refl acts _ s
    · exact refl s

variable (trans : ∀ {s t u}, R s t → R t u → R s u)
include trans

theorem applyList_rel {check : Fin 8 → State → Option Result} {effect : Fin 8 → State → State × List Byte}
    (acts : ∀ i s, R s (effect i s).1) (l : List (Fin 8)) (s : State) : R s (applyList size check effect l s).1 := by
  induction l generalizing s with
  | nil => exact refl s
  | cons i rest ih =>
    unfold applyList
    split
    · exact ih s
    · exact trans (acts i s) (ih _)

theorem screenCommand_rel {check : Fin 8 → State → Option Result} {effect : Fin 8 → State → State × List Byte}
    (acts : ∀ i s, R s (effect i s).1) (s : State) : R s (screenCommand suits size check effect c s).1 := by
  unfold screenCommand
  split
  · exact refl s
  · split
    · exact applyScreen_rel refl acts _ s
    · exact applyList_rel refl trans acts _ s

end Bodies

section Commands
variable {suits : Bool} {size : Nat} {c : Command}

/-- A command of the unit class whose effect leaves the banks. -/
theorem unitCommand_leavesLive {check : State → Option Result} {effect : State → State × List Byte}
    (acts : ∀ s, (effect s).1.eq = s.eq) (s : State) : LeavesLive s (unitCommand suits check effect c s).1 :=
  .of_banks (unitCommand_rel (R := fun s t => t.eq = s.eq) (fun _ => rfl) acts s)

/-- A command of the screen class whose effect leaves the banks. -/
theorem screenCommand_leavesLive {check : Fin 8 → State → Option Result} {effect : Fin 8 → State → State × List Byte}
    (acts : ∀ s i, (effect i s).1.eq = s.eq) (s : State) :
    LeavesLive s (screenCommand suits size check effect c s).1 :=
  .of_banks (screenCommand_rel (R := fun s t => t.eq = s.eq) (fun _ => rfl)
    (fun first second => second.trans first) (fun i s => acts s i) s)

/-- A command of the screen class whose effect writes staging banks. -/
theorem screenCommand_writesStaging {check : Fin 8 → State → Option Result}
    {effect : Fin 8 → State → State × List Byte} (acts : ∀ i s, WritesStaging s (effect i s).1) (s : State) :
    WritesStaging s (screenCommand suits size check effect c s).1 :=
  screenCommand_rel .refl .trans acts s

end Commands

/-! ### The effects of the commands -/

section Effects
variable (c : Command) (s : State)

theorem setUpScreen_banks (i : Fin 8) (v : SetupValues) (k : Fin 32) : (setUpScreen i v k s).eq = s.eq := by
  unfold setUpScreen
  dsimp only
  split <;> simp

theorem effectSetup_banks (i : Fin 8) : (effectSetup c i s).1.eq = s.eq := by
  unfold effectSetup
  split
  · exact setUpScreen_banks ..
  · rfl

theorem effectFader_banks (i : Fin 8) : (effectFader c i s).1.eq = s.eq := by
  unfold effectFader
  split <;> rfl

theorem effectMute_banks (i : Fin 8) : (effectMute c i s).1.eq = s.eq := by
  unfold effectMute setCommandMute
  split
  · rfl
  · split <;> rfl

theorem effectRehearsal_banks (i : Fin 8) : (effectRehearsal c i s).1.eq = s.eq := by
  unfold effectRehearsal
  split <;> rfl

theorem effectChannelSetup_banks (i : Fin 8) : (effectChannelSetup c i s).1.eq = s.eq := by
  unfold effectChannelSetup
  split <;> rfl

theorem effectFormatLoad_banks : (effectFormatLoad c s).1.eq = s.eq := by
  unfold effectFormatLoad
  split <;> rfl

theorem effectFormatClear_banks : (effectFormatClear c s).1.eq = s.eq := by
  unfold effectFormatClear
  split <;> rfl

theorem effectFormatRead_banks : (effectFormatRead c s).1.eq = s.eq := by
  unfold effectFormatRead
  split <;> rfl

theorem effectArm_banks (i : Fin 8) : (effectArm c i s).1.eq = s.eq := by
  unfold effectArm
  split
  · rfl
  · exact armFormat_banks ..

theorem effectEqGraphic_writesStaging (i : Fin 8) : WritesStaging s (effectEqGraphic c i s).1 := by
  unfold effectEqGraphic
  split
  · exact onBanks_writesStaging ..
  · exact .refl s

theorem effectEqSection_writesStaging (i : Fin 8) : WritesStaging s (effectEqSection c i s).1 := by
  unfold effectEqSection
  split
  · exact onBanks_writesStaging ..
  · exact .refl s

theorem effectEqRead_banks (i : Fin 8) : (effectEqRead c i s).1.eq = s.eq := by
  unfold effectEqRead
  split <;> rfl

theorem effectCurveLoad_banks : (effectCurveLoad c s).1.eq = s.eq := by
  unfold effectCurveLoad
  split <;> rfl

theorem effectAlignStart_leavesLive (i : Fin 8) : LeavesLive s (effectAlignStart c i s) := by
  unfold effectAlignStart
  split
  · exact startRun_leavesLive ..
  · exact .of_banks rfl

theorem abortByCommand_banks (i : Fin 8) : (abortByCommand i s).eq = s.eq :=
  (enterState_banks ..).trans (overtakeRun_banks ..)

theorem effectMonitorLoad_banks : (effectMonitorLoad c s).1.eq = s.eq := by
  unfold effectMonitorLoad
  split
  · rfl
  · split <;> simp

theorem effectMonitorEnable_banks : (effectMonitorEnable c s).1.eq = s.eq := by
  unfold effectMonitorEnable
  split
  · rfl
  · dsimp only
    split <;> simp

theorem effectMonitorDisable_banks : (effectMonitorDisable c s).1.eq = s.eq := by
  unfold effectMonitorDisable
  split
  · rfl
  · dsimp only
    split <;> simp

theorem effectMonitorAck_banks : (effectMonitorAck c s).1.eq = s.eq := by
  unfold effectMonitorAck
  split
  · rfl
  · exact (reportEvent_banks ..).trans (deriveMonitors_banks ..)

theorem effectMonitorStatus_banks : (effectMonitorStatus c s).1.eq = s.eq := by
  unfold effectMonitorStatus
  dsimp only
  split
  · exact foldl_banks s (f := fun s k => s.onMonitor k Monitor.clearTrip) (fun _ _ => rfl) _
  · rfl

theorem effectCuelistLoad_banks (i : Fin 8) : (effectCuelistLoad c i s).1.eq = s.eq := by
  unfold effectCuelistLoad
  split <;> rfl

theorem effectLinkLoad_banks : (effectLinkLoad c s).1.eq = s.eq := by
  unfold effectLinkLoad
  split <;> rfl

theorem effectLinkFlag_banks (on : Bool) : (effectLinkFlag on c s).1.eq = s.eq := by
  unfold effectLinkFlag
  split <;> rfl

theorem effectTimerStart_banks : (effectTimerStart c s).1.eq = s.eq := by
  unfold effectTimerStart
  split <;> rfl

theorem effectTimerStop_banks : (effectTimerStop c s).1.eq = s.eq := by
  unfold effectTimerStop
  split <;> rfl

theorem effectTimerRead_banks : (effectTimerRead c s).1.eq = s.eq := by
  unfold effectTimerRead
  split <;> rfl

theorem effectCueFire_banks : (effectCueFire c s).1.eq = s.eq := by
  unfold effectCueFire
  split
  · rfl
  · exact fireLink_banks occurs_banks ..

theorem effectHouseSetup_banks : (effectHouseSetup c s).1.eq = s.eq := by
  unfold effectHouseSetup
  split
  · rfl
  · exact houseChange_banks occurs_banks ..

theorem effectLineSetup_banks : (effectLineSetup c s).1.eq = s.eq := by
  unfold effectLineSetup
  split
  · exact judgeBoothInput_banks _
  · rfl

theorem effectLineSet_banks : (effectLineSet c s).1.eq = s.eq := by
  unfold effectLineSet
  split <;> rfl

theorem effectLinkStats_banks : (effectLinkStats c s).1.eq = s.eq := by
  unfold effectLinkStats
  split <;> rfl

end Effects

/-! ### Every command -/

theorem cmdEqLoad_leavesLive (c : Command) (s : State) : LeavesLive s (cmdEqLoad c s).1 := by
  unfold cmdEqLoad
  split
  · exact (screenCommand_writesStaging (fun i s => effectEqGraphic_writesStaging c s i) s).toLeavesLive
  · split
    · exact (screenCommand_writesStaging (fun i s => effectEqSection_writesStaging c s i) s).toLeavesLive
    · exact screenCommand_leavesLive (fun _ _ => rfl) s

theorem cmdEqCopy_leavesLive (c : Command) (s : State) : LeavesLive s (cmdEqCopy c s).1 :=
  (screenCommand_writesStaging (fun i s => fillListed_writesStaging i false _ s) s).toLeavesLive

/-- Whatever command is executed, UNIT_RESET apart. -/
theorem bodyOf_leavesLive (code : Nat) (c : Command) (s : State) : LeavesLive s (bodyOf code c s).1 := by
  unfold bodyOf
  split
  case h_1 => exact unitCommand_leavesLive (fun _ => rfl) s
  case h_2 => exact unitCommand_leavesLive (fun _ => rfl) s
  case h_3 => exact unitCommand_leavesLive (effectLinkStats_banks c) s
  case h_4 => exact screenCommand_leavesLive (effectSetup_banks c) s
  case h_5 => exact screenCommand_leavesLive goOff_banks s
  case h_6 => exact screenCommand_leavesLive (fun _ _ => rfl) s
  case h_7 => exact screenCommand_leavesLive resumeScreen_banks s
  case h_8 => exact screenCommand_leavesLive (effectFader_banks c) s
  case h_9 => exact screenCommand_leavesLive (effectMute_banks c) s
  case h_10 => exact screenCommand_leavesLive (effectRehearsal_banks c) s
  case h_11 => exact screenCommand_leavesLive (effectChannelSetup_banks c) s
  case h_12 => exact unitCommand_leavesLive (effectFormatLoad_banks c) s
  case h_13 => exact unitCommand_leavesLive (effectFormatClear_banks c) s
  case h_14 => exact screenCommand_leavesLive (effectArm_banks c) s
  case h_15 => exact screenCommand_leavesLive (fun s i => takeFormat_banks s i _) s
  case h_16 => exact unitCommand_leavesLive (effectFormatRead_banks c) s
  case h_17 => exact cmdEqLoad_leavesLive c s
  case h_18 => exact cmdEqCopy_leavesLive c s
  case h_19 => exact screenCommand_leavesLive (fun _ _ => rfl) s
  case h_20 => exact screenCommand_leavesLive (effectEqRead_banks c) s
  case h_21 => exact unitCommand_leavesLive (effectCurveLoad_banks c) s
  case h_22 => exact oneScreenCommand_rel (fun _ => .of_banks rfl) (fun i s => effectAlignStart_leavesLive c s i) s
  case h_23 => exact screenCommand_leavesLive abortByCommand_banks s
  case h_24 => exact unitCommand_leavesLive (fun _ => rfl) s
  case h_25 => exact unitCommand_leavesLive (effectMonitorLoad_banks c) s
  case h_26 => exact unitCommand_leavesLive (effectMonitorEnable_banks c) s
  case h_27 => exact unitCommand_leavesLive (effectMonitorDisable_banks c) s
  case h_28 => exact unitCommand_leavesLive (effectMonitorAck_banks c) s
  case h_29 => exact unitCommand_leavesLive (effectMonitorStatus_banks c) s
  case h_30 => exact screenCommand_leavesLive (effectCuelistLoad_banks c) s
  case h_31 => exact screenCommand_leavesLive (fun _ _ => rfl) s
  case h_32 => exact unitCommand_leavesLive (effectLinkLoad_banks c) s
  case h_33 => exact unitCommand_leavesLive (fun s => effectLinkFlag_banks c s true) s
  case h_34 => exact unitCommand_leavesLive (fun s => effectLinkFlag_banks c s false) s
  case h_35 => exact unitCommand_leavesLive (effectTimerStart_banks c) s
  case h_36 => exact unitCommand_leavesLive (effectTimerStop_banks c) s
  case h_37 => exact unitCommand_leavesLive (effectTimerRead_banks c) s
  case h_38 => exact unitCommand_leavesLive (effectCueFire_banks c) s
  case h_39 => exact unitCommand_leavesLive requestGoPulse_banks s
  case h_40 => exact unitCommand_leavesLive (fun s => cancelHeld_banks s false) s
  case h_41 => exact unitCommand_leavesLive (fun _ => rfl) s
  case h_42 => exact unitCommand_leavesLive (effectHouseSetup_banks c) s
  case h_43 => exact unitCommand_leavesLive (houseChange_banks occurs_banks _) s
  case h_44 => exact unitCommand_leavesLive (houseChange_banks occurs_banks _) s
  case h_45 => exact unitCommand_leavesLive (fun _ => rfl) s
  case h_46 => exact unitCommand_leavesLive (effectLineSetup_banks c) s
  case h_47 => exact unitCommand_leavesLive (effectLineSet_banks c) s
  case h_48 => exact unitCommand_leavesLive (fun _ => rfl) s
  case h_49 => exact .of_banks rfl

/-! ### Rows -/

/-- UNIT_RESET that keeps the tables keeps the banks (R67). -/
theorem unitReset_keepTables_leavesLive {a : CmdArgs} {s t : State}
    (answers : exec (.unitResetKeepTables a) s = .next t) : LeavesLive s t := by
  have resets : LeavesLive s (cmdUnitResetIn .keepTables (formCommandOf 2#8 0#8 a) s).1 :=
    unitCommand_leavesLive (fun s => by rw [resetUnit_keepTables]; rfl) s
  cases answers
  split
  · unfold executeThen readyAfter fileReady
    dsimp only
    split
    · exact (resets.before (appendReply_banks ..)).before (file_banks ..)
    · exact resets.before (appendReply_banks ..)
  · exact .of_banks rfl

/-- A row that spells a command, UNIT_RESET apart. -/
theorem commandRow_leavesLive {r : Instr} {c : Command} {s t : State} (spells : r.command = some c)
    (other : c.code ≠ 2#8) (answers : exec r s = .next t) : LeavesLive s t := by
  rw [exec_of_command spells] at answers
  cases answers
  split
  · rw [executeCommand, if_neg other]
    exact (bodyOf_leavesLive _ c s).before (appendReply_banks ..)
  · exact .of_banks rfl

/-- The code of UNIT_RESET is spelled by its two rows alone (section 9.4). -/
theorem code_ne_unitReset {r : Instr} {c : Command} (spells : r.command = some c)
    (keeps : ∀ a, r ≠ .unitResetKeepTables a) (clears : ∀ a, r ≠ .unitResetClear a) : c.code ≠ 2#8 := by
  cases r with
  | unitResetKeepTables a => exact absurd rfl (keeps a)
  | unitResetClear a => exact absurd rfl (clears a)
  | _ => cases spells <;> simp [commandOf, formCommandOf]

theorem eventRow_leavesLive {f : State → State} (acts : ∀ s, LeavesLive s (f s)) (s : State) :
    LeavesLive s (eventRow f s) := by
  unfold eventRow
  split
  · exact .of_banks rfl
  · exact acts s

theorem timedRow_leavesLive {due : State → Bool} {f : State → State} (acts : ∀ s, LeavesLive s (f s)) (s : State) :
    LeavesLive s (timedRow due f s) := by
  refine eventRow_leavesLive (fun s => ?_) s
  split
  · exact acts s
  · exact .of_banks rfl

/-- A row that spells no command, COMMAND_TAKE and POWER_ON_RESET apart. -/
theorem otherRow_leavesLive {r : Instr} {s t : State} (event : r.command = none)
    (noPower : ∀ straps, r ≠ .powerOnReset straps) (noTake : r ≠ .commandTake) (answers : exec r s = .next t) :
    LeavesLive s t := by
  have receives (lane : Lane) (cutOff : Bool) (f : Frame) (s : State) : LeavesLive s (receive lane cutOff f s) :=
    .of_banks (receive_banks ..)
  have lines (l : Fin 16) (s : State) : LeavesLive s (takeLine l s) := .of_banks (takeLine_banks l s)
  cases r with
  | commandTake => exact absurd rfl noTake
  | powerOnReset straps => exact absurd rfl (noPower straps)
  | blockArrival f => cases answers; exact eventRow_leavesLive (receives _ _ _) s
  | commandArrival f => cases answers; exact eventRow_leavesLive (receives _ _ _) s
  | forwardArrival f => cases answers; exact eventRow_leavesLive (receives _ _ _) s
  | discardedFrame lane cutOff f => cases answers; exact eventRow_leavesLive (receives _ _ _) s
  | aOutFrameSent =>
    cases answers; exact eventRow_leavesLive (fun s => .of_banks (offerAOut_banks { s with aOut := none })) s
  | bOutFrameSent =>
    cases answers; exact eventRow_leavesLive (fun s => .of_banks (offerBOut_banks { s with bOut := none })) s
  | resetnAssert => cases answers; exact .of_banks rfl
  | sourceLost i => cases answers; exact timedRow_leavesLive (fun s => .of_banks (loseSource_banks i s)) s
  | silentBlock i => cases answers; exact timedRow_leavesLive (fun s => .of_banks (nextSilent_banks i s)) s
  | faderRampEnd i => cases answers; exact timedRow_leavesLive (fun s => .of_banks (State.onScreen_eq s i _)) s
  | stopFadeEnd i => cases answers; exact timedRow_leavesLive (fun s => .of_banks (finishStopFade_banks s i)) s
  | formatCrossfadeEnd i => cases answers; exact timedRow_leavesLive (fun s => .of_banks (endFormatFade_banks s i _)) s
  | swapCrossfadeEnd i => cases answers; exact timedRow_leavesLive (fun s => .of_banks (endSwap_banks s i _)) s
  | settleEnd => cases answers; exact timedRow_leavesLive (fun s => .of_banks (settleEnds_banks s)) s
  | dwellEnd => cases answers; exact timedRow_leavesLive dwellEnds_leavesLive s
  | timerExpiry t => cases answers; exact timedRow_leavesLive (fun s => .of_banks (expireTimer_banks t s)) s
  | pulsePhaseEnd l => cases answers; exact timedRow_leavesLive (fun s => .of_banks (State.onLine_eq s l _)) s
  | goPulseEnd => cases answers; exact timedRow_leavesLive (fun s => .of_banks (goChange_banks s _)) s
  | hstopPinChange level => cases answers; exact .of_banks rfl
  | hstopSensedChange =>
    cases answers; exact timedRow_leavesLive (fun s => .of_banks (houseChange_banks occurs_banks _ s)) s
  | goPinChange level => cases answers; exact .of_banks rfl
  | goSensedChange => cases answers; exact timedRow_leavesLive (fun s => .of_banks (takeGo_banks s)) s
  | linePinChange l level =>
    cases answers
    split
    · exact ⟨(timedRow_leavesLive (lines l) _).live⟩
    · exact .of_banks rfl
  | lineFilterChange l => cases answers; exact timedRow_leavesLive (lines l) s
  | _ => cases event

/-- Settles O26: a row is a command or an event, and each leaves the live banks. -/
theorem noRowWritesALiveBank : Obligations.NoRowWritesALiveBank := by
  intro r s t answers noPower noClear noTake
  suffices leaves : LeavesLive s t from leaves.live
  cases spells : r.command with
  | none => exact otherRow_leavesLive spells noPower noTake answers
  | some c =>
    by_cases keeps : ∃ a, r = .unitResetKeepTables a
    · obtain ⟨a, rfl⟩ := keeps
      exact unitReset_keepTables_leavesLive answers
    · exact commandRow_leavesLive spells (code_ne_unitReset spells (not_exists.mp keeps) noClear) answers

end Sys2Proof.Machine
end

section
/-!
PROOF. EQ_LOAD, CURVE_LOAD and EQ_COPY (R65, R68 to R70, R76, R77): the fields of their payloads read back, their checks
follow, and what they write is one staging bank, one curve, or the staging bank of every channel.
-/

namespace Sys2Proof.Machine

/-! ### Fields of a payload (section 11.4) -/

theorem signedBytes_length (g : Vector Int 31) : (g.toList.flatMap signed1).length = 31 := by
  rw [flatMap_length (record := signed1) (fun _ => rfl), Vector.length_toList]

/-- 31 bands that stand in a payload read back. -/
theorem bands_eq {c : Command} {k : Nat} {g : Vector Int 31} {rest : List Byte}
    (ranges : ∀ x ∈ g.toList, -48 ≤ x ∧ x ≤ 24) (stand : c.payload.drop k = g.toList.flatMap signed1 ++ rest) :
    c.bands k = some g := by
  have cut : (c.payload.drop k).take 31 = g.toList.map (BitVec.ofInt 8) := by
    rw [stand, List.take_left' (signedBytes_length g)]
    exact List.map_eq_flatMap.symm
  have reads : allSome ((g.toList.map (BitVec.ofInt 8)).map fun b : Byte => readLevel (-48) 24 b.toInt) =
      some g.toList := by
    refine allSome_map_read fun x listed => ?_
    obtain ⟨low, high⟩ := ranges x listed
    rw [toInt_ofInt_byte (by omega) (by omega), readLevel_eq_some low high]
  rw [Command.bands, cut, reads]
  exact toVector_toList g

theorem readCode_sectionType (t : SectionType) : readCode sectionTypes (BitVec.ofNat 8 t.code) = some t := by
  cases t <;> rfl

/-- What the bank stores of a section: 0 in the fields that its type does not use (R65). -/
theorem storedSection_eq (x : EqSection) : storedSection x.type x.freq x.gain x.q = { x with
    freq := if x.type = .none then 0 else x.freq
    gain := if x.type = .none ∨ x.type = .lowCut ∨ x.type = .highCut then 0 else x.gain
    q := if x.type = .none then 0 else x.q } := by
  obtain ⟨type, freq, gain, q⟩ := x
  cases type <;> rfl

/-! ### EQ_LOAD (R68, R69) -/

theorem eqBusy_eq_false {s : State} {i : Fin 8} (free : s.screens[i].state ≠ .inAlign)
    (still : s.screens[i].eqSwap = none) : s.eqBusy i = false := by
  rw [State.eqBusy, isAligning_eq_false free, still]
  rfl

theorem eqBusy_eq_true {s : State} {i : Fin 8} (busy : s.screens[i].state = .inAlign ∨ s.screens[i].eqSwap ≠ none) :
    s.eqBusy i = true := by
  rw [State.eqBusy, Bool.or_eq_true]
  exact busy.imp beq_iff_eq.mpr Option.ne_none_iff_isSome.mp

theorem onStagingBank_eq (i : Fin 8) (c : Fin 16) (f : EqBank → EqBank) (s : State) :
    onStagingBank i c f s = s.onBanks i c (withStaging s.screens[i].eqLive f) := by
  unfold onStagingBank
  cases s.screens[i].eqLive <;> rfl

section Loads
variable {c : Command} {s : State} {i : Fin 8} {k : Fin 16}

theorem cmdEqLoadGraphic_answers {g : Vector Int 31} (selector : c.selector = BitVec.ofNat 8 i.val)
    (ranges : ∀ x ∈ g.toList, -48 ≤ x ∧ x ≤ 24)
    (payload : c.payload = 0#8 :: byteOf k.val :: g.toList.flatMap signed1)
    (free : s.screens[i].state ≠ .inAlign) (still : s.screens[i].eqSwap = none) :
    cmdEqLoadGraphic c s = (s.onBanks i k (withStaging s.screens[i].eqLive fun b =>
      { b with graphic := g, origin := .loaded, passStamp := 0 }), ⟨.ok, 0#8, []⟩) := by
  have length : (c.payload.length == 33) = true := by
    rw [payload, List.length_cons, List.length_cons, signedBytes_length]
    rfl
  have index : readIndex 16 (c.byte 1) = some k := by
    rw [Command.byte, payload]
    exact readIndex_ofNat (by decide) k
  have bands : c.bands 2 = some g := bands_eq (rest := []) ranges (by rw [payload]; exact (List.append_nil _).symm)
  refine (screenCommand_answers length selector ?_).trans ?_
  · simp only [checkEqGraphic, index, bands, eqBusy_eq_false free still]
    rfl
  · simp only [effectEqGraphic, index, bands, onStagingBank_eq]

theorem cmdEqLoadSection_answers {j : Fin 8} {x : EqSection} (selector : c.selector = BitVec.ofNat 8 i.val)
    (freq : x.freq ≤ 119) (gainLow : -48 ≤ x.gain) (gainHigh : x.gain ≤ 24) (q : x.q ≤ 31)
    (payload : c.payload = [1#8, byteOf k.val, byteOf j.val] ++ x.bytes)
    (free : s.screens[i].state ≠ .inAlign) (still : s.screens[i].eqSwap = none) :
    cmdEqLoadSection c s = (s.onBanks i k (withStaging s.screens[i].eqLive fun b =>
      { b with
        sections := b.sections.set j (storedSection x.type x.freq x.gain x.q)
        origin := .loaded
        passStamp := 0 }), ⟨.ok, 0#8, []⟩) := by
  have place : readSectionPlace c = some (k, j) := by
    have channel : readIndex 16 (c.byte 1) = some k := by
      rw [Command.byte, payload]
      exact readIndex_ofNat (by decide) k
    have index : readIndex 8 (c.byte 2) = some j := by
      rw [Command.byte, payload]
      exact readIndex_ofNat (by decide) j
    rw [readSectionPlace, channel, index]
    rfl
  have type : readCode sectionTypes (c.byte 3) = some x.type := by
    rw [Command.byte, payload]
    exact readCode_sectionType x.type
  have freqByte : c.num 4 = x.freq := by
    rw [Command.num, Command.byte, payload]
    exact toNat_ofNat_byte (by omega)
  have gainByte : c.int 5 = x.gain := by
    rw [Command.int, Command.byte, payload]
    exact toInt_ofInt_byte (le_trans (by decide) gainLow) (lt_of_le_of_lt gainHigh (by decide))
  have qByte : c.num 6 = x.q := by
    rw [Command.num, Command.byte, payload]
    exact toNat_ofNat_byte (by omega)
  have content : readSection c = some (storedSection x.type x.freq x.gain x.q) := by
    rw [readSection, type, freqByte, gainByte, qByte, readRange_eq_some (Nat.zero_le _) freq,
      readLevel_eq_some gainLow gainHigh, readRange_eq_some (Nat.zero_le _) q]
    rfl
  refine (screenCommand_answers (by rw [payload]; rfl) selector ?_).trans ?_
  · simp only [checkEqSection, place, content, eqBusy_eq_false free still]
    rfl
  · simp only [effectEqSection, place, content, onStagingBank_eq]

end Loads

/-! ### CURVE_LOAD (R76, R77) -/

theorem curveInUse_iff {k : Fin 4} {s : State} :
    curveInUse (some k) s = true ↔ s.run.curve = k ∧ s.run.outcome = .running := by
  rw [curveInUse, Bool.and_eq_true, beq_iff_eq, beq_iff_eq, Option.some_inj, eq_comm]

section Curves
variable {c : Command} {s : State} {k : Fin 4}

/-- A content that reads, for a curve that no run uses, replaces the entry. -/
theorem cmdCurveLoad_answers {x : Curve} {valid : Bool} (selector : c.selector = 14#8)
    (length : c.payload.length = 36) (index : readIndex 4 (c.byte 0) = some k)
    (flag : readFlag (c.byte 1) = some valid) (content : readCurve c = some x)
    (unused : ¬(s.run.curve = k ∧ s.run.outcome = .running)) :
    cmdCurveLoad c s = ({ s with curves := s.curves.set k x }, ⟨.ok, 0#8, []⟩) := by
  have free : curveInUse (some k) s = false := Bool.eq_false_iff.mpr fun used => unused (curveInUse_iff.mp used)
  refine (unitCommand_answers (beq_iff_eq.mpr length) selector ?_).trans ?_
  · simp only [checkCurveLoad, index, flag, free, content]
    rfl
  · simp only [effectCurveLoad, index, content]

theorem cmdCurveLoad_refused {valid : Bool} (selector : c.selector = 14#8) (length : c.payload.length = 36)
    (index : readIndex 4 (c.byte 0) = some k) (flag : readFlag (c.byte 1) = some valid) (own : s.run.curve = k)
    (runs : s.run.outcome = .running) : cmdCurveLoad c s = (s, ⟨.inUse, 0#8, []⟩) := by
  rw [cmdCurveLoad, beq_iff_eq.mpr length]
  refine unitCommand_refused selector ?_
  simp only [checkCurveLoad, index, flag, curveInUse_iff.mpr ⟨own, runs⟩]
  rfl

/-- A payload that sets the valid flag spells the whole curve (R77). -/
theorem readCurve_eq {x : Curve} (ordered : x.low ≤ x.high) (high : x.high ≤ 30)
    (ranges : ∀ y ∈ x.targets.toList, -48 ≤ y ∧ y ≤ 24) (least : 1 ≤ x.tolerance) (most : x.tolerance ≤ 24)
    (payload : c.payload = [byteOf k.val, 1#8, byteOf x.low, byteOf x.high] ++ x.targets.toList.flatMap signed1 ++
      [byteOf x.tolerance]) : readCurve c = some { x with valid := true } := by
  have flag : readFlag (c.byte 1) = some true := by
    rw [Command.byte, payload]
    rfl
  have lowByte : c.num 2 = x.low := by
    rw [Command.num, Command.byte, payload]
    exact toNat_ofNat_byte (by omega)
  have highByte : c.num 3 = x.high := by
    rw [Command.num, Command.byte, payload]
    exact toNat_ofNat_byte (by omega)
  have bands : c.bands 4 = some x.targets := bands_eq (rest := [byteOf x.tolerance]) ranges (by rw [payload]; rfl)
  have toleranceByte : c.num 35 = x.tolerance := by
    have front : ([byteOf k.val, 1#8, byteOf x.low, byteOf x.high] ++
        x.targets.toList.flatMap signed1).length = 35 := by
      rw [List.length_append, signedBytes_length]
      rfl
    have last : c.byte 35 = byteOf x.tolerance := by
      rw [Command.byte, payload, List.getD_append_right _ _ _ _ front.le, front]
      rfl
    rw [Command.num, last]
    exact toNat_ofNat_byte (by omega)
  rw [readCurve, flag, lowByte, highByte, bands, toleranceByte]
  simp only [Option.bind_eq_bind, Option.bind_some, if_true, readRange_eq_some (Nat.zero_le _) (ordered.trans high),
    readRange_eq_some ordered high, readRange_eq_some least most]
  rfl

end Curves

/-- Settles O24: the fields of each payload read back, and its effect is the one write. -/
theorem eqAndCurveLoadsWriteTheirTables : Obligations.EqAndCurveLoadsWriteTheirTables := by
  refine ⟨fun i c a s can names free still => ⟨fun g ranges payload => ?_, fun k x freq low high q payload => ?_⟩,
    fun k a s can none => ⟨fun c unused ordered high ranges least most payload => ?_,
      fun rest unused length payload => ?_, fun valid rest own runs length payload => ?_⟩⟩
  · exact congrArg _ (commandRow_answers can
      (cmdEqLoadGraphic_answers names ranges (by rw [formCommandOf, payload]) free still))
  · rw [← storedSection_eq]
    exact congrArg _ (commandRow_answers can
      (cmdEqLoadSection_answers names freq low high q (by rw [formCommandOf, payload]; rfl) free still))
  · have whole : a.payload.length = 36 := by
      rw [payload, List.length_append, List.length_append, signedBytes_length]
      rfl
    exact congrArg _ (commandRow_answers can (cmdCurveLoad_answers none whole
      (readIndex_byteOf (c := commandOf 52#8 a) (by decide) payload) (valid := true)
      (by rw [commandOf, Command.byte, payload]; rfl) (readCurve_eq ordered high ranges least most payload) unused))
  · have flag : readFlag ((commandOf 52#8 a).byte 1) = some false := by
      rw [commandOf, Command.byte, payload]
      rfl
    exact congrArg _ (commandRow_answers can (cmdCurveLoad_answers none
      (by rw [commandOf, payload, List.length_cons, List.length_cons, length])
      (readIndex_byteOf (c := commandOf 52#8 a) (by decide) payload) flag (by rw [readCurve, flag]; rfl) unused))
  · exact congrArg _ (commandRow_refuses can (cmdCurveLoad_refused none
      (by rw [commandOf, payload, List.length_cons, List.length_cons, length])
      (readIndex_byteOf (c := commandOf 52#8 a) (by decide) payload)
      (by rw [commandOf, Command.byte, payload]; exact readFlag_flagByte valid) own runs))

/-! ### EQ_COPY (R70) -/

section Copies
variable {c : Command} {s : State} {i : Fin 8}

theorem cmdEqCopy_answers (selector : c.selector = BitVec.ofNat 8 i.val) (empty : c.payload = [])
    (free : s.screens[i].state ≠ .inAlign) (still : s.screens[i].eqSwap = none) :
    cmdEqCopy c s = (copyBanks i s, ⟨.ok, 0#8, []⟩) := by
  refine screenCommand_answers (isEmpty_of_nil empty) selector ?_
  rw [checkEqBusy, eqBusy_eq_false free still]
  rfl

theorem cmdEqCopy_refused (selector : c.selector = BitVec.ofNat 8 i.val) (empty : c.payload = [])
    (busy : s.screens[i].state = .inAlign ∨ s.screens[i].eqSwap ≠ none) :
    cmdEqCopy c s = (s, ⟨.busy, screenFlag i, []⟩) := by
  rw [cmdEqCopy, isEmpty_of_nil empty]
  refine screenCommand_refused selector ?_
  rw [checkEqBusy, eqBusy_eq_true busy]
  rfl

end Copies

theorem copyBanks_frame (i : Fin 8) (s : State) : copyBanks i s = { s with eq := (copyBanks i s).eq } :=
  fillListed_frame i false (indexes 16) s

/-- The banks of every channel of one screen, past a copy. -/
theorem copyBanks_get (i j : Fin 8) (c : Fin 16) (s : State) : (copyBanks i s).eq[j][c] =
    if j = i then withStaging s.screens[i].eqLive
      (fun _ => { s.eq[j][c].bank s.screens[i].eqLive with origin := .copied }) s.eq[j][c]
    else s.eq[j][c] := by
  have every : c ∈ indexes 16 := List.mem_finRange c
  rw [copyBanks_eq_fillListed, fillListed_get, onStaging_fillStaging]
  simp only [every, and_true]
  rfl

/-- Settles O25: EQ_COPY is the filling of every staging bank. -/
theorem eqCopyFillsEveryStagingBank : Obligations.EqCopyFillsEveryStagingBank := by
  refine fun i a s can names empty => ⟨fun free still => ⟨copyBanks i s, ?_, copyBanks_frame i s, fun c => ?_,
    fun j other => ?_⟩, fun busy => ?_⟩
  · exact congrArg _ (commandRow_answers can (cmdEqCopy_answers names empty free still))
  · rw [copyBanks_get, if_pos rfl]
  · exact table_ext fun c => by rw [copyBanks_get, if_neg other]
  · exact congrArg _ (commandRow_refuses can (cmdEqCopy_refused names empty busy))

end Sys2Proof.Machine
end

section
/-!
PROOF. The Alignment Engine and the states of the screens (R78): what the invariant reads, the three ways in which an
event moves it (a screen that stays out of ALIGN, the end of a run, its start), and every step as a sequence of these.
-/

namespace Sys2Proof.Machine

/-! ### What the invariant reads -/

/-- What R78 reads of the run record. -/
def RunRecord.hold (r : RunRecord) : EngineState × Fin 8 := (r.engine, r.screen)

/-- What R78 reads of the unit. -/
def State.alignment (s : State) : (Fin 8 → ScreenState) × EngineState × Fin 8 :=
  (fun i => s.screens[i].state, s.run.hold)

theorem alignment_eq_iff {s t : State} : t.alignment = s.alignment ↔
    (∀ i : Fin 8, t.screens[i].state = s.screens[i].state) ∧ t.run.engine = s.run.engine ∧
      t.run.screen = s.run.screen := by
  rw [State.alignment, State.alignment, RunRecord.hold, RunRecord.hold, Prod.mk.injEq, Prod.mk.injEq, funext_iff]

/-- The engine keeps to its screen from one state to another. -/
structure KeepsAlignment (s t : State) : Prop where
  holds : s.engineHoldsItsScreen → t.engineHoldsItsScreen

namespace KeepsAlignment

theorem refl (s : State) : KeepsAlignment s s := ⟨id⟩

theorem trans {s t u : State} (first : KeepsAlignment s t) (second : KeepsAlignment t u) : KeepsAlignment s u :=
  ⟨second.holds ∘ first.holds⟩

/-- Whatever leaves the states of the screens, the engine and its screen. -/
theorem silent {s t : State} (same : t.alignment = s.alignment) : KeepsAlignment s t := by
  obtain ⟨states, engine, screen⟩ := alignment_eq_iff.mp same
  refine ⟨fun holds i => ?_⟩
  rw [states, engine, screen]
  exact holds i

/-- A part of an event after a change that leaves them. -/
theorem after {s t u : State} (rest : KeepsAlignment t u) (same : t.alignment = s.alignment) : KeepsAlignment s u :=
  (silent same).trans rest

/-- A part of an event before one. -/
theorem before {s t u : State} (first : KeepsAlignment s t) (same : u.alignment = t.alignment) : KeepsAlignment s u :=
  first.trans (silent same)

/-- A part of an event under a condition. -/
theorem ite {s t : State} {p : Prop} [Decidable p] (part : p → KeepsAlignment s t) :
    KeepsAlignment s (if p then t else s) := by
  split
  · rename_i met; exact part met
  · exact refl s

/-- A fold of parts of an event is one. -/
theorem foldl {α : Type} {f : State → α → State} (each : ∀ s x, KeepsAlignment s (f s x)) (l : List α) (s : State) :
    KeepsAlignment s (l.foldl f s) := by
  induction l generalizing s with
  | nil => exact refl s
  | cons x rest ih => exact (each s x).trans (ih _)

/-- A screen out of ALIGN moves to another state out of ALIGN. -/
theorem moves {s t : State} {i : Fin 8} (away : s.screens[i].state ≠ .inAlign) (out : t.screens[i].state ≠ .inAlign)
    (others : ∀ j : Fin 8, j ≠ i → t.screens[j] = s.screens[j]) (run : t.run = s.run) : KeepsAlignment s t := by
  refine ⟨fun holds j => ?_⟩
  rw [run]
  by_cases own : j = i
  · subst own
    exact iff_of_false out fun held => away ((holds j).mpr held)
  · rw [others j own]
    exact holds j

/-- The screen of the run leaves ALIGN, and the engine is IDLE (R92, R93). -/
theorem ends {s t : State} {i : Fin 8} (aligning : s.screens[i].state = .inAlign)
    (out : t.screens[i].state ≠ .inAlign) (others : ∀ j : Fin 8, j ≠ i → t.screens[j].state = s.screens[j].state)
    (idle : t.run.engine = .idle) : KeepsAlignment s t := by
  refine ⟨fun holds j => iff_of_false ?_ fun held => held.1 idle⟩
  obtain ⟨-, screen⟩ := (holds i).mp aligning
  by_cases own : j = i
  · exact own ▸ out
  · rw [others j own]
    exact fun also => own (((holds j).mp also).2.symm.trans screen)

/-- No screen is in ALIGN, and the engine is IDLE. -/
theorem atRest {s t : State} (out : ∀ i : Fin 8, t.screens[i].state ≠ .inAlign) (idle : t.run.engine = .idle) :
    KeepsAlignment s t := ⟨fun _ i => iff_of_false (out i) fun held => held.1 idle⟩

end KeepsAlignment

/-! ### What leaves the states, the engine and its screen -/

/-- The view of the screens holds their states. -/
theorem alignment_of_view {s t : State} (view : t.view = s.view) (hold : t.run.hold = s.run.hold) :
    t.alignment = s.alignment := by
  have states (i : Fin 8) : t.screens[i].state = s.screens[i].state :=
    congrArg ScreenView.state ((view_eq_iff.mp view).1 i)
  rw [State.alignment, State.alignment, hold, funext states]

theorem onScreen_alignment_of {s : State} {i : Fin 8} {f : Screen → Screen}
    (same : (f s.screens[i]).state = s.screens[i].state) : (s.onScreen i f).alignment = s.alignment := by
  refine Prod.ext (funext fun j => ?_) rfl
  show (s.onScreen i f).screens[j].state = s.screens[j].state
  rw [State.onScreen_get]
  split
  · subst j; exact same
  · rfl

section Silent
variable (s : State)

@[simp] theorem offerAOut_alignment : (offerAOut s).alignment = s.alignment :=
  alignment_of_view (offerAOut_view s) (by rw [offerAOut_frame])
@[simp] theorem file_alignment (x : Option (Fin 8)) (b : NoticeBody) : (file x b s).alignment = s.alignment :=
  alignment_of_view (file_view s x b) (by rw [file_frame])
@[simp] theorem fillSlot_alignment : (fillSlot s).alignment = s.alignment :=
  alignment_of_view (fillSlot_view s) (by rw [fillSlot_frame])
@[simp] theorem appendReply_alignment (r : Reply) : (appendReply r s).alignment = s.alignment :=
  alignment_of_view (appendReply_view s r) (by rw [appendReply_frame])
@[simp] theorem offerBOut_alignment : (offerBOut s).alignment = s.alignment :=
  alignment_of_view (offerBOut_view s) (by rw [offerBOut_frame])
@[simp] theorem joinBOut_alignment (f : Frame) : (joinBOut f s).alignment = s.alignment :=
  alignment_of_view (joinBOut_view s f) (by rw [joinBOut_frame])
@[simp] theorem cancelHeld_alignment (b : Bool) : (cancelHeld b s).alignment = s.alignment :=
  alignment_of_view (cancelHeld_view s b) (by rw [cancelHeld_frame])
@[simp] theorem requestGoPulse_alignment : (requestGoPulse s).alignment = s.alignment :=
  alignment_of_view (requestGoPulse_view s) (by rw [requestGoPulse_frame])
@[simp] theorem armFormat_alignment (i : Fin 8) (k : Option (Fin 32)) : (armFormat i k s).alignment = s.alignment :=
  alignment_of_view (armFormat_view s i k) (by rw [armFormat_frame])
@[simp] theorem endFormatFade_alignment (i : Fin 8) (cutShort : Bool) :
    (endFormatFade i cutShort s).alignment = s.alignment :=
  alignment_of_view (endFormatFade_view s i cutShort) (by rw [endFormatFade_frame])
@[simp] theorem takeFormat_alignment (i : Fin 8) (ms : Nat) : (takeFormat i ms s).alignment = s.alignment :=
  alignment_of_view (takeFormat_view s i ms) (by rw [takeFormat_frame])
@[simp] theorem endSwap_alignment (i : Fin 8) (early : Bool) : (endSwap i early s).alignment = s.alignment :=
  alignment_of_view (endSwap_view s i early) (by rw [endSwap_frame])
@[simp] theorem emptyWindows_alignment (i : Fin 8) : (emptyWindows i s).alignment = s.alignment :=
  alignment_of_view (emptyWindows_view s i) (by rw [emptyWindows_frame])
@[simp] theorem copyBanks_alignment (i : Fin 8) : (copyBanks i s).alignment = s.alignment :=
  alignment_of_view (copyBanks_view s i) (by rw [copyBanks_frame])
@[simp] theorem requestFader_alignment (i : Fin 8) (target ms : Nat) :
    (requestFader i target ms s).alignment = s.alignment := by
  exact onScreen_alignment_of rfl
@[simp] theorem setCueMute_alignment (i : Fin 8) (on : Bool) : (setCueMute i on s).alignment = s.alignment :=
  onScreen_alignment_of rfl
@[simp] theorem swapBanks_alignment (i : Fin 8) : (swapBanks i s).alignment = s.alignment := onScreen_alignment_of rfl
@[simp] theorem startTimer_alignment (t : Fin 8) (n : Nat) (m : RunMode) :
    (startTimer t n m s).alignment = s.alignment := rfl
@[simp] theorem stopTimer_alignment (t : Fin 8) : (stopTimer t s).alignment = s.alignment := rfl
@[simp] theorem setLink_alignment (k : Fin 32) (on : Bool) : (setLink k on s).alignment = s.alignment := rfl
@[simp] theorem writeLatch_alignment (l : Fin 16) (a : Bool) : (writeLatch l a s).alignment = s.alignment := rfl
@[simp] theorem startTrain_alignment (l : Fin 16) (n a b : Nat) : (startTrain l n a b s).alignment = s.alignment := rfl
@[simp] theorem onHouse_alignment (f : House → House) : (s.onHouse f).alignment = s.alignment := rfl
@[simp] theorem onLine_alignment (l : Fin 16) (f : BoothLine → BoothLine) :
    (s.onLine l f).alignment = s.alignment := rfl
@[simp] theorem goChange_alignment (f : House → House) : (goChange f s).alignment = s.alignment := rfl
@[simp] theorem deriveMonitors_alignment (i : Fin 8) : (deriveMonitors i s).alignment = s.alignment :=
  onScreen_alignment_of rfl
@[simp] theorem alignAllBut_alignment (i : Fin 8) (test : Option (Fin 16)) :
    (s.onScreen i fun x => x.alignAllBut test).alignment = s.alignment :=
  alignment_of_view (alignAllBut_view i test s) rfl

/-- A DWELL gathers in its accumulator alone (R86). -/
theorem gatherDwell_hold (i : Fin 8) (periods : List (List Int)) : (gatherDwell i periods s).run.hold = s.run.hold := by
  rw [gatherDwell]
  split
  · simp only [State.onRun_run, RunRecord.hold]
  · rfl

@[simp] theorem passChain_alignment (i : Fin 8) (f : Frame) : (passChain i f s).1.alignment = s.alignment := by
  refine alignment_of_view (passChain_view s i f) ?_
  unfold passChain
  dsimp only
  rw [gatherDwell_hold]
  rfl

end Silent

/-! ### A change of a screen's state -/

theorem enterState_state (i : Fin 8) (st : ScreenState) (s : State) : (enterState i st s).screens[i].state = st := by
  rw [enterState_own]

theorem enterState_aligned {i : Fin 8} {st : ScreenState} {s : State} (away : s.screens[i].state ≠ .inAlign)
    (out : st ≠ .inAlign) : KeepsAlignment s (enterState i st s) :=
  .moves away (by rwa [enterState_state]) (fun _ other => enterState_other other st s) (by rw [enterState_frame])

theorem stopScreen_aligned {i : Fin 8} {s : State} (away : s.screens[i].state ≠ .inAlign) :
    KeepsAlignment s (stopScreen i s) :=
  .moves away (by rw [stopScreen_eq, enterState_state]; nofun) (fun _ other => stopScreen_other other)
    (by rw [stopScreen_frame])

theorem resumeScreen_aligned {i : Fin 8} {s : State} (away : s.screens[i].state ≠ .inAlign) :
    KeepsAlignment s (resumeScreen i s) := by
  refine .moves away ?_ (fun j other => ?_) (by rw [resumeScreen_frame])
  · rw [resumeScreen, enterState_state]; nofun
  · rw [resumeScreen, enterState_other other, State.onScreen_get, if_neg other]

theorem goOff_aligned {i : Fin 8} {s : State} (away : s.screens[i].state ≠ .inAlign) :
    KeepsAlignment s (goOff i s) := by
  refine .moves away ?_ (fun j other => ?_) (by rw [goOff_frame])
  · rw [goOff_screens, modifyAt_same]; nofun
  · rw [goOff_screens, modifyAt_other _ _ other]

theorem setUpScreen_aligned {i : Fin 8} {s : State} (off : s.screens[i].state = .off) (v : SetupValues) (k : Fin 32) :
    KeepsAlignment s (setUpScreen i v k s) := by
  have dark : (setupEntered i v k s).screens[i].state = .dark := by
    rw [setupEntered, (alignment_eq_iff.mp (emptyWindows_alignment _ i)).1, enterState_state]
  have enters : KeepsAlignment s (setupEntered i v k s) := .moves (by rw [off]; nofun) (by rw [dark]; nofun)
    (fun _ other => setupEntered_other other) (by rw [setupEntered_frame])
  rw [setUpScreen_eq]
  split
  · exact enters.trans (stopScreen_aligned (by rw [dark]; nofun))
  · exact enters

/-! ### A run that is overtaken (R93) -/

theorem overtakeRun_run (reason : AbortReason) (s : State) : (overtakeRun reason s).run = (endRun reason s).run := by
  rw [overtakeRun, file_frame]

theorem overtakeRun_state (reason : AbortReason) (s : State) (i : Fin 8) :
    (overtakeRun reason s).screens[i].state = s.screens[i].state :=
  congrArg ScreenView.state ((view_eq_iff.mp (overtakeRun_view s reason)).1 i)

/-- A run is overtaken and its screen enters another state. -/
theorem overtaken_aligned {i : Fin 8} {st : ScreenState} {s : State} (aligning : s.screens[i].state = .inAlign)
    (out : st ≠ .inAlign) (reason : AbortReason) : KeepsAlignment s (enterState i st (overtakeRun reason s)) := by
  refine .ends aligning (by rwa [enterState_state]) (fun j other => ?_) ?_
  · rw [enterState_other other, overtakeRun_state]
  · rw [enterState_frame, overtakeRun_run]
    rfl

/-- A run is overtaken and its screen stops (R26). -/
theorem overtaken_stops {i : Fin 8} {s : State} (aligning : s.screens[i].state = .inAlign) (reason : AbortReason) :
    KeepsAlignment s (stopScreen i (overtakeRun reason s)) := by
  refine .ends aligning (by rw [stopScreen_eq, enterState_state]; nofun) (fun j other => ?_) ?_
  · rw [stopScreen_other other, overtakeRun_state]
  · rw [stopScreen_frame, overtakeRun_run]
    rfl

/-! ### The house stop -/

theorem houseStopsScreen_aligned (s : State) (i : Fin 8) : KeepsAlignment s (houseStopsScreen s i) := by
  have stops (away : s.screens[i].state ≠ .inAlign) :
      KeepsAlignment s (if s.screens[i].stopPolicy = .exempt then s else stopScreen i s) := by
    split
    · exact .refl s
    · exact stopScreen_aligned away
  unfold houseStopsScreen
  dsimp only
  split
  · rename_i dark; exact stops (by rw [dark]; nofun)
  · rename_i shows; exact stops (by rw [shows]; nofun)
  · rename_i aligning
    split
    · exact overtaken_aligned (st := .dark) aligning nofun _
    · exact overtaken_stops aligning _
  · exact .refl s

theorem houseReleasesScreen_aligned (s : State) (i : Fin 8) : KeepsAlignment s (houseReleasesScreen s i) :=
  .ite fun ⟨stopped, _⟩ => resumeScreen_aligned (by rw [stopped]; nofun)

section Triggers
variable {trig : Trigger → State → State} (causes : ∀ t s, KeepsAlignment s (trig t s))
include causes

theorem houseChange_aligned (f : House → House) (s : State) : KeepsAlignment s (houseChange trig f s) := by
  unfold houseChange
  extract_lets before settled after
  have settles : settled.alignment = s.alignment := onHouse_alignment ..
  refine KeepsAlignment.after ?_ settles
  split
  · exact (KeepsAlignment.foldl houseStopsScreen_aligned _ settled).trans
      ((causes _ _).after ((fillSlot_alignment _).trans (cancelHeld_alignment _ true)))
  · exact .ite fun _ => (KeepsAlignment.foldl houseReleasesScreen_aligned _ settled).trans
      ((causes _ _).after (fillSlot_alignment _))

/-! ### The Cue Engine -/

theorem perform_aligned (source : Source) (owner : Option (Fin 8)) (i : Fin 8) (a : Action) (s : State) :
    KeepsAlignment s (perform trig source owner i a s) := by
  cases a with
  | houseStop => exact houseChange_aligned causes _ s
  | _ => exact .silent (by simp [perform])

theorem executeAction_aligned (source : Source) (owner : Option (Fin 8)) (i : Fin 8) (a : Action) (released : Bool)
    (s : State) : KeepsAlignment s (executeAction trig source owner i a released s) := by
  unfold executeAction
  split
  · exact .silent (file_alignment ..)
  · split
    · exact .silent (file_alignment ..)
    · exact (perform_aligned causes ..).after (file_alignment ..)

theorem holdAction_aligned (source : Source) (owner : Option (Fin 8)) (i : Fin 8) (a : Action) (s : State) :
    KeepsAlignment s (holdAction trig source owner i a s) := by
  unfold holdAction
  split
  · exact .silent (file_alignment ..)
  · split
    · exact executeAction_aligned causes ..
    · split
      · exact .silent (file_alignment ..)
      · exact .silent (file_alignment ..)

theorem fireAction_aligned (source : Source) (owner : Option (Fin 8)) (i : Fin 8) (a : Action) (held : Bool)
    (s : State) : KeepsAlignment s (fireAction trig source owner i a held s) := by
  unfold fireAction
  split
  · exact holdAction_aligned causes ..
  · exact executeAction_aligned causes ..

theorem fireLink_aligned (s : State) (k : Fin 32) : KeepsAlignment s (fireLink trig s k) := by
  unfold fireLink
  extract_lets l fired
  have fires : KeepsAlignment s fired := fireAction_aligned causes ..
  exact fires.trans (.ite fun _ => .silent (setLink_alignment ..))

end Triggers

theorem occursWithin_aligned (depth : Nat) (t : Trigger) (s : State) : KeepsAlignment s (occursWithin depth t s) := by
  induction depth generalizing t s with
  | zero => exact .refl s
  | succ depth ih => exact .foldl (fireLink_aligned ih) _ s

theorem occurs_aligned (t : Trigger) (s : State) : KeepsAlignment s (occurs t s) := occursWithin_aligned 3 t s

theorem goEvent_aligned (s : State) : KeepsAlignment s (goEvent s) := by
  unfold goEvent
  extract_lets items released
  have releases : KeepsAlignment s released :=
    (KeepsAlignment.foldl (fun s h => executeAction_aligned occurs_aligned ..) _ _).after (s := s) rfl
  refine releases.trans ((occurs_aligned ..).after ?_)
  split
  · rfl
  · exact file_alignment ..

theorem processEntry_aligned (i : Fin 8) (p : Word) (entries : List CueEntry) (s : State) (k : Fin 64) :
    KeepsAlignment s (processEntry i p entries s k) := by
  unfold processEntry
  split
  · exact .refl s
  · split
    · split
      · exact .silent (file_alignment ..)
      · exact (fireAction_aligned occurs_aligned ..).trans (occurs_aligned ..)
    · exact .refl s

theorem takeCues_aligned (i : Fin 8) (p : Word) (s : State) : KeepsAlignment s (takeCues i p s) :=
  (KeepsAlignment.foldl (processEntry_aligned i p s.cueLists[i].entries) _ s).before rfl

/-! ### The Level Monitor Unit -/

theorem reportEvent_aligned (s : State) (x : Fin 48 × MonitorEvent) : KeepsAlignment s (reportEvent s x) := by
  unfold reportEvent
  extract_lets c told
  have tells : KeepsAlignment s told := .ite fun _ => .silent (file_alignment ..)
  split
  · exact tells
  · exact tells.trans (occurs_aligned ..)

theorem evaluated_alignment (i : Fin 8) (s : State) : (evaluated i s).alignment = s.alignment := by
  have run : (evaluated i s).run = s.run := by
    unfold evaluated
    rfl
  rw [State.alignment, State.alignment, evaluated_screens, run]

theorem evaluateMonitors_aligned (i : Fin 8) (s : State) : KeepsAlignment s (evaluateMonitors i s) := by
  unfold evaluateMonitors
  extract_lets events moved derived stopped
  have derives : KeepsAlignment s derived := .silent ((deriveMonitors_alignment ..).trans (evaluated_alignment i s))
  have stops : KeepsAlignment derived stopped := .ite fun _ => houseChange_aligned occurs_aligned ..
  exact (derives.trans stops).trans (.foldl reportEvent_aligned _ _)

theorem acknowledge_aligned (k : Fin 48) (s : State) : KeepsAlignment s (acknowledge k s) := by
  unfold acknowledge
  extract_lets content l cleared
  have clears : cleared.alignment = s.alignment := deriveMonitors_alignment ..
  exact (reportEvent_aligned ..).after clears

/-! ### The Alignment Engine -/

/-- A run starts on a screen that is DARK, with no run in progress (R80, R81). -/
theorem startRun_aligned {i : Fin 8} {s : State} (idle : s.run.engine = .idle) (q : RunRequest) :
    KeepsAlignment s (startRun i q s) := by
  refine ⟨fun holds j => ?_⟩
  rw [startRun_run]
  by_cases own : j = i
  · subst own
    rw [startRun_screen]
    exact iff_of_true rfl ⟨nofun, rfl⟩
  · rw [startRun_screens, modifyAt_other _ _ own, enterState_other own, startReady_screens, modifyAt_other _ _ own]
    exact iff_of_false (fun aligning => ((holds j).mp aligning).1 idle) fun held => own held.2.symm

/-- The run complete and its screen DARK, before the notice and the trigger (R92). -/
def runCompleted (s : State) : State :=
  (enterState s.run.screen .dark
    ((s.onRun fun r => { r with outcome := .complete, pass := 0 }).onScreen s.run.screen Screen.clearAlign)).onRun
      fun r => { r with engine := .idle }

theorem completeRun_eq (s : State) : completeRun s = occurs (.alignDone s.run.screen) (file (some s.run.screen)
    (.alignDone s.run.channels.length (s.run.results.countP fun r => r.result == .converged)) (runCompleted s)) := rfl

theorem runCompleted_other {j : Fin 8} {s : State} (other : j ≠ s.run.screen) :
    (runCompleted s).screens[j] = s.screens[j] := by
  rw [runCompleted, State.onRun_screens, enterState_other other, State.onScreen_get, if_neg other, State.onRun_screens]

theorem runCompleted_state (s : State) : (runCompleted s).screens[s.run.screen].state = .dark := by
  rw [runCompleted, State.onRun_screens, enterState_state]

/-- While the engine is not IDLE, the screen of its run is the one in ALIGN. -/
theorem aligning_of_busy {s : State} (holds : s.engineHoldsItsScreen) (busy : s.run.engine ≠ .idle) :
    s.screens[s.run.screen].state = .inAlign := (holds _).mpr ⟨busy, rfl⟩

theorem completeRun_aligned {s : State} (busy : s.run.engine ≠ .idle) : KeepsAlignment s (completeRun s) := by
  have completes : KeepsAlignment s (runCompleted s) := ⟨fun holds =>
    (KeepsAlignment.ends (aligning_of_busy holds busy) (by rw [runCompleted_state]; nofun)
      (fun j other => by rw [runCompleted_other other]) rfl).holds holds⟩
  rw [completeRun_eq]
  exact completes.trans ((occurs_aligned ..).after (file_alignment ..))

/-- From one phase of a run to another: the engine is not IDLE before or after. -/
theorem enterPhase_aligned {s t : State} (busy : s.run.engine ≠ .idle)
    (states : ∀ i : Fin 8, t.screens[i].state = s.screens[i].state) (still : t.run.engine ≠ .idle)
    (screen : t.run.screen = s.run.screen) : KeepsAlignment s t := by
  refine ⟨fun holds i => ?_⟩
  rw [states, screen, holds i]
  simp only [busy, still, ne_eq, not_false_eq_true]

theorem enterSettle_aligned {s : State} (busy : s.run.engine ≠ .idle) (pass : Nat) :
    KeepsAlignment s (enterSettle pass s) := enterPhase_aligned busy (fun _ => rfl) nofun rfl

theorem settleEnds_aligned {s : State} (busy : s.run.engine ≠ .idle) : KeepsAlignment s (settleEnds s) :=
  enterPhase_aligned busy (fun _ => rfl) nofun rfl

theorem engine_of_alignment {s t : State} (same : t.alignment = s.alignment) : t.run.engine = s.run.engine :=
  (alignment_eq_iff.mp same).2.1

theorem finishChannel_aligned {s : State} (busy : s.run.engine ≠ .idle) (result : AlignResult) :
    KeepsAlignment s (finishChannel result s) := by
  unfold finishChannel
  extract_lets written i reported next
  have reports : reported.alignment = s.alignment := by
    dsimp only [reported]
    split
    · rfl
    · exact file_alignment ..
  have nexts : next.alignment = s.alignment := Eq.trans rfl reports
  have still : next.run.engine ≠ .idle := by rwa [engine_of_alignment nexts]
  split
  · exact (completeRun_aligned still).after nexts
  · exact (enterSettle_aligned (s := next.onScreen i _) still 1).after ((alignAllBut_alignment ..).trans nexts)

theorem judgePass_aligned {s : State} (busy : s.run.engine ≠ .idle) (c : Fin 16) (m : Vector Level 31) :
    KeepsAlignment s (judgePass c m s) := by
  unfold judgePass
  extract_lets curve d deviation compared corrected
  have same : compared.alignment = s.alignment := rfl
  have corrects : corrected.alignment = s.alignment := rfl
  have finishes (result : AlignResult) : KeepsAlignment s (finishChannel result compared) :=
    (finishChannel_aligned (s := compared) busy result).after same
  split
  · exact finishes _
  · split
    · split
      · exact (enterSettle_aligned (s := corrected) busy _).after corrects
      · exact (finishChannel_aligned (s := corrected) busy _).after corrects
    · exact finishes _

theorem dwellEnds_aligned {s : State} (busy : s.run.engine ≠ .idle) : KeepsAlignment s (dwellEnds s) := by
  unfold dwellEnds evaluatePass
  split
  · exact .refl s
  · extract_lets a scale m measured
    have same : measured.alignment = s.alignment := rfl
    refine KeepsAlignment.after ?_ same
    split
    · exact finishChannel_aligned (s := measured) busy _
    · split
      · exact finishChannel_aligned (s := measured) busy _
      · exact judgePass_aligned (s := measured) busy _ m

/-! ### A block taken -/

theorem noteArrival_alignment (i : Fin 8) (f : Frame) (s : State) : (noteArrival i f s).alignment = s.alignment :=
  alignment_of_view (noteArrival_view i f s) (by rw [noteArrival_run])

theorem startShow_aligned {i : Fin 8} {s : State} (away : s.screens[i].state ≠ .inAlign) (position : Option Word) :
    KeepsAlignment s (startShow i position s) := by
  have shown : (showStarted i s).alignment = (enterState i .inShow s).alignment :=
    (onScreen_alignment_of (s := emptyWindows i (enterState i .inShow s)) rfl).trans (emptyWindows_alignment ..)
  rw [startShow_eq]
  exact (enterState_aligned (st := .inShow) away nofun).trans
    ((occurs_aligned ..).after ((file_alignment ..).trans shown))

theorem actOnRun_aligned (i : Fin 8) (run : Bool) (position : Option Word) (s : State) :
    KeepsAlignment s (actOnRun i run position s) := by
  unfold actOnRun
  split
  · rename_i dark; exact startShow_aligned (by rw [dark]; nofun) _
  · rename_i shows
    exact (enterState_aligned (st := .dark) (by rw [shows]; nofun) nofun).trans
      ((occurs_aligned ..).after (file_alignment ..))
  · rename_i aligning
    exact (overtaken_aligned (st := .dark) aligning nofun _).trans
      (startShow_aligned (by rw [enterState_state]; nofun) _)
  · exact .refl s

theorem checkGap_alignment (i : Fin 8) (p : Word) (s : State) : (checkGap i p s).alignment = s.alignment := by
  unfold checkGap
  split
  · rfl
  · split
    · rfl
    · exact file_alignment ..

theorem handlePosition_aligned (i : Fin 8) (position : Option Word) (s : State) :
    KeepsAlignment s (handlePosition i position s) := by
  unfold handlePosition
  split
  · exact ((takeCues_aligned ..).after (checkGap_alignment ..)).before (onScreen_alignment_of rfl)
  · exact .refl s

theorem checkMismatch_alignment (i : Fin 8) (f : Frame) (s : State) :
    (checkMismatch i f s).alignment = s.alignment := by
  rcases checkMismatch_cases i f s with same | ⟨body, told⟩
  · rw [same]
  · rw [told, file_alignment]; exact onScreen_alignment_of rfl

theorem takeBlock_aligned (i : Fin 8) (f : Frame) (s : State) : KeepsAlignment s (takeBlock i f s) := by
  rw [takeBlock_eq, chained]
  have arrives := (actOnRun_aligned i f.run f.validPosition (noteArrival i f s)).after (noteArrival_alignment i f s)
  have handles := arrives.trans (handlePosition_aligned i f.validPosition _)
  have passes := handles.before ((passChain_alignment _ i f).trans (checkMismatch_alignment i f _))
  exact (passes.trans (evaluateMonitors_aligned i _)).before (joinBOut_alignment ..)

theorem loseSource_aligned (i : Fin 8) (s : State) : KeepsAlignment s (loseSource i s) := by
  unfold loseSource
  extract_lets lost told made
  have makes : made.alignment = s.alignment :=
    (joinBOut_alignment ..).trans ((file_alignment ..).trans (onScreen_alignment_of rfl))
  exact (KeepsAlignment.ite fun aligning => overtaken_aligned (st := .dark) aligning nofun _).after makes

theorem nextSilent_alignment (i : Fin 8) (s : State) : (nextSilent i s).alignment = s.alignment :=
  (onScreen_alignment_of (by split <;> rfl)).trans (joinBOut_alignment ..)

/-! ### Arriving frames -/

theorem joinIntake_alignment (c : Command) (s : State) : (joinIntake c s).alignment = s.alignment := by
  unfold joinIntake
  split <;> rfl

theorem joinForward_alignment (f : Frame) (s : State) : (joinForward f s).alignment = s.alignment := by
  unfold joinForward
  split
  · exact offerAOut_alignment _
  · rfl

theorem routeCommand_alignment (f : Frame) (s : State) : (routeCommand f s).alignment = s.alignment := by
  unfold routeCommand
  split
  · exact joinIntake_alignment ..
  · split
    · exact (joinBOut_alignment ..).trans (joinIntake_alignment ..)
    · exact joinBOut_alignment ..

theorem routeBlock_aligned (f : Frame) (s : State) : KeepsAlignment s (routeBlock f s) := by
  unfold routeBlock handBlock
  split
  · split
    · split
      · exact .silent (joinBOut_alignment ..)
      · exact takeBlock_aligned ..
    · exact .refl s
  · exact .silent (joinBOut_alignment ..)

theorem receive_aligned (lane : Lane) (cutOff : Bool) (f : Frame) (s : State) :
    KeepsAlignment s (receive lane cutOff f s) := by
  have routes (s : State) : KeepsAlignment s (routeFrame lane f s) := by
    unfold routeFrame
    split
    · split
      · exact routeBlock_aligned f s
      · exact .silent (routeCommand_alignment f s)
    · exact .silent (joinForward_alignment f s)
  unfold receive
  extract_lets counted
  split
  · exact .silent rfl
  · split
    · exact .silent rfl
    · exact (routes counted).after (s := s) rfl

/-! ### Event rows -/

theorem eventRow_aligned {f : State → State} (acts : ∀ s, KeepsAlignment s (f s)) (s : State) :
    KeepsAlignment s (eventRow f s) := by
  unfold eventRow
  split
  · exact .refl s
  · exact acts s

theorem timedRow_aligned {due : State → Bool} {f : State → State} (acts : ∀ s, due s = true → KeepsAlignment s (f s))
    (s : State) : KeepsAlignment s (timedRow due f s) := eventRow_aligned (fun s => .ite (acts s)) s

/-- A timed row that leaves the states, the engine and its screen. -/
theorem timedRow_silent {due : State → Bool} {f : State → State} (same : ∀ s, (f s).alignment = s.alignment)
    (s : State) : KeepsAlignment s (timedRow due f s) := timedRow_aligned (fun s _ => .silent (same s)) s

theorem takeGo_aligned (s : State) : KeepsAlignment s (takeGo s) := by
  unfold takeGo
  extract_lets sensed
  split
  · exact (goEvent_aligned ..).after (onHouse_alignment ..)
  · exact .silent (onHouse_alignment ..)

theorem takeLine_aligned (l : Fin 16) (s : State) : KeepsAlignment s (takeLine l s) := by
  unfold takeLine
  extract_lets active taken
  have takes : taken.alignment = s.alignment := rfl
  split
  · exact (occurs_aligned ..).after ((file_alignment ..).trans takes)
  · exact (houseChange_aligned occurs_aligned _ taken).after takes
  · exact .silent takes

theorem expireTimer_aligned (t : Fin 8) (s : State) : KeepsAlignment s (expireTimer t s) :=
  (occurs_aligned ..).after (s := s) rfl

/-- The end of a SETTLE or a DWELL comes only in a run (R85, R86). -/
theorem busy_of_dueSettleEnd {s : State} (due : dueSettleEnd s = true) : s.run.engine ≠ .idle := by
  rw [((dueSettleEnd_iff s).mp due).1]
  nofun

theorem busy_of_dueDwellEnd {s : State} (due : dueDwellEnd s = true) : s.run.engine ≠ .idle := by
  rw [((dueDwellEnd_iff s).mp due).1]
  nofun

/-! ### Commands -/

section Bodies
variable {suits : Bool} {size : Nat} {c : Command}

theorem applyList_aligned {check : Fin 8 → State → Option Result} {effect : Fin 8 → State → State × List Byte}
    (acts : ∀ i s, check i s = none → KeepsAlignment s (effect i s).1) (l : List (Fin 8)) (s : State) :
    KeepsAlignment s (applyList size check effect l s).1 := by
  induction l generalizing s with
  | nil => exact .refl s
  | cons i rest ih =>
    unfold applyList
    split
    · exact ih s
    · rename_i accepted
      exact (acts i s accepted).trans (ih _)

theorem applyScreen_aligned {success : Result} {check : Fin 8 → State → Option Result}
    {effect : Fin 8 → State → State × List Byte} (acts : ∀ i s, check i s = none → KeepsAlignment s (effect i s).1)
    (i : Fin 8) (s : State) : KeepsAlignment s (applyScreen success check effect i s).1 := by
  unfold applyScreen
  split
  · exact .refl s
  · rename_i accepted
    exact acts i s accepted

theorem screenCommand_aligned {check : Fin 8 → State → Option Result} {effect : Fin 8 → State → State × List Byte}
    (acts : ∀ i s, check i s = none → KeepsAlignment s (effect i s).1) (s : State) :
    KeepsAlignment s (screenCommand suits size check effect c s).1 := by
  unfold screenCommand
  split
  · exact .refl s
  · split
    · exact applyScreen_aligned acts _ s
    · exact applyList_aligned acts _ s

theorem oneScreenCommand_aligned {check : Fin 8 → State → Option Result} {effect : Fin 8 → State → State}
    (acts : ∀ i s, check i s = none → KeepsAlignment s (effect i s)) (s : State) :
    KeepsAlignment s (oneScreenCommand suits check effect c s).1 := by
  unfold oneScreenCommand
  split
  · exact .refl s
  · split
    · exact applyScreen_aligned acts _ s
    · exact .refl s

theorem unitCommand_aligned {check : State → Option Result} {effect : State → State × List Byte}
    (acts : ∀ s, KeepsAlignment s (effect s).1) (s : State) :
    KeepsAlignment s (unitCommand suits check effect c s).1 := unitCommand_rel .refl acts s

/-- A command of the unit class whose effect leaves the states, the engine and its screen. -/
theorem unitCommand_silent {check : State → Option Result} {effect : State → State × List Byte}
    (same : ∀ s, (effect s).1.alignment = s.alignment) (s : State) :
    KeepsAlignment s (unitCommand suits check effect c s).1 := unitCommand_aligned (fun s => .silent (same s)) s

/-- One of the screen class. -/
theorem screenCommand_silent {check : Fin 8 → State → Option Result} {effect : Fin 8 → State → State × List Byte}
    (same : ∀ i s, (effect i s).1.alignment = s.alignment) (s : State) :
    KeepsAlignment s (screenCommand suits size check effect c s).1 :=
  screenCommand_aligned (fun i s _ => .silent (same i s)) s

end Bodies

/-! ### The commands that change a screen's state, and those that cause triggers -/

section Effects
variable {c : Command} {i : Fin 8} {s : State}

/-- SCREEN_SETUP sets up a screen that is OFF (R21). -/
theorem effectSetup_aligned (accepted : checkSetup c i s = none) : KeepsAlignment s (effectSetup c i s).1 := by
  have isOff := firstFailure_eq_none.mp accepted (!s.isOff i, .badState) (List.mem_cons_self ..)
  have off : s.screens[i].state = .off := beq_iff_eq.mp (Bool.not_eq_eq_eq_not.mp isOff)
  unfold effectSetup
  split
  · exact setUpScreen_aligned off ..
  · exact .refl s

/-- SCREEN_CLOSE refuses a screen in ALIGN (R28). -/
theorem close_aligned (accepted : checkClose i s = none) : KeepsAlignment s (goOff i s) :=
  goOff_aligned fun aligning => by
    unfold checkClose at accepted
    rw [aligning] at accepted
    cases accepted

/-- SCREEN_RESUME resumes a screen that is STOPPED (R27). -/
theorem resume_aligned (accepted : checkResume i s = none) : KeepsAlignment s (resumeScreen i s) := by
  have stopped := firstFailure_eq_none.mp accepted (s.screens[i].state != .stopped, .badState) (List.mem_cons_self ..)
  refine resumeScreen_aligned ?_
  rw [bne_eq_false_iff_eq.mp stopped]
  nofun

/-- ALIGN_START is refused while a run is in progress (R80). -/
theorem effectAlignStart_aligned (accepted : checkAlignStart c i s = none) :
    KeepsAlignment s (effectAlignStart c i s) := by
  have idle := firstFailure_eq_none.mp accepted (s.run.engine != .idle, .busy) (List.mem_cons_self ..)
  unfold effectAlignStart
  split
  · exact startRun_aligned (bne_eq_false_iff_eq.mp idle) _
  · exact .refl s

/-- ALIGN_ABORT overtakes the run of a screen in ALIGN (R95). -/
theorem abortByCommand_aligned (accepted : checkAlignAbort i s = none) : KeepsAlignment s (abortByCommand i s) := by
  unfold checkAlignAbort at accepted
  split at accepted
  · rename_i aligning
    exact overtaken_aligned (st := .dark) (beq_iff_eq.mp aligning) nofun _
  · cases accepted

theorem effectMonitorAck_aligned (c : Command) (s : State) : KeepsAlignment s (effectMonitorAck c s).1 := by
  unfold effectMonitorAck
  split
  · exact .refl s
  · exact acknowledge_aligned ..

theorem effectCueFire_aligned (c : Command) (s : State) : KeepsAlignment s (effectCueFire c s).1 := by
  unfold effectCueFire
  split
  · exact .refl s
  · exact fireLink_aligned occurs_aligned ..

theorem effectHouseSetup_aligned (c : Command) (s : State) : KeepsAlignment s (effectHouseSetup c s).1 := by
  unfold effectHouseSetup
  split
  · exact .refl s
  · exact houseChange_aligned occurs_aligned ..

theorem effectLineSetup_aligned (c : Command) (s : State) : KeepsAlignment s (effectLineSetup c s).1 := by
  unfold effectLineSetup
  split
  · exact (houseChange_aligned occurs_aligned ..).after rfl
  · exact .refl s

end Effects

/-! ### The commands that only write their own tables -/

section Silent
variable (c : Command) (s : State) (i : Fin 8)

theorem effectMute_alignment : (effectMute c i s).1.alignment = s.alignment := by
  unfold effectMute setCommandMute
  split
  · rfl
  · split <;> exact onScreen_alignment_of rfl

theorem effectMonitorLoad_alignment : (effectMonitorLoad c s).1.alignment = s.alignment := by
  unfold effectMonitorLoad
  split
  · rfl
  · split
    · rfl
    · exact deriveMonitors_alignment ..

theorem effectMonitorEnable_alignment : (effectMonitorEnable c s).1.alignment = s.alignment := by
  unfold effectMonitorEnable
  split
  · rfl
  · dsimp only
    split
    · rfl
    · exact deriveMonitors_alignment ..

theorem effectMonitorDisable_alignment : (effectMonitorDisable c s).1.alignment = s.alignment := by
  unfold effectMonitorDisable
  split
  · rfl
  · dsimp only
    split
    · exact deriveMonitors_alignment ..
    · rfl

theorem effectMonitorStatus_alignment : (effectMonitorStatus c s).1.alignment = s.alignment := by
  have clears (l : List (Fin 48)) (t : State) :
      (l.foldl (fun s k => s.onMonitor k Monitor.clearTrip) t).alignment = t.alignment := by
    induction l generalizing t with
    | nil => rfl
    | cons k rest ih => exact ih _
  unfold effectMonitorStatus
  dsimp only
  split
  · exact clears _ s
  · rfl

theorem cmdEqLoad_aligned : KeepsAlignment s (cmdEqLoad c s).1 := by
  unfold cmdEqLoad
  split
  · exact screenCommand_silent (fun i s => by unfold effectEqGraphic; split <;> rfl) s
  · split
    · exact screenCommand_silent (fun i s => by unfold effectEqSection; split <;> rfl) s
    · exact screenCommand_silent (fun _ _ => rfl) s

end Silent

/-! ### Every command -/

/-- Whatever command is executed, UNIT_RESET apart. -/
theorem bodyOf_aligned (code : Nat) (c : Command) (s : State) : KeepsAlignment s (bodyOf code c s).1 := by
  unfold bodyOf
  split
  case h_1 => exact unitCommand_silent (fun _ => rfl) s
  case h_2 => exact unitCommand_silent (fun _ => rfl) s
  case h_3 => exact unitCommand_silent (fun s => by unfold effectLinkStats; split <;> rfl) s
  case h_4 => exact screenCommand_aligned (fun _ _ => effectSetup_aligned) s
  case h_5 => exact screenCommand_aligned (fun _ _ => close_aligned) s
  case h_6 => exact screenCommand_silent (fun _ _ => rfl) s
  case h_7 => exact screenCommand_aligned (fun _ _ => resume_aligned) s
  case h_8 => exact screenCommand_silent (fun i s => by unfold effectFader; split <;> simp) s
  case h_9 => exact screenCommand_silent (fun i s => effectMute_alignment c s i) s
  case h_10 =>
    exact screenCommand_silent (fun i s => by unfold effectRehearsal; split <;> simp [onScreen_alignment_of]) s
  case h_11 =>
    exact screenCommand_silent (fun i s => by
      unfold effectChannelSetup; split <;> simp [State.onChannel, onScreen_alignment_of]) s
  case h_12 => exact unitCommand_silent (fun s => by unfold effectFormatLoad; split <;> rfl) s
  case h_13 => exact unitCommand_silent (fun s => by unfold effectFormatClear; split <;> rfl) s
  case h_14 => exact screenCommand_silent (fun i s => by unfold effectArm; split <;> simp) s
  case h_15 => exact screenCommand_silent (fun i s => takeFormat_alignment s i _) s
  case h_16 => exact unitCommand_silent (fun s => by unfold effectFormatRead; split <;> rfl) s
  case h_17 => exact cmdEqLoad_aligned c s
  case h_18 => exact screenCommand_silent (fun i s => copyBanks_alignment s i) s
  case h_19 => exact screenCommand_silent (fun i s => swapBanks_alignment s i) s
  case h_20 => exact screenCommand_silent (fun i s => by unfold effectEqRead; split <;> rfl) s
  case h_21 => exact unitCommand_silent (fun s => by unfold effectCurveLoad; split <;> rfl) s
  case h_22 => exact oneScreenCommand_aligned (fun _ _ => effectAlignStart_aligned) s
  case h_23 => exact screenCommand_aligned (fun _ _ => abortByCommand_aligned) s
  case h_24 => exact unitCommand_silent (fun _ => rfl) s
  case h_25 => exact unitCommand_silent (effectMonitorLoad_alignment c) s
  case h_26 => exact unitCommand_silent (effectMonitorEnable_alignment c) s
  case h_27 => exact unitCommand_silent (effectMonitorDisable_alignment c) s
  case h_28 => exact unitCommand_aligned (effectMonitorAck_aligned c) s
  case h_29 => exact unitCommand_silent (effectMonitorStatus_alignment c) s
  case h_30 => exact screenCommand_silent (fun i s => by unfold effectCuelistLoad; split <;> rfl) s
  case h_31 => exact screenCommand_silent (fun _ _ => rfl) s
  case h_32 => exact unitCommand_silent (fun s => by unfold effectLinkLoad; split <;> rfl) s
  case h_33 => exact unitCommand_silent (fun s => by unfold effectLinkFlag; split <;> rfl) s
  case h_34 => exact unitCommand_silent (fun s => by unfold effectLinkFlag; split <;> rfl) s
  case h_35 => exact unitCommand_silent (fun s => by unfold effectTimerStart; split <;> rfl) s
  case h_36 => exact unitCommand_silent (fun s => by unfold effectTimerStop; split <;> rfl) s
  case h_37 => exact unitCommand_silent (fun s => by unfold effectTimerRead; split <;> rfl) s
  case h_38 => exact unitCommand_aligned (effectCueFire_aligned c) s
  case h_39 => exact unitCommand_silent requestGoPulse_alignment s
  case h_40 => exact unitCommand_silent (fun s => cancelHeld_alignment s false) s
  case h_41 => exact unitCommand_silent (fun _ => rfl) s
  case h_42 => exact unitCommand_aligned (effectHouseSetup_aligned c) s
  case h_43 => exact unitCommand_aligned (houseChange_aligned occurs_aligned _) s
  case h_44 => exact unitCommand_aligned (houseChange_aligned occurs_aligned _) s
  case h_45 => exact unitCommand_silent (fun _ => rfl) s
  case h_46 => exact unitCommand_aligned (effectLineSetup_aligned c) s
  case h_47 => exact unitCommand_silent (fun s => by unfold effectLineSet; split <;> rfl) s
  case h_48 => exact unitCommand_silent (fun _ => rfl) s
  case h_49 => exact .refl s

/-! ### UNIT_RESET and power-on -/

theorem resetUnit_aligned (scope : Scope) (s : State) : KeepsAlignment s (resetUnit scope s) := by
  cases scope with
  | keepTables =>
    rw [resetUnit_keepTables]
    refine .atRest (fun i => ?_) rfl
    simp [State.tablesKept, Screen.off, offScreen]
  | clear =>
    rw [resetUnit_clear]
    refine .atRest (fun i => ?_) rfl
    simp [State.tablesCleared, offScreen]

theorem powerOnState_aligned (straps : Fin 8) (s : State) : KeepsAlignment s (powerOnState straps s) :=
  .atRest (fun i => by simp [powerOnState, State.powerOn, offScreen]) rfl

/-! ### Rows and steps -/

theorem executeThen_aligned {after : Answer → State → State} {body : Command → State → State × Answer} {c : Command}
    {s : State} (acts : KeepsAlignment s (body c s).1) (follows : ∀ a s, KeepsAlignment s (after a s)) :
    KeepsAlignment s (executeThen after body c s) :=
  acts.trans ((follows ..).after (appendReply_alignment ..))

theorem executeUnitReset_aligned (c : Command) (s : State) : KeepsAlignment s (executeUnitReset c s) := by
  have resets (scope : Scope) : KeepsAlignment s (executeThen (readyAfter scope) (cmdUnitResetIn scope) c s) :=
    executeThen_aligned (unitCommand_aligned (fun s => resetUnit_aligned scope s) s)
      fun _ _ => .ite fun _ => .silent (file_alignment ..)
  unfold executeUnitReset
  split
  · exact resets _
  · split
    · exact resets _
    · exact executeThen_aligned (unitCommand_silent (fun _ => rfl) s) fun _ => .refl

theorem executeCommand_aligned (c : Command) (s : State) : KeepsAlignment s (executeCommand c s) := by
  unfold executeCommand
  split
  · exact executeUnitReset_aligned c s
  · exact executeThen_aligned (bodyOf_aligned _ c s) fun _ => .refl

theorem takeCommand_aligned (s : State) : KeepsAlignment s (takeCommand s) := by
  unfold takeCommand
  split
  · exact .refl s
  · split
    · exact (executeCommand_aligned ..).after (s := s) rfl
    · exact .refl s

/-- Whatever row is executed. -/
theorem exec_aligned {r : Instr} {s t : State} (answers : exec r s = .next t) : KeepsAlignment s t := by
  cases spells : r.command with
  | some c =>
    rw [exec_of_command spells] at answers
    cases answers
    exact .ite fun _ => executeCommand_aligned c s
  | none =>
    cases r with
    | commandTake => cases answers; exact takeCommand_aligned s
    | blockArrival f => cases answers; exact eventRow_aligned (receive_aligned _ _ _) s
    | commandArrival f => cases answers; exact eventRow_aligned (receive_aligned _ _ _) s
    | forwardArrival f => cases answers; exact eventRow_aligned (receive_aligned _ _ _) s
    | discardedFrame lane cutOff f => cases answers; exact eventRow_aligned (receive_aligned _ _ _) s
    | aOutFrameSent =>
      cases answers; exact eventRow_aligned (fun s => .silent (offerAOut_alignment { s with aOut := none })) s
    | bOutFrameSent =>
      cases answers; exact eventRow_aligned (fun s => .silent (offerBOut_alignment { s with bOut := none })) s
    | resetnAssert => cases answers; exact .silent rfl
    | powerOnReset straps => cases answers; exact (powerOnState_aligned straps s).before (file_alignment ..)
    | sourceLost i => cases answers; exact timedRow_aligned (fun s _ => loseSource_aligned i s) s
    | silentBlock i => cases answers; exact timedRow_silent (nextSilent_alignment i) s
    | faderRampEnd i => cases answers; exact timedRow_silent (fun _ => onScreen_alignment_of rfl) s
    | stopFadeEnd i => cases answers; exact timedRow_silent (fun _ => onScreen_alignment_of rfl) s
    | formatCrossfadeEnd i => cases answers; exact timedRow_silent (fun s => endFormatFade_alignment s i false) s
    | swapCrossfadeEnd i => cases answers; exact timedRow_silent (fun s => endSwap_alignment s i false) s
    | settleEnd => cases answers; exact timedRow_aligned (fun _ due => settleEnds_aligned (busy_of_dueSettleEnd due)) s
    | dwellEnd => cases answers; exact timedRow_aligned (fun _ due => dwellEnds_aligned (busy_of_dueDwellEnd due)) s
    | timerExpiry t => cases answers; exact timedRow_aligned (fun s _ => expireTimer_aligned t s) s
    | pulsePhaseEnd l => cases answers; exact timedRow_silent (fun s => onLine_alignment s l _) s
    | goPulseEnd => cases answers; exact timedRow_silent (fun s => goChange_alignment s _) s
    | hstopPinChange level => cases answers; exact .silent rfl
    | hstopSensedChange => cases answers; exact timedRow_aligned (fun s _ => houseChange_aligned occurs_aligned _ s) s
    | goPinChange level => cases answers; exact .silent rfl
    | goSensedChange => cases answers; exact timedRow_aligned (fun s _ => takeGo_aligned s) s
    | linePinChange l level =>
      cases answers
      exact (KeepsAlignment.ite fun _ => timedRow_aligned (fun s _ => takeLine_aligned l s) _).after (s := s) rfl
    | lineFilterChange l => cases answers; exact timedRow_aligned (fun s _ => takeLine_aligned l s) s
    | _ => cases spells

theorem step_aligned {s t : State} (steps : step s = .next t) : KeepsAlignment s t := by
  unfold step at steps
  split at steps
  · cases steps
    unfold passTime
    split
    · exact .refl s
    · split <;> exact .silent rfl
  · exact (exec_aligned steps).after (s := s) rfl

/-- Settles O56: a run's start puts its screen in ALIGN, its end takes it out, and nothing else does either. -/
theorem stepsKeepTheEngineToItsScreen : Obligations.StepsKeepTheEngineToItsScreen :=
  fun _ _ holds steps => (step_aligned steps).holds holds

end Sys2Proof.Machine
end

section
/-!
PROOF. A finished channel, the end of a run, and a run that is overtaken (R91 to R95, R108): what each makes of the run
record, the screens and the monitors, and the answer of ALIGN_ABORT.
-/

namespace Sys2Proof.Machine

/-! ### A change of state reads no run record -/

theorem onRun_onRun (f g : RunRecord → RunRecord) (s : State) : (s.onRun f).onRun g = s.onRun (g ∘ f) := rfl

theorem onRun_onScreen (i : Fin 8) (g : Screen → Screen) (f : RunRecord → RunRecord) (s : State) :
    (s.onRun f).onScreen i g = (s.onScreen i g).onRun f := rfl

theorem onRun_judgeMonitors (i : Fin 8) (st : ScreenState) (f : RunRecord → RunRecord) (s : State) :
    judgeMonitors i st (s.onRun f) = (judgeMonitors i st s).onRun f := by
  simp only [judgeMonitors, State.onRun]

theorem onRun_deriveMonitors (i : Fin 8) (f : RunRecord → RunRecord) (s : State) :
    deriveMonitors i (s.onRun f) = (deriveMonitors i s).onRun f := rfl

theorem onRun_enterState (i : Fin 8) (st : ScreenState) (f : RunRecord → RunRecord) (s : State) :
    enterState i st (s.onRun f) = (enterState i st s).onRun f := by
  rw [enterState, onRun_onScreen, onRun_judgeMonitors, onRun_deriveMonitors, enterState]

/-! ### The result at the list position -/

/-- A change of the result at the list position, where there is one. -/
theorem onResult_of_getElem? {r : RunRecord} {x : ChannelResult} (found : r.results[r.position]? = some x)
    (f : ChannelResult → ChannelResult) : r.onResult f = { r with results := r.results.set r.position (f x) } := by
  rw [RunRecord.onResult, List.modify_eq_set_getElem?, found]
  rfl

/-- The result so changed. -/
theorem getElem?_set_of_getElem? {α : Type} {l : List α} {k : Nat} {x : α} (found : l[k]? = some x) (y : α) :
    (l.set k y)[k]? = some y :=
  List.getElem?_set_self (List.getElem?_eq_some_iff.mp found).1

/-! ### A finished channel (R91) -/

section Finish
variable {s : State} {r : ChannelResult} (result : AlignResult)

/-- The results with that of the channel under test set. -/
def resultsWith (s : State) (r : ChannelResult) (result : AlignResult) : List ChannelResult :=
  s.run.results.set s.run.position { r with result := result }

/-- The result set and ALIGN_PROGRESS filed. -/
def progressFiled (s : State) (r : ChannelResult) (result : AlignResult) : State :=
  file (some s.run.screen) (.alignProgress r.channel result r.passesUsed r.limited r.deviation)
    { s with run := { s.run with results := resultsWith s r result } }

theorem progressFiled_frame : progressFiled s r result = { s with
    run := { s.run with results := resultsWith s r result }
    replies := (progressFiled s r result).replies
    forward := (progressFiled s r result).forward
    lastChosen := (progressFiled s r result).lastChosen
    aOut := (progressFiled s r result).aOut
    notices := (progressFiled s r result).notices
    lostCount := (progressFiled s r result).lostCount
    slot := (progressFiled s r result).slot } := by
  rw [progressFiled, file_frame]

theorem progressFiled_run :
    (progressFiled s r result).run = { s.run with results := resultsWith s r result } := by
  rw [progressFiled_frame]

theorem progressFiled_screens : (progressFiled s r result).screens = s.screens := by rw [progressFiled_frame]

theorem progressFiled_timeBase : (progressFiled s r result).timeBase = s.timeBase := by rw [progressFiled_frame]

/-- The state in which the list position moves on. -/
def positionMoved (s : State) (r : ChannelResult) (result : AlignResult) : State :=
  (progressFiled s r result).onRun fun _ =>
    { s.run with results := resultsWith s r result, position := s.run.position + 1 }

/-- A finished channel is followed by the next one of the list, or by the end of the run. -/
theorem finishChannel_eq (found : s.run.results[s.run.position]? = some r) : finishChannel result s =
    match s.run.channels[s.run.position + 1]? with
    | none => completeRun (positionMoved s r result)
    | some c => enterSettle 1 ((positionMoved s r result).onScreen s.run.screen fun x => x.alignAllBut (some c)) := by
  have written : (s.onRun fun x => x.onResult fun y => { y with result := result }) =
      { s with run := { s.run with results := resultsWith s r result } } := by
    rw [State.onRun, onResult_of_getElem? found]
    rfl
  have moved : ((progressFiled s r result).onRun fun x => { x with position := x.position + 1 }) =
      positionMoved s r result := by
    rw [State.onRun, progressFiled_run]
    rfl
  have now : (resultsWith s r result)[s.run.position]? = some { r with result := result } :=
    getElem?_set_of_getElem? found _
  unfold finishChannel
  rw [written]
  dsimp only
  rw [now]
  dsimp only
  rw [← progressFiled, moved]
  rfl

/-- The ALIGN cause on every channel in use but one (R83). -/
theorem alignAllBut_some (x : Screen) (c : Fin 16) : x.alignAllBut (some c) =
    { x with channels := mapAt (fun k ch => { ch with
      mutes := { ch.mutes with align := decide (k.val < x.count ∧ k ≠ c) } }) x.channels } := by
  have cause (k : Fin 16) : (decide (k.val < x.count) && some c != some k) = decide (k.val < x.count ∧ k ≠ c) := by
    rw [Bool.decide_and]
    simp [bne, beq_eq_decide, eq_comm]
  simp only [Screen.alignAllBut, cause]

/-- The next listed channel is taken into SETTLE with the ALIGN cause moved (R91). -/
theorem finishChannel_next (found : s.run.results[s.run.position]? = some r) {c : Fin 16}
    (listed : s.run.channels[s.run.position + 1]? = some c) : finishChannel result s =
      ({ progressFiled s r result with run := { s.run with
          results := resultsWith s r result
          position := s.run.position + 1
          pass := 1
          engine := .settle
          phaseStart := s.timeBase } }).onScreen s.run.screen
        fun x => { x with channels := mapAt (fun k ch => { ch with
          mutes := { ch.mutes with align := decide (k.val < x.count ∧ k ≠ c) } }) x.channels } := by
  rw [finishChannel_eq result found, listed, ← progressFiled_timeBase (s := s) (r := r) result]
  simp only [← alignAllBut_some]
  rfl

/-! ### The end of a run (R92, R108) -/

/-- The state from which the screen of a completed run enters DARK. -/
def alignCleared (s : State) (r : ChannelResult) (result : AlignResult) : State :=
  (progressFiled s r result).onScreen s.run.screen Screen.clearAlign

/-- The unit as a completed run leaves it before ALIGN_DONE. -/
def runEnded (s : State) (r : ChannelResult) (result : AlignResult) : State := runCompleted (positionMoved s r result)

/-- The run record a completed run leaves. -/
def endedRun (s : State) (r : ChannelResult) (result : AlignResult) : RunRecord :=
  { s.run with
    results := resultsWith s r result
    position := s.run.position + 1
    pass := 0
    engine := .idle
    outcome := .complete }

/-- The screen and its monitors are as the change to DARK leaves them, whatever the run record holds. -/
theorem runEnded_eq : runEnded s r result =
    (enterState s.run.screen .dark (alignCleared s r result)).onRun fun _ => endedRun s r result := by
  rw [runEnded, runCompleted, positionMoved, State.onRun_run, onRun_onScreen, onRun_onScreen, onRun_enterState,
    onRun_enterState, onRun_onRun, onRun_onRun, ← alignCleared]
  rfl

theorem runEnded_frame : runEnded s r result = { progressFiled s r result with
    run := (runEnded s r result).run
    screens := (runEnded s r result).screens
    monitors := (runEnded s r result).monitors } := by
  rw [runEnded_eq, enterState_frame]
  rfl

theorem runEnded_screens : (runEnded s r result).screens =
    (enterState s.run.screen .dark (alignCleared s r result)).screens := by
  rw [runEnded_eq, State.onRun_screens]

theorem runEnded_monitors : (runEnded s r result).monitors =
    (enterState s.run.screen .dark (alignCleared s r result)).monitors := by
  rw [runEnded_eq, State.onRun_monitors]

theorem runEnded_run : (runEnded s r result).run = endedRun s r result := by
  rw [runEnded_eq, State.onRun_run]

theorem runEnded_align (k : Fin 16) : (runEnded s r result).screens[s.run.screen].channels[k].mutes.align = false := by
  rw [runEnded_screens, enterState_channel, alignCleared, onScreen_same, Screen.clearAlign, mapAt_get]

theorem runEnded_other {j : Fin 8} (other : j ≠ s.run.screen) : (runEnded s r result).screens[j] = s.screens[j] := by
  rw [runEnded_screens, enterState_other other, alignCleared, State.onScreen_get, if_neg other, progressFiled_screens]

/-- The last channel is followed by ALIGN_DONE and its trigger (R92). -/
theorem finishChannel_last (found : s.run.results[s.run.position]? = some r)
    (last : s.run.channels[s.run.position + 1]? = none) : finishChannel result s =
      occurs (.alignDone s.run.screen) (file (some s.run.screen)
        (.alignDone s.run.channels.length ((resultsWith s r result).countP fun x => x.result == .converged))
        (runEnded s r result)) := by
  rw [finishChannel_eq result found, last]
  exact completeRun_eq _

end Finish

/-! ### A run that is overtaken (R93) -/

theorem abortResults_get {position k : Nat} {results : List ChannelResult} {r : ChannelResult}
    (found : results[k]? = some r) : (abortResults position results)[k]? = some
      (if k < position then r
      else if k = position then { r with result := .aborted }
      else { r with result := .skipped }) := by
  rw [abortResults, List.getElem?_mapIdx, found, Option.map_some]
  rcases lt_trichotomy k position with before | rfl | past
  · rw [if_neg before.ne, if_neg before.not_gt, if_pos before]
  · rw [if_pos rfl, if_neg (lt_irrefl k), if_pos rfl]
  · rw [if_neg past.ne', if_pos past, if_neg past.not_gt, if_neg past.ne']

theorem endRun_screen (reason : AbortReason) (s : State) :
    (endRun reason s).screens[s.run.screen] = s.screens[s.run.screen].clearAlign := onScreen_same ..

theorem endRun_other {j : Fin 8} {s : State} (other : j ≠ s.run.screen) (reason : AbortReason) :
    (endRun reason s).screens[j] = s.screens[j] := modifyAt_other _ _ other

theorem Screen.clearAlign_channel (x : Screen) (c : Fin 16) : x.clearAlign.channels[c] =
    { x.channels[c] with mutes := { x.channels[c].mutes with align := false } } := by
  rw [Screen.clearAlign, mapAt_get]

/-! ### ALIGN_ABORT (R95) -/

section Abort
variable {c : Command} {s : State} {i : Fin 8}

theorem cmdAlignAbort_answers (selector : c.selector = BitVec.ofNat 8 i.val) (empty : c.payload = [])
    (aligning : s.screens[i].state = .inAlign) :
    cmdAlignAbort c s = (enterState i .dark (overtakeRun .command s), ⟨.ok, 0#8, []⟩) := by
  refine screenCommand_answers (isEmpty_of_nil empty) selector ?_
  rw [checkAlignAbort, State.isAligning, aligning]
  rfl

theorem cmdAlignAbort_refused (selector : c.selector = BitVec.ofNat 8 i.val) (empty : c.payload = [])
    (other : s.screens[i].state ≠ .inAlign) : cmdAlignAbort c s = (s, ⟨.badState, screenFlag i, []⟩) := by
  rw [cmdAlignAbort, isEmpty_of_nil empty]
  refine screenCommand_refused selector ?_
  rw [checkAlignAbort, State.isAligning, beq_eq_false_iff_ne.mpr other]
  rfl

end Abort

/-- Settles O29: each end of a channel or a run as one change, field by field. -/
theorem aFinishedChannelAndAnOvertakenRun : Obligations.AFinishedChannelAndAnOvertakenRun := by
  refine ⟨fun s result r found => ⟨fun c listed => finishChannel_next result found listed, fun last => ?_⟩,
    fun s reason => ?_, fun i a s can names empty => ⟨fun aligning => ?_, fun other => ?_⟩⟩
  · exact ⟨runEnded s r result, finishChannel_last result found last, runEnded_frame result, runEnded_run result,
      ⟨runEnded_screens result, runEnded_monitors result⟩, runCompleted_state (positionMoved s r result),
      runEnded_align result, fun j => runEnded_other result⟩
  · refine ⟨endRun reason s, rfl, rfl, rfl, List.length_mapIdx, fun k r => abortResults_get, ?_, fun c => ?_,
      fun j other => endRun_other other reason⟩
    · rw [endRun_screen]
      rfl
    · rw [endRun_screen, Screen.clearAlign_channel]
  · exact congrArg _ (commandRow_answers can (cmdAlignAbort_answers names empty aligning))
  · exact congrArg _ (commandRow_refuses can (cmdAlignAbort_refused names empty other))

end Sys2Proof.Machine
end

section
/-!
PROOF. A pass of an alignment run (R85 to R90): the ends of its two phases, the comparison with the curve, and what
follows it, a finished channel or a correction and another pass.
-/

namespace Sys2Proof.Machine

/-! ### The phases (R85 to R87) -/

/-- The levels of a DWELL (R86, R87). -/
def passLevels (a : DwellAcc) : Vector Level 31 :=
  Vector.ofFn fun b : Fin 31 => levelOf a.bands[b] (a.samples * (8388608 * 8388608))

/-- The unit once the pass has counted and its levels stand (R87). -/
def passMeasured (s : State) : State :=
  { s with run := { s.run with results := s.run.results.modify s.run.position fun x =>
    { x with passesUsed := x.passesUsed + 1, bandLevels := passLevels s.run.acc } } }

theorem evaluatePass_eq (c : Fin 16) (s : State) : evaluatePass c s =
    if levelOf s.run.acc.total (s.run.acc.samples * (8388608 * 8388608)) < -200 then
      finishChannel .noSignal (passMeasured s)
    else if s.run.acc.fullScale then finishChannel .clipped (passMeasured s)
    else judgePass c (passLevels s.run.acc) (passMeasured s) := by
  have levels : mapAt (fun b _ => levelOf s.run.acc.bands[b] (s.run.acc.samples * fullSquare))
      (Vector.replicate 31 silence) = passLevels s.run.acc := table_ext fun b => by
    rw [mapAt_get, passLevels]
    simp [fullSquare, Config.fullScale]
  unfold evaluatePass
  dsimp only
  rw [levels]
  rfl

theorem dwellEnds_eq {s : State} {c : Fin 16} (listed : s.run.channels[s.run.position]? = some c) :
    dwellEnds s =
      if levelOf s.run.acc.total (s.run.acc.samples * (8388608 * 8388608)) < -200 then
        finishChannel .noSignal (passMeasured s)
      else if s.run.acc.fullScale then finishChannel .clipped (passMeasured s)
      else judgePass c (passLevels s.run.acc) (passMeasured s) := by
  rw [dwellEnds, RunRecord.underTest, listed]
  exact evaluatePass_eq c s

/-! ### The comparison of a pass (R88) -/

/-- The mean is the nearest integer, and a value halfway goes away from zero. -/
theorem meanAway_nearest (total : Int) {n : Nat} (counted : 0 < n) :
    2 * (total - n * meanAway total n) ≤ n ∧ -n ≤ 2 * (total - n * meanAway total n) ∧
      (2 * (total - n * meanAway total n) = n → meanAway total n < 0 ∧ total < 0) ∧
      (2 * (total - n * meanAway total n) = -n → 0 < meanAway total n ∧ 0 < total) := by
  generalize quotient : (2 * total.natAbs + n) / (2 * n) = q
  have low : 2 * n * q ≤ 2 * total.natAbs + n := quotient ▸ Nat.mul_div_le ..
  have high : 2 * total.natAbs + n < 2 * n * q + 2 * n := quotient ▸ Nat.lt_mul_div_succ _ (by omega)
  have whole : q = 0 ∧ n * q = 0 ∨ 0 < q ∧ n ≤ n * q := q.eq_zero_or_pos.imp
    (fun zero => ⟨zero, by rw [zero, Nat.mul_zero]⟩) fun positive => ⟨positive, Nat.le_mul_of_pos_right n positive⟩
  rw [Nat.mul_assoc] at low high
  unfold meanAway
  rw [quotient]
  generalize product : n * q = p at *
  have cast : (n : Int) * q = p := by rw [← product]; exact (Nat.cast_mul ..).symm
  rcases lt_or_ge total 0 with negative | positive
  · rw [if_neg (not_le.mpr negative), mul_neg, cast]
    omega
  · rw [if_pos positive, cast]
    omega

theorem deviations_get (c : Curve) (m : Vector Level 31) (b : Fin 31) : (c.deviations m)[b] =
    if c.low ≤ b.val ∧ b.val ≤ c.high then
      m[b] - c.targets[b] - meanAway (c.range.map fun b => m[b] - c.targets[b]).sum c.range.length
    else 0 := by
  rw [Curve.deviations, mapAt_get, List.length_map]

theorem largest_cons (x : Nat) (xs : List Nat) : largest (x :: xs) = max x (largest xs) := by
  rw [largest, largest, ← List.foldl_assoc (op := max), List.foldl_cons, Nat.zero_max, Nat.max_zero]

/-- The largest of a list bounds it and is in it. -/
theorem le_largest {x : Nat} {xs : List Nat} (mem : x ∈ xs) : x ≤ largest xs := by
  induction xs with
  | nil => cases mem
  | cons y ys ih =>
    rw [largest_cons]
    rcases List.mem_cons.mp mem with rfl | rest
    · exact le_max_left ..
    · exact (ih rest).trans (le_max_right ..)

theorem largest_mem {xs : List Nat} (listed : xs ≠ []) : largest xs ∈ xs := by
  induction xs with
  | nil => exact absurd rfl listed
  | cons y ys ih =>
    rw [largest_cons]
    rcases eq_or_ne ys [] with rfl | rest
    · simp [largest]
    · rcases max_choice y (largest ys) with first | later
      · rw [first]; exact List.mem_cons_self ..
      · rw [later]; exact List.mem_cons_of_mem _ (ih rest)

theorem le_largestDeviation (d : Vector Int 31) (b : Fin 31) : d[b].natAbs ≤ largestDeviation d :=
  le_largest (List.mem_map_of_mem (Vector.mem_toList_iff.mpr (Vector.getElem_mem b.isLt)))

theorem largestDeviation_reached (d : Vector Int 31) : ∃ b : Fin 31, d[b].natAbs = largestDeviation d := by
  have listed : d.toList.map Int.natAbs ≠ [] := fun none => by simpa using congrArg List.length none
  obtain ⟨x, mem, equal⟩ := List.mem_map.mp (largest_mem listed)
  obtain ⟨b, bound, rfl⟩ := Vector.mem_iff_getElem.mp (Vector.mem_toList_iff.mp mem)
  exact ⟨⟨b, bound⟩, equal⟩

/-! ### The correction of a pass (R89) -/

/-- The staging bank that the correction of a pass makes. -/
def EqBank.aligned (bank : EqBank) (d : Vector Int 31) (used : Nat) : EqBank :=
  { bank with
    graphic := Vector.ofFn fun b : Fin 31 => max (-48) (min 24 (bank.graphic[b] - d[b]))
    origin := .aligned
    passStamp := used }

theorem correctBank_eq (d : Vector Int 31) (used : Nat) (bank : EqBank) :
    correctBank d used bank = bank.aligned d used := by
  have graphic : mapAt (fun b g => limitGain (g - d[b])) bank.graphic =
      Vector.ofFn fun b : Fin 31 => max (-48) (min 24 (bank.graphic[b] - d[b])) := table_ext fun b => by
    rw [mapAt_get]
    simp [limitGain]
  rw [correctBank, graphic, EqBank.aligned]

/-- A staging bank written without a look at the live one. -/
theorem onStaging_eq_withStaging (live : BankName) (f : EqBank → EqBank) (x : ChannelBanks) :
    x.onStaging live (fun _ => f) = withStaging live f x := by
  cases live <;> rfl

/-- A gain is cut by the limit where it lies outside it. -/
theorem limitGain_ne {g : Int} : limitGain g ≠ g ↔ g < -48 ∨ 24 < g := by
  show (max (-48) (min 24 g) : Int) ≠ g ↔ _
  omega

theorem correctionLimited_eq (d : Vector Int 31) (bank : EqBank) : correctionLimited d bank =
    decide (∃ b : Fin 31, bank.graphic[b] - d[b] < -48 ∨ 24 < bank.graphic[b] - d[b]) := by
  rw [Bool.eq_iff_iff, correctionLimited, List.any_eq_true, decide_eq_true_iff]
  simp only [mem_indexes, true_and, bne_iff_ne, limitGain_ne]

/-! ### What follows a comparison (R88 to R90) -/

section Judged
variable {s : State} {c : Fin 16} {m : Vector Level 31} {d : Vector Int 31} {r : ChannelResult}

/-- The result of a channel once the largest deviation of a pass stands in it. -/
def ChannelResult.compared (r : ChannelResult) (d : Vector Int 31) : ChannelResult :=
  { r with deviation := largestDeviation d }

/-- The unit with that result. -/
def passCompared (d : Vector Int 31) (r : ChannelResult) (s : State) : State :=
  { s with run := { s.run with results := s.run.results.set s.run.position (r.compared d) } }

theorem judgePass_eq (found : s.run.results[s.run.position]? = some r)
    (deviates : s.curves[s.run.curve].deviations m = d) : judgePass c m s =
    if largestDeviation d ≤ s.curves[s.run.curve].tolerance then finishChannel .converged (passCompared d r s)
    else if s.run.mode = .correct then
      let t := writeCorrection c d (passCompared d r s)
      if t.run.pass < t.run.passesMax then enterSettle (t.run.pass + 1) t else finishChannel .notConverged t
    else finishChannel .notConverged (passCompared d r s) := by
  have compared : (s.onRun fun x => x.onResult fun y => { y with deviation := largestDeviation d }) =
      passCompared d r s := by
    rw [State.onRun, onResult_of_getElem? found]
    rfl
  unfold judgePass
  dsimp only
  rw [deviates, compared]
  rfl

/-- The result of a channel once a correction of a bank has been written. -/
def ChannelResult.corrected (r : ChannelResult) (d : Vector Int 31) (bank : EqBank) : ChannelResult :=
  { r with
    limited := r.limited || decide (∃ b : Fin 31, bank.graphic[b] - d[b] < -48 ∨ 24 < bank.graphic[b] - d[b]) }

/-- The unit with a correction written into the staging bank of a channel, and its result with it. -/
def correctionWritten (c : Fin 16) (d : Vector Int 31) (r : ChannelResult) (s : State) : State :=
  let corrected := r.corrected d (s.stagingBank s.run.screen c)
  { s.onBanks s.run.screen c (withStaging s.screens[s.run.screen].eqLive fun bank => bank.aligned d r.passesUsed) with
    run := { s.run with results := s.run.results.set s.run.position corrected } }

theorem writeCorrection_eq (found : s.run.results[s.run.position]? = some r) (d : Vector Int 31) :
    writeCorrection c d s = correctionWritten c d r s := by
  have banks : (fun x : ChannelBanks => x.onStaging s.screens[s.run.screen].eqLive fun _ bank =>
      correctBank d r.passesUsed bank) =
      withStaging s.screens[s.run.screen].eqLive fun bank => bank.aligned d r.passesUsed := by
    funext x
    rw [onStaging_eq_withStaging]
    simp only [correctBank_eq]
  unfold writeCorrection
  dsimp only
  rw [found]
  dsimp only
  rw [banks, correctionLimited_eq, State.onRun, State.onBanks_run, onResult_of_getElem? found]
  rfl

theorem passCompared_found (found : s.run.results[s.run.position]? = some r) :
    (passCompared d r s).run.results[(passCompared d r s).run.position]? = some (r.compared d) :=
  getElem?_set_of_getElem? found _

/-- The unit once the correction of a compared pass is written (R89). -/
def passCorrected (c : Fin 16) (d : Vector Int 31) (r : ChannelResult) (s : State) : State :=
  let corrected := (r.compared d).corrected d (s.stagingBank s.run.screen c)
  { s.onBanks s.run.screen c (withStaging s.screens[s.run.screen].eqLive fun bank => bank.aligned d r.passesUsed) with
    run := { s.run with results := s.run.results.set s.run.position corrected } }

theorem writeCorrection_compared (found : s.run.results[s.run.position]? = some r) :
    writeCorrection c d (passCompared d r s) = passCorrected c d r s := by
  have bank : (passCompared d r s).stagingBank s.run.screen c = s.stagingBank s.run.screen c := rfl
  have results (x : ChannelResult) : (passCompared d r s).run.results.set s.run.position x =
      s.run.results.set s.run.position x := List.set_set ..
  rw [writeCorrection_eq (passCompared_found found), correctionWritten]
  show { (passCompared d r s).onBanks s.run.screen c _ with run := { (passCompared d r s).run with
    results := (passCompared d r s).run.results.set s.run.position ((r.compared d).corrected d
      ((passCompared d r s).stagingBank s.run.screen c)) } } = _
  rw [bank, results]
  rfl

theorem corrected_compared (bank : EqBank) : (r.compared d).corrected d bank = { r with
    deviation := largestDeviation d
    limited := r.limited || decide (∃ b : Fin 31, bank.graphic[b] - d[b] < -48 ∨ 24 < bank.graphic[b] - d[b]) } := by
  rw [ChannelResult.corrected, ChannelResult.compared]

theorem passCorrected_run : (passCorrected c d r s).run = { s.run with
    results := s.run.results.set s.run.position ((r.compared d).corrected d (s.stagingBank s.run.screen c)) } := rfl

/-- The bank corrected, and every other one. -/
theorem passCorrected_get (j : Fin 8) (k : Fin 16) : (passCorrected c d r s).eq[j][k] =
    if j = s.run.screen ∧ k = c then withStaging s.screens[s.run.screen].eqLive
      (fun bank => bank.aligned d r.passesUsed) s.eq[j][k] else s.eq[j][k] := onBanks_get ..

/-- A converged pass finishes its channel. -/
theorem judgePass_near (found : s.run.results[s.run.position]? = some r)
    (deviates : s.curves[s.run.curve].deviations m = d)
    (near : largestDeviation d ≤ s.curves[s.run.curve].tolerance) :
    judgePass c m s = finishChannel .converged (passCompared d r s) := by
  rw [judgePass_eq found deviates, if_pos near]

/-- So does the one pass of a run that only measures. -/
theorem judgePass_measured (found : s.run.results[s.run.position]? = some r)
    (deviates : s.curves[s.run.curve].deviations m = d)
    (far : s.curves[s.run.curve].tolerance < largestDeviation d) (measures : s.run.mode = .measureOnly) :
    judgePass c m s = finishChannel .notConverged (passCompared d r s) := by
  rw [judgePass_eq found deviates, if_neg (not_le.mpr far), measures, if_neg nofun]

/-- A CORRECT run goes on while passes are left (R90). -/
theorem judgePass_corrected (found : s.run.results[s.run.position]? = some r)
    (deviates : s.curves[s.run.curve].deviations m = d)
    (far : s.curves[s.run.curve].tolerance < largestDeviation d) (corrects : s.run.mode = .correct) :
    judgePass c m s =
      if s.run.pass < s.run.passesMax then enterSettle (s.run.pass + 1) (passCorrected c d r s)
      else finishChannel .notConverged (passCorrected c d r s) := by
  rw [judgePass_eq found deviates, if_neg (not_le.mpr far), if_pos corrects, writeCorrection_compared found]
  rfl

end Judged

/-- Settles O28: each phase's end, the comparison, and what follows it. -/
theorem aPassIsMeasuredComparedAndCorrected : Obligations.APassIsMeasuredComparedAndCorrected := by
  refine ⟨fun s runs settles time => ?_, fun s c runs dwells time listed => ?_,
    ⟨fun total n => meanAway_nearest total, fun c m b _ => deviations_get c m b,
      fun d => ⟨le_largestDeviation d, largestDeviation_reached d⟩⟩, fun s c m r found => ⟨fun near => ?_,
    fun far measures => ?_, fun far corrects => ?_⟩⟩
  · exact congrArg _ (timedRow_due runs ((dueSettleEnd_iff s).mpr ⟨settles, time⟩))
  · exact congrArg _ ((timedRow_due runs ((dueDwellEnd_iff s).mpr ⟨dwells, time⟩)).trans (dwellEnds_eq listed))
  · exact judgePass_near found rfl near
  · exact judgePass_measured found rfl far measures
  · refine ⟨passCorrected c (s.curves[s.run.curve].deviations m) r s, rfl, fun j k other => ?_, ?_, ?_,
      judgePass_corrected found rfl far corrects⟩
    · exact (passCorrected_get j k).trans (if_neg fun own => other (Prod.ext own.1 own.2))
    · exact (passCorrected_get s.run.screen c).trans (if_pos ⟨rfl, rfl⟩)
    · rw [passCorrected_run, corrected_compared]

end Sys2Proof.Machine
end

section
/-!
PROOF. The Level Monitor Unit at a meter update (R98 to R101, R104 to R107, R111, R113, R114): readings, conditions and
moves case by case, the events of an update in ascending index, and what reporting them leaves unchanged.
-/

namespace Sys2Proof.Machine

/-! ### Readings and conditions (R98 to R101) -/

section Readings
variable {s : State} {c : MonitorContent}

theorem reading_off (off : s.screens[c.screen].state = .off) : s.reading c = -240 := by
  rw [State.reading, if_pos off]
  rfl

section On
variable (on : s.screens[c.screen].state ≠ .off)
include on

theorem reading_input {k : Fin 16} (point : c.point = .input k) :
    s.reading c = s.screens[c.screen].inputs[k].reading c.measure := by
  simp only [State.reading, if_neg on, point]

theorem reading_output {o : Fin 16} (point : c.point = .output o) (used : o.val < s.screens[c.screen].count) :
    s.reading c = s.screens[c.screen].channels[o].meter.reading c.measure := by
  simp only [State.reading, if_neg on, point, if_pos used]

theorem reading_unused {o : Fin 16} (point : c.point = .output o) (unused : s.screens[c.screen].count ≤ o.val) :
    s.reading c = -240 := by
  simp only [State.reading, if_neg on, point, if_neg (Nat.not_lt.mpr unused), silence]

theorem reading_sum (point : c.point = .sum) : s.reading c = s.screens[c.screen].sum.reading c.measure := by
  simp only [State.reading, if_neg on, point]

end On

end Readings

/-- A distance above a bound is a difference above it, one way or the other (R101). -/
theorem lt_distance_iff (a l q : Int) : a < ((l - q).natAbs : Int) ↔ a < l - q ∨ a < q - l := by omega

theorem conditionHolds_iff (s : State) (m : Monitor) (l : Level) :
    s.conditionHolds m l = true ↔ s.conditionTrue m l := by
  cases condition : m.content.condition with
  | above => simp [State.conditionHolds, State.conditionTrue, condition]
  | below => simp [State.conditionHolds, State.conditionTrue, condition]
  | outside => simp [State.conditionHolds, State.conditionTrue, condition]
  | inside => simp [State.conditionHolds, State.conditionTrue, condition]
  | jump => cases prev : m.prev <;> simp [State.conditionHolds, State.conditionTrue, condition, prev]
  | track =>
    cases partner : m.content.partner with
    | none => simp [State.conditionHolds, State.conditionTrue, condition, partner]
    | some k =>
      simp only [State.conditionHolds, State.conditionTrue, condition, partner, Bool.and_eq_true, beq_iff_eq,
        decide_eq_true_eq, lt_distance_iff, Option.some.injEq, exists_eq_left', and_assoc]

/-! ### Moves (R105 to R107) -/

theorem Monitor.raise_eq {m : Monitor} (counts : m.raiseCount ≤ 255) (l : Level) :
    m.raise l = (raisedMonitor m, some (.raised l)) := by
  rw [Monitor.raise, raisedMonitor, riseTo_eq_min counts]

theorem Monitor.letGo_eq (m : Monitor) (l : Level) :
    m.letGo l = (endedMonitor m, some (if m.content.latch then .latched l else .cleared false l)) := by
  unfold Monitor.letGo endedMonitor
  split <;> rfl

section Moves
variable {m : Monitor} (now : Word) (l : Level)

theorem move_clear_false (clear : m.state = .clear) : m.move now false l = (m, none) := by
  simp only [Monitor.move, clear]

theorem move_clear_true (clear : m.state = .clear) (counts : m.raiseCount ≤ 255) : m.move now true l =
    if m.content.holdMs = 0 then (raisedMonitor m, some (.raised l))
    else ({ m with state := .pending, mark := some now }, none) := by
  simp only [Monitor.move, clear, Monitor.raise_eq counts]

theorem move_pending_false (pending : m.state = .pending) :
    m.move now false l = ({ m with state := .clear, mark := none }, none) := by
  simp only [Monitor.move, pending]

theorem move_pending_true (pending : m.state = .pending) (counts : m.raiseCount ≤ 255) : m.move now true l =
    if m.content.holdMs ≤ m.sinceMark now then (raisedMonitor m, some (.raised l)) else (m, none) := by
  simp only [Monitor.move, pending, Monitor.raise_eq counts]

theorem move_raised_true (raised : m.state = .raised) : m.move now true l = (m, none) := by
  simp only [Monitor.move, raised]

theorem move_raised_false (raised : m.state = .raised) : m.move now false l =
    if m.content.releaseMs = 0 then
      (endedMonitor m, some (if m.content.latch then .latched l else .cleared false l))
    else ({ m with state := .releasing, mark := some now }, none) := by
  simp only [Monitor.move, raised, Monitor.letGo_eq]

theorem move_releasing_true (releasing : m.state = .releasing) :
    m.move now true l = ({ m with state := .raised, mark := none }, none) := by
  simp only [Monitor.move, releasing]

theorem move_releasing_false (releasing : m.state = .releasing) : m.move now false l =
    if m.content.releaseMs ≤ m.sinceMark now then
      (endedMonitor m, some (if m.content.latch then .latched l else .cleared false l))
    else (m, none) := by
  simp only [Monitor.move, releasing, Monitor.letGo_eq]

theorem move_latched (latched : m.state = .latched) (holds : Bool) : m.move now holds l = (m, none) := by
  simp only [Monitor.move, latched]

end Moves

/-! ### The events of an update (R104) -/

theorem mem_monitorEvents {s : State} {i : Fin 8} {m : Fin 48} {e : MonitorEvent} : (m, e) ∈ s.monitorEvents i ↔
    s.monitors[m].evaluatedOn i = true ∧ (s.evaluate s.monitors[m]).2 = some e := by
  simp [State.monitorEvents, List.mem_filterMap]

theorem monitorEvents_ascend (s : State) (i : Fin 8) : ((s.monitorEvents i).map Prod.fst).Pairwise (· < ·) := by
  rw [List.pairwise_map, State.monitorEvents, List.pairwise_filterMap]
  refine (List.pairwise_lt_finRange 48).imp fun {j k} below x first y second => ?_
  have index {n : Fin 48} {z : Fin 48 × MonitorEvent}
      (event : (if s.monitors[n].evaluatedOn i then (s.evaluate s.monitors[n]).2.map (n, ·) else none) = some z) :
      z.1 = n := by
    split at event
    · obtain ⟨e, -, rfl⟩ := Option.map_eq_some_iff.mp event
      rfl
    · cases event
  rw [index first, index second]
  exact below

theorem raisesHouseStop_iff {s : State} {x : Fin 48 × MonitorEvent} : raisesHouseStop s x = true ↔
    (∃ l, x.2 = .raised l) ∧ s.monitors[x.1].content.action = .houseStop := by
  obtain ⟨m, e⟩ := x
  cases e <;> simp [raisesHouseStop]

theorem any_raisesHouseStop {s : State} {i : Fin 8} : (s.monitorEvents i).any (raisesHouseStop s) = true ↔
    ∃ m l, (m, .raised l) ∈ s.monitorEvents i ∧ s.monitors[m].content.action = .houseStop := by
  rw [List.any_eq_true]
  constructor
  · rintro ⟨⟨m, e⟩, listed, raises⟩
    obtain ⟨⟨l, rfl⟩, action⟩ := raisesHouseStop_iff.mp raises
    exact ⟨m, l, listed, action⟩
  · rintro ⟨m, l, listed, action⟩
    exact ⟨(m, .raised l), listed, raisesHouseStop_iff.mpr ⟨⟨l, rfl⟩, action⟩⟩

/-- The controller with MONITOR in its source set (R111). -/
def House.withMonitorSource (h : House) : House := { h with set := { h.set with monitor := true } }

theorem evaluateMonitors_eq (i : Fin 8) (s : State) : evaluateMonitors i s =
    (s.monitorEvents i).foldl reportEvent
      (if (s.monitorEvents i).any (raisesHouseStop s) then
        changed House.withMonitorSource (deriveMonitors i (evaluated i s))
      else deriveMonitors i (evaluated i s)) := by
  rw [← houseChange_eq_changed]
  rfl

/-! ### Reporting with no link enabled -/

/-- What neither an evaluation nor a notice touches: the run, the tables but for screens and monitors, the held list and
the wires. -/
structure TablesStand (s t : State) : Prop where
  house : t.house = s.house
  formats : t.formats = s.formats
  eq : t.eq = s.eq
  run : t.run = s.run
  cueLists : t.cueLists = s.cueLists
  links : t.links = s.links
  timers : t.timers = s.timers
  held : t.held = s.held
  lines : t.lines = s.lines

theorem TablesStand.refl (s : State) : TablesStand s s := ⟨rfl, rfl, rfl, rfl, rfl, rfl, rfl, rfl, rfl⟩

theorem TablesStand.trans {s t u : State} (first : TablesStand s t) (second : TablesStand t u) : TablesStand s u :=
  ⟨second.house.trans first.house, second.formats.trans first.formats, second.eq.trans first.eq,
    second.run.trans first.run, second.cueLists.trans first.cueLists, second.links.trans first.links,
    second.timers.trans first.timers, second.held.trans first.held, second.lines.trans first.lines⟩

theorem TablesStand.withMonitors (s : State) (monitors : Vector Monitor 48) :
    TablesStand s { s with monitors := monitors } := ⟨rfl, rfl, rfl, rfl, rfl, rfl, rfl, rfl, rfl⟩

theorem TablesStand.onScreen (s : State) (i : Fin 8) (f : Screen → Screen) : TablesStand s (s.onScreen i f) :=
  ⟨rfl, rfl, rfl, rfl, rfl, rfl, rfl, rfl, rfl⟩

theorem deriveMonitors_tablesStand (i : Fin 8) (s : State) : TablesStand s (deriveMonitors i s) := by
  unfold deriveMonitors
  exact .onScreen s i _

theorem evaluated_tablesStand (i : Fin 8) (s : State) : TablesStand s (evaluated i s) := by
  unfold evaluated
  exact .withMonitors s _

/-- What a notice leaves: the screens and the monitors too. -/
structure RecordsStand (s t : State) : Prop extends TablesStand s t where
  monitors : t.monitors = s.monitors
  screens : t.screens = s.screens

theorem RecordsStand.refl (s : State) : RecordsStand s s := ⟨.refl s, rfl, rfl⟩

theorem RecordsStand.trans {s t u : State} (first : RecordsStand s t) (second : RecordsStand t u) :
    RecordsStand s u :=
  ⟨first.toTablesStand.trans second.toTablesStand, second.monitors.trans first.monitors,
    second.screens.trans first.screens⟩

theorem RecordsStand.file (screen : Option (Fin 8)) (body : NoticeBody) (s : State) :
    RecordsStand s (file screen body s) := by
  rw [file_frame]
  exact ⟨⟨rfl, rfl, rfl, rfl, rfl, rfl, rfl, rfl, rfl⟩, rfl, rfl⟩

/-- No link is enabled, so that no trigger does anything (R130). -/
abbrev State.linksRest (s : State) : Prop := ∀ k : Fin 32, s.links[k].enabled = false

theorem reportEvent_recordsStand {s : State} (rest : s.linksRest) (x : Fin 48 × MonitorEvent) :
    RecordsStand s (reportEvent s x) := by
  unfold reportEvent
  extract_lets c told
  have tells : RecordsStand s told := by
    unfold told
    split
    · exact .file ..
    · exact .refl s
  split
  · exact tells
  · rw [occurs_of_disabled (by rw [tells.links]; exact rest)]
    exact tells

theorem reportEvents_recordsStand (events : List (Fin 48 × MonitorEvent)) {s : State} (rest : s.linksRest) :
    RecordsStand s (events.foldl reportEvent s) := by
  induction events generalizing s with
  | nil => exact .refl s
  | cons x later ih =>
    have reports := reportEvent_recordsStand rest x
    exact reports.trans (ih (by rw [State.linksRest, reports.links]; exact rest))

theorem derived_tablesStand (i : Fin 8) (s : State) : TablesStand s (deriveMonitors i (evaluated i s)) :=
  (evaluated_tablesStand i s).trans (deriveMonitors_tablesStand i _)

theorem evaluateMonitors_recordsStand {i : Fin 8} {s : State}
    (noStop : ∀ m : Fin 48, s.monitors[m].content.action ≠ .houseStop) (rest : s.linksRest) :
    RecordsStand (deriveMonitors i (evaluated i s)) (evaluateMonitors i s) := by
  have quiet : ¬(s.monitorEvents i).any (raisesHouseStop s) = true := fun stops => by
    obtain ⟨m, -, -, action⟩ := any_raisesHouseStop.mp stops
    exact noStop m action
  rw [evaluateMonitors_eq, if_neg quiet]
  exact reportEvents_recordsStand _ (by rw [State.linksRest, (derived_tablesStand i s).links]; exact rest)

theorem evaluated_monitor (i : Fin 8) (s : State) (m : Fin 48) : (evaluated i s).monitors[m] =
    if s.monitors[m].enabled = true ∧ s.monitors[m].content.screen = i ∧ s.monitors[m].state ≠ .off ∧
        s.monitors[m].state ≠ .suspended then
      (s.evaluate s.monitors[m]).1
    else s.monitors[m] := by
  rw [evaluated_get]
  exact if_congr evaluatedOn_iff rfl rfl

/-- Settles O32: each part is one of the lemmas above, and an update is `evaluateMonitors_eq`. -/
theorem monitorsMoveByTheTables : Obligations.MonitorsMoveByTheTables := by
  refine ⟨fun s c => ⟨reading_off, fun on => ⟨fun k => reading_input on, fun o => reading_output on,
      fun o => reading_unused on, reading_sum on⟩⟩, conditionHolds_iff,
    fun m now l => ⟨move_clear_false now l, move_clear_true now l, move_pending_false now l, move_pending_true now l,
      move_raised_true now l, move_raised_false now l, move_releasing_true now l, move_releasing_false now l,
      move_latched now l⟩, fun i s noStop rest => ?_, fun i s => ?_⟩
  · have reports := evaluateMonitors_recordsStand (i := i) noStop rest
    have monitors : (evaluateMonitors i s).monitors = (evaluated i s).monitors :=
      reports.monitors.trans (deriveMonitors_monitors ..)
    have stand := (derived_tablesStand i s).trans reports.toTablesStand
    refine ⟨fun m => ?_, ?_, stand.house, stand.formats, stand.eq, stand.run, stand.cueLists, stand.links,
      stand.timers, stand.held, stand.lines⟩
    · rw [monitors]
      exact evaluated_monitor i s m
    · rw [reports.screens, monitors]
      unfold evaluated
      rfl
  · extract_lets evaluates moved follow
    refine ⟨(evaluated i s).monitors, s.monitorEvents i,
      fun m => ⟨fun evaluates => (evaluated_monitor i s m).trans (if_pos evaluates),
        fun skips => (evaluated_monitor i s m).trans (if_neg skips)⟩, monitorEvents_ascend s i,
      fun m e => mem_monitorEvents.trans (and_congr_left' evaluatedOn_iff), ?_⟩
    have reports : follow = reportEvent := by
      funext u ⟨m, e⟩
      cases e <;> rfl
    rw [reports, evaluateMonitors_eq]
    refine ⟨fun raised => ?_, fun quiet => ?_⟩
    · rw [if_pos (any_raisesHouseStop.mpr raised)]
      rfl
    · rw [if_neg fun raised => quiet (any_raisesHouseStop.mp raised)]
      rfl

end Sys2Proof.Machine
end

section
/-!
PROOF. MONITOR_ENABLE, MONITOR_DISABLE, MONITOR_ACK and MONITOR_STATUS (R103, R107, R113 to R116): the payload names the
monitor, the check follows from its flags and state, and the effect is one write with what is derived from it.
-/

namespace Sys2Proof.Machine

section Commands
variable {c : Command} {s : State} {k : Fin 48}

theorem readMonitorIndex_eq {rest : List Byte} (payload : c.payload = byteOf k.val :: rest) :
    readMonitorIndex c = some k := readIndex_byteOf (by decide) payload

theorem lengthOne_of_single {b : Byte} (payload : c.payload = [b]) : (c.payload.length == 1) = true := by
  rw [payload]
  rfl

/-! ### MONITOR_ENABLE and MONITOR_DISABLE (R103) -/

theorem cmdMonitorEnable_answers (selector : c.selector = 14#8) (payload : c.payload = [byteOf k.val])
    (loaded : s.monitors[k].loaded = true) : cmdMonitorEnable c s =
      (if s.monitors[k].enabled then s
        else deriveMonitors s.monitors[k].content.screen
          (s.onMonitor k fun m => m.enable s.screens[m.content.screen].state), ⟨.ok, 0#8, []⟩) := by
  have index := readMonitorIndex_eq payload
  refine (unitCommand_answers (lengthOne_of_single payload) selector ?_).trans ?_
  · simp only [checkMonitorEnable, index, loaded, if_true]
  · simp only [effectMonitorEnable, index]
    split <;> rfl

theorem cmdMonitorEnable_refused (selector : c.selector = 14#8) (payload : c.payload = [byteOf k.val])
    (empty : s.monitors[k].loaded = false) : cmdMonitorEnable c s = (s, ⟨.badState, 0#8, []⟩) := by
  rw [cmdMonitorEnable, lengthOne_of_single payload]
  refine unitCommand_refused selector ?_
  simp only [checkMonitorEnable, readMonitorIndex_eq payload, empty, Bool.false_eq_true, if_false]

theorem cmdMonitorDisable_answers (selector : c.selector = 14#8) (payload : c.payload = [byteOf k.val]) :
    cmdMonitorDisable c s =
      (if s.monitors[k].enabled then
          deriveMonitors s.monitors[k].content.screen (s.onMonitor k Monitor.disable)
        else s, ⟨.ok, 0#8, []⟩) := by
  have index := readMonitorIndex_eq payload
  refine (unitCommand_answers (lengthOne_of_single payload) selector ?_).trans ?_
  · simp only [checkMonitorIndex, index, Option.isNone_some, Bool.false_eq_true, if_false]
  · simp only [effectMonitorDisable, index]
    split <;> rfl

/-! ### MONITOR_ACK (R107) -/

theorem cmdMonitorAck_answers (selector : c.selector = 14#8) (payload : c.payload = [byteOf k.val])
    (latched : s.monitors[k].state = .latched) : cmdMonitorAck c s = (acknowledge k s, ⟨.ok, 0#8, []⟩) := by
  have index := readMonitorIndex_eq payload
  refine (unitCommand_answers (lengthOne_of_single payload) selector ?_).trans ?_
  · simp only [checkMonitorAck, index, latched, if_true]
  · simp only [effectMonitorAck, index]

theorem cmdMonitorAck_refused (selector : c.selector = 14#8) (payload : c.payload = [byteOf k.val])
    (other : s.monitors[k].state ≠ .latched) : cmdMonitorAck c s = (s, ⟨.badState, 0#8, []⟩) := by
  rw [cmdMonitorAck, lengthOne_of_single payload]
  refine unitCommand_refused selector ?_
  simp only [checkMonitorAck, readMonitorIndex_eq payload, other, if_false]

/-- An acknowledged monitor is cleared, and then its notice and its trigger follow (R113, R114). -/
theorem acknowledge_eq (k : Fin 48) (s : State) :
    let cleared := deriveMonitors s.monitors[k].content.screen
      (s.onMonitor k fun m => { m with state := .clear, mark := none })
    acknowledge k s = occurs (.monitorCleared k) (if s.monitors[k].content.notify then
        file (some s.monitors[k].content.screen) (.monitorCleared k true (s.reading s.monitors[k].content)) cleared
      else cleared) := by
  intro cleared
  have content : cleared.monitors[k].content = s.monitors[k].content := by
    rw [deriveMonitors_monitors, State.onMonitor_get, if_pos rfl]
  have reports : acknowledge k s =
      reportEvent cleared (k, .cleared true (s.reading s.monitors[k].content)) := rfl
  simp only [reports, reportEvent, MonitorEvent.trigger, MonitorEvent.notice, content]

/-! ### MONITOR_STATUS with its clear flag (R115, R116) -/

theorem cmdMonitorStatus_clears {monitors : List (Fin 48)} (selector : c.selector = 14#8)
    (length : c.payload.length = 2) (clears : c.byte 1 = 1#8) (names : readMonitors c = some monitors) :
    cmdMonitorStatus c s = (monitors.foldl (fun s k => s.onMonitor k Monitor.clearTrip) s,
      ⟨.ok, 0#8, monitors.flatMap fun k => monitorBytes s s.monitors[k]⟩) := by
  have flag : readFlag (c.byte 1) = some true := by rw [clears]; rfl
  refine (unitCommand_answers (by rw [length]; rfl) selector ?_).trans ?_
  · simp [checkMonitorStatus, names, flag, firstFailure]
  · simp [effectMonitorStatus, names, flag]

theorem foldl_onMonitor (monitors : List (Fin 48)) (f : Monitor → Monitor) (s : State) :
    monitors.foldl (fun s k => s.onMonitor k f) s =
      { s with monitors := monitors.foldl (fun v k => modifyAt v k f) s.monitors } := by
  induction monitors generalizing s with
  | nil => rfl
  | cons k rest ih => exact ih _

/-- The same change of every monitor. -/
theorem foldl_onMonitor_indexes (f : Monitor → Monitor) (s : State) :
    (indexes 48).foldl (fun s k => s.onMonitor k f) s = { s with monitors := s.monitors.map f } := by
  rw [foldl_onMonitor, ← mapAt_eq_map]
  rfl

end Commands

/-- Settles O31: each command's body answers as its monitor's flags and state say. -/
theorem monitorCommandsChangeTheirMonitorAlone : Obligations.MonitorCommandsChangeTheirMonitorAlone := by
  refine ⟨fun k a s can none payload => ⟨fun loaded off => ?_, fun loaded on => ?_, fun empty => ?_, fun on => ?_,
      fun off => ?_⟩, fun k a s can none payload => ⟨fun latched => ?_, fun other => ?_⟩,
    fun a s can none => ⟨fun k payload => ?_, fun payload => ?_, fun k payload => ?_⟩⟩
  · have answers := cmdMonitorEnable_answers (c := commandOf 81#8 a) none payload loaded
    rw [if_neg (Bool.eq_false_iff.mp off)] at answers
    exact congrArg _ (commandRow_answers can answers)
  · have answers := cmdMonitorEnable_answers (c := commandOf 81#8 a) none payload loaded
    rw [if_pos on] at answers
    exact congrArg _ (commandRow_answers can answers)
  · exact congrArg _ (commandRow_refuses can (cmdMonitorEnable_refused none payload empty))
  · have answers := cmdMonitorDisable_answers (c := commandOf 82#8 a) (s := s) none payload
    rw [if_pos on] at answers
    exact congrArg _ (commandRow_answers can answers)
  · have answers := cmdMonitorDisable_answers (c := commandOf 82#8 a) (s := s) none payload
    rw [if_neg (Bool.eq_false_iff.mp off)] at answers
    exact congrArg _ (commandRow_answers can answers)
  · have row := commandRow_answers can (cmdMonitorAck_answers (c := commandOf 83#8 a) none payload latched)
    rw [acknowledge_eq] at row
    exact congrArg _ row
  · exact congrArg _ (commandRow_refuses can (cmdMonitorAck_refused none payload other))
  · have row := commandRow_answers can (cmdMonitorStatus_clears (c := commandOf 84#8 a) (s := s) none
      (by rw [commandOf, payload]; rfl) (by rw [Command.byte, commandOf, payload]; rfl) (readMonitors_one payload))
    rw [List.flatMap_singleton] at row
    exact congrArg _ row
  · have row := commandRow_answers can (cmdMonitorStatus_clears (c := commandOf 84#8 a) (s := s) none
      (by rw [commandOf, payload]; rfl) (by rw [Command.byte, commandOf, payload]; rfl) (readMonitors_all payload))
    rw [indexes_flatMap, foldl_onMonitor_indexes] at row
    exact congrArg _ row
  · have row := commandRow_answers can (cmdMonitorStatus_answers (c := commandOf 84#8 a) (s := s) none
      (by rw [commandOf, payload]; rfl) (by rw [Command.byte, commandOf, payload]; rfl) (readMonitors_one payload))
    rw [List.flatMap_singleton] at row
    exact congrArg _ row

end Sys2Proof.Machine
end

section
/-!
PROOF. MONITOR_LOAD (R99 to R102, R183): each field of the payload reads back from the bits that its code uses, whatever
stands in the others, so the checks pass and the entry is replaced.
-/

namespace Sys2Proof.Machine

/-! ### Payloads that agree in the bits read (R183) -/

theorem readAlike_byte {mask p q : List Byte} (alike : readAlike mask p q) (n : Nat) :
    p.getD n 0#8 &&& mask.getD n 0#8 = q.getD n 0#8 &&& mask.getD n 0#8 := by
  have masked (l : List Byte) : (l.zipWith (· &&& ·) mask).getD n 0#8 = l.getD n 0#8 &&& mask.getD n 0#8 := by
    rw [List.getD_eq_getElem?_getD, List.getD_eq_getElem?_getD, List.getD_eq_getElem?_getD, List.getElem?_zipWith]
    cases l[n]? <;> cases mask[n]? <;> simp
  rw [← masked p, ← masked q, alike.2]

/-- A byte that is read whole is the byte written. -/
theorem readAlike_whole {mask p q : List Byte} (alike : readAlike mask p q) {n : Nat}
    (whole : mask.getD n 0#8 = 255#8) : p.getD n 0#8 = q.getD n 0#8 := by
  have same := readAlike_byte alike n
  have all (b : Byte) : b &&& 255#8 = b := BitVec.and_allOnes
  rwa [whole, all, all] at same

/-- So is the highest bit of a byte where that bit is read. -/
theorem readAlike_msb {mask p q : List Byte} (alike : readAlike mask p q) {n : Nat}
    (high : (mask.getD n 0#8).msb = true) : (p.getD n 0#8).msb = (q.getD n 0#8).msb := by
  have same := congrArg BitVec.msb (readAlike_byte alike n)
  rwa [BitVec.msb_and, BitVec.msb_and, high, Bool.and_true, Bool.and_true] at same

/-! ### The layout of the payload (section 11.4) -/

/-- The code of a point. -/
def MonitorPoint.kindByte : MonitorPoint → Byte
  | .input _ => 0#8
  | .output _ => 1#8
  | .sum => 2#8

/-- The channel of a point, 0 for SUM. -/
def MonitorPoint.channelByte : MonitorPoint → Byte
  | .input k => byteOf k.val
  | .output k => byteOf k.val
  | .sum => 0#8

/-- The twenty bytes of MONITOR_LOAD, one by one. -/
def monitorPayload (k : Fin 48) (x : MonitorContent) : List Byte :=
  [byteOf k.val, byteOf x.screen.val, x.point.kindByte, x.point.channelByte, byteOf x.measure.code,
    byteOf x.condition.code, 0#8] ++ signed2 x.a ++ signed2 x.b ++ [indexByte x.partner] ++ bytes2 x.holdMs ++
    bytes2 x.releaseMs ++ [flagByte x.latch, byteOf x.watch.bits, byteOf x.action.codes.1,
    byteOf (x.action.codes.2 + 128 * x.notify.toNat)]

theorem monitorPayload_eq (k : Fin 48) (x : MonitorContent) : byteOf k.val :: x.bytes = monitorPayload k x := by
  have point : x.point.bytes = [x.point.kindByte, x.point.channelByte] := by cases x.point <;> rfl
  rw [MonitorContent.bytes, point]
  rfl

/-! ### What the admitted contents have in common -/

theorem readWatchSet_bits {w : WatchSet} (nonempty : w ≠ ⟨false, false, false⟩) :
    readWatchSet (byteOf w.bits) = some w := by
  obtain ⟨dark, inShow, stopped⟩ := w
  revert nonempty
  cases dark <;> cases inShow <;> cases stopped <;> decide

section Admitted
variable {x : MonitorContent} {s : State} {k : Fin 48} (ok : x.ok s k)
include ok

theorem admitted_a : -240 ≤ x.a ∧ x.a ≤ 240 := by
  obtain ⟨ranges, -⟩ := ok
  have top : (0 : Int) ≤ 240 := by decide
  have bottom : (-240 : Int) ≤ 1 := by decide
  cases condition : x.condition <;> rw [condition] at ranges
  case above => exact ⟨ranges.1, ranges.2.1.trans top⟩
  case below => exact ⟨ranges.1, ranges.2.1.trans top⟩
  case outside =>
    obtain ⟨low, between, high, -⟩ := ranges
    exact ⟨low, (between.le.trans high).trans top⟩
  case inside =>
    obtain ⟨low, between, high, -⟩ := ranges
    exact ⟨low, (between.trans high).trans top⟩
  case jump => exact ⟨bottom.trans ranges.1, ranges.2.1⟩
  case track => exact ⟨bottom.trans ranges.1, ranges.2.1⟩

theorem admitted_partner (untracked : x.condition ≠ .track) : x.partner = none := by
  obtain ⟨ranges, -⟩ := ok
  cases condition : x.condition <;> rw [condition] at ranges
  case track => exact absurd condition untracked
  all_goals
    obtain ⟨-, -, -, absent⟩ := ranges
    exact absent

theorem admitted_ceiling : x.action.codes.2 ≤ 100 := by
  obtain ⟨-, -, -, -, -, most⟩ := ok
  cases action : x.action with
  | faderCeiling v => exact most v action
  | _ => exact Nat.zero_le _

end Admitted

/-! ### The fields read back -/

section Fields
variable {c : Command} {s : State} {k : Fin 48} {x : MonitorContent}
  (alike : readAlike x.readMask c.payload (monitorPayload k x))
include alike

theorem byte_of_alike {n : Nat} (whole : x.readMask.getD n 0#8 = 255#8) :
    c.byte n = (monitorPayload k x).getD n 0#8 := readAlike_whole alike whole

theorem monitorIndex_reads : readMonitorIndex c = some k := by
  rw [readMonitorIndex, byte_of_alike alike (n := 0) rfl]
  exact readIndex_ofNat (by decide) k

theorem monitorScreen_reads : readIndex 8 (c.byte 1) = some x.screen := by
  rw [byte_of_alike alike rfl]
  exact readIndex_ofNat (by decide) x.screen

theorem monitorKind_reads : c.byte 2 = x.point.kindByte := byte_of_alike alike rfl

theorem monitorChannel_reads (read : x.point ≠ .sum) : c.byte 3 = x.point.channelByte :=
  byte_of_alike alike (if_neg read)

theorem monitorPoint_reads : readPoint (c.byte 2) (c.byte 3) = some x.point := by
  rw [monitorKind_reads alike]
  cases point : x.point with
  | input i =>
    rw [monitorChannel_reads alike (by rw [point]; nofun), point]
    exact congrArg (Option.map MonitorPoint.input) (readIndex_ofNat (by decide) i)
  | output o =>
    rw [monitorChannel_reads alike (by rw [point]; nofun), point]
    exact congrArg (Option.map MonitorPoint.output) (readIndex_ofNat (by decide) o)
  | sum => rfl

theorem monitorMeasure_reads : readCode [.peak, .short, .long] (c.byte 4) = some x.measure := by
  rw [byte_of_alike alike rfl]
  show readCode _ (byteOf x.measure.code) = _
  cases x.measure <;> rfl

theorem monitorCondition_reads : readCode conditions (c.byte 5) = some x.condition := by
  rw [byte_of_alike alike rfl]
  show readCode _ (byteOf x.condition.code) = _
  cases x.condition <;> rfl

theorem monitorA_reads (ok : x.ok s k) : c.int2 7 = x.a := by
  obtain ⟨low, high⟩ := admitted_a ok
  rw [Command.int2, byte_of_alike alike (n := 7) rfl, byte_of_alike alike (n := 7 + 1) rfl]
  exact signedPair_signed2 (le_trans (by decide) low) (lt_of_le_of_lt high (by decide))

theorem monitorB_reads (read : x.condition = .outside ∨ x.condition = .inside) (low : -240 ≤ x.b) (high : x.b ≤ 0) :
    c.int2 9 = x.b := by
  rw [Command.int2, byte_of_alike alike (n := 9) (if_pos read), byte_of_alike alike (n := 9 + 1) (if_pos read)]
  exact signedPair_signed2 (le_trans (by decide) low) (lt_of_le_of_lt high (by decide))

theorem monitorThresholds_read (ok : x.ok s k) :
    readThresholds x.condition (c.int2 7) (c.int2 9) = some (x.a, x.b) := by
  rw [monitorA_reads alike ok]
  obtain ⟨ranges, -⟩ := ok
  cases condition : x.condition <;> rw [condition] at ranges
  case outside =>
    obtain ⟨low, between, high, -⟩ := ranges
    rw [monitorB_reads alike (.inl condition) (low.trans between.le) high]
    simp [readThresholds, low, high, between, between.le.trans high, low.trans between.le]
  case inside =>
    obtain ⟨low, between, high, -⟩ := ranges
    rw [monitorB_reads alike (.inr condition) (low.trans between) high]
    simp [readThresholds, low, high, between, between.trans high, low.trans between]
  all_goals
    obtain ⟨low, high, unused, -⟩ := ranges
    simp [readThresholds, low, high, unused]

theorem monitorPartner_reads (ok : x.ok s k) :
    readPartner s k x.screen x.condition (c.byte 11) = some x.partner := by
  by_cases tracks : x.condition = .track
  · obtain ⟨ranges, -⟩ := ok
    rw [tracks] at ranges
    obtain ⟨-, -, -, p, partner, other, loaded, screen⟩ := ranges
    have read : x.readMask.getD 11 0#8 = 255#8 := if_pos tracks
    have index : readIndex 48 (c.byte 11) = some p := by
      rw [byte_of_alike alike read]
      exact (congrArg (fun i => readIndex 48 (indexByte i)) partner).trans (readIndex_ofNat (by decide) p)
    rw [readPartner, if_pos tracks, index, partner]
    exact if_pos ⟨other, loaded, screen⟩
  · rw [readPartner, if_neg tracks, admitted_partner ok tracks]

theorem monitorHold_reads (most : x.holdMs ≤ 60000) : readRange 0 60000 (c.num2 12) = some x.holdMs := by
  have number : c.num2 12 = x.holdMs := by
    rw [Command.num2, byte_of_alike alike (n := 12) rfl, byte_of_alike alike (n := 12 + 1) rfl]
    exact nat2_bytes2 (by omega)
  rw [number, readRange_eq_some (Nat.zero_le _) most]

theorem monitorRelease_reads (most : x.releaseMs ≤ 60000) : readRange 0 60000 (c.num2 14) = some x.releaseMs := by
  have number : c.num2 14 = x.releaseMs := by
    rw [Command.num2, byte_of_alike alike (n := 14) rfl, byte_of_alike alike (n := 14 + 1) rfl]
    exact nat2_bytes2 (by omega)
  rw [number, readRange_eq_some (Nat.zero_le _) most]

theorem monitorLatch_reads : readFlag (c.byte 16) = some x.latch := by
  rw [byte_of_alike alike rfl]
  exact readFlag_flagByte x.latch

theorem monitorWatch_reads (nonempty : x.watch ≠ ⟨false, false, false⟩) : readWatchSet (c.byte 17) = some x.watch := by
  rw [byte_of_alike alike rfl]
  exact readWatchSet_bits nonempty

theorem monitorNotify_reads (ok : x.ok s k) : decide (128 ≤ c.num 19) = x.notify := by
  have high : (x.readMask.getD 19 0#8).msb = true := by
    show (if x.action.codes.1 = 3 then 255#8 else 128#8 : Byte).msb = true
    split <;> rfl
  have written : (byteOf (x.action.codes.2 + 128 * x.notify.toNat)).msb = x.notify := by
    have ceiling := admitted_ceiling ok
    have bit := Bool.toNat_le x.notify
    rw [BitVec.msb_eq_decide, byteOf, toNat_ofNat_byte (by omega)]
    cases x.notify with
    | false => simp; omega
    | true => simp
  calc decide (128 ≤ c.num 19) = (c.byte 19).msb := by rw [BitVec.msb_eq_decide]; rfl
    _ = ((monitorPayload k x).getD 19 0#8).msb := readAlike_msb alike high
    _ = x.notify := written

/-- The ceiling stands in the low bits of the last byte, which are read for FADER_CEILING (R183). -/
theorem monitorCeiling_reads {v : Nat} (action : x.action = .faderCeiling v) (most : v ≤ 100) :
    (c.byte 19).toNat % 128 = v := by
  have read : x.readMask.getD 19 0#8 = 255#8 := if_pos (by rw [action]; rfl)
  have ceiling : v = x.action.codes.2 := by rw [action]; rfl
  have written : (monitorPayload k x).getD 19 0#8 = byteOf (v + 128 * x.notify.toNat) := by
    rw [ceiling]
    rfl
  have bit := Bool.toNat_le x.notify
  rw [byte_of_alike alike read, written, byteOf, toNat_ofNat_byte (by omega)]
  omega

theorem monitorAction_reads (ok : x.ok s k) :
    readMonitorAction (c.byte 18) (c.byte 19) x.point = some x.action := by
  have code : c.byte 18 = byteOf x.action.codes.1 := byte_of_alike alike rfl
  rw [code]
  obtain ⟨-, -, -, -, muted, most⟩ := ok
  cases action : x.action with
  | none => rfl
  | muteChannel =>
    obtain ⟨o, point⟩ := muted action
    rw [point]
    rfl
  | muteScreen => rfl
  | faderCeiling v =>
    show (readRange 0 100 ((c.byte 19).toNat % 128)).map MonitorAction.faderCeiling = _
    rw [monitorCeiling_reads alike action (most v action), readRange_eq_some (Nat.zero_le _) (most v action)]
    rfl
  | houseStop => rfl

theorem readMonitor_reads (ok : x.ok s k) : readMonitor s k c = some x := by
  obtain ⟨-, hold, release, watch, -⟩ := id ok
  simp only [readMonitor, monitorScreen_reads alike, monitorPoint_reads alike, monitorMeasure_reads alike,
    monitorCondition_reads alike, monitorThresholds_read alike ok, monitorPartner_reads alike ok,
    monitorHold_reads alike hold, monitorRelease_reads alike release, monitorLatch_reads alike,
    monitorWatch_reads alike watch, monitorAction_reads alike ok, monitorNotify_reads alike ok,
    Option.bind_eq_bind, Option.bind_some]
  rfl

/-! ### The command (R102) -/

theorem monitorPayload_length : (c.payload.length == 20) = true := beq_iff_eq.mpr alike.1

/-- The checks of an admitted content come to the enabled flag alone. -/
theorem checkMonitorLoad_eq (ok : x.ok s k) :
    checkMonitorLoad c s = if s.monitors[k].enabled then some .inUse else none := by
  have kind : decide (2 < c.num 2) = false := by
    rw [Command.num, monitorKind_reads alike]
    cases x.point <;> rfl
  simp only [checkMonitorLoad, monitorIndex_reads alike, readMonitor_reads alike ok, kind]
  cases s.monitors[k].enabled <;> rfl

theorem cmdMonitorLoad_answers (selector : c.selector = 14#8) (ok : x.ok s k)
    (disabled : s.monitors[k].enabled = false) : cmdMonitorLoad c s =
      (deriveMonitors x.screen (s.onMonitor k fun _ => loadedMonitor x), ⟨.ok, 0#8, []⟩) := by
  refine (unitCommand_answers (monitorPayload_length alike) selector ?_).trans ?_
  · rw [checkMonitorLoad_eq alike ok, disabled]
    rfl
  · simp only [effectMonitorLoad, monitorIndex_reads alike, readMonitor_reads alike ok]

theorem cmdMonitorLoad_refused (selector : c.selector = 14#8) (ok : x.ok s k)
    (enabled : s.monitors[k].enabled = true) : cmdMonitorLoad c s = (s, ⟨.inUse, 0#8, []⟩) := by
  rw [cmdMonitorLoad, monitorPayload_length alike]
  refine unitCommand_refused selector ?_
  rw [checkMonitorLoad_eq alike ok, enabled]
  rfl

end Fields

/-- Settles O30: every field reads back, so the enabled flag alone decides the answer. -/
theorem monitorLoadStoresEveryAdmittedContent : Obligations.MonitorLoadStoresEveryAdmittedContent := by
  intro k a s x can none alike ok
  rw [monitorPayload_eq] at alike
  exact ⟨fun disabled => congrArg _ (commandRow_answers can
      (cmdMonitorLoad_answers (c := commandOf 80#8 a) alike none ok disabled)),
    fun enabled => congrArg _ (commandRow_refuses can
      (cmdMonitorLoad_refused (c := commandOf 80#8 a) alike none ok enabled))⟩

end Sys2Proof.Machine
end

section
/-!
PROOF. The cue cursors, the held list and the house stop (R122, R125, R136, R143, R145): what the three invariants read
of the unit, the changes that move it (a cue list that is placed again, a change of the controller, the held list), and
every step as a sequence of these.
-/

namespace Sys2Proof.Machine

/-! ### The first entry past a position (R125) -/

/-- A condition that the entries of a list lose once and for all: those that meet it are the first ones. -/
theorem lt_takeWhile_length_iff {α : Type} {R : α → α → Prop} {p : α → Bool}
    (downward : ∀ x y, R x y → p y = true → p x = true) {l : List α} (ordered : l.Pairwise R) {k : Nat} {x : α}
    (stands : l[k]? = some x) : k < (l.takeWhile p).length ↔ p x = true := by
  induction l generalizing k with
  | nil => simp at stands
  | cons y rest ih =>
    obtain ⟨before, ordered⟩ := List.pairwise_cons.mp ordered
    cases k with
    | zero =>
      obtain rfl : y = x := Option.some_inj.mp stands
      cases met : p y <;> simp [List.takeWhile, met]
    | succ k =>
      rw [List.getElem?_cons_succ] at stands
      cases met : p y with
      | true => simp [List.takeWhile, met, ih ordered stands]
      | false =>
        have lost : p x = false := Bool.eq_false_iff.mpr fun also =>
          Bool.false_ne_true (met ▸ downward y x (before x (List.mem_of_getElem? stands)) also)
        simp [List.takeWhile, met, lost]

theorem firstWhere_le (l : CueList) (p : CueEntry → Bool) : l.firstWhere p ≤ l.entries.length :=
  (List.takeWhile_prefix _).length_le

/-- The first entry that meets a condition which the later ones then meet too. -/
theorem lt_firstWhere_iff {l : CueList} {p : CueEntry → Bool} (order : cueOrder l.entries)
    (upward : ∀ x y : CueEntry, x.position < y.position → p x = true → p y = true) {k : Nat} {e : CueEntry}
    (stands : l.entries[k]? = some e) : k < l.firstWhere p ↔ p e = false := by
  have downward (x y : CueEntry) (rises : x.position < y.position) (met : (!p y) = true) : (!p x) = true := by
    cases early : p x with
    | false => rfl
    | true => rw [upward x y rises early] at met; exact met
  rw [CueList.firstWhere, lt_takeWhile_length_iff downward order.1 stands, Bool.not_eq_true']

/-- The cursor of a list stands where R125 places it after a last position. -/
def CueList.CursorStands (l : CueList) : Option Word → Prop
  | none => l.cursor = 0
  | some q => l.cursor ≤ l.entries.length ∧
      ∀ (k : Nat) (e : CueEntry), l.entries[k]? = some e → (k < l.cursor ↔ e.position ≤ q)

theorem cursorFor_stands {l : CueList} (order : cueOrder l.entries) (last : Option Word) :
    (CueList.mk l.entries (l.cursorFor last)).CursorStands last := by
  cases last with
  | none => rfl
  | some q =>
    refine ⟨firstWhere_le l _, fun k e stands => ?_⟩
    have upward (x y : CueEntry) (rises : x.position < y.position) (past : decide (q < x.position) = true) :
        decide (q < y.position) = true := decide_eq_true (BitVec.lt_trans (of_decide_eq_true past) rises)
    show k < l.firstWhere (fun e => decide (q < e.position)) ↔ e.position ≤ q
    rw [lt_firstWhere_iff order upward stands, decide_eq_false_iff_not, BitVec.not_lt]

/-- A cue list that rises strictly within its capacity, with its cursor after a last position (R122, R125). -/
structure CueList.StandsAt (l : CueList) (last : Option Word) : Prop where
  order : cueOrder l.entries
  room : l.entries.length ≤ 64
  cursor : l.CursorStands last

theorem standsAt_start {l : CueList} {last : Option Word} (stands : l.StandsAt last) : l.atStart.StandsAt none :=
  ⟨stands.order, stands.room, rfl⟩

theorem standsAt_empty (last : Option Word) : emptyCueList.StandsAt last := by
  refine ⟨⟨.nil, nofun⟩, Nat.zero_le _, ?_⟩
  cases last with
  | none => rfl
  | some q => exact ⟨Nat.zero_le _, nofun⟩

/-! ### What the invariants read -/

/-- What the house stop reads of the controller (R143, R145). -/
def House.stand (h : House) : SourceSet × Bool × Bool × Bool × Bool :=
  (h.set, h.lineInput, h.lineOutput, h.drive, h.hstopSensed)

/-- The drive, LINE and BOOTH_INPUT of a controller hold under their conditions (R143, R145). -/
structure House.Settled (h : House) (booth : Bool) : Prop where
  drive : h.drive = true ↔ h.lineOutput = true ∧
    (h.set.command = true ∨ h.set.monitor = true ∨ h.set.cue = true ∨ h.set.boothInput = true)
  line : h.set.line = true ↔ h.lineInput = true ∧ h.hstopSensed = true ∧ h.drive = false
  boothInput : h.set.boothInput = booth

theorem settled_of_stand {h k : House} {booth : Bool} (same : h.stand = k.stand) (settled : k.Settled booth) :
    h.Settled booth := by
  simp only [House.stand, Prod.mk.injEq] at same
  obtain ⟨set, lineInput, lineOutput, drive, sensed⟩ := same
  exact ⟨by rw [drive, lineOutput, set]; exact settled.drive,
    by rw [set, lineInput, sensed, drive]; exact settled.line, by rw [set]; exact settled.boothInput⟩

/-- A controller is settled by what R143 and R145 judge after each change. -/
theorem settle_settled {h : House} {booth : Bool} (judged : h.set.boothInput = booth) (now : Word) :
    (h.settle now).Settled booth := ⟨settle_drive h now, settle_line h now, judged⟩

theorem houseReset_settled (h : House) (booth : Bool) : (h.reset booth).Settled booth := by
  refine ⟨?_, ?_, rfl⟩
  · simp [House.reset, noSources]
  · simp [House.reset, and_assoc, imp_iff_not_or]

theorem powerOnHouse_settled (hstop go : Bool) : (powerOnHouse hstop go).Settled false := by
  refine ⟨?_, ?_, rfl⟩
  · simp [powerOnHouse, noSources]
  · simp [powerOnHouse]

theorem houseIsSettled_iff {s : State} :
    s.houseIsSettled ↔ (s.inReset = false → s.house.Settled s.boothInputActive) := by
  refine ⟨fun holds runs => ?_, fun holds runs => ?_⟩
  · obtain ⟨drive, line, booth⟩ := holds runs
    exact ⟨drive, line, Bool.eq_iff_iff.mpr (booth.trans (boothInputActive_iff s).symm)⟩
  · have settled := holds runs
    exact ⟨settled.drive, settled.line, by rw [settled.boothInput, boothInputActive_iff]⟩

/-- What the cursors, the held list and the house stop read of the unit. -/
structure Cueing where
  inReset : Bool
  lists : Vector CueList 8
  last : Fin 8 → Option Word
  held : List HeldAction
  house : SourceSet × Bool × Bool × Bool × Bool
  booth : Bool

/-- That of a state. -/
def State.cueing (s : State) : Cueing :=
  ⟨s.inReset, s.cueLists, fun i => s.screens[i].lastPosition, s.held, s.house.stand, s.boothInputActive⟩

/-- The list of screen `i` stands where its last position asks. -/
abbrev Cueing.ListStands (c : Cueing) (i : Fin 8) : Prop := c.lists[i].StandsAt (c.last i)

theorem cursorsStandRight_iff {s : State} : s.cursorsStandRight ↔ ∀ i : Fin 8, s.cueing.ListStands i := by
  have last (i : Fin 8) : (match s.screens[i].lastPosition with
      | none => s.cueLists[i].cursor = 0
      | some q => s.cueLists[i].cursor ≤ s.cueLists[i].entries.length ∧
          ∀ (k : Nat) (e : CueEntry), s.cueLists[i].entries[k]? = some e →
            (k < s.cueLists[i].cursor ↔ e.position ≤ q)) ↔
      s.cueLists[i].CursorStands s.screens[i].lastPosition := by
    cases s.screens[i].lastPosition <;> exact Iff.rfl
  exact ⟨fun holds i => ⟨(holds i).1, (holds i).2.1, (last i).mp (holds i).2.2⟩,
    fun holds i => ⟨(holds i).order, (holds i).room, (last i).mpr (holds i).cursor⟩⟩

theorem stopActive_of_stand {s t : State} (same : t.house.stand = s.house.stand) : t.stopActive = s.stopActive := by
  rw [State.stopActive, State.stopActive, show t.house.set = s.house.set from congrArg Prod.fst same]

/-! ### Keeping the invariants -/

/-- The cursors, the house stop and the held list are kept, each by itself. -/
structure KeepsCueing (s t : State) : Prop where
  cursors : s.cursorsStandRight → t.cursorsStandRight
  house : s.houseIsSettled → t.houseIsSettled
  held : s.nothingIsHeldInAStop → t.nothingIsHeldInAStop

namespace KeepsCueing

theorem refl (s : State) : KeepsCueing s s := ⟨id, id, id⟩

theorem trans {s t u : State} (first : KeepsCueing s t) (second : KeepsCueing t u) : KeepsCueing s u :=
  ⟨second.cursors ∘ first.cursors, second.house ∘ first.house, second.held ∘ first.held⟩

/-- The cue lists are placed again and the held list changes; the controller and what it reads stand. -/
theorem lists {s t : State} (part : t.cueing = { s.cueing with
      lists := t.cueLists, last := t.cueing.last, held := t.held })
    (stands : ∀ i, s.cueing.ListStands i → t.cueing.ListStands i)
    (held : s.stopActive = true → s.held = [] → t.held = []) : KeepsCueing s t := by
  simp only [State.cueing, Cueing.mk.injEq, true_and] at part
  obtain ⟨reset, house, booth⟩ := part
  refine ⟨fun holds => ?_, fun holds => ?_, fun holds stop => ?_⟩
  · exact cursorsStandRight_iff.mpr fun i => stands i (cursorsStandRight_iff.mp holds i)
  · rw [houseIsSettled_iff] at holds ⊢
    rw [reset, booth]
    exact fun runs => settled_of_stand house (holds runs)
  · rw [stopActive_of_stand house] at stop
    exact held stop (holds stop)

/-- Whatever leaves all three. -/
theorem silent {s t : State} (same : t.cueing = s.cueing) : KeepsCueing s t := by
  refine lists ?_ (fun i holds => ?_) fun _ empty => ?_
  · simp only [State.cueing, Cueing.mk.injEq] at same ⊢
    simp [same]
  · rw [same]; exact holds
  · exact (congrArg Cueing.held same).trans empty

/-- A part of an event after a change that leaves them. -/
theorem after {s t u : State} (rest : KeepsCueing t u) (same : t.cueing = s.cueing) : KeepsCueing s u :=
  (silent same).trans rest

/-- A part of an event before one. -/
theorem before {s t u : State} (first : KeepsCueing s t) (same : u.cueing = t.cueing) : KeepsCueing s u :=
  first.trans (silent same)

/-- A part of an event under a condition. -/
theorem ite {s t : State} {p : Prop} [Decidable p] (part : KeepsCueing s t) : KeepsCueing s (if p then t else s) := by
  split
  · exact part
  · exact refl s

/-- A fold of parts of an event is one. -/
theorem foldl {α : Type} {f : State → α → State} (each : ∀ s x, KeepsCueing s (f s x)) (l : List α) (s : State) :
    KeepsCueing s (l.foldl f s) := by
  induction l generalizing s with
  | nil => exact refl s
  | cons x rest ih => exact (each s x).trans (ih _)

/-- The held list is emptied (R137, R138). -/
theorem dropsHeld {s t : State} (part : t.cueing = { s.cueing with held := [] }) : KeepsCueing s t := by
  refine lists ?_ (fun i holds => ?_) fun _ _ => congrArg Cueing.held part
  · simp only [State.cueing, Cueing.mk.injEq] at part ⊢
    simp [part]
  · rw [part]; exact holds

/-- An action is held while no house stop is in force (R136). -/
theorem holds {s t : State} {held : List HeldAction} (calm : s.stopActive = false)
    (part : t.cueing = { s.cueing with held := held }) : KeepsCueing s t := by
  refine lists ?_ (fun i holds => ?_) fun stop => absurd stop (Bool.eq_false_iff.mp calm)
  · simp only [State.cueing, Cueing.mk.injEq] at part ⊢
    simp [part]
  · rw [part]; exact holds

/-- One cue list is placed again (R123 to R126). -/
theorem places {s t : State} (i : Fin 8)
    (rest : t.inReset = s.inReset ∧ t.held = s.held ∧ t.house = s.house ∧ t.lines = s.lines)
    (others : ∀ j : Fin 8, j ≠ i → t.cueLists[j] = s.cueLists[j] ∧
      t.screens[j].lastPosition = s.screens[j].lastPosition)
    (stands : s.cueing.ListStands i → t.cueing.ListStands i) : KeepsCueing s t := by
  obtain ⟨reset, held, house, lines⟩ := rest
  refine lists ?_ (fun j holds => ?_) fun _ empty => held.trans empty
  · rw [State.cueing, reset, house, State.boothInputActive, lines]
    rfl
  · by_cases own : j = i
    · subst own; exact stands holds
    · obtain ⟨list, last⟩ := others j own
      show t.cueLists[j].StandsAt t.screens[j].lastPosition
      rw [list, last]
      exact holds

/-- A change of the controller is settled (R143, R145). A held list that stands is empty where a house stop goes on. -/
theorem settles {s u t : State} {f : House → House}
    (prepared : u.cueing = { s.cueing with booth := u.boothInputActive })
    (judged : s.houseIsSettled → u.inReset = false → (f u.house).set.boothInput = u.boothInputActive)
    (part : t.cueing = { (settled f u).cueing with held := t.held })
    (held : (settled f u).stopActive = true → (s.stopActive = true → s.held = []) → t.held = []) :
    KeepsCueing s t := by
  simp only [State.cueing, Cueing.mk.injEq] at prepared part
  obtain ⟨reset, lists, last, -, house, -⟩ := prepared
  obtain ⟨reset', lists', last', -, house', booth'⟩ := part
  refine ⟨fun holds => ?_, fun holds => ?_, fun holds stop => ?_⟩
  · rw [cursorsStandRight_iff] at holds ⊢
    intro i
    have stands := holds i
    simp only [State.cueing] at stands ⊢
    rw [lists', last']
    show u.cueLists[i].StandsAt u.screens[i].lastPosition
    rw [lists, congrFun last i]
    exact stands
  · rw [houseIsSettled_iff, booth']
    intro runs
    rw [reset'] at runs
    exact settled_of_stand house' (settle_settled (judged holds runs) _)
  · rw [stopActive_of_stand house'] at stop
    exact held stop holds

end KeepsCueing

/-! ### What leaves the cue lists, the held list and the controller -/

theorem cueing_congr {s t : State} (reset : t.inReset = s.inReset) (lists : t.cueLists = s.cueLists)
    (screens : t.screens = s.screens) (held : t.held = s.held) (house : t.house = s.house) (lines : t.lines = s.lines) :
    t.cueing = s.cueing := by
  rw [State.cueing, State.boothInputActive, reset, lists, screens, held, house, lines]
  rfl

theorem onScreen_cueing_of {s : State} {i : Fin 8} {f : Screen → Screen}
    (same : (f s.screens[i]).lastPosition = s.screens[i].lastPosition) : (s.onScreen i f).cueing = s.cueing := by
  have last : (s.onScreen i f).cueing.last = s.cueing.last := by
    funext j
    show (s.onScreen i f).screens[j].lastPosition = s.screens[j].lastPosition
    rw [State.onScreen_get]
    split
    · subst j; exact same
    · rfl
  exact congrArg (fun last => { s.cueing with last := last }) last

/-- The record of a screen holds its last position. -/
theorem onScreen_cueing_of_record {s : State} {i : Fin 8} {f : Screen → Screen}
    (same : (f s.screens[i]).record = s.screens[i].record) : (s.onScreen i f).cueing = s.cueing :=
  onScreen_cueing_of (congrArg (fun r => r.2.2.2.2) same)

/-- A booth line in STOP_INPUT mode is active (R143). -/
def BoothLine.Stops (l : BoothLine) : Prop := l.mode = .stopInput ∧ l.filtered = some true

theorem onLine_cueing_of {s : State} {l : Fin 16} {f : BoothLine → BoothLine}
    (same : (f s.lines[l]).Stops ↔ s.lines[l].Stops) : (s.onLine l f).cueing = s.cueing := by
  have booth : (s.onLine l f).boothInputActive = s.boothInputActive := by
    rw [Bool.eq_iff_iff, boothInputActive_iff, boothInputActive_iff]
    refine exists_congr fun k => ?_
    show (s.onLine l f).lines[k].Stops ↔ s.lines[k].Stops
    rw [State.onLine_get]
    split
    · subst k; exact same
    · exact Iff.rfl
  exact congrArg (fun booth => { s.cueing with booth := booth }) booth

theorem onHouse_cueing_of {s : State} {f : House → House} (same : (f s.house).stand = s.house.stand) :
    (s.onHouse f).cueing = s.cueing :=
  congrArg (fun house => { s.cueing with house := house }) same

section Silent
variable (s : State)

@[simp] theorem offerAOut_cueing : (offerAOut s).cueing = s.cueing := by rw [offerAOut_frame]; rfl
@[simp] theorem file_cueing (x : Option (Fin 8)) (b : NoticeBody) : (file x b s).cueing = s.cueing := by
  rw [file_frame]; rfl
@[simp] theorem fillSlot_cueing : (fillSlot s).cueing = s.cueing := by rw [fillSlot_frame]; rfl
@[simp] theorem appendReply_cueing (r : Reply) : (appendReply r s).cueing = s.cueing := by rw [appendReply_frame]; rfl
@[simp] theorem offerBOut_cueing : (offerBOut s).cueing = s.cueing := by rw [offerBOut_frame]; rfl
@[simp] theorem joinBOut_cueing (f : Frame) : (joinBOut f s).cueing = s.cueing := by rw [joinBOut_frame]; rfl
@[simp] theorem addUse_cueing (k : Option (Fin 32)) : (addUse k s).cueing = s.cueing := by rw [addUse_frame]; rfl
@[simp] theorem dropUse_cueing (k : Option (Fin 32)) : (dropUse k s).cueing = s.cueing := by rw [dropUse_frame]; rfl
@[simp] theorem startTimer_cueing (t : Fin 8) (n : Nat) (m : RunMode) : (startTimer t n m s).cueing = s.cueing := rfl
@[simp] theorem stopTimer_cueing (t : Fin 8) : (stopTimer t s).cueing = s.cueing := rfl
@[simp] theorem setLink_cueing (k : Fin 32) (on : Bool) : (setLink k on s).cueing = s.cueing := rfl
@[simp] theorem writeLatch_cueing (l : Fin 16) (a : Bool) : (writeLatch l a s).cueing = s.cueing :=
  onLine_cueing_of Iff.rfl
@[simp] theorem startTrain_cueing (l : Fin 16) (n a b : Nat) : (startTrain l n a b s).cueing = s.cueing :=
  onLine_cueing_of Iff.rfl
@[simp] theorem requestFader_cueing (i : Fin 8) (target ms : Nat) : (requestFader i target ms s).cueing = s.cueing :=
  onScreen_cueing_of rfl
@[simp] theorem setCueMute_cueing (i : Fin 8) (on : Bool) : (setCueMute i on s).cueing = s.cueing :=
  onScreen_cueing_of rfl
@[simp] theorem swapBanks_cueing (i : Fin 8) : (swapBanks i s).cueing = s.cueing := onScreen_cueing_of rfl
@[simp] theorem endSwap_cueing (i : Fin 8) (early : Bool) : (endSwap i early s).cueing = s.cueing :=
  (file_cueing ..).trans (onScreen_cueing_of rfl)
@[simp] theorem armFormat_cueing (i : Fin 8) (k : Option (Fin 32)) : (armFormat i k s).cueing = s.cueing :=
  (onScreen_cueing_of rfl).trans ((addUse_cueing ..).trans (dropUse_cueing ..))

@[simp] theorem endFormatFade_cueing (i : Fin 8) (cutShort : Bool) :
    (endFormatFade i cutShort s).cueing = s.cueing := by
  unfold endFormatFade
  extract_lets x dropped ended
  have ends : ended.cueing = s.cueing := (onScreen_cueing_of rfl).trans (dropUse_cueing ..)
  split
  · exact (file_cueing ..).trans ends
  · exact ends

@[simp] theorem takeFormat_cueing (i : Fin 8) (ms : Nat) : (takeFormat i ms s).cueing = s.cueing := by
  have cuts : (cutCrossfade i s).cueing = s.cueing := by
    unfold cutCrossfade
    split
    · exact endFormatFade_cueing ..
    · rfl
  have takes : (takenFormat i ms (cutCrossfade i s)).cueing = s.cueing := (onScreen_cueing_of rfl).trans cuts
  rw [takeFormat_eq]
  split
  · exact (endFormatFade_cueing ..).trans takes
  · exact takes

theorem goChange_cueing_of {s : State} {f : House → House} (same : (f s.house).stand = s.house.stand) :
    (goChange f s).cueing = s.cueing := onHouse_cueing_of same

@[simp] theorem requestGoPulse_cueing : (requestGoPulse s).cueing = s.cueing := by
  unfold requestGoPulse
  split
  · rfl
  · exact goChange_cueing_of rfl

/-! #### Screens and the Alignment Engine -/

@[simp] theorem deriveMonitors_cueing (i : Fin 8) : (deriveMonitors i s).cueing = s.cueing := onScreen_cueing_of rfl
@[simp] theorem judgeMonitors_cueing (i : Fin 8) (st : ScreenState) : (judgeMonitors i st s).cueing = s.cueing := by
  unfold judgeMonitors
  exact cueing_congr rfl rfl rfl rfl rfl rfl
@[simp] theorem enterState_cueing (i : Fin 8) (st : ScreenState) : (enterState i st s).cueing = s.cueing := by
  unfold enterState
  exact (deriveMonitors_cueing ..).trans ((judgeMonitors_cueing ..).trans (onScreen_cueing_of rfl))
@[simp] theorem emptyWindows_cueing (i : Fin 8) : (emptyWindows i s).cueing = s.cueing := by
  have meters : (s.onScreen i Screen.restartMeters).cueing = s.cueing :=
    onScreen_cueing_of (by simp only [Screen.restartMeters])
  have screens : (emptyWindows i s).screens = (s.onScreen i Screen.restartMeters).screens := by
    unfold emptyWindows
    rfl
  rw [emptyWindows_frame, screens]
  generalize (emptyWindows i s).monitors = monitors
  exact meters
@[simp] theorem endRun_cueing (r : AbortReason) : (endRun r s).cueing = s.cueing :=
  onScreen_cueing_of_record (Screen.clearAlign_record _)
@[simp] theorem overtakeRun_cueing (r : AbortReason) : (overtakeRun r s).cueing = s.cueing :=
  (file_cueing ..).trans (endRun_cueing ..)
@[simp] theorem stopScreen_cueing (i : Fin 8) : (stopScreen i s).cueing = s.cueing := by
  unfold stopScreen
  exact (enterState_cueing ..).trans (onScreen_cueing_of (by split <;> rfl))
@[simp] theorem resumeScreen_cueing (i : Fin 8) : (resumeScreen i s).cueing = s.cueing :=
  (enterState_cueing ..).trans (onScreen_cueing_of rfl)
@[simp] theorem alignAllBut_cueing (i : Fin 8) (test : Option (Fin 16)) :
    (s.onScreen i fun x => x.alignAllBut test).cueing = s.cueing :=
  onScreen_cueing_of (by simp only [Screen.alignAllBut])

@[simp] theorem setUpScreen_cueing (i : Fin 8) (v : SetupValues) (k : Fin 32) :
    (setUpScreen i v k s).cueing = s.cueing := by
  have enters : (setupEntered i v k s).cueing = s.cueing := by
    unfold setupEntered
    exact (emptyWindows_cueing ..).trans ((enterState_cueing ..).trans ((addUse_cueing ..).trans
      (onScreen_cueing_of rfl)))
  rw [setUpScreen_eq]
  split
  · exact (stopScreen_cueing ..).trans enters
  · exact enters

@[simp] theorem houseStopsScreen_cueing (i : Fin 8) : (houseStopsScreen s i).cueing = s.cueing := by
  unfold houseStopsScreen
  dsimp only
  split
  · split <;> simp
  · split <;> simp
  · split <;> simp
  · rfl

@[simp] theorem houseReleasesScreen_cueing (i : Fin 8) : (houseReleasesScreen s i).cueing = s.cueing := by
  unfold houseReleasesScreen
  dsimp only
  split
  · exact resumeScreen_cueing ..
  · rfl

@[simp] theorem passChain_cueing (i : Fin 8) (f : Frame) : (passChain i f s).1.cueing = s.cueing := by
  unfold passChain
  dsimp only
  rw [gatherDwell_frame]
  exact onScreen_cueing_of_record (s := s) (Screen.passed_record ..)

/-- A fold of changes that leave them leaves them. -/
theorem foldl_cueing {α : Type} {f : State → α → State} (each : ∀ s x, (f s x).cueing = s.cueing) (l : List α) :
    (l.foldl f s).cueing = s.cueing := by
  induction l generalizing s with
  | nil => rfl
  | cons x rest ih => rw [List.foldl_cons, ih, each]

@[simp] theorem onBanks_cueing (i : Fin 8) (c : Fin 16) (f : ChannelBanks → ChannelBanks) :
    (s.onBanks i c f).cueing = s.cueing := rfl
@[simp] theorem fillListed_cueing (i : Fin 8) (fromFlat : Bool) (channels : List (Fin 16)) :
    (fillListed i fromFlat channels s).cueing = s.cueing := foldl_cueing s (fun _ _ => onBanks_cueing ..) _
@[simp] theorem copyBanks_cueing (i : Fin 8) : (copyBanks i s).cueing = s.cueing :=
  foldl_cueing s (fun _ _ => onBanks_cueing ..) _

@[simp] theorem startRun_cueing (i : Fin 8) (q : RunRequest) : (startRun i q s).cueing = s.cueing := by
  unfold startRun
  extract_lets swapped entered filled
  have swaps : swapped.cueing = s.cueing := by
    dsimp only [swapped]
    split
    · exact endSwap_cueing ..
    · rfl
  have enters : entered.cueing = s.cueing := (enterState_cueing ..).trans swaps
  have fills : filled.cueing = s.cueing := by
    dsimp only [filled]
    split
    · exact (fillListed_cueing ..).trans enters
    · exact enters
  exact (alignAllBut_cueing ..).trans fills

end Silent

/-! ### A change of the controller taken whole (R143, R146, R148) -/

theorem cancelHeld_cueing (byHouseStop : Bool) (s : State) :
    (cancelHeld byHouseStop s).cueing = { s.cueing with held := [] } := by
  by_cases empty : s.held = []
  · rw [cancelHeld_empty byHouseStop empty, ← empty]
    rfl
  · rw [cancelHeld_filled byHouseStop empty, file_cueing]
    rfl

section Triggers
variable {trig : Trigger → State → State} (causes : ∀ t s, KeepsCueing s (trig t s))
include causes

/-- A change of the controller in a state `u` that differs from `s` in its booth lines alone: an entry empties the held
list, and elsewhere a house stop in force was in force before. -/
theorem houseChange_from {s u : State} {f : House → House}
    (prepared : u.cueing = { s.cueing with booth := u.boothInputActive })
    (judged : s.houseIsSettled → u.inReset = false → (f u.house).set.boothInput = u.boothInputActive) :
    KeepsCueing s (houseChange trig f u) := by
  have before : u.house.set = s.house.set := congrArg (fun c => c.house.1) prepared
  have held : u.held = s.held := congrArg Cueing.held prepared
  have goesOn (stop : (settled f u).stopActive = true) (entry : ¬(u.house.set.isEmpty = true ∧
      (settled f u).stopActive = true)) : s.stopActive = true := by
    rw [State.stopActive, ← before, Bool.not_eq_true']
    exact Bool.eq_false_iff.mpr fun empty => entry ⟨empty, stop⟩
  have whole : houseChange trig f u =
      if u.house.set.isEmpty && (settled f u).stopActive then houseEntry trig (settled f u)
      else if !u.house.set.isEmpty && (settled f u).house.set.isEmpty then houseRelease trig (settled f u)
      else settled f u := rfl
  rw [whole]
  split
  · have part : (fillSlot (cancelHeld true ((indexes 8).foldl houseStopsScreen (settled f u)))).cueing =
        { (settled f u).cueing with held := [] } := by
      rw [fillSlot_cueing, cancelHeld_cueing, foldl_cueing _ houseStopsScreen_cueing]
    rw [houseEntry]
    generalize fillSlot (cancelHeld true ((indexes 8).foldl houseStopsScreen (settled f u))) = stopped at part ⊢
    have empty : stopped.held = [] := congrArg Cueing.held part
    exact (KeepsCueing.settles prepared judged (by rw [part, empty]) fun _ _ => empty).trans (causes ..)
  · rename_i entry
    rw [Bool.and_eq_true] at entry
    have settles : KeepsCueing s (settled f u) := .settles prepared judged rfl fun stop holds =>
      held.trans (holds (goesOn stop entry))
    split
    · exact settles.trans ((causes ..).after
        ((fillSlot_cueing _).trans (foldl_cueing _ houseReleasesScreen_cueing _)))
    · exact settles

/-- A change that leaves BOOTH_INPUT as it was judged. -/
theorem houseChange_keepsCueing {f : House → House} {s : State}
    (booth : (f s.house).set.boothInput = s.house.set.boothInput) : KeepsCueing s (houseChange trig f s) :=
  houseChange_from causes rfl fun holds runs =>
    booth.trans ((houseIsSettled_iff.mp holds) runs).boothInput

/-- A booth line changed, and BOOTH_INPUT judged again (R154, R156). -/
theorem judgeBoothInput_keepsCueing (l : Fin 16) (f : BoothLine → BoothLine) (s : State) :
    KeepsCueing s (judgeBoothInput trig (s.onLine l f)) := houseChange_from causes rfl fun _ _ => rfl

/-! ### The Cue Engine -/

theorem perform_keepsCueing (source : Source) (owner : Option (Fin 8)) (i : Fin 8) (a : Action) (s : State) :
    KeepsCueing s (perform trig source owner i a s) := by
  cases a with
  | houseStop => exact houseChange_keepsCueing causes rfl
  | _ => exact .silent (by simp [perform])

theorem executeAction_keepsCueing (source : Source) (owner : Option (Fin 8)) (i : Fin 8) (a : Action)
    (released : Bool) (s : State) : KeepsCueing s (executeAction trig source owner i a released s) := by
  unfold executeAction
  split
  · exact .silent (file_cueing ..)
  · split
    · exact .silent (file_cueing ..)
    · exact (perform_keepsCueing causes ..).after (file_cueing ..)

/-- An action is held only while no house stop is in force (R136). -/
theorem holdAction_keepsCueing (source : Source) (owner : Option (Fin 8)) (i : Fin 8) (a : Action) (s : State) :
    KeepsCueing s (holdAction trig source owner i a s) := by
  unfold holdAction
  split
  · exact .silent (file_cueing ..)
  · rename_i calm
    split
    · exact executeAction_keepsCueing causes ..
    · split
      · exact .silent (file_cueing ..)
      · exact .holds (Bool.eq_false_iff.mpr calm) (file_cueing ..)

theorem fireAction_keepsCueing (source : Source) (owner : Option (Fin 8)) (i : Fin 8) (a : Action) (held : Bool)
    (s : State) : KeepsCueing s (fireAction trig source owner i a held s) := by
  unfold fireAction
  split
  · exact holdAction_keepsCueing causes ..
  · exact executeAction_keepsCueing causes ..

theorem fireLink_keepsCueing (s : State) (k : Fin 32) : KeepsCueing s (fireLink trig s k) := by
  unfold fireLink
  extract_lets l fired
  have fires : KeepsCueing s fired := fireAction_keepsCueing causes ..
  exact fires.trans (.ite (.silent (setLink_cueing ..)))

end Triggers

theorem occursWithin_keepsCueing (depth : Nat) (t : Trigger) (s : State) :
    KeepsCueing s (occursWithin depth t s) := by
  induction depth generalizing t s with
  | zero => exact .refl s
  | succ depth ih => exact .foldl (fireLink_keepsCueing ih) _ s

theorem occurs_keepsCueing (t : Trigger) (s : State) : KeepsCueing s (occurs t s) := occursWithin_keepsCueing 3 t s

theorem goEvent_keepsCueing (s : State) : KeepsCueing s (goEvent s) := by
  unfold goEvent
  extract_lets items released
  have releases : KeepsCueing s released := (KeepsCueing.dropsHeld (t := { s with held := [] }) rfl).trans
    (.foldl (fun s h => executeAction_keepsCueing occurs_keepsCueing ..) _ _)
  refine releases.trans ((occurs_keepsCueing ..).after ?_)
  split
  · rfl
  · exact file_cueing ..

theorem processEntry_keepsCueing (i : Fin 8) (p : Word) (entries : List CueEntry) (s : State) (k : Fin 64) :
    KeepsCueing s (processEntry i p entries s k) := by
  unfold processEntry
  split
  · exact .refl s
  · split
    · split
      · exact .silent (file_cueing ..)
      · exact (fireAction_keepsCueing occurs_keepsCueing ..).trans (occurs_keepsCueing ..)
    · exact .refl s

/-- A block at `p` leaves the cursor at the first entry past it, and then `p` as the last position (R22, R126). -/
theorem takeCues_keepsCueing (i : Fin 8) (p : Word) (s : State) :
    KeepsCueing s ((takeCues i p s).onScreen i fun x => { x with lastPosition := some p }) := by
  unfold takeCues
  extract_lets l start processed
  have processes : KeepsCueing s processed := .foldl (processEntry_keepsCueing i p l.entries) _ s
  refine processes.trans (.places i ⟨rfl, rfl, rfl, rfl⟩ (fun j other => ⟨?_, ?_⟩) fun holds => ?_)
  · exact modifyAt_other _ _ other
  · rw [State.onScreen_get, if_neg other, State.onCueList_screens]
  · show ((processed.onCueList i _).cueLists[i]).StandsAt
      ((processed.onCueList i _).onScreen i _).screens[i].lastPosition
    rw [State.onCueList_cueLists, modifyAt_same, onScreen_same]
    exact ⟨holds.order, holds.room, cursorFor_stands holds.order _⟩

/-! ### The Level Monitor Unit -/

theorem reportEvent_keepsCueing (s : State) (x : Fin 48 × MonitorEvent) : KeepsCueing s (reportEvent s x) := by
  unfold reportEvent
  extract_lets c told
  have tells : KeepsCueing s told := .ite (.silent (file_cueing ..))
  split
  · exact tells
  · exact tells.trans (occurs_keepsCueing ..)

theorem evaluated_cueing (i : Fin 8) (s : State) : (evaluated i s).cueing = s.cueing := by
  unfold evaluated
  exact cueing_congr rfl rfl rfl rfl rfl rfl

theorem evaluateMonitors_keepsCueing (i : Fin 8) (s : State) : KeepsCueing s (evaluateMonitors i s) := by
  unfold evaluateMonitors
  extract_lets events moved derived stopped
  have derives : KeepsCueing s derived := .silent ((deriveMonitors_cueing ..).trans (evaluated_cueing i s))
  have stops : KeepsCueing derived stopped := .ite (houseChange_keepsCueing occurs_keepsCueing rfl)
  exact (derives.trans stops).trans (.foldl reportEvent_keepsCueing _ _)

theorem acknowledge_keepsCueing (k : Fin 48) (s : State) : KeepsCueing s (acknowledge k s) := by
  unfold acknowledge
  extract_lets content l cleared
  have clears : cleared.cueing = s.cueing := deriveMonitors_cueing ..
  exact (reportEvent_keepsCueing ..).after clears

/-! ### The Alignment Engine -/

theorem onRun_cueing (f : RunRecord → RunRecord) (s : State) : (s.onRun f).cueing = s.cueing :=
  cueing_congr rfl rfl rfl rfl rfl rfl

theorem enterSettle_cueing (pass : Nat) (s : State) : (enterSettle pass s).cueing = s.cueing := onRun_cueing _ s

theorem settleEnds_cueing (s : State) : (settleEnds s).cueing = s.cueing := onRun_cueing _ s

theorem completeRun_keepsCueing (s : State) : KeepsCueing s (completeRun s) := by
  have clears : (runCompleted s).cueing = s.cueing :=
    (onRun_cueing ..).trans ((enterState_cueing ..).trans
      ((onScreen_cueing_of_record (Screen.clearAlign_record _)).trans (onRun_cueing ..)))
  rw [completeRun_eq]
  exact (occurs_keepsCueing ..).after ((file_cueing ..).trans clears)

theorem finishChannel_keepsCueing (result : AlignResult) (s : State) : KeepsCueing s (finishChannel result s) := by
  unfold finishChannel
  extract_lets written i reported next
  have reports : reported.cueing = s.cueing := by
    dsimp only [reported]
    split
    · exact onRun_cueing ..
    · exact (file_cueing ..).trans (onRun_cueing ..)
  have nexts : next.cueing = s.cueing := (onRun_cueing ..).trans reports
  split
  · exact (completeRun_keepsCueing next).after nexts
  · exact .silent ((enterSettle_cueing ..).trans ((alignAllBut_cueing next i _).trans nexts))

theorem judgePass_keepsCueing (c : Fin 16) (m : Vector Level 31) (s : State) : KeepsCueing s (judgePass c m s) := by
  unfold judgePass
  extract_lets curve d deviation compared corrected
  have compares : compared.cueing = s.cueing := onRun_cueing ..
  have corrects : corrected.cueing = s.cueing := (onRun_cueing ..).trans compares
  split
  · exact (finishChannel_keepsCueing ..).after compares
  · split
    · split
      · exact .silent ((enterSettle_cueing ..).trans corrects)
      · exact (finishChannel_keepsCueing ..).after corrects
    · exact (finishChannel_keepsCueing ..).after compares

theorem dwellEnds_keepsCueing (s : State) : KeepsCueing s (dwellEnds s) := by
  unfold dwellEnds evaluatePass
  split
  · exact .refl s
  · extract_lets a scale m measured
    have same : measured.cueing = s.cueing := onRun_cueing ..
    refine KeepsCueing.after ?_ same
    split
    · exact finishChannel_keepsCueing ..
    · split
      · exact finishChannel_keepsCueing ..
      · exact judgePass_keepsCueing ..

/-! ### A screen that goes OFF, and the show start: the cursor returns to 0 (R19, R24) -/

theorem goOff_keepsCueing (i : Fin 8) (s : State) : KeepsCueing s (goOff i s) := by
  refine .places i ?_ (fun j other => ⟨?_, ?_⟩) fun holds => ?_
  · rw [goOff_frame]
    exact ⟨rfl, rfl, rfl, rfl⟩
  · rw [goOff_cueLists, modifyAt_other _ _ other]
  · rw [goOff_screens, modifyAt_other _ _ other]
  · show (goOff i s).cueLists[i].StandsAt (goOff i s).screens[i].lastPosition
    rw [goOff_cueLists, modifyAt_same, goOff_screens, modifyAt_same]
    exact standsAt_start holds

theorem showStarted_keepsCueing (i : Fin 8) (s : State) : KeepsCueing s (showStarted i s) := by
  refine KeepsCueing.after (t := emptyWindows i (enterState i .inShow s)) ?_
    ((emptyWindows_cueing ..).trans (enterState_cueing ..))
  generalize entered : emptyWindows i (enterState i .inShow s) = shown
  rw [showStarted, entered]
  refine .places i ⟨rfl, rfl, rfl, rfl⟩ (fun j other => ⟨modifyAt_other _ _ other, ?_⟩) fun holds => ?_
  · rw [State.onCueList_screens, State.onScreen_get, if_neg other]
  · show (modifyAt shown.cueLists i _)[i].StandsAt (shown.onScreen i _).screens[i].lastPosition
    rw [modifyAt_same, onScreen_same]
    exact standsAt_start holds

/-! ### A block taken -/

theorem noteArrival_cueing (i : Fin 8) (f : Frame) (s : State) : (noteArrival i f s).cueing = s.cueing := by
  unfold noteArrival
  dsimp only
  split
  · exact (file_cueing ..).trans (onScreen_cueing_of rfl)
  · exact onScreen_cueing_of rfl

theorem startShow_keepsCueing (i : Fin 8) (position : Option Word) (s : State) :
    KeepsCueing s (startShow i position s) := by
  rw [startShow_eq]
  exact (showStarted_keepsCueing i s).trans ((occurs_keepsCueing ..).after (file_cueing ..))

theorem endShow_keepsCueing (i : Fin 8) (s : State) : KeepsCueing s (endShow i s) :=
  (occurs_keepsCueing ..).after ((file_cueing ..).trans (enterState_cueing ..))

theorem actOnRun_keepsCueing (i : Fin 8) (run : Bool) (position : Option Word) (s : State) :
    KeepsCueing s (actOnRun i run position s) := by
  unfold actOnRun
  split
  · exact startShow_keepsCueing ..
  · exact endShow_keepsCueing ..
  · exact (startShow_keepsCueing ..).after ((enterState_cueing ..).trans (overtakeRun_cueing ..))
  · exact .refl s

theorem checkGap_cueing (i : Fin 8) (p : Word) (s : State) : (checkGap i p s).cueing = s.cueing := by
  unfold checkGap
  split
  · rfl
  · split
    · rfl
    · exact file_cueing ..

theorem handlePosition_keepsCueing (i : Fin 8) (position : Option Word) (s : State) :
    KeepsCueing s (handlePosition i position s) := by
  unfold handlePosition
  split
  · exact (takeCues_keepsCueing ..).after (checkGap_cueing ..)
  · exact .refl s

theorem checkMismatch_cueing (i : Fin 8) (f : Frame) (s : State) : (checkMismatch i f s).cueing = s.cueing := by
  rcases checkMismatch_cases i f s with same | ⟨body, told⟩
  · rw [same]
  · rw [told, file_cueing]; exact onScreen_cueing_of rfl

theorem takeBlock_keepsCueing (i : Fin 8) (f : Frame) (s : State) : KeepsCueing s (takeBlock i f s) := by
  rw [takeBlock_eq, chained]
  have arrives := (actOnRun_keepsCueing i f.run f.validPosition (noteArrival i f s)).after (noteArrival_cueing i f s)
  have handles := arrives.trans (handlePosition_keepsCueing i f.validPosition _)
  have passes := handles.before ((passChain_cueing _ i f).trans (checkMismatch_cueing i f _))
  exact (passes.trans (evaluateMonitors_keepsCueing i _)).before (joinBOut_cueing ..)

theorem loseSource_cueing (i : Fin 8) (s : State) : (loseSource i s).cueing = s.cueing := by
  unfold loseSource
  extract_lets lost told made
  have makes : made.cueing = s.cueing := (joinBOut_cueing ..).trans ((file_cueing ..).trans (onScreen_cueing_of rfl))
  split
  · exact (enterState_cueing ..).trans ((overtakeRun_cueing ..).trans makes)
  · exact makes

theorem nextSilent_cueing (i : Fin 8) (s : State) : (nextSilent i s).cueing = s.cueing :=
  (onScreen_cueing_of (by split <;> rfl)).trans (joinBOut_cueing ..)

/-! ### Arriving frames -/

theorem joinIntake_cueing (c : Command) (s : State) : (joinIntake c s).cueing = s.cueing := by
  unfold joinIntake
  split <;> rfl

theorem joinForward_cueing (f : Frame) (s : State) : (joinForward f s).cueing = s.cueing := by
  unfold joinForward
  split
  · exact offerAOut_cueing _
  · rfl

theorem routeCommand_cueing (f : Frame) (s : State) : (routeCommand f s).cueing = s.cueing := by
  unfold routeCommand
  split
  · exact joinIntake_cueing ..
  · split
    · exact (joinBOut_cueing ..).trans (joinIntake_cueing ..)
    · exact joinBOut_cueing ..

theorem routeBlock_keepsCueing (f : Frame) (s : State) : KeepsCueing s (routeBlock f s) := by
  unfold routeBlock handBlock
  split
  · split
    · split
      · exact .silent (joinBOut_cueing ..)
      · exact takeBlock_keepsCueing ..
    · exact .refl s
  · exact .silent (joinBOut_cueing ..)

theorem receive_keepsCueing (lane : Lane) (cutOff : Bool) (f : Frame) (s : State) :
    KeepsCueing s (receive lane cutOff f s) := by
  have routes (s : State) : KeepsCueing s (routeFrame lane f s) := by
    unfold routeFrame
    split
    · split
      · exact routeBlock_keepsCueing f s
      · exact .silent (routeCommand_cueing f s)
    · exact .silent (joinForward_cueing f s)
  unfold receive
  extract_lets counted
  split
  · exact .silent rfl
  · split
    · exact .silent rfl
    · exact (routes counted).after (s := s) rfl

/-! ### Event rows -/

theorem eventRow_keepsCueing {f : State → State} (acts : ∀ s, KeepsCueing s (f s)) (s : State) :
    KeepsCueing s (eventRow f s) := by
  unfold eventRow
  split
  · exact .refl s
  · exact acts s

theorem timedRow_keepsCueing {due : State → Bool} {f : State → State} (acts : ∀ s, KeepsCueing s (f s)) (s : State) :
    KeepsCueing s (timedRow due f s) := eventRow_keepsCueing (fun s => .ite (acts s)) s

/-- A timed row that leaves the cue lists, the held list and the controller. -/
theorem timedRow_leavesCueing {due : State → Bool} {f : State → State} (same : ∀ s, (f s).cueing = s.cueing)
    (s : State) : KeepsCueing s (timedRow due f s) := timedRow_keepsCueing (fun s => .silent (same s)) s

theorem takeGo_keepsCueing (s : State) : KeepsCueing s (takeGo s) := by
  unfold takeGo
  extract_lets sensed
  have senses : sensed.cueing = s.cueing := onHouse_cueing_of rfl
  split
  · exact (goEvent_keepsCueing ..).after senses
  · exact .silent senses

/-- A line outside STOP_INPUT mode is none that stops the house. -/
theorem not_stops_of_mode {l : BoothLine} (other : l.mode ≠ .stopInput) : ¬l.Stops := fun stops => other stops.1

/-- A line's filtered state is taken: a line that stops the house has BOOTH_INPUT judged with it (R156). -/
theorem takeLine_keepsCueing (l : Fin 16) (s : State) : KeepsCueing s (takeLine l s) := by
  unfold takeLine
  extract_lets active taken
  have mode : taken.lines[l].mode = s.lines[l].mode := by rw [State.onLine_get, if_pos rfl]
  have takes (other : taken.lines[l].mode ≠ .stopInput) : taken.cueing = s.cueing := by
    rw [mode] at other
    exact onLine_cueing_of (iff_of_false (not_stops_of_mode other) (not_stops_of_mode other))
  split
  · rename_i input
    exact (occurs_keepsCueing ..).after ((file_cueing ..).trans (takes (by rw [input]; nofun)))
  · exact judgeBoothInput_keepsCueing occurs_keepsCueing l _ s
  · rename_i other
    exact .silent (takes other)

theorem endPhase_cueing (l : Fin 16) (s : State) : (s.onLine l fun x => x.endPhase s.timeBase).cueing = s.cueing := by
  refine onLine_cueing_of ?_
  unfold BoothLine.endPhase BoothLine.Stops
  split
  · rfl
  · split
    · split <;> rfl
    · rfl

/-! ### Commands -/

section Bodies
variable {R : State → State → Prop} (refl : ∀ s, R s s) {suits : Bool} {size : Nat} {c : Command}
variable (trans : ∀ {s t u}, R s t → R t u → R s u)
include refl trans

/-- What each accepted effect does, from screen to screen, the command does. -/
theorem applyList_checked {check : Fin 8 → State → Option Result} {effect : Fin 8 → State → State × List Byte}
    (acts : ∀ i s, check i s = none → R s (effect i s).1) (l : List (Fin 8)) (s : State) :
    R s (applyList size check effect l s).1 := by
  induction l generalizing s with
  | nil => exact refl s
  | cons i rest ih =>
    unfold applyList
    split
    · exact ih s
    · rename_i accepted
      exact trans (acts i s accepted) (ih _)

theorem screenCommand_checked {check : Fin 8 → State → Option Result} {effect : Fin 8 → State → State × List Byte}
    (acts : ∀ i s, check i s = none → R s (effect i s).1) (s : State) :
    R s (screenCommand suits size check effect c s).1 := by
  unfold screenCommand applyScreen
  split
  · exact refl s
  · split
    · split
      · exact refl s
      · rename_i accepted
        exact acts _ s accepted
    · exact applyList_checked refl trans acts _ s

end Bodies

section Classes
variable {suits : Bool} {size : Nat} {c : Command}

theorem unitCommand_keepsCueing {check : State → Option Result} {effect : State → State × List Byte}
    (acts : ∀ s, KeepsCueing s (effect s).1) (s : State) : KeepsCueing s (unitCommand suits check effect c s).1 :=
  unitCommand_rel .refl acts s

theorem unitCommand_leavesCueing {check : State → Option Result} {effect : State → State × List Byte}
    (same : ∀ s, (effect s).1.cueing = s.cueing) (s : State) :
    KeepsCueing s (unitCommand suits check effect c s).1 := unitCommand_keepsCueing (fun s => .silent (same s)) s

theorem screenCommand_keepsCueing {check : Fin 8 → State → Option Result}
    {effect : Fin 8 → State → State × List Byte} (acts : ∀ i s, check i s = none → KeepsCueing s (effect i s).1)
    (s : State) : KeepsCueing s (screenCommand suits size check effect c s).1 :=
  screenCommand_checked .refl .trans acts s

theorem screenCommand_leavesCueing {check : Fin 8 → State → Option Result}
    {effect : Fin 8 → State → State × List Byte} (same : ∀ i s, (effect i s).1.cueing = s.cueing) (s : State) :
    KeepsCueing s (screenCommand suits size check effect c s).1 :=
  screenCommand_keepsCueing (fun i s _ => .silent (same i s)) s

end Classes

/-! ### The commands of the cue lists (R122 to R124) -/

theorem risesStrictly_iff {l : List CueEntry} :
    risesStrictly l = true ↔ l.Pairwise fun x y => x.position < y.position := by
  induction l with
  | nil => simp [risesStrictly]
  | cons a rest ih =>
    cases rest with
    | nil => simp [risesStrictly]
    | cons b more =>
      rw [risesStrictly, Bool.and_eq_true, decide_eq_true_eq, ih, List.pairwise_cons (a := a)]
      refine and_congr_left fun rises => ⟨fun first x later => ?_, fun all => all b (List.mem_cons_self ..)⟩
      rcases List.mem_cons.mp later with rfl | later
      · exact first
      · exact BitVec.lt_trans first ((List.pairwise_cons.mp rises).1 x later)

theorem allSome_eq_some {α : Type} {l : List (Option α)} {xs : List α} (all : allSome l = some xs) :
    l = xs.map some := by
  induction l generalizing xs with
  | nil => cases all; rfl
  | cons x rest ih =>
    cases x with
    | none => cases all
    | some x =>
      obtain ⟨ys, reads, rfl⟩ := Option.map_eq_some_iff.mp all
      rw [ih reads, List.map_cons]

/-- An entry that reads carries a position (R122). -/
theorem readEntry_position {b : List Byte} {e : CueEntry} (reads : readEntry b = some e) :
    e.position ≠ noPosition := by
  simp only [readEntry, Option.bind_eq_bind, Option.bind_eq_some_iff] at reads
  obtain ⟨held, -, action, -, entry⟩ := reads
  split at entry
  · cases entry
  · rename_i carried
    cases entry
    exact carried

/-- A list that a load gives rises strictly, and none of its positions is "no position" (R122, R123). -/
theorem resultingList_order {c : Command} {old entries : List CueEntry} (before : cueOrder old)
    (gives : resultingList c old = some entries) : cueOrder entries := by
  simp only [resultingList, Option.bind_eq_bind, Option.bind_eq_some_iff] at gives
  obtain ⟨append, -, series, reads, result⟩ := gives
  have carried (e : CueEntry) (listed : e ∈ series) : e.position ≠ noPosition := by
    have read : some e ∈ (chunks 13 (c.num 1) (c.payload.drop 2)).map readEntry := by
      rw [allSome_eq_some reads]
      exact List.mem_map_of_mem listed
    obtain ⟨b, -, entry⟩ := List.mem_map.mp read
    exact readEntry_position entry
  have positions (e : CueEntry) (listed : e ∈ if append then old ++ series else series) :
      e.position ≠ noPosition := by
    split at listed
    · exact (List.mem_append.mp listed).elim (before.2 e) (carried e)
    · exact carried e listed
  obtain ⟨rises, same⟩ := Option.ite_none_right_eq_some.mp result
  cases same
  exact ⟨risesStrictly_iff.mp rises, positions⟩

/-- A list placed whole with its cursor, on a screen whose last position stands. -/
theorem onCueList_keepsCueing {i : Fin 8} {l : CueList} {s : State}
    (stands : s.cueing.ListStands i → l.StandsAt s.screens[i].lastPosition) :
    KeepsCueing s (s.onCueList i fun _ => l) := by
  refine .places i ⟨rfl, rfl, rfl, rfl⟩ (fun j other => ⟨modifyAt_other _ _ other, rfl⟩) fun holds => ?_
  show (modifyAt s.cueLists i fun _ => l)[i].StandsAt s.screens[i].lastPosition
  rw [modifyAt_same]
  exact stands holds

/-- CUELIST_LOAD is accepted where its resulting list fits (R123). -/
theorem effectCuelistLoad_keepsCueing {c : Command} {i : Fin 8} {s : State}
    (accepted : checkCuelistLoad c i s = none) : KeepsCueing s (effectCuelistLoad c i s).1 := by
  unfold effectCuelistLoad
  unfold checkCuelistLoad at accepted
  split
  · exact .refl s
  · rename_i entries gives
    refine onCueList_keepsCueing fun holds => ?_
    have order : cueOrder entries := resultingList_order holds.order gives
    refine ⟨order, ?_, cursorFor_stands (l := ⟨entries, 0⟩) order _⟩
    rw [gives] at accepted
    split at accepted
    · cases accepted
    · dsimp only at accepted
      split at accepted
      · cases accepted
      · rename_i fits
        exact Nat.le_of_not_lt fits

section Effects
variable (c : Command) (s : State)

theorem effectMonitorAck_keepsCueing : KeepsCueing s (effectMonitorAck c s).1 := by
  unfold effectMonitorAck
  split
  · exact .refl s
  · exact acknowledge_keepsCueing ..

theorem effectCueFire_keepsCueing : KeepsCueing s (effectCueFire c s).1 := by
  unfold effectCueFire
  split
  · exact .refl s
  · exact fireLink_keepsCueing occurs_keepsCueing ..

theorem effectHouseSetup_keepsCueing : KeepsCueing s (effectHouseSetup c s).1 := by
  unfold effectHouseSetup
  split
  · exact .refl s
  · exact houseChange_keepsCueing occurs_keepsCueing rfl

theorem effectLineSetup_keepsCueing : KeepsCueing s (effectLineSetup c s).1 := by
  unfold effectLineSetup
  split
  · exact judgeBoothInput_keepsCueing occurs_keepsCueing ..
  · exact .refl s

theorem effectMute_cueing (i : Fin 8) : (effectMute c i s).1.cueing = s.cueing := by
  unfold effectMute setCommandMute
  split
  · rfl
  · split <;> exact onScreen_cueing_of rfl

theorem effectMonitorLoad_cueing : (effectMonitorLoad c s).1.cueing = s.cueing := by
  unfold effectMonitorLoad
  split
  · rfl
  · split
    · rfl
    · exact deriveMonitors_cueing ..

theorem effectMonitorEnable_cueing : (effectMonitorEnable c s).1.cueing = s.cueing := by
  unfold effectMonitorEnable
  split
  · rfl
  · dsimp only
    split
    · rfl
    · exact deriveMonitors_cueing ..

theorem effectMonitorDisable_cueing : (effectMonitorDisable c s).1.cueing = s.cueing := by
  unfold effectMonitorDisable
  split
  · rfl
  · dsimp only
    split
    · exact deriveMonitors_cueing ..
    · rfl

theorem effectMonitorStatus_cueing : (effectMonitorStatus c s).1.cueing = s.cueing := by
  unfold effectMonitorStatus
  dsimp only
  split
  · exact foldl_cueing (f := fun s k => s.onMonitor k Monitor.clearTrip) s (fun _ _ => rfl) _
  · rfl

theorem cmdEqLoad_keepsCueing : KeepsCueing s (cmdEqLoad c s).1 := by
  unfold cmdEqLoad
  split
  · exact screenCommand_leavesCueing (fun i s => by unfold effectEqGraphic; split <;> rfl) s
  · split
    · exact screenCommand_leavesCueing (fun i s => by unfold effectEqSection; split <;> rfl) s
    · exact screenCommand_leavesCueing (fun _ _ => rfl) s

end Effects

/-! ### Every command -/

/-- Whatever command is executed, UNIT_RESET apart. -/
theorem bodyOf_keepsCueing (code : Nat) (c : Command) (s : State) : KeepsCueing s (bodyOf code c s).1 := by
  unfold bodyOf
  split
  case h_1 => exact unitCommand_leavesCueing (fun _ => rfl) s
  case h_2 => exact unitCommand_leavesCueing (fun _ => rfl) s
  case h_3 => exact unitCommand_leavesCueing (fun s => by unfold effectLinkStats; split <;> rfl) s
  case h_4 => exact screenCommand_leavesCueing (fun i s => by unfold effectSetup; split <;> simp) s
  case h_5 => exact screenCommand_keepsCueing (fun i s _ => goOff_keepsCueing i s) s
  case h_6 => exact screenCommand_leavesCueing (fun _ _ => rfl) s
  case h_7 => exact screenCommand_leavesCueing (fun i s => resumeScreen_cueing s i) s
  case h_8 => exact screenCommand_leavesCueing (fun i s => by unfold effectFader; split <;> simp) s
  case h_9 => exact screenCommand_leavesCueing (fun i s => effectMute_cueing c s i) s
  case h_10 =>
    exact screenCommand_leavesCueing (fun i s => by unfold effectRehearsal; split <;> simp [onScreen_cueing_of]) s
  case h_11 =>
    exact screenCommand_leavesCueing (fun i s => by
      unfold effectChannelSetup; split <;> simp [State.onChannel, onScreen_cueing_of]) s
  case h_12 => exact unitCommand_leavesCueing (fun s => by unfold effectFormatLoad; split <;> rfl) s
  case h_13 => exact unitCommand_leavesCueing (fun s => by unfold effectFormatClear; split <;> rfl) s
  case h_14 => exact screenCommand_leavesCueing (fun i s => by unfold effectArm; split <;> simp) s
  case h_15 => exact screenCommand_leavesCueing (fun i s => takeFormat_cueing s i _) s
  case h_16 => exact unitCommand_leavesCueing (fun s => by unfold effectFormatRead; split <;> rfl) s
  case h_17 => exact cmdEqLoad_keepsCueing c s
  case h_18 => exact screenCommand_leavesCueing (fun i s => copyBanks_cueing s i) s
  case h_19 => exact screenCommand_leavesCueing (fun i s => swapBanks_cueing s i) s
  case h_20 => exact screenCommand_leavesCueing (fun i s => by unfold effectEqRead; split <;> rfl) s
  case h_21 => exact unitCommand_leavesCueing (fun s => by unfold effectCurveLoad; split <;> rfl) s
  case h_22 =>
    exact oneScreenCommand_rel .refl (fun i s => .silent (by unfold effectAlignStart; split <;> simp)) s
  case h_23 =>
    exact screenCommand_leavesCueing (fun i s => (enterState_cueing ..).trans (overtakeRun_cueing ..)) s
  case h_24 => exact unitCommand_leavesCueing (fun _ => rfl) s
  case h_25 => exact unitCommand_leavesCueing (effectMonitorLoad_cueing c) s
  case h_26 => exact unitCommand_leavesCueing (effectMonitorEnable_cueing c) s
  case h_27 => exact unitCommand_leavesCueing (effectMonitorDisable_cueing c) s
  case h_28 => exact unitCommand_keepsCueing (effectMonitorAck_keepsCueing c) s
  case h_29 => exact unitCommand_leavesCueing (effectMonitorStatus_cueing c) s
  case h_30 => exact screenCommand_keepsCueing (fun _ _ => effectCuelistLoad_keepsCueing) s
  case h_31 => exact screenCommand_keepsCueing (fun _ _ _ => onCueList_keepsCueing fun _ => standsAt_empty _) s
  case h_32 => exact unitCommand_leavesCueing (fun s => by unfold effectLinkLoad; split <;> rfl) s
  case h_33 => exact unitCommand_leavesCueing (fun s => by unfold effectLinkFlag; split <;> rfl) s
  case h_34 => exact unitCommand_leavesCueing (fun s => by unfold effectLinkFlag; split <;> rfl) s
  case h_35 => exact unitCommand_leavesCueing (fun s => by unfold effectTimerStart; split <;> rfl) s
  case h_36 => exact unitCommand_leavesCueing (fun s => by unfold effectTimerStop; split <;> rfl) s
  case h_37 => exact unitCommand_leavesCueing (fun s => by unfold effectTimerRead; split <;> rfl) s
  case h_38 => exact unitCommand_keepsCueing (effectCueFire_keepsCueing c) s
  case h_39 => exact unitCommand_leavesCueing requestGoPulse_cueing s
  case h_40 => exact unitCommand_keepsCueing (fun s => .dropsHeld (cancelHeld_cueing false s)) s
  case h_41 => exact unitCommand_leavesCueing (fun _ => rfl) s
  case h_42 => exact unitCommand_keepsCueing (effectHouseSetup_keepsCueing c) s
  case h_43 => exact unitCommand_keepsCueing (fun _ => houseChange_keepsCueing occurs_keepsCueing rfl) s
  case h_44 => exact unitCommand_keepsCueing (fun _ => houseChange_keepsCueing occurs_keepsCueing rfl) s
  case h_45 => exact unitCommand_leavesCueing (fun _ => rfl) s
  case h_46 => exact unitCommand_keepsCueing (effectLineSetup_keepsCueing c) s
  case h_47 => exact unitCommand_leavesCueing (fun s => by unfold effectLineSet; split <;> simp) s
  case h_48 => exact unitCommand_leavesCueing (fun _ => rfl) s
  case h_49 => exact .refl s

/-! ### RESETN, UNIT_RESET and power-on -/

/-- A unit whose cue lists stand at their start and whose controller is settled, with nothing held (R142, R151). -/
theorem keepsCueing_of_reset {s t : State} {booth : Bool}
    (lists : ∀ i : Fin 8, s.cueing.ListStands i → t.cueing.ListStands i)
    (active : t.boothInputActive = booth) (house : t.house.Settled booth) (held : t.held = []) : KeepsCueing s t :=
  ⟨fun holds => cursorsStandRight_iff.mpr fun i => lists i (cursorsStandRight_iff.mp holds i),
    fun _ => houseIsSettled_iff.mpr fun _ => active ▸ house, fun _ _ => held⟩

/-- Emptied cue lists stand anywhere. -/
theorem listStands_of_cleared {s : State} (lists : s.cueLists = Vector.replicate 8 emptyCueList) (i : Fin 8) :
    s.cueing.ListStands i := by
  have empty : s.cueLists[i] = emptyCueList := by rw [lists]; exact replicate_get ..
  show s.cueLists[i].StandsAt _
  rw [empty]
  exact standsAt_empty _

theorem resetUnit_keepsCueing (scope : Scope) (s : State) : KeepsCueing s (resetUnit scope s) := by
  cases scope with
  | keepTables =>
    refine keepsCueing_of_reset (booth := boothAtRest s.lines) (fun i holds => ?_) ?_ ?_ ?_
    all_goals rw [resetUnit_keepTables]
    · have list : (s.cueLists.map CueList.atStart)[i] = s.cueLists[i].atStart := by simp
      have last : (s.screens.map Screen.off)[i].lastPosition = none := by simp [Screen.off, offScreen]
      show (s.cueLists.map CueList.atStart)[i].StandsAt (s.screens.map Screen.off)[i].lastPosition
      rw [list, last]
      exact standsAt_start holds
    · rfl
    · exact houseReset_settled ..
  | clear =>
    rw [resetUnit_clear]
    exact keepsCueing_of_reset (fun i _ => listStands_of_cleared rfl i) (powerOnLine_idle s.lines)
      (houseReset_settled ..) rfl

theorem powerOnState_keepsCueing (straps : Fin 8) (s : State) : KeepsCueing s (powerOnState straps s) := by
  have idle : (powerOnState straps s).boothInputActive = false := by
    rw [← powerOnLine_idle s.lines, ← mapAt_eq_map]
    rfl
  exact keepsCueing_of_reset (fun i _ => listStands_of_cleared rfl i) idle (powerOnHouse_settled ..) rfl

/-- While RESETN is asserted nothing is asked of the drive (R17). -/
theorem resetnAssert_keepsCueing {s t : State} (answers : exec .resetnAssert s = .next t) : KeepsCueing s t := by
  cases answers
  exact ⟨fun holds => cursorsStandRight_iff.mpr (cursorsStandRight_iff.mp holds),
    fun _ runs => absurd runs (by simp), fun holds stop => holds stop⟩

/-! ### Rows and steps -/

theorem executeThen_keepsCueing {after : Answer → State → State} {body : Command → State → State × Answer}
    {c : Command} {s : State} (acts : KeepsCueing s (body c s).1) (follows : ∀ a s, KeepsCueing s (after a s)) :
    KeepsCueing s (executeThen after body c s) :=
  acts.trans ((follows ..).after (appendReply_cueing ..))

theorem executeUnitReset_keepsCueing (c : Command) (s : State) : KeepsCueing s (executeUnitReset c s) := by
  have resets (scope : Scope) : KeepsCueing s (executeThen (readyAfter scope) (cmdUnitResetIn scope) c s) :=
    executeThen_keepsCueing (unitCommand_keepsCueing (fun s => resetUnit_keepsCueing scope s) s)
      fun _ _ => .ite (.silent (file_cueing ..))
  unfold executeUnitReset
  split
  · exact resets _
  · split
    · exact resets _
    · exact executeThen_keepsCueing (unitCommand_leavesCueing (fun _ => rfl) s) fun _ => .refl

theorem executeCommand_keepsCueing (c : Command) (s : State) : KeepsCueing s (executeCommand c s) := by
  unfold executeCommand
  split
  · exact executeUnitReset_keepsCueing c s
  · exact executeThen_keepsCueing (bodyOf_keepsCueing _ c s) fun _ => .refl

theorem expireTimer_keepsCueing (t : Fin 8) (s : State) : KeepsCueing s (expireTimer t s) :=
  (occurs_keepsCueing ..).after (s := s) rfl

theorem takeCommand_keepsCueing (s : State) : KeepsCueing s (takeCommand s) := by
  unfold takeCommand
  split
  · exact .refl s
  · split
    · exact (executeCommand_keepsCueing ..).after (s := s) rfl
    · exact .refl s

/-- Whatever row is executed. -/
theorem exec_keepsCueing {r : Instr} {s t : State} (answers : exec r s = .next t) : KeepsCueing s t := by
  cases spells : r.command with
  | some c =>
    rw [exec_of_command spells] at answers
    cases answers
    exact .ite (executeCommand_keepsCueing c s)
  | none =>
    cases r with
    | commandTake => cases answers; exact takeCommand_keepsCueing s
    | blockArrival f => cases answers; exact eventRow_keepsCueing (receive_keepsCueing _ _ _) s
    | commandArrival f => cases answers; exact eventRow_keepsCueing (receive_keepsCueing _ _ _) s
    | forwardArrival f => cases answers; exact eventRow_keepsCueing (receive_keepsCueing _ _ _) s
    | discardedFrame lane cutOff f => cases answers; exact eventRow_keepsCueing (receive_keepsCueing _ _ _) s
    | aOutFrameSent =>
      cases answers; exact eventRow_keepsCueing (fun s => .silent (offerAOut_cueing { s with aOut := none })) s
    | bOutFrameSent =>
      cases answers; exact eventRow_keepsCueing (fun s => .silent (offerBOut_cueing { s with bOut := none })) s
    | resetnAssert => exact resetnAssert_keepsCueing answers
    | powerOnReset straps => cases answers; exact (powerOnState_keepsCueing straps s).before (file_cueing ..)
    | sourceLost i => cases answers; exact timedRow_leavesCueing (loseSource_cueing i) s
    | silentBlock i => cases answers; exact timedRow_leavesCueing (nextSilent_cueing i) s
    | faderRampEnd i => cases answers; exact timedRow_leavesCueing (fun _ => onScreen_cueing_of rfl) s
    | stopFadeEnd i => cases answers; exact timedRow_leavesCueing (fun _ => onScreen_cueing_of rfl) s
    | formatCrossfadeEnd i => cases answers; exact timedRow_leavesCueing (fun s => endFormatFade_cueing s i false) s
    | swapCrossfadeEnd i => cases answers; exact timedRow_leavesCueing (fun s => endSwap_cueing s i false) s
    | settleEnd => cases answers; exact timedRow_leavesCueing settleEnds_cueing s
    | dwellEnd => cases answers; exact timedRow_keepsCueing dwellEnds_keepsCueing s
    | timerExpiry t => cases answers; exact timedRow_keepsCueing (expireTimer_keepsCueing t) s
    | pulsePhaseEnd l => cases answers; exact timedRow_leavesCueing (endPhase_cueing l) s
    | goPulseEnd => cases answers; exact timedRow_leavesCueing (fun _ => goChange_cueing_of rfl) s
    | hstopPinChange level => cases answers; exact .silent (onHouse_cueing_of rfl)
    | hstopSensedChange =>
      cases answers; exact timedRow_keepsCueing (fun _ => houseChange_keepsCueing occurs_keepsCueing rfl) s
    | goPinChange level => cases answers; exact .silent (goChange_cueing_of rfl)
    | goSensedChange => cases answers; exact timedRow_keepsCueing takeGo_keepsCueing s
    | linePinChange l level =>
      cases answers
      exact (KeepsCueing.ite (timedRow_keepsCueing (takeLine_keepsCueing l) _)).after (onLine_cueing_of Iff.rfl)
    | lineFilterChange l => cases answers; exact timedRow_keepsCueing (takeLine_keepsCueing l) s
    | _ => cases spells

theorem step_keepsCueing {s t : State} (steps : step s = .next t) : KeepsCueing s t := by
  unfold step at steps
  split at steps
  · cases steps
    unfold passTime
    split
    · exact .refl s
    · split <;> exact .silent rfl
  · exact (exec_keepsCueing steps).after (s := s) rfl

/-- Settles O58: a cursor moves only with its list or its screen's last position, and is placed then. -/
theorem stepsKeepTheCursors : Obligations.StepsKeepTheCursors :=
  fun _ _ holds steps => (step_keepsCueing steps).cursors holds

/-- Settles O59: every change of the controller is settled, an entry empties the held list, and nothing is held while a
house stop is in force. -/
theorem stepsKeepTheHouseStop : Obligations.StepsKeepTheHouseStop :=
  ⟨fun _ _ holds steps => (step_keepsCueing steps).house holds,
    fun _ _ holds steps => (step_keepsCueing steps).held holds⟩

end Sys2Proof.Machine
end

section
/-!
PROOF. CUELIST_LOAD, CUELIST_CLEAR and LINK_LOAD (R118, R122 to R124, R128, R183): an action record, a cue entry and the
fields of a link read back from the bits that their codes use, whatever stands in the others.
-/

namespace Sys2Proof.Machine

/-! ### Fields of payloads that agree in the bits read (R183) -/

section Alike
variable {mask p q : List Byte} (alike : readAlike mask p q)
include alike

theorem readAlike_take (n : Nat) : readAlike (mask.take n) (p.take n) (q.take n) :=
  ⟨by rw [List.length_take, List.length_take, alike.1], by rw [← List.take_zipWith, ← List.take_zipWith, alike.2]⟩

theorem readAlike_drop (n : Nat) : readAlike (mask.drop n) (p.drop n) (q.drop n) :=
  ⟨by rw [List.length_drop, List.length_drop, alike.1], by rw [← List.drop_zipWith, ← List.drop_zipWith, alike.2]⟩

variable {k : Nat} (whole : mask.getD k 0#8 = 255#8)
include whole

theorem readIndex_of_alike {n : Nat} {i : Fin n} (small : n ≤ 256) (written : q.getD k 0#8 = BitVec.ofNat 8 i.val) :
    readIndex n (p.getD k 0#8) = some i := by
  rw [readAlike_whole alike whole, written, readIndex_ofNat small]

theorem map_readIndex_of_alike {α : Type} {n : Nat} (f : Fin n → α) {i : Fin n} (small : n ≤ 256)
    (written : q.getD k 0#8 = BitVec.ofNat 8 i.val) : (readIndex n (p.getD k 0#8)).map f = some (f i) := by
  rw [readIndex_of_alike alike whole small written, Option.map_some]

theorem readFlag_of_alike {b : Bool} (written : q.getD k 0#8 = flagByte b) : readFlag (p.getD k 0#8) = some b := by
  rw [readAlike_whole alike whole, written, readFlag_flagByte]

theorem readRunMode_of_alike {m : RunMode} (written : q.getD k 0#8 = BitVec.ofNat 8 m.code) :
    readRunMode (p.getD k 0#8) = some m := by
  rw [readAlike_whole alike whole, written]
  cases m <;> rfl

theorem toNat_of_alike {v : Nat} (below : v < 256) (written : q.getD k 0#8 = BitVec.ofNat 8 v) :
    (p.getD k 0#8).toNat = v := by
  rw [readAlike_whole alike whole, written, toNat_ofNat_byte below]

variable (next : mask.getD (k + 1) 0#8 = 255#8)
include next

theorem nat2_of_alike {v : Nat} (below : v < 65536) (high : q.getD k 0#8 = BitVec.ofNat 8 (v / 256))
    (low : q.getD (k + 1) 0#8 = BitVec.ofNat 8 v) : nat2 (p.getD k 0#8) (p.getD (k + 1) 0#8) = v := by
  rw [readAlike_whole alike whole, readAlike_whole alike next, high, low, nat2_bytes2 below]

end Alike

/-! ### Action records (R118) -/

theorem Action.code_lt (a : Action) : a.code < 256 := by cases a <;> simp [Action.code]

theorem Action.parameterMask_length (a : Action) : a.parameterMask.length = 6 := by cases a <;> rfl

theorem actionRecord_length (a : Action) (screen : Fin 8) : (actionRecord a screen).length = 8 := by cases a <;> rfl

/-- A record that agrees with an action's in the bits that the action uses is read as that action. -/
theorem readActionKind_reads {a : Action} {screen : Fin 8} {m : Byte} {r : List Byte}
    (alike : readAlike (255#8 :: m :: a.parameterMask) r (actionRecord a screen)) (ok : a.ok) :
    readActionKind r = some a := by
  have code : (r.getD 0 0#8).toNat = a.code := toNat_of_alike alike rfl a.code_lt rfl
  cases a with
  | lineSet line active =>
    have line := readIndex_of_alike alike (k := 2) (i := line) rfl (by decide) rfl
    have active := readFlag_of_alike alike (k := 3) (b := active) rfl rfl
    simp only [readActionKind, code, Action.code, line, active, Option.bind_eq_bind, Option.bind_some]
    rfl
  | linePulse line count onMs offMs =>
    obtain ⟨one, most, onLeast, onMost, offLeast, offMost⟩ := ok
    have line := readIndex_of_alike alike (k := 2) (i := line) rfl (by decide) rfl
    have counted := toNat_of_alike alike (k := 3) (v := count) rfl (by omega) rfl
    have on := nat2_of_alike alike (k := 4) (v := onMs) rfl rfl (by omega) rfl rfl
    have off := nat2_of_alike alike (k := 6) (v := offMs) rfl rfl (by omega) rfl rfl
    simp only [readActionKind, code, Action.code, line, counted, on, off, readRange_eq_some one most,
      readRange_eq_some onLeast onMost, readRange_eq_some offLeast offMost, Option.bind_eq_bind, Option.bind_some]
    rfl
  | fader target ms =>
    obtain ⟨targetMost, msMost⟩ := ok
    have aimed := toNat_of_alike alike (k := 2) (v := target) rfl (by omega) rfl
    have ramp := nat2_of_alike alike (k := 4) (v := ms) rfl rfl (by omega) rfl rfl
    simp only [readActionKind, code, Action.code, aimed, ramp, readRange_eq_some (Nat.zero_le _) targetMost,
      readRange_eq_some (Nat.zero_le _) msMost, Option.bind_eq_bind, Option.bind_some]
    rfl
  | mute on =>
    have flag := readFlag_of_alike alike (k := 2) (b := on) rfl rfl
    simp only [readActionKind, code, Action.code, flag, Option.map_some]
  | formatArm format =>
    have named : readOptional 32 (r.getD 2 0#8) = some format := by
      rw [readAlike_whole alike (n := 2) rfl]
      exact readOptional_indexByte (by decide) format
    simp only [readActionKind, code, Action.code, named, Option.map_some]
  | formatTake ms =>
    have most : ms ≤ 2000 := ok
    have fade := nat2_of_alike alike (k := 4) (v := ms) rfl rfl (by omega) rfl rfl
    simp only [readActionKind, code, Action.code, fade, readRange_eq_some (Nat.zero_le _) most, Option.map_some]
  | timerStart timer interval mode =>
    obtain ⟨least, most⟩ := ok
    have timer := readIndex_of_alike alike (k := 2) (i := timer) rfl (by decide) rfl
    have mode := readRunMode_of_alike alike (k := 3) (m := mode) rfl rfl
    have lasts : nat4 (r.getD 4 0#8) (r.getD 5 0#8) (r.getD 6 0#8) (r.getD 7 0#8) = interval := by
      rw [readAlike_whole alike (n := 4) rfl, readAlike_whole alike (n := 5) rfl, readAlike_whole alike (n := 6) rfl,
        readAlike_whole alike (n := 7) rfl]
      refine (nat4_bytes4 (BitVec.ofNat 32 interval)).trans ?_
      rw [BitVec.toNat_ofNat, Nat.mod_eq_of_lt (by omega)]
    simp only [readActionKind, code, Action.code, timer, mode, lasts, readRange_eq_some least most,
      Option.bind_eq_bind, Option.bind_some]
    rfl
  | timerStop timer =>
    have timer := readIndex_of_alike alike (k := 2) (i := timer) rfl (by decide) rfl
    simp only [readActionKind, code, Action.code, timer, Option.map_some]
  | linkOn link =>
    have link := readIndex_of_alike alike (k := 2) (i := link) rfl (by decide) rfl
    simp only [readActionKind, code, Action.code, link, Option.map_some]
  | linkOff link =>
    have link := readIndex_of_alike alike (k := 2) (i := link) rfl (by decide) rfl
    simp only [readActionKind, code, Action.code, link, Option.map_some]
  | notice named =>
    have byte : r.getD 2 0#8 = named := readAlike_whole alike rfl
    simp only [readActionKind, code, Action.code, byte]
  | eqSwap => simp only [readActionKind, code, Action.code]
  | goOut => simp only [readActionKind, code, Action.code]
  | houseStop => simp only [readActionKind, code, Action.code]

/-! ### Cue entries (R122, R123) -/

theorem CueEntry.readMask_length (e : CueEntry) : e.readMask.length = 13 := by
  rw [CueEntry.readMask, List.length_append, List.length_cons, e.action.parameterMask_length]
  rfl

theorem CueEntry.bytes_length (e : CueEntry) : e.bytes.length = 13 := by
  rw [CueEntry.bytes, List.length_append, actionRecord_length]
  rfl

theorem readEntry_reads {e : CueEntry} {b : List Byte} (alike : readAlike e.readMask b e.bytes) (ok : e.action.ok)
    (carried : e.position ≠ noPosition) : readEntry b = some e := by
  have position : BitVec.ofNat 32 (nat4 (b.getD 0 0#8) (b.getD 1 0#8) (b.getD 2 0#8) (b.getD 3 0#8)) = e.position := by
    rw [readAlike_whole alike (n := 0) rfl, readAlike_whole alike (n := 1) rfl, readAlike_whole alike (n := 2) rfl,
      readAlike_whole alike (n := 3) rfl]
    refine (congrArg (BitVec.ofNat 32) (nat4_bytes4 e.position)).trans ?_
    rw [BitVec.ofNat_toNat, BitVec.setWidth_eq]
  have held : readFlag (b.getD 4 0#8) = some e.held := readFlag_of_alike alike rfl rfl
  have action : readActionKind (b.drop 5) = some e.action :=
    readActionKind_reads (screen := 0) (m := 0#8) (readAlike_drop alike 5) ok
  simp only [readEntry, position, held, action, Option.bind_eq_bind, Option.bind_some, if_neg carried]
  rfl

/-- A series whose bytes agree in the bits read is read back entry by entry. -/
theorem readSeries_reads {series : List CueEntry} {p : List Byte}
    (alike : readAlike (series.flatMap CueEntry.readMask) p (series.flatMap CueEntry.bytes))
    (ok : ∀ e ∈ series, e.action.ok) (carried : ∀ e ∈ series, e.position ≠ noPosition) :
    allSome ((chunks 13 series.length p).map readEntry) = some series := by
  induction series generalizing p with
  | nil => rfl
  | cons e rest ih =>
    have first := readAlike_take alike 13
    have others := readAlike_drop alike 13
    rw [List.flatMap_cons, List.flatMap_cons, List.take_left' e.readMask_length,
      List.take_left' e.bytes_length] at first
    rw [List.flatMap_cons, List.flatMap_cons, List.drop_left' e.readMask_length,
      List.drop_left' e.bytes_length] at others
    have read := readEntry_reads first (ok e List.mem_cons_self) (carried e List.mem_cons_self)
    have more := ih others (fun x listed => ok x (List.mem_cons_of_mem e listed))
      fun x listed => carried x (List.mem_cons_of_mem e listed)
    rw [List.length_cons, chunks, List.map_cons, read, allSome, more]
    rfl

/-! ### CUELIST_LOAD (R123) -/

section Load
variable {c : Command} {s : State} {i : Fin 8} {append : Bool} {series : List CueEntry}

/-- The list that a load asks for. -/
def loadedList (append : Bool) (old series : List CueEntry) : List CueEntry := if append then old ++ series else series

theorem mem_loadedList {old : List CueEntry} {e : CueEntry} (listed : e ∈ series) :
    e ∈ loadedList append old series := by
  cases append with
  | false => exact listed
  | true => exact List.mem_append_right _ listed

section Reads
variable (alike : readAlike ([255#8, 255#8] ++ series.flatMap CueEntry.readMask) c.payload
    ([flagByte append, byteOf series.length] ++ series.flatMap CueEntry.bytes)) (fits : series.length ≤ 122)
include alike fits

theorem seriesCount_reads : c.num 1 = series.length :=
  toNat_of_alike alike (k := 1) rfl (by omega) rfl

theorem cuelistLengthSuits_of_alike : cuelistLengthSuits c = true := by
  have size : c.payload.length = 2 + 13 * series.length := by
    rw [alike.1, List.length_append, flatMap_length CueEntry.bytes_length]
    rfl
  rw [cuelistLengthSuits, seriesCount_reads alike fits, size]
  simp

theorem resultingList_reads (ok : ∀ e ∈ series, e.action.ok) {old : List CueEntry}
    (order : cueOrder (loadedList append old series)) :
    resultingList c old = some (loadedList append old series) := by
  obtain ⟨rises, carried⟩ := order
  have mode : readAppend (c.byte 0) = some append := by
    rw [Command.byte, readAlike_whole alike (n := 0) rfl]
    cases append <;> rfl
  have read := readSeries_reads (readAlike_drop alike 2) ok fun e listed => carried e (mem_loadedList listed)
  simp only [resultingList, mode, seriesCount_reads alike fits, read, Option.bind_eq_bind, Option.bind_some]
  exact if_pos (risesStrictly_iff.mpr rises)

end Reads

/-- What a load whose resulting list is `list` leaves and answers. -/
theorem cmdCuelistLoad_answers {list : List CueEntry} (suits : cuelistLengthSuits c = true)
    (selector : c.selector = BitVec.ofNat 8 i.val) (free : s.screens[i].state ≠ .inAlign)
    (result : resultingList c s.cueLists[i].entries = some list) (fits : list.length ≤ 64) {cursor : Nat}
    (placed : (CueList.mk list 0).cursorFor s.screens[i].lastPosition = cursor) :
    cmdCuelistLoad c s =
      (s.onCueList i fun _ => ⟨list, cursor⟩, ⟨.ok, 0#8, [byteOf list.length, byteOf cursor]⟩) := by
  refine (screenCommand_answers suits selector ?_).trans ?_
  · simp only [checkCuelistLoad, isAligning_eq_false free, result, Config.cueCapacity, Nat.not_lt.mpr fits,
      Bool.false_eq_true, if_false]
  · simp only [effectCuelistLoad, result, placed]
    rfl

theorem cmdCuelistLoad_full {list : List CueEntry} (suits : cuelistLengthSuits c = true)
    (selector : c.selector = BitVec.ofNat 8 i.val) (free : s.screens[i].state ≠ .inAlign)
    (result : resultingList c s.cueLists[i].entries = some list) (beyond : 64 < list.length) :
    cmdCuelistLoad c s = (s, ⟨.full, screenFlag i, []⟩) := by
  rw [cmdCuelistLoad, suits]
  refine screenCommand_refused selector ?_
  simp only [checkCuelistLoad, isAligning_eq_false free, result, Config.cueCapacity, beyond, Bool.false_eq_true,
    if_false, if_true]

theorem cmdCuelistLoad_busy (suits : cuelistLengthSuits c = true) (selector : c.selector = BitVec.ofNat 8 i.val)
    (aligns : s.screens[i].state = .inAlign) : cmdCuelistLoad c s = (s, ⟨.busy, screenFlag i, []⟩) := by
  have aligning : s.isAligning i = true := beq_iff_eq.mpr aligns
  rw [cmdCuelistLoad, suits]
  refine screenCommand_refused selector ?_
  rw [checkCuelistLoad, aligning]
  rfl

end Load

/-- Settles O33: every entry of the series reads back, so the resulting list alone decides; the cursor is the one of
`cursorFor_stands`. -/
theorem cuelistLoadStoresTheSeries : Obligations.CuelistLoadStoresTheSeries := by
  refine ⟨fun i a s append series can names free few ok order alike => ?_,
    fun i a s mode n rest can names aligns few payload size => ?_⟩
  · have suits := cuelistLengthSuits_of_alike (c := commandOf 96#8 a) alike few
    have result := resultingList_reads (c := commandOf 96#8 a) alike few ok order
    have stands := cursorFor_stands (l := ⟨loadedList append s.cueLists[i].entries series, 0⟩) order
      s.screens[i].lastPosition
    generalize placed : CueList.cursorFor _ _ = cursor at stands
    refine ⟨fun fits => ⟨cursor, congrArg _ (commandRow_answers can
        (cmdCuelistLoad_answers suits names free result fits placed)), fun absent => ?_, fun q last => ?_⟩,
      fun beyond => congrArg _ (commandRow_refuses can (cmdCuelistLoad_full suits names free result beyond))⟩
    · rw [absent] at stands
      exact stands
    · rw [last] at stands
      exact stands
  · have count : (commandOf 96#8 a).num 1 = n := by
      rw [Command.num, Command.byte]
      show (a.payload.getD 1 0#8).toNat = n
      rw [payload]
      exact toNat_ofNat_byte (by omega)
    have suits : cuelistLengthSuits (commandOf 96#8 a) = true := by
      rw [cuelistLengthSuits, count]
      show (decide (2 ≤ a.payload.length) && a.payload.length == 2 + 13 * n) = true
      rw [payload, List.length_cons, List.length_cons, size, Nat.add_assoc, Nat.add_comm]
      simp
    exact congrArg _ (commandRow_refuses can (cmdCuelistLoad_busy suits names aligns))

/-! ### CUELIST_CLEAR (R124) -/

/-- Settles O34. -/
theorem cuelistClearEmptiesTheList : Obligations.CuelistClearEmptiesTheList := by
  intro i a s can names empty
  have none : (commandOf 97#8 a).payload.isEmpty = true := isEmpty_of_nil empty
  refine ⟨fun free => congrArg _ (commandRow_answers can (screenCommand_answers none names ?_)),
    fun aligns => congrArg _ (commandRow_refuses can ?_)⟩
  · rw [checkCuelistClear, isAligning_eq_false free]
    rfl
  · have aligning : s.isAligning i = true := beq_iff_eq.mpr aligns
    rw [cmdCuelistClear, none]
    refine screenCommand_refused names ?_
    rw [checkCuelistClear, aligning]
    rfl

/-! ### LINK_LOAD (R128) -/

/-- The fifteen bytes of LINK_LOAD: index, trigger, owner, mode, held flag and action record. -/
theorem linkPayload_eq (k : Fin 32) (l : CueLink) : linkPayload k l =
    [byteOf k.val, l.trigger.bytes.getD 0 0#8, l.trigger.bytes.getD 1 0#8, l.trigger.bytes.getD 2 0#8,
      indexByte l.owner, byteOf l.mode.code, flagByte l.held] ++ actionRecord l.action l.target := by
  rw [linkPayload]
  cases l.trigger <;> rfl

section Fields
variable {c : Command} {s : State} {k : Fin 32} {l : CueLink} (alike : readAlike l.readMask c.payload (linkPayload k l))
include alike

theorem linkLoadLength_suits : (c.payload.length == 15) = true := by
  rw [alike.1, linkPayload_eq, List.length_append, actionRecord_length]
  rfl

theorem linkIndex_reads : readLinkIndex c = some k := by
  rw [linkPayload_eq] at alike
  exact readIndex_of_alike alike (k := 0) rfl (by decide) rfl

theorem linkTrigger_reads : readTrigger (c.byte 1) (c.byte 2) (c.byte 3) = some l.trigger := by
  obtain ⟨loaded, enabled, trigger, owner, action, target, mode, held⟩ := l
  rw [linkPayload_eq] at alike
  have kind : c.byte 1 = trigger.bytes.getD 0 0#8 := readAlike_whole alike (n := 1) rfl
  rw [kind]
  cases trigger with
  | showStart i => exact map_readIndex_of_alike alike (k := 2) rfl Trigger.showStart (by decide) rfl
  | showEnd i => exact map_readIndex_of_alike alike (k := 2) rfl Trigger.showEnd (by decide) rfl
  | monitorRaised m => exact map_readIndex_of_alike alike (k := 2) rfl Trigger.monitorRaised (by decide) rfl
  | monitorCleared m => exact map_readIndex_of_alike alike (k := 2) rfl Trigger.monitorCleared (by decide) rfl
  | timer t => exact map_readIndex_of_alike alike (k := 2) rfl Trigger.timer (by decide) rfl
  | lineActive x => exact map_readIndex_of_alike alike (k := 2) rfl Trigger.lineActive (by decide) rfl
  | lineInactive x => exact map_readIndex_of_alike alike (k := 2) rfl Trigger.lineInactive (by decide) rfl
  | alignDone i => exact map_readIndex_of_alike alike (k := 2) rfl Trigger.alignDone (by decide) rfl
  | cue i e =>
    have screen := readIndex_of_alike alike (k := 2) (i := i) rfl (by decide) rfl
    have entry := readIndex_of_alike alike (k := 3) (i := e) rfl (by decide) rfl
    rw [Command.byte, Command.byte]
    show (do let s ← readIndex 8 _; let e ← readIndex 64 _; pure (Trigger.cue s e)) = _
    rw [screen, entry]
    rfl
  | go => rfl
  | houseStop => rfl
  | houseRelease => rfl
  | command => rfl

theorem linkAction_reads (ok : l.action.ok) (unscreened : l.action.onScreen = false → l.target = 0) :
    readLinkAction (c.payload.drop 7) = some (l.action, l.target) := by
  rw [linkPayload_eq] at alike
  have record := readAlike_drop alike 7
  have kind := readActionKind_reads (a := l.action) (screen := l.target)
    (m := if l.action.onScreen then 255#8 else 0#8) record ok
  simp only [readLinkAction, kind, Option.bind_eq_bind, Option.bind_some]
  split
  · rename_i screens
    have target := readIndex_of_alike record (k := 1) (i := l.target) (if_pos screens) (by decide) rfl
    rw [target]
    rfl
  · rename_i screens
    rw [unscreened (Bool.eq_false_iff.mpr screens)]
    rfl

/-- A link as an accepted LINK_LOAD leaves it (R128). -/
def CueLink.asLoaded (l : CueLink) : CueLink := { l with loaded := true, enabled := false }

theorem readLink_reads (ok : l.action.ok) (unscreened : l.action.onScreen = false → l.target = 0) :
    readLink c = if l.trigger = .go ∧ l.action = .goOut then none else some l.asLoaded := by
  have trigger := linkTrigger_reads alike
  have action := linkAction_reads alike ok unscreened
  rw [linkPayload_eq] at alike
  have owner : readOptional 8 (c.byte 4) = some l.owner := by
    rw [Command.byte, readAlike_whole alike (n := 4) rfl]
    exact readOptional_indexByte (by decide) l.owner
  have mode : readRunMode (c.byte 5) = some l.mode := readRunMode_of_alike alike rfl rfl
  have held : readFlag (c.byte 6) = some l.held := readFlag_of_alike alike rfl rfl
  simp only [readLink, trigger, owner, mode, held, action, Option.bind_eq_bind, Option.bind_some]
  rfl

theorem checkLinkLoad_eq : checkLinkLoad c s =
    firstFailure [(s.links[k].enabled, .inUse), ((readLink c).isNone, .badValue)] := by
  rw [checkLinkLoad, linkIndex_reads alike]

theorem cmdLinkLoad_answers (selector : c.selector = 14#8) (disabled : s.links[k].enabled = false) {loaded : CueLink}
    (reads : readLink c = some loaded) : cmdLinkLoad c s = (s.onLink k fun _ => loaded, ⟨.ok, 0#8, []⟩) := by
  refine (unitCommand_answers (linkLoadLength_suits alike) selector ?_).trans ?_
  · rw [checkLinkLoad_eq alike, disabled, reads]
    rfl
  · simp only [effectLinkLoad, linkIndex_reads alike, reads]

theorem cmdLinkLoad_badValue (selector : c.selector = 14#8) (disabled : s.links[k].enabled = false)
    (refused : readLink c = none) : cmdLinkLoad c s = (s, ⟨.badValue, 0#8, []⟩) := by
  rw [cmdLinkLoad, linkLoadLength_suits alike]
  refine unitCommand_refused selector ?_
  rw [checkLinkLoad_eq alike, disabled, refused]
  rfl

theorem cmdLinkLoad_inUse (selector : c.selector = 14#8) (enabled : s.links[k].enabled = true) :
    cmdLinkLoad c s = (s, ⟨.inUse, 0#8, []⟩) := by
  rw [cmdLinkLoad, linkLoadLength_suits alike]
  refine unitCommand_refused selector ?_
  rw [checkLinkLoad_eq alike, enabled]
  rfl

end Fields

/-- Settles O35: every field reads back, and only GO_OUT on the GO trigger is refused. -/
theorem linkLoadStoresEveryAdmittedContent : Obligations.LinkLoadStoresEveryAdmittedContent := by
  intro k a s l can none ok unscreened alike
  have reads := readLink_reads (c := commandOf 98#8 a) alike ok unscreened
  refine ⟨fun disabled admitted => congrArg _ (commandRow_answers can
      (cmdLinkLoad_answers (c := commandOf 98#8 a) alike none disabled (reads.trans (if_neg admitted)))),
    fun disabled trigger action => congrArg _ (commandRow_refuses can
      (cmdLinkLoad_badValue (c := commandOf 98#8 a) alike none disabled (reads.trans (if_pos ⟨trigger, action⟩)))),
    fun enabled => congrArg _ (commandRow_refuses can
      (cmdLinkLoad_inUse (c := commandOf 98#8 a) alike none enabled))⟩

end Sys2Proof.Machine
end

section
/-!
PROOF. LINK_ENABLE, LINK_DISABLE, TIMER_START, TIMER_STOP and TIMER_EXPIRY (R129, R133, R134): the payload names the
link or the timer, and the effect is one write.
-/

namespace Sys2Proof.Machine

section Commands
variable {c : Command} {s : State} {k : Fin 32} {t : Fin 8}

theorem readLinkIndex_eq {rest : List Byte} (payload : c.payload = byteOf k.val :: rest) :
    readLinkIndex c = some k := readIndex_byteOf (by decide) payload

theorem readTimerIndex_eq {rest : List Byte} (payload : c.payload = byteOf t.val :: rest) :
    readTimerIndex c = some t := readIndex_byteOf (by decide) payload

/-! ### LINK_ENABLE and LINK_DISABLE (R129) -/

theorem cmdLinkEnable_answers (selector : c.selector = 14#8) (payload : c.payload = [byteOf k.val])
    (loaded : s.links[k].loaded = true) : cmdLinkEnable c s = (setLink k true s, ⟨.ok, 0#8, []⟩) := by
  have index := readLinkIndex_eq payload
  refine (unitCommand_answers (lengthOne_of_single payload) selector ?_).trans ?_
  · simp only [checkLinkEnable, index, loaded, if_true]
  · simp only [effectLinkFlag, index]

theorem cmdLinkEnable_refused (selector : c.selector = 14#8) (payload : c.payload = [byteOf k.val])
    (empty : s.links[k].loaded = false) : cmdLinkEnable c s = (s, ⟨.badState, 0#8, []⟩) := by
  rw [cmdLinkEnable, lengthOne_of_single payload]
  refine unitCommand_refused selector ?_
  simp only [checkLinkEnable, readLinkIndex_eq payload, empty, Bool.false_eq_true, if_false]

theorem cmdLinkDisable_answers (selector : c.selector = 14#8) (payload : c.payload = [byteOf k.val]) :
    cmdLinkDisable c s = (setLink k false s, ⟨.ok, 0#8, []⟩) := by
  have index := readLinkIndex_eq payload
  refine (unitCommand_answers (lengthOne_of_single payload) selector ?_).trans ?_
  · simp only [checkLinkIndex, index, Option.isNone_some, Bool.false_eq_true, if_false]
  · simp only [effectLinkFlag, index]

/-! ### TIMER_START and TIMER_STOP (R133) -/

theorem readTimerSetting_eq {n : Nat} {mode : RunMode} (least : 1 ≤ n) (most : n ≤ 86400000)
    (payload : c.payload = byteOf t.val :: bytes4 (BitVec.ofNat 32 n) ++ [byteOf mode.code]) :
    readTimerSetting c = some (n, mode) := by
  have interval : c.num4 1 = n := by
    rw [Command.num4, Command.byte, Command.byte, Command.byte, Command.byte, payload]
    refine (nat4_bytes4 (BitVec.ofNat 32 n)).trans ?_
    rw [BitVec.toNat_ofNat, Nat.mod_eq_of_lt (by omega)]
  have runs : readRunMode (c.byte 5) = some mode := by
    rw [Command.byte, payload]
    cases mode <;> rfl
  simp only [readTimerSetting, interval, readRange_eq_some least most, runs, Option.bind_eq_bind, Option.bind_some]
  rfl

theorem cmdTimerStart_answers {n : Nat} {mode : RunMode} (least : 1 ≤ n) (most : n ≤ 86400000)
    (selector : c.selector = 14#8)
    (payload : c.payload = byteOf t.val :: bytes4 (BitVec.ofNat 32 n) ++ [byteOf mode.code]) :
    cmdTimerStart c s = (startTimer t n mode s, ⟨.ok, 0#8, []⟩) := by
  have index := readTimerIndex_eq payload
  have setting := readTimerSetting_eq least most payload
  refine (unitCommand_answers (by rw [payload]; rfl) selector ?_).trans ?_
  · rw [checkTimerStart, index, setting]
    rfl
  · simp only [effectTimerStart, index, setting]

theorem cmdTimerStop_answers (selector : c.selector = 14#8) (payload : c.payload = [byteOf t.val]) :
    cmdTimerStop c s = (stopTimer t s, ⟨.ok, 0#8, []⟩) := by
  have index := readTimerIndex_eq payload
  refine (unitCommand_answers (lengthOne_of_single payload) selector ?_).trans ?_
  · simp only [checkTimerIndex, index, Option.isNone_some, Bool.false_eq_true, if_false]
  · simp only [effectTimerStop, index]

/-! ### TIMER_EXPIRY (R134) -/

theorem expire_eq (x : Timer) (now : Word) :
    x.expire now = if x.mode = .once then { x with running := false } else { x with start := now } := by
  unfold Timer.expire
  split
  · rename_i once
    rw [if_pos once]
  · rename_i repeats
    rw [if_neg (by rw [repeats]; decide)]

theorem expireTimer_eq (t : Fin 8) (s : State) : expireTimer t s = occurs (.timer t) { s with
    timers := s.timers.set t (if s.timers[t].mode = .once then { s.timers[t] with running := false }
      else { s.timers[t] with start := s.timeBase }) } := by
  rw [← expire_eq]
  rfl

end Commands

/-- Settles O36: each command is one write, and an expiry is the timer's state and then its trigger. -/
theorem linksAndTimersAreSwitchedAndExpire : Obligations.LinksAndTimersAreSwitchedAndExpire := by
  refine ⟨fun a s can none => ⟨fun k payload => ⟨fun loaded => ?_, fun empty => ?_, ?_⟩,
      fun t n mode least most payload => ?_, fun t payload => ?_⟩,
    fun t s runs => ⟨fun running due => ?_, fun early => ?_⟩⟩
  · exact congrArg _ (commandRow_answers can (cmdLinkEnable_answers (c := commandOf 99#8 a) none payload loaded))
  · exact congrArg _ (commandRow_refuses can (cmdLinkEnable_refused (c := commandOf 99#8 a) none payload empty))
  · exact congrArg _ (commandRow_answers can (cmdLinkDisable_answers (c := commandOf 100#8 a) none payload))
  · exact congrArg _ (commandRow_answers can
      (cmdTimerStart_answers (c := commandOf 101#8 a) least most none payload))
  · exact congrArg _ (commandRow_answers can (cmdTimerStop_answers (c := commandOf 102#8 a) none payload))
  · exact congrArg _ ((timedRow_due runs ((dueTimer_iff t s).mpr ⟨running, due⟩)).trans (expireTimer_eq t s))
  · refine congrArg _ (timedRow_early fun comes => ?_)
    obtain ⟨running, due⟩ := (dueTimer_iff t s).mp comes
    cases early with
    | inl stopped => exact Bool.false_ne_true (stopped.symm.trans running)
    | inr early => exact Nat.not_le.mpr early due

end Sys2Proof.Machine
end

section
/-!
PROOF. Triggers and CUE_FIRE (R121, R130 to R132), the execution of an action (R119, R120, R141), and the held list with
GO and GO_CANCEL (R136 to R138).
-/

namespace Sys2Proof.Machine

/-! ### Triggers (R130) -/

theorem mem_matching {t : Trigger} {s : State} {k : Fin 32} :
    k ∈ s.matching t ↔ s.links[k].enabled = true ∧ s.links[k].trigger = t := by
  rw [State.matching, List.mem_filter, Bool.and_eq_true, beq_iff_eq, and_iff_right (mem_indexes k)]

theorem indexes_ascend (n : Nat) : (indexes n).Pairwise (· < ·) := List.pairwise_lt_finRange n

theorem matching_ascends (t : Trigger) (s : State) : (s.matching t).Pairwise (· < ·) := (indexes_ascend 32).filter _

theorem matching_eq_nil {t : Trigger} {s : State}
    (unmatched : ∀ k : Fin 32, s.links[k].enabled = true → s.links[k].trigger ≠ t) : s.matching t = [] :=
  List.eq_nil_iff_forall_not_mem.mpr fun k listed =>
    unmatched k (mem_matching.mp listed).1 (mem_matching.mp listed).2

/-! ### CUE_FIRE (R132) -/

section CueFire
variable {c : Command} {s : State} {k : Fin 32}

theorem cmdCueFire_answers (selector : c.selector = 14#8) (payload : c.payload = [byteOf k.val])
    (enabled : s.links[k].enabled = true) (command : s.links[k].trigger = .command) :
    cmdCueFire c s = (fireLink occurs s k, ⟨.ok, 0#8, []⟩) := by
  have index := readLinkIndex_eq payload
  refine (unitCommand_answers (lengthOne_of_single payload) selector ?_).trans ?_
  · simp only [checkCueFire, index, enabled, command, beq_self_eq_true, Bool.and_true, if_true]
  · simp only [effectCueFire, index]

theorem cmdCueFire_refused (selector : c.selector = 14#8) (payload : c.payload = [byteOf k.val])
    (other : s.links[k].enabled = false ∨ s.links[k].trigger ≠ .command) :
    cmdCueFire c s = (s, ⟨.badState, 0#8, []⟩) := by
  rw [cmdCueFire, lengthOne_of_single payload]
  refine unitCommand_refused selector ?_
  simp only [checkCueFire, readLinkIndex_eq payload]
  refine if_neg fun fires => ?_
  obtain ⟨enabled, command⟩ := Bool.and_eq_true_iff.mp fires
  cases other with
  | inl disabled => exact Bool.false_ne_true (disabled.symm.trans enabled)
  | inr other => exact other (beq_iff_eq.mp command)

end CueFire

/-- Settles O37: a trigger is one pass over the links it matches, and CUE_FIRE fires its link. -/
theorem triggersAndCueFireFireLinks : Obligations.TriggersAndCueFireFireLinks := by
  refine ⟨fun t s => ⟨⟨s.matching t, matching_ascends t s, fun k => mem_matching, rfl⟩, fun unmatched => ?_⟩,
    fun k a s can none payload => ⟨fun enabled command => ?_, fun other => ?_⟩⟩
  · rw [occurs, occursWithin, matching_eq_nil unmatched]
    rfl
  · exact congrArg _ (commandRow_answers can (cmdCueFire_answers (c := commandOf 104#8 a) none payload enabled command))
  · exact congrArg _ (commandRow_refuses can (cmdCueFire_refused (c := commandOf 104#8 a) none payload other))

/-! ### Executing an action (R119, R120, R141) -/

/-- R119's tests of a screen's state, before any third test. -/
theorem firstFailure_offAlign {st : ScreenState} {rest : List (Bool × SkipReason)} :
    firstFailure ((st == .off, .off) :: (st == .inAlign, .align) :: rest) =
      if st = .off then some .off else if st = .inAlign then some .align else firstFailure rest := by
  simp only [firstFailure, beq_iff_eq]

theorem skipReason_eq_skipOf (a : Action) (i : Fin 8) (s : State) : skipReason a i s = skipOf a i s := by
  cases a with
  | fader target ms => exact firstFailure_offAlign
  | mute on => exact firstFailure_offAlign
  | formatArm format =>
    cases format with
    | none => simp only [skipReason, skipOf, firstFailure, beq_iff_eq]
    | some j =>
      simp only [skipReason, skipOf, firstFailure, beq_iff_eq, FormatEntry.fits, ← Bool.not_and]
      cases s.formats[j].valid && s.formats[j].terms.all _ <;> rfl
  | formatTake ms =>
    refine firstFailure_offAlign.trans ?_
    simp only [skipOf, firstFailure, Option.isNone_iff_eq_none]
  | eqSwap =>
    refine firstFailure_offAlign.trans ?_
    simp only [skipOf, firstFailure]
    cases s.screens[i].eqSwap <;> rfl
  | linkOn k =>
    simp only [skipReason, skipOf, firstFailure]
    cases s.links[k].loaded <;> rfl
  | linkOff k =>
    simp only [skipReason, skipOf, firstFailure]
    cases s.links[k].loaded <;> rfl
  | _ => rfl

theorem isRehearsed_iff {a : Action} {i : Fin 8} {owner : Option (Fin 8)} {s : State} :
    isRehearsed a i owner s = true ↔ ∃ o, owner = some o ∧ rehearsedBy a i o s := by
  have held (o : Fin 8) : (s.screens[o].rehearsal && heldBackBy a i o s) = true ↔ rehearsedBy a i o s := by
    rw [Bool.and_eq_true]
    cases a <;> simp [heldBackBy, rehearsedBy]
  cases owner with
  | none => simp [isRehearsed]
  | some o =>
    exact (held o).trans ⟨fun rehearsed => ⟨o, rfl, rehearsed⟩,
      fun ⟨_, same, rehearsed⟩ => by cases same; exact rehearsed⟩

section Execute
variable {trig : Trigger → State → State} {source : Source} {owner : Option (Fin 8)} {i : Fin 8} {a : Action}
  {released : Bool} {s : State}

theorem executeAction_skipped {why : SkipReason} (skips : skipOf a i s = some why) :
    executeAction trig source owner i a released s = file owner (.cueSkipped source a released why) s := by
  rw [← skipReason_eq_skipOf] at skips
  rw [executeAction, skips]

theorem executeAction_rehearsed (applies : skipOf a i s = none)
    (rehearsed : ∃ o, owner = some o ∧ rehearsedBy a i o s) :
    executeAction trig source owner i a released s = file owner (.cueFired source a released true) s := by
  rw [← skipReason_eq_skipOf] at applies
  rw [executeAction, applies]
  exact if_pos (isRehearsed_iff.mpr rehearsed)

theorem executeAction_performed (applies : skipOf a i s = none)
    (performs : ¬∃ o, owner = some o ∧ rehearsedBy a i o s) : executeAction trig source owner i a released s =
      perform trig source owner i a (file owner (.cueFired source a released false) s) := by
  rw [← skipReason_eq_skipOf] at applies
  rw [executeAction, applies]
  exact if_neg fun rehearsed => performs (isRehearsed_iff.mp rehearsed)

end Execute

theorem swapBanks_eq (i : Fin 8) (s : State) : swapBanks i s = s.onScreen i fun x =>
    { x with eqLive := if x.eqLive = .a then .b else .a, eqSwap := some ⟨s.timeBase, x.eqLive⟩ } := by
  have other (name : BankName) : name.other = if name = .a then .b else .a := by cases name <;> rfl
  simp only [swapBanks, other]

theorem requestGoPulse_starts {s : State} (idle : s.house.goPulse = none) : requestGoPulse s =
    { s with house := { s.house with
      goPulse := some s.timeBase
      goSince := if s.house.goOthers then s.house.goSince else s.timeBase } } := by
  have pulls : requestGoPulse s = goChange (fun h => { h with goPulse := some s.timeBase }) s := by
    rw [requestGoPulse, idle]
    rfl
  rw [pulls, goChange, State.onHouse]
  simp only [House.goPin, idle, Option.isSome_some, Option.isSome_none, Bool.or_true, Bool.or_false,
    eq_comm (a := true)]

theorem requestGoPulse_runsOn {s : State} (pulses : s.house.goPulse ≠ none) : requestGoPulse s = s :=
  if_pos (Option.isSome_iff_ne_none.mpr pulses)

/-- Settles O38: the tests of R119 and of R141 are the model's, and each effect is its request's. -/
theorem actionsAreSkippedRehearsedOrPerformed : Obligations.ActionsAreSkippedRehearsedOrPerformed :=
  ⟨fun _ _ _ _ _ _ _ => ⟨fun _ => executeAction_skipped, executeAction_rehearsed, executeAction_performed⟩,
    fun _ _ _ i s => ⟨fun _ _ => rfl, fun _ _ _ _ => rfl, fun _ => rfl, fun _ _ => rfl, fun _ => rfl, fun _ => rfl,
      swapBanks_eq i s, fun _ _ _ => rfl, fun _ => rfl, fun _ => rfl, fun _ => rfl, requestGoPulse_starts,
      requestGoPulse_runsOn, rfl, fun _ => rfl⟩⟩

/-! ### The held list (R136) -/

section Hold
variable {trig : Trigger → State → State} {source : Source} {owner : Option (Fin 8)} {i : Fin 8} {a : Action}
  {s : State}

theorem holdAction_stopped (stops : s.stopActive = true) :
    holdAction trig source owner i a s = file owner (.cueSkipped source a false .houseStop) s := if_pos stops

/-- GO is asserted and the unit takes it as a level, so nothing waits for an event (R136). -/
theorem goesAtOnce_iff : (s.house.goLevel && s.house.goInput && s.house.goSensed) = true ↔
    s.house.goLevel = true ∧ s.house.goInput = true ∧ s.house.goSensed = true := by
  rw [Bool.and_eq_true, Bool.and_eq_true, and_assoc]

variable (runs : s.stopActive = false)
include runs

theorem holdAction_atOnce (goes : s.house.goLevel = true ∧ s.house.goInput = true ∧ s.house.goSensed = true) :
    holdAction trig source owner i a s = executeAction trig source owner i a false s := by
  rw [holdAction, if_neg (Bool.eq_false_iff.mp runs), if_pos (goesAtOnce_iff.mpr goes)]

variable (waits : ¬(s.house.goLevel = true ∧ s.house.goInput = true ∧ s.house.goSensed = true))
include waits

theorem holdAction_full (full : 16 ≤ s.held.length) :
    holdAction trig source owner i a s = file owner (.cueSkipped source a false .heldFull) s := by
  rw [holdAction, if_neg (Bool.eq_false_iff.mp runs), if_neg (goesAtOnce_iff.not.mpr waits)]
  exact if_pos full

theorem holdAction_holds (room : s.held.length < 16) : holdAction trig source owner i a s =
    file owner (.cueHeld source a (s.held.length + 1))
      { s with held := s.held ++ [⟨source, a, i, owner, s.timeBase⟩] } := by
  rw [holdAction, if_neg (Bool.eq_false_iff.mp runs), if_neg (goesAtOnce_iff.not.mpr waits)]
  refine (if_neg (Nat.not_le.mpr room)).trans ?_
  dsimp only
  rw [List.length_append]
  rfl

end Hold

/-! ### GO (R137, R152) -/

/-- Emptying an empty held list changes nothing. -/
theorem withoutHeld_of_empty {s : State} (empty : s.held = []) : { s with held := [] } = s := by rw [← empty]

theorem goEvent_eq (s : State) : goEvent s = occurs .go (if s.held = [] then s
    else file none (.goReleased s.held.length) (s.held.foldl releaseHeld { s with held := [] })) := by
  unfold goEvent
  dsimp only
  by_cases empty : s.held = []
  · rw [if_pos empty, if_pos (List.isEmpty_iff.mpr empty), withoutHeld_of_empty empty, empty]
    rfl
  · rw [if_neg empty, if_neg (mt List.isEmpty_iff.mp empty)]

theorem takeGo_asserted {s : State} (input : s.house.goInput = true) (pin : s.house.goPin = true) :
    takeGo s = goEvent { s with house := { s.house with goSensed := true } } := by
  have senses : s.onHouse (fun h => { h with goSensed := h.goPin }) =
      { s with house := { s.house with goSensed := true } } := by rw [State.onHouse, pin]
  rw [takeGo, senses]
  exact if_pos (Bool.and_eq_true_iff.mpr ⟨rfl, input⟩)

/-- A cancellation of the held list by a command (R138). -/
theorem cancelHeld_eq (byHouseStop : Bool) (s : State) : cancelHeld byHouseStop s = if s.held = [] then s
    else file none (.goCancelled s.held.length byHouseStop) { s with held := [] } := by
  split
  · exact cancelHeld_empty byHouseStop ‹_›
  · exact cancelHeld_filled byHouseStop ‹_›

theorem cmdGoCancel_answers {c : Command} (s : State) (selector : c.selector = 14#8) (empty : c.payload = []) :
    cmdGoCancel c s = (if s.held = [] then s
      else file none (.goCancelled s.held.length false) { s with held := [] }, ⟨.ok, 0#8, [byteOf s.held.length]⟩) := by
  rw [← cancelHeld_eq]
  exact unitCommand_answers (isEmpty_of_nil empty) selector rfl

/-- Settles O39. -/
theorem theHeldListHoldsReleasesAndCancels : Obligations.TheHeldListHoldsReleasesAndCancels := by
  refine ⟨fun trig src owner i a s => ⟨holdAction_stopped, holdAction_atOnce, holdAction_full, holdAction_holds⟩,
    fun s runs input unsensed pin since => ?_,
    fun a s can none empty =>
      congrArg _ (commandRow_answers can (cmdGoCancel_answers (c := commandOf 106#8 a) s none empty))⟩
  have due : dueGo s = true := (dueGo_iff s).mpr ⟨by rw [unsensed]; exact ne_of_eq_of_ne pin nofun, since⟩
  intro sensed released
  exact congrArg _ ((timedRow_due runs due).trans ((takeGo_asserted input pin).trans (goEvent_eq _)))

end Sys2Proof.Machine
end

section
/-!
PROOF. A cue list's taking of a block (R125, R126): nothing that the Cue Engine does changes a list, so the entries that
are due are those of the list as the block found it, and the cursor is placed in that list.
-/

namespace Sys2Proof.Machine

/-! ### What leaves the cue lists -/

theorem lists_of_cueing {s t : State} (same : t.cueing = s.cueing) : t.cueLists = s.cueLists :=
  congrArg Cueing.lists same

theorem foldl_lists {α : Type} {f : State → α → State} (each : ∀ s x, (f s x).cueLists = s.cueLists) (l : List α)
    (s : State) : (l.foldl f s).cueLists = s.cueLists := by
  induction l generalizing s with
  | nil => rfl
  | cons x rest ih => rw [List.foldl_cons, ih, each]

theorem cancelHeld_lists (byHouseStop : Bool) (s : State) : (cancelHeld byHouseStop s).cueLists = s.cueLists :=
  congrArg Cueing.lists (cancelHeld_cueing byHouseStop s)

section Triggers
variable {trig : Trigger → State → State} (causes : ∀ t s, (trig t s).cueLists = s.cueLists)
include causes

theorem houseChange_lists (f : House → House) (s : State) : (houseChange trig f s).cueLists = s.cueLists := by
  have entry (s : State) : (houseEntry trig s).cueLists = s.cueLists := by
    rw [houseEntry, causes, lists_of_cueing (fillSlot_cueing _), cancelHeld_lists,
      lists_of_cueing (foldl_cueing _ houseStopsScreen_cueing _)]
  have release (s : State) : (houseRelease trig s).cueLists = s.cueLists := by
    rw [houseRelease, causes, lists_of_cueing (fillSlot_cueing _),
      lists_of_cueing (foldl_cueing _ houseReleasesScreen_cueing _)]
  unfold houseChange
  dsimp only
  split
  · exact entry _
  · split
    · exact release _
    · rfl

theorem perform_lists (source : Source) (owner : Option (Fin 8)) (i : Fin 8) (a : Action) (s : State) :
    (perform trig source owner i a s).cueLists = s.cueLists := by
  cases a with
  | houseStop => exact houseChange_lists causes _ s
  | _ => exact lists_of_cueing (by simp [perform])

theorem executeAction_lists (source : Source) (owner : Option (Fin 8)) (i : Fin 8) (a : Action) (released : Bool)
    (s : State) : (executeAction trig source owner i a released s).cueLists = s.cueLists := by
  unfold executeAction
  split
  · exact lists_of_cueing (file_cueing ..)
  · split
    · exact lists_of_cueing (file_cueing ..)
    · rw [perform_lists causes, lists_of_cueing (file_cueing ..)]

theorem fireAction_lists (source : Source) (owner : Option (Fin 8)) (i : Fin 8) (a : Action) (held : Bool) (s : State) :
    (fireAction trig source owner i a held s).cueLists = s.cueLists := by
  unfold fireAction holdAction
  split
  · split
    · exact lists_of_cueing (file_cueing ..)
    · split
      · exact executeAction_lists causes ..
      · split
        · exact lists_of_cueing (file_cueing ..)
        · exact (lists_of_cueing (file_cueing ..)).trans rfl
  · exact executeAction_lists causes ..

theorem fireLink_lists (s : State) (k : Fin 32) : (fireLink trig s k).cueLists = s.cueLists := by
  unfold fireLink
  extract_lets l fired
  have fires : fired.cueLists = s.cueLists := fireAction_lists causes ..
  split <;> exact fires

end Triggers

theorem occursWithin_lists (depth : Nat) (t : Trigger) (s : State) :
    (occursWithin depth t s).cueLists = s.cueLists := by
  induction depth generalizing t s with
  | zero => rfl
  | succ depth ih => exact foldl_lists (fireLink_lists ih) _ s

theorem occurs_lists (t : Trigger) (s : State) : (occurs t s).cueLists = s.cueLists := occursWithin_lists 3 t s

theorem processEntry_lists (i : Fin 8) (p : Word) (entries : List CueEntry) (s : State) (k : Fin 64) :
    (processEntry i p entries s k).cueLists = s.cueLists := by
  unfold processEntry
  split
  · rfl
  · split
    · split
      · exact lists_of_cueing (file_cueing ..)
      · rw [fireEntry, occurs_lists, fireAction_lists occurs_lists]
    · rfl

/-! ### The entries that are due (R125, R126) -/

section Due
variable {l : CueList} {last : Option Word} {p : Word}

/-- Where the cursor is placed, told from the entries at and past it. -/
theorem placed_le_iff (order : cueOrder l.entries) {k : Nat} {e : CueEntry} (stands : l.entries[k]? = some e) :
    l.placed last p ≤ k ↔ match last with
      | none => p ≤ e.position
      | some q => if p < q then p ≤ e.position else l.cursor ≤ k := by
  have upward (x y : CueEntry) (rises : x.position < y.position) (reached : decide (p ≤ x.position) = true) :
      decide (p ≤ y.position) = true :=
    decide_eq_true (BitVec.le_trans (of_decide_eq_true reached) (BitVec.le_of_lt rises))
  have first : (l.firstWhere fun e => decide (p ≤ e.position)) ≤ k ↔ p ≤ e.position := by
    rw [← Nat.not_lt, lt_firstWhere_iff order upward stands, Bool.not_eq_false, decide_eq_true_iff]
  cases last with
  | none => exact first
  | some q =>
    rw [CueList.placed]
    by_cases back : p < q
    · rw [if_pos back]
      simp only [if_pos back]
      exact first
    · rw [if_neg back]
      simp only [if_neg back]

/-- The entry at an index stands at or before a position. -/
def CueList.reachedBy (l : CueList) (p : Word) (k : Fin 64) : Bool :=
  l.entries[k.val]?.any fun e => decide (e.position ≤ p)

theorem reachedBy_iff {k : Fin 64} : l.reachedBy p k = true ↔ ∃ e, l.entries[k.val]? = some e ∧ e.position ≤ p := by
  rw [CueList.reachedBy, Option.any_eq_true]
  simp only [decide_eq_true_iff]

/-- The entries that a block at `p` processes, in order. -/
def CueList.due (l : CueList) (last : Option Word) (p : Word) : List (Fin 64) :=
  (indexes 64).filter fun k => l.reachedBy p k && decide (l.placed last p ≤ k.val)

theorem due_ascends : (l.due last p).Pairwise (· < ·) := (indexes_ascend 64).filter _

theorem mem_due (order : cueOrder l.entries) {k : Fin 64} : k ∈ l.due last p ↔
    ∃ e, l.entries[k.val]? = some e ∧ e.position ≤ p ∧ match last with
      | none => p ≤ e.position
      | some q => if p < q then p ≤ e.position else l.cursor ≤ k.val := by
  rw [CueList.due, List.mem_filter, and_iff_right (mem_indexes k), Bool.and_eq_true, reachedBy_iff, decide_eq_true_iff]
  constructor
  · rintro ⟨⟨e, stands, reached⟩, placed⟩
    exact ⟨e, stands, reached, (placed_le_iff order stands).mp placed⟩
  · rintro ⟨e, stands, reached, placed⟩
    exact ⟨⟨e, stands, reached⟩, (placed_le_iff order stands).mpr placed⟩

/-- An entry that is due is skipped beyond the catch-up window and fires within it (R126). -/
def processDue (i : Fin 8) (p : Word) (entries : List CueEntry) (s : State) (k : Fin 64) : State :=
  match entries[k.val]? with
  | none => s
  | some e =>
    if e.position.toNat + s.screens[i].catchupWindow < p.toNat then
      file (some i) (.cueSkipped (.entry i k) e.action false .jump) s
    else occurs (.cue i k) (fireAction occurs (.entry i k) (some i) i e.action e.held s)

theorem processEntry_eq (i : Fin 8) (s : State) (k : Fin 64) : processEntry i p l.entries s k =
    if l.reachedBy p k then processDue i p l.entries s k else s := by
  unfold processEntry processDue CueList.reachedBy fireEntry
  cases l.entries[k.val]? with
  | none => rfl
  | some e => simp only [Option.any_some, decide_eq_true_iff]

theorem foldl_processEntry (i : Fin 8) (s : State) :
    ((indexes 64).filter fun k => decide (l.placed last p ≤ k.val)).foldl (processEntry i p l.entries) s =
      (l.due last p).foldl (processDue i p l.entries) s := by
  have each : processEntry i p l.entries = fun u k => if l.reachedBy p k then processDue i p l.entries u k else u :=
    funext₂ (processEntry_eq i)
  rw [CueList.due, ← List.filter_filter, List.foldl_filter (p := l.reachedBy p), each]

end Due

theorem takeCues_eq (i : Fin 8) (p : Word) (s : State) : takeCues i p s =
    ((s.cueLists[i].due s.screens[i].lastPosition p).foldl (processDue i p s.cueLists[i].entries) s).onCueList i
      fun l => { l with cursor := s.cueLists[i].cursorFor (some p) } := by
  unfold takeCues
  extract_lets l start processed
  have unchanged : processed.cueLists = s.cueLists := foldl_lists (processEntry_lists i p l.entries) _ s
  have processes : processed = (l.due s.screens[i].lastPosition p).foldl (processDue i p l.entries) s :=
    foldl_processEntry i s
  rw [← processes, State.onCueList, State.onCueList, modifyAt, modifyAt, unchanged]

/-- Settles O40: the entries due are the list's own as the block found it, and the cursor is placed as
`cursorFor_stands` says. -/
theorem aBlockProcessesTheDueEntries : Obligations.ABlockProcessesTheDueEntries := by
  intro i p s order _ l
  obtain ⟨within, past⟩ := cursorFor_stands order (some p)
  exact ⟨l.due s.screens[i].lastPosition p, l.cursorFor (some p), due_ascends, fun k => mem_due order,
    takeCues_eq i p s, within, past⟩

end Sys2Proof.Machine
end

section
/-!
PROOF. HOUSE_STOP, HOUSE_RELEASE and HOUSE_SETUP (R149, R150): each command is one change of the controller, taken whole,
and a reply that carries the source set reads it after the change.
-/

namespace Sys2Proof.Machine

section Commands
variable {c : Command} {s : State}

/-! ### HOUSE_STOP and HOUSE_RELEASE (R149) -/

theorem cmdHouseStop_answers (selector : c.selector = 14#8) (empty : c.payload = []) :
    let stop := changed (fun h => { h with set := { h.set with command := true } }) s
    cmdHouseStop c s = (stop, ⟨.ok, 0#8, [byteOf stop.house.set.bits]⟩) := by
  rw [← houseChange_eq_changed]
  exact unitCommand_answers (isEmpty_of_nil empty) selector rfl

theorem cmdHouseRelease_answers (selector : c.selector = 14#8) (empty : c.payload = []) :
    let free := changed (fun h => { h with set := { h.set with command := false, monitor := false, cue := false } }) s
    cmdHouseRelease c s = (free, ⟨.ok, 0#8, [byteOf free.house.set.bits]⟩) := by
  rw [← houseChange_eq_changed]
  exact unitCommand_answers (isEmpty_of_nil empty) selector rfl

/-! ### HOUSE_SETUP (R150) -/

section Setup
variable {lineIn lineOut goIn level : Bool}
  (payload : c.payload = [flagByte lineIn, flagByte lineOut, flagByte goIn, flagByte level])
include payload

theorem readHouseSetup_eq : readHouseSetup c = some (lineIn, lineOut, goIn, level) := by
  have line : readFlag (c.byte 0) = some lineIn := by rw [Command.byte, payload]; exact readFlag_flagByte lineIn
  have drive : readFlag (c.byte 1) = some lineOut := by rw [Command.byte, payload]; exact readFlag_flagByte lineOut
  have go : readFlag (c.byte 2) = some goIn := by rw [Command.byte, payload]; exact readFlag_flagByte goIn
  have mode : readCode [false, true] (c.byte 3) = some level := by rw [Command.byte, payload]; cases level <;> rfl
  simp only [readHouseSetup, line, drive, go, mode, Option.bind_eq_bind, Option.bind_some]
  rfl

theorem cmdHouseSetup_answers (selector : c.selector = 14#8) : cmdHouseSetup c s = (changed (fun h =>
    { h with lineInput := lineIn, lineOutput := lineOut, goInput := goIn, goLevel := level }) s, ⟨.ok, 0#8, []⟩) := by
  have setup := readHouseSetup_eq payload
  refine (unitCommand_answers (by rw [payload]; rfl) selector ?_).trans ?_
  · rw [checkHouseSetup, setup]
    rfl
  · simp only [effectHouseSetup, setup, houseChange_eq_changed]

end Setup

end Commands

/-- Settles O42: each command is one change of the controller, taken whole. -/
theorem houseCommandsChangeTheSourceSet : Obligations.HouseCommandsChangeTheSourceSet :=
  ⟨fun a _ can none empty =>
    ⟨congrArg _ (commandRow_answers can (cmdHouseStop_answers (c := commandOf 113#8 a) none empty)),
      congrArg _ (commandRow_answers can (cmdHouseRelease_answers (c := commandOf 114#8 a) none empty))⟩,
    fun a _ _ _ _ _ can none payload =>
      congrArg _ (commandRow_answers can (cmdHouseSetup_answers (c := commandOf 112#8 a) payload none))⟩

end Sys2Proof.Machine
end

section
/-!
PROOF. The wires and their filters (R144, R152, R153, R156): a pin's level is written at once, the sensed level follows
when the pin has held another one, and this unit's own GO pulse drives the GO pin.
-/

namespace Sys2Proof.Machine

/-! ### Pins (R156) -/

section Lines
variable {s : State} {l : Fin 16}

theorem onLine_same (f : BoothLine → BoothLine) : (s.onLine l f).lines[l] = f s.lines[l] := modifyAt_same ..

/-- A change of a pin writes the level and its time alone. -/
theorem movedLine_filter (level : Bool) (now : Word) :
    (s.onLine l fun x => x.moves level now).lines[l].filter = s.lines[l].filter := by
  rw [onLine_same]
  rfl

theorem movedLine_mode (level : Bool) (now : Word) :
    (s.onLine l fun x => x.moves level now).lines[l].mode = s.lines[l].mode := by
  rw [onLine_same]
  rfl

/-- A change of a pin behind a filter waits for the filter. -/
theorem linePinChange_waits {level : Bool} (filters : s.lines[l].filter ≠ .none) :
    exec (.linePinChange l level) s = .next (s.onLine l fun x => x.moves level s.timeBase) :=
  congrArg _ (if_neg ((movedLine_filter level s.timeBase).trans_ne filters))

/-- With filter NONE the row goes on as the filter's own. -/
theorem linePinChange_unfiltered {level : Bool} (unfiltered : s.lines[l].filter = .none) :
    exec (.linePinChange l level) s =
      .next (timedRow (dueLine l) (takeLine l) (s.onLine l fun x => x.moves level s.timeBase)) :=
  congrArg _ (if_pos ((movedLine_filter level s.timeBase).trans unfiltered))

end Lines

/-! ### HSTOP and GO sensed (R143, R144, R152) -/

section Sensed
variable {s : State}

theorem takeHstop_eq (s : State) : takeHstop s = changed (fun h => { h with hstopSensed := h.hstopPin }) s :=
  houseChange_eq_changed ..

/-- Without an assertion that the unit takes as input, no GO event follows. -/
theorem takeGo_unasserted (quiet : s.house.goPin = false ∨ s.house.goInput = false) :
    takeGo s = { s with house := { s.house with goSensed := s.house.goPin } } := by
  have event : (s.house.goPin && s.house.goInput) = false := Bool.and_eq_false_iff.mpr quiet
  exact if_neg (Bool.eq_false_iff.mp event)

end Sensed

/-! ### The GO pulse (R153) -/

section Pulse
variable {c : Command} {s : State}

/-- A pulse that begins or ends moves the pin where no other unit asserts GO. -/
theorem goChange_pulse {pulse : Option Word} (turns : pulse.isSome = !s.house.goPulse.isSome) :
    goChange (fun h => { h with goPulse := pulse }) s = { s with house := { s.house with
      goPulse := pulse
      goSince := if s.house.goOthers then s.house.goSince else s.timeBase } } := by
  have stays : (s.house.goOthers || pulse.isSome) = s.house.goPin ↔ s.house.goOthers = true := by
    rw [House.goPin, turns]
    cases s.house.goOthers <;> cases s.house.goPulse.isSome <;> decide
  have since : (if (s.house.goOthers || pulse.isSome) = s.house.goPin then s.house.goSince else s.timeBase) =
      if s.house.goOthers then s.house.goSince else s.timeBase := if_congr stays rfl rfl
  rw [← since]
  rfl

theorem requestGoPulse_begins (idle : s.house.goPulse = none) : requestGoPulse s = { s with house := { s.house with
    goPulse := some s.timeBase
    goSince := if s.house.goOthers then s.house.goSince else s.timeBase } } := by
  rw [requestGoPulse, idle]
  exact goChange_pulse (by rw [idle]; rfl)

theorem requestGoPulse_ignored (flies : s.house.goPulse ≠ none) : requestGoPulse s = s :=
  if_pos (Option.isSome_iff_ne_none.mpr flies)

theorem cmdGoPulse_answers (selector : c.selector = 14#8) (empty : c.payload = []) :
    cmdGoPulse c s = (requestGoPulse s, ⟨.ok, 0#8, [flagByte s.house.goPulse.isNone]⟩) :=
  unitCommand_answers (isEmpty_of_nil empty) selector rfl

theorem cmdGoPulse_begins (selector : c.selector = 14#8) (empty : c.payload = []) (idle : s.house.goPulse = none) :
    cmdGoPulse c s = ({ s with house := { s.house with
      goPulse := some s.timeBase
      goSince := if s.house.goOthers then s.house.goSince else s.timeBase } }, ⟨.ok, 0#8, [1#8]⟩) := by
  rw [cmdGoPulse_answers selector empty, requestGoPulse_begins idle, idle]
  rfl

theorem cmdGoPulse_ignored (selector : c.selector = 14#8) (empty : c.payload = []) (flies : s.house.goPulse ≠ none) :
    cmdGoPulse c s = (s, ⟨.ok, 0#8, [0#8]⟩) := by
  rw [cmdGoPulse_answers selector empty, requestGoPulse_ignored flies, Option.isNone_eq_false_iff.mpr
    (Option.isSome_iff_ne_none.mpr flies)]
  rfl

end Pulse

/-- Settles O43: each sensed level when its pin has held another one for 1 ms and when it has not, and the pulse as it
begins, runs and ends. -/
theorem wiresAreSensedThroughTheirFilters : Obligations.WiresAreSensedThroughTheirFilters := by
  refine ⟨fun s level => ⟨rfl, rfl, fun l filters => linePinChange_waits filters⟩,
    fun s runs => ⟨fun moved held => ?_, fun early => ?_⟩,
    fun s runs moved held quiet => ?_,
    fun s runs early => ?_,
    fun a s => ⟨fun can none empty idle => ?_, fun can none empty flies => ?_,
      fun start runs flies => ⟨fun ends => ?_, fun early => ?_⟩⟩⟩
  · exact congrArg _ ((timedRow_due runs ((dueHstop_iff s).mpr ⟨moved, held⟩)).trans (takeHstop_eq s))
  · refine congrArg _ (timedRow_early fun comes => ?_)
    obtain ⟨moved, held⟩ := (dueHstop_iff s).mp comes
    exact early.elim moved (Nat.not_lt.mpr held)
  · exact congrArg _ ((timedRow_due runs ((dueGo_iff s).mpr ⟨moved, held⟩)).trans (takeGo_unasserted quiet))
  · refine congrArg _ (timedRow_early fun comes => ?_)
    obtain ⟨moved, held⟩ := (dueGo_iff s).mp comes
    exact early.elim moved (Nat.not_lt.mpr held)
  · exact congrArg _ (commandRow_answers can (cmdGoPulse_begins (c := commandOf 105#8 a) none empty idle))
  · exact congrArg _ (commandRow_answers can (cmdGoPulse_ignored (c := commandOf 105#8 a) none empty flies))
  · exact congrArg _ ((timedRow_due runs ((dueGoPulse_iff s).mpr ⟨start, flies, ends⟩)).trans
      (goChange_pulse (by rw [flies]; rfl)))
  · refine congrArg _ (timedRow_early fun comes => ?_)
    obtain ⟨began, begins, ends⟩ := (dueGoPulse_iff s).mp comes
    rw [flies] at begins
    cases begins
    exact Nat.not_le.mpr early ends

end Sys2Proof.Machine
end

section
/-!
PROOF. LINE_SETUP, LINE_SET and the steps of a pulse train (R154, R157): the payload reads back as the values, and each
effect is one write to the line.
-/

namespace Sys2Proof.Machine

/-! ### The payload of LINE_SETUP (section 11.4) -/

section Fields
variable {c : Command} {l : Fin 16} {v : LineValues}

theorem readLineIndex_eq {rest : List Byte} (payload : c.payload = byteOf l.val :: rest) :
    readLineIndex c = some l := readIndex_byteOf (by decide) payload

theorem readStatusSet_bits {x : StatusSet} (nonempty : x ≠ ⟨false, false, false, false, false⟩) :
    readStatusSet (byteOf x.bits) = some x := by
  obtain ⟨off, dark, inShow, inAlign, stopped⟩ := x
  revert nonempty
  cases off <;> cases dark <;> cases inShow <;> cases inAlign <;> cases stopped <;> decide

theorem readCode_lineMode (m : LineMode) : readCode lineModes (byteOf m.code) = some m := by cases m <;> rfl

theorem readCode_polarity (p : Polarity) : readCode [.activeHigh, .activeLow] (byteOf p.code) = some p := by
  cases p <;> rfl

theorem readCode_lineFilter (f : LineFilter) : readCode [.none, .ms2, .ms20] (byteOf f.code) = some f := by
  cases f <;> rfl

theorem readLineValues_eq (payload : c.payload = linePayload l v)
    (nonempty : v.statusSet ≠ ⟨false, false, false, false, false⟩) : readLineValues c = some v := by
  have mode : readCode lineModes (c.byte 1) = some v.mode := by
    rw [Command.byte, payload]; exact readCode_lineMode v.mode
  have polarity : readCode [.activeHigh, .activeLow] (c.byte 2) = some v.polarity := by
    rw [Command.byte, payload]; exact readCode_polarity v.polarity
  have filter : readCode [.none, .ms2, .ms20] (c.byte 3) = some v.filter := by
    rw [Command.byte, payload]; exact readCode_lineFilter v.filter
  have owner : readOptional 8 (c.byte 4) = some v.owner := by
    rw [Command.byte, payload]; exact readOptional_indexByte (by decide) v.owner
  have screen : readIndex 8 (c.byte 5) = some v.statusScreen := by
    rw [Command.byte, payload]; exact readIndex_ofNat (by decide) v.statusScreen
  have states : readStatusSet (c.byte 6) = some v.statusSet := by
    rw [Command.byte, payload]; exact readStatusSet_bits nonempty
  have monitor : readIndex 48 (c.byte 7) = some v.alarmMonitor := by
    rw [Command.byte, payload]; exact readIndex_ofNat (by decide) v.alarmMonitor
  simp only [readLineValues, mode, polarity, filter, owner, screen, states, monitor, Option.bind_eq_bind,
    Option.bind_some]
  rfl

end Fields

/-! ### LINE_SETUP (R154) -/

section Commands
variable {c : Command} {s : State} {l : Fin 16} {v : LineValues}

theorem Polarity.reads_eq (p : Polarity) (high : Bool) : p.reads high = if p = .activeHigh then high else !high := by
  cases p <;> rfl

theorem BoothLine.setUp_eq (x : BoothLine) (v : LineValues) : x.setUp v =
    { x with
      mode := v.mode
      polarity := v.polarity
      filter := v.filter
      owner := v.owner
      statusScreen := v.statusScreen
      statusSet := v.statusSet
      alarmMonitor := v.alarmMonitor
      filtered := if v.mode = .input ∨ v.mode = .stopInput then
          some (if v.polarity = .activeHigh then x.external else !x.external)
        else none } := by
  rw [← Polarity.reads_eq, ← if_congr v.mode.isInput_iff rfl rfl]
  rfl

theorem cmdLineSetup_answers (selector : c.selector = 14#8) (payload : c.payload = linePayload l v)
    (nonempty : v.statusSet ≠ ⟨false, false, false, false, false⟩) :
    cmdLineSetup c s = (judgeBoothInput occurs (s.onLine l fun x => x.setUp v), ⟨.ok, 0#8, []⟩) := by
  have index := readLineIndex_eq payload
  have values := readLineValues_eq payload nonempty
  refine (unitCommand_answers (by rw [payload]; rfl) selector ?_).trans ?_
  · rw [checkLineSetup, index, values]
    rfl
  · simp only [effectLineSetup, index, values, setUpLine]

/-! ### LINE_SET (R157) -/

theorem cmdLineSet_answers {active : Bool} (selector : c.selector = 14#8)
    (payload : c.payload = [byteOf l.val, flagByte active]) :
    cmdLineSet c s = (writeLatch l active s, ⟨.ok, 0#8, []⟩) := by
  have index := readLineIndex_eq payload
  have flag : readFlag (c.byte 1) = some active := by rw [Command.byte, payload]; exact readFlag_flagByte active
  refine (unitCommand_answers (by rw [payload]; rfl) selector ?_).trans ?_
  · rw [checkLineSet, index, flag]
    rfl
  · simp only [effectLineSet, index, flag]

end Commands

/-! ### PULSE_PHASE_END (R157) -/

section Trains
variable {s : State} {l : Fin 16} {x : Train}

theorem onLine_congr {f g : BoothLine → BoothLine} (agree : f s.lines[l] = g s.lines[l]) :
    s.onLine l f = s.onLine l g :=
  congrArg (fun y => { s with lines := s.lines.set l y }) agree

theorem BoothLine.endPhase_last {y : BoothLine} (now : Word) (flies : y.train = some x) (on : x.on = true)
    (last : x.remaining = 1) : y.endPhase now = { y with latch := false, train := none } := by
  simp only [BoothLine.endPhase, flies, on, last, if_true, Nat.le_refl]

theorem BoothLine.endPhase_more {y : BoothLine} (now : Word) (flies : y.train = some x) (on : x.on = true)
    (more : 1 < x.remaining) : y.endPhase now = { y with
      latch := false
      train := some { x with remaining := x.remaining - 1, on := false, start := now } } := by
  simp only [BoothLine.endPhase, flies, on, if_true, if_neg (Nat.not_le.mpr more)]

theorem BoothLine.endPhase_off {y : BoothLine} (now : Word) (flies : y.train = some x) (off : x.on = false) :
    y.endPhase now = { y with latch := true, train := some { x with on := true, start := now } } := by
  simp only [BoothLine.endPhase, flies, off, Bool.false_eq_true, if_false]

theorem pulsePhaseEnd_due (runs : s.inReset = false) (flies : s.lines[l].train = some x)
    (ends : (if x.on then x.onMs else x.offMs) ≤ elapsed s.timeBase x.start) :
    exec (.pulsePhaseEnd l) s = .next (s.onLine l fun y => y.endPhase s.timeBase) :=
  congrArg _ (timedRow_due runs ((dueTrain_iff l s).mpr ⟨x, flies, ends⟩))

theorem pulsePhaseEnd_early (flies : s.lines[l].train = some x)
    (early : elapsed s.timeBase x.start < if x.on then x.onMs else x.offMs) :
    exec (.pulsePhaseEnd l) s = .next s := by
  refine congrArg _ (timedRow_early fun comes => ?_)
  obtain ⟨train, same, ends⟩ := (dueTrain_iff l s).mp comes
  rw [flies] at same
  cases same
  exact Nat.not_le.mpr early ends

end Trains

/-- Settles O44: the two commands, and each step of a train by its phase and what remains of it. -/
theorem lineCommandsAndTrainsWriteTheLine : Obligations.LineCommandsAndTrainsWriteTheLine := by
  refine ⟨fun l a s v can none nonempty payload => ?_, fun l a s active can none payload => ?_,
    fun l s x runs flies => ⟨fun early => pulsePhaseEnd_early flies early, fun on ends last => ?_,
      fun on ends more => ?_, fun off ends => ?_⟩⟩
  · simp only [← BoothLine.setUp_eq]
    exact congrArg _ (commandRow_answers can (cmdLineSetup_answers (c := commandOf 116#8 a) none payload nonempty))
  · exact congrArg _ (commandRow_answers can (cmdLineSet_answers (c := commandOf 117#8 a) none payload))
  · exact (pulsePhaseEnd_due runs flies (by rwa [on])).trans
      (congrArg _ (onLine_congr (BoothLine.endPhase_last s.timeBase flies on last)))
  · exact (pulsePhaseEnd_due runs flies (by rwa [on])).trans
      (congrArg _ (onLine_congr (BoothLine.endPhase_more s.timeBase flies on more)))
  · exact (pulsePhaseEnd_due runs flies (by rwa [off])).trans
      (congrArg _ (onLine_congr (BoothLine.endPhase_off s.timeBase flies off)))

end Sys2Proof.Machine
end

section
/-!
PROOF. Input lines and driven lines (R155, R156, R159): the filtered state takes the pin's reading with what follows in
the line's mode, and a driven pin follows its source through the polarity.
-/

namespace Sys2Proof.Machine

/-! ### The reading taken (R156) -/

section Taken
variable {s : State} {l : Fin 16}

theorem takeLine_input (input : s.lines[l].mode = .input) : takeLine l s =
    occurs (if s.lines[l].reading then .lineActive l else .lineInactive l)
      (file none (.lineEdge l s.lines[l].reading)
        (s.onLine l fun x => { x with filtered := some s.lines[l].reading })) := by
  unfold takeLine
  dsimp only
  rw [onLine_same]
  simp only [input]

theorem takeLine_stopInput (stops : s.lines[l].mode = .stopInput) : takeLine l s =
    judgeBoothInput occurs (s.onLine l fun x => { x with filtered := some s.lines[l].reading }) := by
  unfold takeLine
  dsimp only
  rw [onLine_same]
  simp only [stops]

/-- What follows the filtered state of an input line. -/
theorem takeLine_eq (inputs : s.lines[l].mode = .input ∨ s.lines[l].mode = .stopInput) : takeLine l s =
    if s.lines[l].mode = .input then
      occurs (if s.lines[l].reading then .lineActive l else .lineInactive l) (file none (.lineEdge l s.lines[l].reading)
        (s.onLine l fun x => { x with filtered := some s.lines[l].reading }))
    else judgeBoothInput occurs (s.onLine l fun x => { x with filtered := some s.lines[l].reading }) := by
  cases inputs with
  | inl input => rw [takeLine_input input, if_pos input]
  | inr stops => rw [takeLine_stopInput stops, if_neg (by rw [stops]; decide)]

/-- A line in a driven mode, or whose filtered state is what it reads, has nothing to take. -/
theorem dueLine_settled (settles : (s.lines[l].mode ≠ .input ∧ s.lines[l].mode ≠ .stopInput) ∨
    s.lines[l].filtered = some (if s.lines[l].polarity = .activeHigh then s.lines[l].external
      else !s.lines[l].external)) : ¬dueLine l s = true := by
  intro comes
  obtain ⟨inputs, moved, -⟩ := (dueLine_iff l s).mp comes
  rcases settles with ⟨notInput, notStop⟩ | same
  · exact inputs.elim notInput notStop
  · exact moved same

theorem dueLine_early (early : elapsed s.timeBase s.lines[l].since < s.lines[l].filter.ms) : ¬dueLine l s = true := by
  intro comes
  obtain ⟨-, -, held⟩ := (dueLine_iff l s).mp comes
  exact Nat.not_le.mpr early held

theorem dueLine_unfiltered (unfiltered : s.lines[l].filter = .none)
    (inputs : s.lines[l].mode = .input ∨ s.lines[l].mode = .stopInput)
    (moved : s.lines[l].filtered ≠ some (if s.lines[l].polarity = .activeHigh then s.lines[l].external
      else !s.lines[l].external)) : dueLine l s = true :=
  (dueLine_iff l s).mpr ⟨inputs, moved, by rw [unfiltered]; exact Nat.zero_le _⟩

end Taken

/-! ### What the pin of a line carries (R155, R159) -/

section Pins
variable {s : State} {x : BoothLine}

theorem linePin_undriven (undriven : s.lineDrive x = none) : s.linePin x = x.external := by
  rw [State.linePin, undriven]

theorem linePin_driven {active : Bool} (drives : s.lineDrive x = some active) :
    s.linePin x = if x.polarity = .activeHigh then active else !active := by
  rw [← Polarity.reads_eq, State.linePin, drives]

theorem lineDrive_none (read : s.inReset = true ∨ x.mode = .input ∨ x.mode = .stopInput) : s.lineDrive x = none := by
  unfold State.lineDrive
  rcases read with stopped | input | stops
  · rw [if_pos stopped]
  · simp only [input, ite_self]
  · simp only [stops, ite_self]

section Runs
variable (runs : s.inReset = false)
include runs

theorem lineDrive_output (mode : x.mode = .output) : s.lineDrive x = some x.latch := by
  simp only [State.lineDrive, runs, mode, Bool.false_eq_true, if_false]

theorem lineDrive_screenStatus (mode : x.mode = .screenStatus) :
    s.lineDrive x = some (x.statusSet.holds s.screens[x.statusScreen].state) := by
  simp only [State.lineDrive, runs, mode, Bool.false_eq_true, if_false]

theorem lineDrive_alarm (mode : x.mode = .alarm) :
    s.lineDrive x = some s.monitors[x.alarmMonitor].state.acting := by
  simp only [State.lineDrive, runs, mode, Bool.false_eq_true, if_false]

end Runs

theorem MonitorState.acting_eq (m : MonitorState) : m.acting = (m == .raised || m == .releasing || m == .latched) := by
  cases m <;> rfl

end Pins

/-- Settles O45: a line's row by what its pin reads and for how long, and a pin by what drives the line. -/
theorem linesReadAndDriveTheirPins : Obligations.LinesReadAndDriveTheirPins := by
  refine ⟨fun l s runs => ?_, fun s x => ⟨fun read => linePin_undriven (lineDrive_none read),
    fun runs mode => linePin_driven (lineDrive_output runs mode),
    fun runs mode => linePin_driven (lineDrive_screenStatus runs mode), fun runs mode => ?_⟩⟩
  · intro reads taken
    have takes (u : State) (inputs : u.lines[l].mode = .input ∨ u.lines[l].mode = .stopInput) :
        takeLine l u = taken u := by
      have reading : u.lines[l].reading = reads u.lines[l] := BoothLine.reading_eq _
      rw [takeLine_eq inputs, reading]
    refine ⟨fun inputs moved held => ?_, fun settles => ?_, fun level unfiltered settles => ?_,
      fun level unfiltered inputs moved => ?_⟩
    · exact congrArg _ ((timedRow_due runs ((dueLine_iff l s).mpr ⟨inputs, moved, held⟩)).trans (takes s inputs))
    · refine congrArg _ (timedRow_early ?_)
      rcases settles with same | early | driven
      · exact dueLine_settled (.inr same)
      · exact dueLine_early early
      · exact dueLine_settled (.inl driven)
    · rw [linePinChange_unfiltered unfiltered]
      have mode : (s.onLine l fun x => x.moves level s.timeBase).lines[l].mode = s.lines[l].mode := movedLine_mode ..
      exact congrArg _ (timedRow_early (dueLine_settled (settles.imp_left fun ⟨notInput, notStop⟩ =>
        ⟨mode.trans_ne notInput, mode.trans_ne notStop⟩)))
    · have mode := inputs.imp (movedLine_mode level s.timeBase).trans (movedLine_mode level s.timeBase).trans
      have filter := (movedLine_filter level s.timeBase).trans unfiltered
      rw [linePinChange_unfiltered unfiltered]
      exact congrArg _ ((timedRow_due (by exact runs) (dueLine_unfiltered filter mode moved)).trans (takes _ mode))
  · rw [linePin_driven (lineDrive_alarm runs mode), MonitorState.acting_eq]

end Sys2Proof.Machine
end

section
/-!
PROOF. Every row answers a next state, and no row touches the queue of waiting rows (R160): the queue is part of what
`Moves` speaks of, and each move leaves it.
-/

namespace Sys2Proof.Machine

theorem exec_answers (i : Instr) (s : State) : ∃ t, exec i s = .next t := by
  cases i <;> exact ⟨_, rfl⟩

theorem offerAOut_pending (s : State) : (offerAOut s).pending = s.pending := by rw [offerAOut_frame]

theorem appendReply_pending (r : Reply) (s : State) : (appendReply r s).pending = s.pending := by
  rw [appendReply_frame]

theorem Moves.pending {s t : State} (moves : Moves s t) : t.pending = s.pending := by
  induction moves with
  | silent same => exact congrArg LinkPart.pending same
  | trans _ _ first second => exact second.trans first
  | file screen body s => rw [file_frame]
  | fillSlot s => rw [fillSlot_frame]
  | joinBOut f s => rw [joinBOut_frame]
  | queueForward f s room => exact offerAOut_pending _
  | aOutSent s => exact offerAOut_pending _
  | bOutSent s => rw [offerBOut_frame]
  | _ => rfl

theorem exec_pending {i : Instr} {s t : State} (answers : exec i s = .next t) : t.pending = s.pending := by
  rcases exec_moves answers with moves | ⟨u, r, -, acts, follows⟩
  · exact moves.pending
  · exact follows.pending.trans ((appendReply_pending r u).trans acts.pending)

/-- Settles O3: each row's meaning is a next state, reached by moves that leave the queue. -/
theorem everyRowAnswersANextStateAndKeepsTheQueue : Obligations.EveryRowAnswersANextStateAndKeepsTheQueue :=
  ⟨exec_answers, fun _ _ _ => exec_pending⟩

end Sys2Proof.Machine
end

section
/-!
PROOF. The generic checks of every command row (R163 to R165), and the length of FORMAT_LOAD by the rows that its bytes
spell (section 11.4).
-/

namespace Sys2Proof.Machine

/-- What a command row spells has a code of the summary table (section 9.4). -/
theorem command_listed {r : Instr} {c : Command} (spells : r.command = some c) : c.code.toNat ∈ commandCodes := by
  cases r <;> cases spells <;> simp [commandOf, formCommandOf, commandCodes]

/-- A command row is its command executed, where the Management Unit can take it. -/
theorem exec_command {r : Instr} {c : Command} {s : State} (spells : r.command = some c) (can : s.canExecute = true) :
    exec r s = .next (executeCommand c s) := by
  rw [exec_of_command spells, if_pos can]

theorem exec_generic {r : Instr} {c : Command} {s : State} {why : Result} (spells : r.command = some c)
    (can : s.canExecute = true) (refuses : c.genericRefusal = some why) :
    exec r s = .next (appendReply ⟨c.tag, c.code, why, 0#8, []⟩ s) := by
  rw [exec_command spells can, executeCommand_generic (command_listed spells) refuses]

/-! ### The selector classes (R164) -/

theorem accepts_unit_iff (selector : Byte) : SelectorClass.unit.accepts selector = true ↔ selector.toNat = 14 :=
  beq_iff_eq.trans BitVec.toNat_inj.symm

theorem accepts_oneScreen_iff (selector : Byte) :
    SelectorClass.oneScreen.accepts selector = true ↔ selector.toNat ≤ 7 := decide_eq_true_iff

theorem accepts_screen_iff (selector : Byte) :
    SelectorClass.screen.accepts selector = true ↔ selector.toNat ≤ 7 ∨ selector.toNat = 15 := by
  rw [SelectorClass.accepts, Bool.or_eq_true, decide_eq_true_iff, beq_iff_eq, ← BitVec.toNat_inj]
  rfl

/-! ### The length of FORMAT_LOAD (R165, section 11.4) -/

/-- A count and that many pairs of 3 bytes. -/
def CountedRow (row : List Byte) : Prop := ∃ count pairs, row = count :: pairs ∧ pairs.length = 3 * count.toNat

theorem rowsFit_cons (n : Nat) (count : Byte) (bytes : List Byte) : rowsFit (n + 1) (count :: bytes) = true ↔
    3 * count.toNat ≤ bytes.length ∧ rowsFit n (bytes.drop (3 * count.toNat)) = true := by
  rw [rowsFit, Bool.and_eq_true, decide_eq_true_iff]

/-- The bytes that hold `n` counted rows are those of `n` such rows in a row. -/
theorem rowsFit_iff (n : Nat) (bytes : List Byte) : rowsFit n bytes = true ↔
    ∃ rows : List (List Byte), rows.length = n ∧ bytes = rows.flatten ∧ ∀ row ∈ rows, CountedRow row := by
  induction n generalizing bytes with
  | zero =>
    rw [rowsFit, List.isEmpty_iff]
    constructor
    · rintro rfl
      exact ⟨[], rfl, rfl, nofun⟩
    · rintro ⟨rows, none, rfl, -⟩
      rw [List.eq_nil_of_length_eq_zero none]
      rfl
  | succ n ih =>
    constructor
    · intro fits
      cases bytes with
      | nil => cases fits
      | cons count bytes =>
        obtain ⟨room, others⟩ := (rowsFit_cons n count bytes).mp fits
        obtain ⟨rows, number, cut, counted⟩ := (ih _).mp others
        refine ⟨(count :: bytes.take (3 * count.toNat)) :: rows, by rw [List.length_cons, number], ?_, ?_⟩
        · rw [List.flatten_cons, List.cons_append, ← cut, List.take_append_drop]
        · exact List.forall_mem_cons.mpr ⟨⟨count, _, rfl, List.length_take_of_le room⟩, counted⟩
    · rintro ⟨rows, number, rfl, counted⟩
      cases rows with
      | nil => cases number
      | cons row rows =>
        obtain ⟨⟨count, pairs, rfl, length⟩, others⟩ := List.forall_mem_cons.mp counted
        rw [List.flatten_cons, List.cons_append, rowsFit_cons, List.length_append, List.drop_left' length]
        exact ⟨by omega, (ih _).mpr ⟨rows, Nat.succ.inj number, rfl, others⟩⟩

theorem formatLengthSuits_iff (c : Command) : formatLengthSuits c = true ↔ 12 ≤ c.payload.length ∧
    (c.byte 9 ≠ 1#8 → c.payload.length = 12 + 5 * c.num 11) ∧
    (c.byte 9 = 1#8 → 16 + 5 * c.num 11 ≤ c.payload.length ∧
      rowsFit 5 (c.payload.drop (16 + 5 * c.num 11)) = true) := by
  have body : 12 + 5 * c.num 11 + 4 = 16 + 5 * c.num 11 := by omega
  have matrix : c.num 9 = 1 ↔ c.byte 9 = 1#8 := BitVec.toNat_inj (y := 1#8)
  rw [formatLengthSuits, body, Bool.and_eq_true, decide_eq_true_iff]
  refine and_congr_right fun _ => ?_
  by_cases kind : c.byte 9 = 1#8
  · rw [if_pos (matrix.mpr kind), Bool.and_eq_true, decide_eq_true_iff]
    exact ⟨fun fits => ⟨fun other => absurd kind other, fun _ => fits⟩, fun fits => fits.2 kind⟩
  · rw [if_neg (mt matrix.mp kind), beq_iff_eq]
    exact ⟨fun fits => ⟨fun _ => fits, fun other => absurd other kind⟩, fun fits => fits.1 kind⟩

/-- Settles O47: the refusals before a command's own checks, the selector classes, and the bytes that a FORMAT_LOAD of
the right length holds. -/
theorem genericChecksComeFirst : Obligations.GenericChecksComeFirst := by
  refine ⟨fun r c s spells can => ⟨fun length => ?_, fun length selector => ?_⟩,
    fun selector => ⟨accepts_unit_iff _, accepts_screen_iff _, accepts_oneScreen_iff _⟩, fun c => ?_⟩
  · exact exec_generic spells can (genericRefusal_badLength length)
  · exact exec_generic spells can (genericRefusal_badSelector length selector)
  · rw [formatLengthSuits_iff, rowsFit_iff]
    exact Iff.rfl

end Sys2Proof.Machine
end

section
/-!
PROOF. A command applied to each screen in turn (R166 to R168): `takeTurn` is one screen's turn and `beforeTurn` the
state that it finds, and an application to every screen is the list of these turns.
-/

namespace Sys2Proof.Machine

/-! ### The turns of the screens (R166) -/

section Turns
variable (size : Nat) (check : Fin 8 → State → Option Result) (effect : Fin 8 → State → State × List Byte)

/-- What a screen's turn leaves: the effect where the screen accepts, and nothing changed where it refuses. -/
def takeTurn (s : State) (i : Fin 8) : State := if check i s = none then (effect i s).1 else s

/-- A screen's refusal, if any, and its section of the reply (R168). -/
def turnAnswer (s : State) (i : Fin 8) : Option Result × List Byte :=
  (check i s, if check i s = none then (effect i s).2 else List.replicate size 0#8)

/-- The state that the turn of screen `k` finds, and for 8 the one that the last turn leaves. -/
def beforeTurn (s : State) (k : Nat) : State := ((indexes 8).take k).foldl (takeTurn check effect) s

theorem applyList_cons (i : Fin 8) (rest : List (Fin 8)) (s : State) :
    applyList size check effect (i :: rest) s =
      ((applyList size check effect rest (takeTurn check effect s i)).1,
        turnAnswer size check effect s i :: (applyList size check effect rest (takeTurn check effect s i)).2) := by
  rw [applyList, takeTurn, turnAnswer]
  split
  · rename_i why refuses
    simp only [refuses, reduceCtorEq, if_false]
  · rename_i accepts
    simp only [accepts, if_true]

/-- Applied to a list of screens: what their turns leave, and the answer of each on the state that it finds. -/
theorem applyList_eq (l : List (Fin 8)) (s : State) : applyList size check effect l s =
    (l.foldl (takeTurn check effect) s,
      l.mapIdx fun k i => turnAnswer size check effect ((l.take k).foldl (takeTurn check effect) s) i) := by
  induction l generalizing s with
  | nil => rfl
  | cons i rest ih => rw [applyList_cons, ih, List.mapIdx_cons]; rfl

theorem beforeTurn_succ (s : State) (i : Fin 8) : beforeTurn check effect s (i.val + 1) =
    takeTurn check effect (beforeTurn check effect s i.val) i := by
  have listed : (indexes 8)[i.val]? = some i := by simp [indexes]
  rw [beforeTurn, List.take_add_one, listed, List.foldl_append]
  rfl

theorem beforeTurn_eight (s : State) : beforeTurn check effect s 8 = (indexes 8).foldl (takeTurn check effect) s := rfl

/-- The answers of the eight screens, each on the state that it finds. -/
def turnAnswers (s : State) : List (Option Result × List Byte) :=
  (indexes 8).map fun i => turnAnswer size check effect (beforeTurn check effect s i.val) i

theorem applyList_indexes (s : State) : applyList size check effect (indexes 8) s =
    (beforeTurn check effect s 8, turnAnswers size check effect s) := by
  rw [applyList_eq, beforeTurn_eight, turnAnswers]
  refine congrArg _ (List.ext_getElem (by simp) fun k _ _ => ?_)
  simp [indexes, beforeTurn]

theorem screenCommand_all {c : Command} (selector : c.selector = 15#8) (s : State) :
    screenCommand true size check effect c s =
      (beforeTurn check effect s 8, summary (turnAnswers size check effect s)) := by
  have suits : SelectorClass.screen.accepts c.selector = true := by rw [selector]; rfl
  have every : toIndex 8 c.selector.toNat = none := toIndex_eq_none (by rw [selector]; decide)
  simp only [screenCommand, genericCheck_none suits, every, applyList_indexes]

end Turns

/-! ### The answer to an application to every screen (R167, R168) -/

theorem testBit_flagBits (flags : List Bool) (k : Nat) : (flagBits flags).testBit k = flags.getD k false := by
  induction flags generalizing k with
  | nil => simp [flagBits]
  | cons b rest ih =>
    rw [flagBits_cons]
    cases k with
    | zero => cases b <;> simp [Nat.testBit_zero]
    | succ k =>
      have half : (b.toNat + 2 * flagBits rest) / 2 = flagBits rest := by
        have low := b.toNat_lt
        omega
      rw [Nat.testBit_succ, half, ih, List.getD_cons_succ]

section Summary
variable {size : Nat} {check : Fin 8 → State → Option Result} {effect : Fin 8 → State → State × List Byte} {s : State}

theorem summary_mask (i : Fin 8) : (summary (turnAnswers size check effect s)).mask.getLsbD i.val = true ↔
    check i (beforeTurn check effect s i.val) ≠ none := by
  have flag : ((turnAnswers size check effect s).map (·.1.isSome)).getD i.val false =
      (check i (beforeTurn check effect s i.val)).isSome := by
    simp [turnAnswers, turnAnswer, indexes]
  rw [summary, BitVec.getLsbD_ofNat, testBit_flagBits, flag, decide_eq_true i.isLt, Bool.true_and,
    Option.ne_none_iff_isSome]

theorem summary_accepted (accepted : ∃ i : Fin 8, check i (beforeTurn check effect s i.val) = none) :
    (summary (turnAnswers size check effect s)).result = .ok := by
  obtain ⟨i, accepts⟩ := accepted
  refine if_pos (List.any_eq_true.mpr ⟨_, List.mem_map.mpr ⟨i, mem_indexes i, rfl⟩, ?_⟩)
  rw [turnAnswer, accepts]
  rfl

/-- Where every screen refuses, the answer is the refusal of screen 0. -/
theorem summary_refused (refused : ∀ i : Fin 8, check i (beforeTurn check effect s i.val) ≠ none) :
    check 0 s = some (summary (turnAnswers size check effect s)).result := by
  have none_ : (turnAnswers size check effect s).any (·.1.isNone) = false := by
    rw [turnAnswers, List.any_map, List.any_eq_false]
    intro i _ accepts
    exact refused i (Option.isNone_iff_eq_none.mp accepts)
  obtain ⟨why, refuses⟩ := Option.ne_none_iff_exists'.mp (refused 0)
  have first : turnAnswers size check effect s = turnAnswer size check effect s 0 ::
    (turnAnswers size check effect s).tail := rfl
  have own : (turnAnswer size check effect s 0).1 = some why := refuses
  rw [summary, none_, first, List.filterMap_cons_some own]
  exact refuses

theorem summary_payload : (summary (turnAnswers size check effect s)).payload = (indexes 8).flatMap fun i =>
    if check i (beforeTurn check effect s i.val) = none then (effect i (beforeTurn check effect s i.val)).2
    else List.replicate size 0#8 := by
  rw [summary, turnAnswers, List.flatMap_map]
  rfl

/-- Where no screen accepts, every turn leaves the state. -/
theorem beforeTurn_refused (refused : ∀ i : Fin 8, check i (beforeTurn check effect s i.val) ≠ none) (k : Nat)
    (within : k ≤ 8) : beforeTurn check effect s k = s := by
  induction k with
  | zero => rfl
  | succ k ih =>
    rw [beforeTurn_succ check effect s ⟨k, within⟩, takeTurn, if_neg (refused ⟨k, within⟩)]
    exact ih (Nat.le_of_succ_le within)

end Summary

/-! ### A command that writes its own screen alone -/

theorem onScreen_unchanged {s : State} {i : Fin 8} {f : Screen → Screen} (same : f s.screens[i] = s.screens[i]) :
    s.onScreen i f = s := by
  have screens : modifyAt s.screens i f = s.screens := table_ext fun j => by
    rw [modifyAt_get]
    split
    · subst j; exact same
    · rfl
  rw [State.onScreen, screens]

section Writes
variable {check : Fin 8 → State → Option Result} {effect : Fin 8 → State → State × List Byte} {s : State}
  {serves : Screen → Bool} {write : Screen → Screen}
  (accepts : ∀ (i : Fin 8) (s : State), check i s = none ↔ serves s.screens[i] = true)
  (writes : ∀ (i : Fin 8) (s : State), effect i s = (s.onScreen i write, []))
include accepts writes

theorem takeTurn_write (i : Fin 8) (s : State) :
    takeTurn check effect s i = s.onScreen i fun x => if serves x then write x else x := by
  rw [takeTurn]
  by_cases served : serves s.screens[i] = true
  · rw [if_pos ((accepts i s).mpr served), writes]
    exact onScreen_congr (if_pos served).symm
  · rw [if_neg (mt (accepts i s).mp served)]
    exact (onScreen_unchanged (if_neg served)).symm

theorem turns_write (l : List (Fin 8)) (s : State) : l.foldl (takeTurn check effect) s = { s with
    screens := l.foldl (fun v i => modifyAt v i fun x => if serves x then write x else x) s.screens } := by
  induction l generalizing s with
  | nil => rfl
  | cons i rest ih => rw [List.foldl_cons, ih, takeTurn_write accepts writes]; rfl

/-- All turns together write every screen that serves. -/
theorem beforeTurn_eight_write (s : State) : beforeTurn check effect s 8 =
    { s with screens := s.screens.map fun x => if serves x then write x else x } := by
  rw [beforeTurn_eight, turns_write accepts writes, ← mapAt_eq_map]
  rfl

variable (keeps : ∀ x, serves (write x) = serves x)
include keeps

/-- The turns before a screen's own leave it as ready to accept as it was. -/
theorem serves_beforeTurn (i : Fin 8) (s : State) (k : Nat) :
    serves (beforeTurn check effect s k).screens[i] = serves s.screens[i] := by
  rw [beforeTurn, turns_write accepts writes]
  refine (congrArg serves (foldl_modifyAt_get (fun _ x => if serves x then write x else x) _
    ((List.nodup_finRange 8).sublist (List.take_sublist k _)) s.screens i)).trans ?_
  split
  · split
    · exact keeps _
    · rfl
  · rfl

/-- Selector 15 writes every screen that serves, and flags the others (R166, R167). -/
theorem screenCommand_writes {c : Command} (selector : c.selector = 15#8)
    (served : ∃ i : Fin 8, serves s.screens[i] = true) : ∃ mask : BitVec 8,
      (∀ i : Fin 8, mask.getLsbD i.val = true ↔ serves s.screens[i] = false) ∧
      screenCommand true 0 check effect c s =
        ({ s with screens := s.screens.map fun x => if serves x then write x else x }, ⟨.ok, mask, []⟩) := by
  have own (i : Fin 8) : check i (beforeTurn check effect s i.val) = none ↔ serves s.screens[i] = true := by
    rw [accepts, serves_beforeTurn accepts writes keeps]
  have result : (summary (turnAnswers 0 check effect s)).result = .ok :=
    summary_accepted (served.imp fun i served => (own i).mpr served)
  have payload : (summary (turnAnswers 0 check effect s)).payload = [] := by
    rw [summary_payload, List.flatMap_eq_nil_iff]
    intro i _
    rw [writes, List.replicate_zero, ite_self]
  refine ⟨(summary (turnAnswers 0 check effect s)).mask, fun i => ?_, ?_⟩
  · rw [summary_mask, Ne, own, Bool.not_eq_true]
  · rw [screenCommand_all _ _ _ selector, beforeTurn_eight_write accepts writes, ← result, ← payload]

end Writes

/-! ### The commands of the screen class (R164, section 9.4) -/

/-- A command of this code and payload is the shared form with one check and one effect on a single screen. -/
def ScreenForm (code : Byte) (payload : List Byte) : Prop :=
  ∃ (size : Nat) (check : Fin 8 → State → Option Result) (effect : Fin 8 → State → State × List Byte),
    ∀ c : Command, c.code = code → c.payload = payload →
      bodyOf code.toNat c = screenCommand c.lengthSuits size check effect c

theorem screenCodes_of_classOf {n : Nat} (screen : classOf n = .screen) : n = 48 ∨ n ∈ screenCodes := by
  unfold classOf at screen
  split at screen
  · cases screen
  · split at screen
    · rename_i listed
      revert listed
      simp only [screenCodes, List.mem_cons, List.not_mem_nil, or_false]
      omega
    · cases screen

/-- What a command of the screen class checks and does stands in its payload alone. -/
theorem bodyOf_screen_payload {n : Nat} (listed : n ∈ screenCodes) :
    ∃ (suits : Command → Bool) (size : Nat) (check : Command → Fin 8 → State → Option Result)
      (effect : Command → Fin 8 → State → State × List Byte),
      (∀ c, c.code.toNat = n → suits c = c.lengthSuits) ∧
      (∀ c d, c.payload = d.payload → check c = check d ∧ effect c = effect d) ∧
      ∀ c, bodyOf n c = screenCommand (suits c) size (check c) (effect c) c := by
  simp only [screenCodes, List.mem_cons, List.not_mem_nil, or_false] at listed
  rcases listed with rfl | rfl | rfl | rfl | rfl | rfl | rfl | rfl | rfl | rfl | rfl | rfl | rfl | rfl | rfl | rfl
  · exact ⟨_, statusSize, _, _, fun c code => by
      simp [Command.lengthSuits, code, isEmpty_eq_length], fun _ _ _ => ⟨rfl, rfl⟩, fun _ => rfl⟩
  all_goals exact ⟨_, _, _, _, fun c code => by
      simp [Command.lengthSuits, code, isEmpty_eq_length, cuelistLengthSuits, Bool.or_assoc, beq_eq_decide],
    by rintro ⟨_, _, _, _⟩ ⟨_, _, _, _⟩ ⟨⟩; exact ⟨rfl, rfl⟩, fun _ => rfl⟩

theorem lengthSuits_eqLoad {c : Command} (code : c.code = 48#8) :
    c.lengthSuits = (c.payload.length == if c.payload.head? = some 0#8 then 33 else 7) := by
  cases payload : c.payload <;> simp [Command.lengthSuits, code, Command.byte, payload]

/-- EQ_LOAD's form byte chooses its check and its effect. -/
theorem eqLoad_screenForm (payload : List Byte) : ScreenForm 48#8 payload := by
  by_cases graphic : payload.head? = some 0#8
  · refine ⟨0, checkEqGraphic ⟨0#8, 48#8, 0#8, payload⟩, effectEqGraphic ⟨0#8, 48#8, 0#8, payload⟩, ?_⟩
    rintro ⟨tag, code, selector, payload⟩ rfl rfl
    rw [lengthSuits_eqLoad rfl, if_pos graphic]
    exact if_pos graphic
  · by_cases sectioned : payload.head? = some 1#8
    · refine ⟨0, checkEqSection ⟨0#8, 48#8, 0#8, payload⟩, effectEqSection ⟨0#8, 48#8, 0#8, payload⟩, ?_⟩
      rintro ⟨tag, code, selector, payload⟩ rfl rfl
      rw [lengthSuits_eqLoad rfl, if_neg graphic]
      exact (if_neg graphic).trans (if_pos sectioned)
    · refine ⟨0, checkEqForm ⟨0#8, 48#8, 0#8, payload⟩, fun _ s => (s, []), ?_⟩
      rintro ⟨tag, code, selector, payload⟩ rfl rfl
      rw [lengthSuits_eqLoad rfl, if_neg graphic]
      exact (if_neg graphic).trans (if_neg sectioned)

theorem screenForm_of_class {code : Byte} (screen : classOf code.toNat = .screen) (payload : List Byte) :
    ScreenForm code payload := by
  rcases screenCodes_of_classOf screen with eqLoad | listed
  · rw [show code = 48#8 from BitVec.eq_of_toNat_eq eqLoad]
    exact eqLoad_screenForm payload
  · obtain ⟨suits, size, check, effect, length, reads, body⟩ := bodyOf_screen_payload listed
    refine ⟨size, check ⟨0#8, code, 0#8, payload⟩, effect ⟨0#8, code, 0#8, payload⟩, fun c own spelled => ?_⟩
    obtain ⟨checks, acts⟩ := reads ⟨0#8, code, 0#8, payload⟩ c spelled.symm
    rw [body, length c (by rw [own]), checks, acts]

/-- A command other than UNIT_RESET is its body and its reply. -/
theorem executeCommand_eq {c : Command} (other : c.code ≠ 2#8) (s : State) : executeCommand c s =
    appendReply ⟨c.tag, c.code, (bodyOf c.code.toNat c s).2.result, (bodyOf c.code.toNat c s).2.mask,
      (bodyOf c.code.toNat c s).2.payload⟩ (bodyOf c.code.toNat c s).1 := if_neg other

/-! ### Selector 15 on REHEARSAL_SET and MUTE_SET (R43, R46) -/

section Commands
variable {c : Command} {s : State} {on : Bool}

theorem cmdRehearsalSet_all (selector : c.selector = 15#8) (payload : c.payload = [flagByte on]) :
    cmdRehearsalSet c s =
      ({ s with screens := s.screens.map fun x => { x with rehearsal := on } }, ⟨.ok, 0#8, []⟩) := by
  have flag : readFlag (c.byte 0) = some on := by
    rw [Command.byte, payload]
    exact readFlag_flagByte on
  have length : (c.payload.length == 1) = true := by rw [payload]; rfl
  obtain ⟨mask, flags, answers⟩ := screenCommand_writes (check := checkRehearsal c) (effect := effectRehearsal c)
    (s := s) (serves := fun _ => true) (write := fun x => { x with rehearsal := on })
    (fun _ _ => by simp [checkRehearsal, flag]) (fun _ _ => by simp only [effectRehearsal, flag]) (fun _ => rfl)
    selector ⟨0, rfl⟩
  have none_ : mask = 0#8 := BitVec.eq_of_getLsbD_eq fun i within => by
    have clear := flags ⟨i, within⟩
    simpa using clear
  rw [cmdRehearsalSet, length, answers, none_]
  rfl

theorem cmdMuteSet_all (selector : c.selector = 15#8) (payload : c.payload = [255#8, flagByte on])
    (served : ∃ i : Fin 8, s.screens[i].state ≠ .off) : ∃ mask : BitVec 8,
      (∀ i : Fin 8, mask.getLsbD i.val = true ↔ s.screens[i].state = .off) ∧
      cmdMuteSet c s = ({ s with screens := s.screens.map fun x =>
        if x.state = .off then x else { x with mutes := { x.mutes with command := on } } }, ⟨.ok, mask, []⟩) := by
  obtain ⟨reads, flag⟩ := readMute_eq (channel := none) payload
  have length : (c.payload.length == 2) = true := by rw [payload]; rfl
  have checks (i : Fin 8) (s : State) : checkMute c i s = none ↔ (s.screens[i].state != .off) = true := by
    simp only [checkMute, reads, flag, Screen.hasChannel, State.isOff, firstFailure]
    cases s.screens[i].state <;> simp
  obtain ⟨mask, flags, answers⟩ := screenCommand_writes (check := checkMute c) (effect := effectMute c) (s := s)
    (serves := fun x => x.state != .off) (write := fun x => { x with mutes := { x.mutes with command := on } })
    checks (fun _ _ => by simp only [effectMute, reads]; rfl) (fun _ => rfl) selector
    (served.imp fun _ serves => bne_iff_ne.mpr serves)
  refine ⟨mask, fun i => (flags i).trans (by rw [bne_eq_false_iff_eq]), ?_⟩
  rw [cmdMuteSet, length, answers]
  simp only [bne_iff_ne, ne_eq, ite_not]

end Commands

/-- Settles O49: the shared form of the class, its one-screen answers, the turns of selector 15, and its two uses. -/
theorem selectorFifteenAppliesToEachScreenInTurn : Obligations.SelectorFifteenAppliesToEachScreenInTurn := by
  refine ⟨fun code payload screen => ?_,
    fun size check effect c s i selector => ⟨fun why refuses => ?_, fun accepts => ?_⟩,
    fun size check effect c s selector => ⟨beforeTurn check effect s, rfl, beforeTurn_succ check effect s, ?_⟩,
    fun a s on can every => ⟨fun payload => ?_, fun payload served => ?_⟩⟩
  · obtain ⟨size, check, effect, form⟩ := screenForm_of_class screen payload
    refine ⟨size, check, effect, fun r tag selector s spells can length => ?_⟩
    have other : code ≠ 2#8 := by
      rintro rfl
      cases screen
    rw [exec_command spells can, executeCommand_eq other, form _ rfl rfl, length]
  · exact screenCommand_refused selector refuses
  · exact screenCommand_accepted selector accepts
  · rw [screenCommand_all size check effect selector]
    exact ⟨rfl, summary_mask, summary_accepted, summary_refused, summary_payload⟩
  · exact congrArg _ (commandRow_answers can (cmdRehearsalSet_all every payload))
  · obtain ⟨mask, flags, answers⟩ := cmdMuteSet_all (c := commandOf 21#8 a) every payload served
    exact ⟨mask, flags, congrArg Host.Outcome.next ((commandRow_of_canExecute can).trans (by rw [answers]; rfl))⟩

end Sys2Proof.Machine
end

section
/-!
PROOF. A refused command changes nothing but for its reply (R160, R162, R163): once for every command, and then the
order of index, value and state in the commands that the statement names.
-/

namespace Sys2Proof.Machine

/-! ### A refusal leaves the state (R162, R163) -/

section Classes
variable {suits : Bool} {size : Nat} {c : Command} {s : State}

theorem applyUnit_refused_state {check : State → Option Result} {effect : State → State × List Byte}
    (refused : (applyUnit check effect s).2.result ≠ .ok) : (applyUnit check effect s).1 = s := by
  cases checked : check s with
  | some why => simp only [applyUnit, checked]
  | none => simp only [applyUnit, checked, ne_eq, not_true_eq_false] at refused

theorem applyScreen_refused_state {success : Result} {check : Fin 8 → State → Option Result}
    {effect : Fin 8 → State → State × List Byte} {i : Fin 8}
    (refused : (applyScreen success check effect i s).2.result ≠ success) :
    (applyScreen success check effect i s).1 = s := by
  cases checked : check i s with
  | some why => simp only [applyScreen, checked]
  | none => simp only [applyScreen, checked, ne_eq, not_true_eq_false] at refused

/-- Where an application to every screen answers a refusal, no turn changed anything. -/
theorem applyList_refused_state {check : Fin 8 → State → Option Result} {effect : Fin 8 → State → State × List Byte}
    (refused : (summary (applyList size check effect (indexes 8) s).2).result ≠ .ok) :
    (applyList size check effect (indexes 8) s).1 = s := by
  rw [applyList_indexes] at refused ⊢
  exact beforeTurn_refused (fun i accepts => refused (summary_accepted ⟨i, accepts⟩)) 8 (Nat.le_refl 8)

theorem unitCommand_refused_state {check : State → Option Result} {effect : State → State × List Byte}
    (refused : (unitCommand suits check effect c s).2.result ≠ .ok) : (unitCommand suits check effect c s).1 = s := by
  cases generic : genericCheck .unit suits c with
  | some why => rw [unitCommand_generic generic]
  | none =>
    simp only [unitCommand, generic] at refused ⊢
    exact applyUnit_refused_state refused

theorem screenCommand_refused_state {check : Fin 8 → State → Option Result}
    {effect : Fin 8 → State → State × List Byte}
    (refused : (screenCommand suits size check effect c s).2.result ≠ .ok) :
    (screenCommand suits size check effect c s).1 = s := by
  cases generic : genericCheck .screen suits c with
  | some why => rw [screenCommand_generic generic]
  | none =>
    cases named : toIndex 8 c.selector.toNat with
    | some i =>
      simp only [screenCommand, generic, named] at refused ⊢
      exact applyScreen_refused_state refused
    | none =>
      simp only [screenCommand, generic, named] at refused ⊢
      exact applyList_refused_state refused

theorem oneScreenCommand_refused_state {check : Fin 8 → State → Option Result} {effect : Fin 8 → State → State}
    (refused : (oneScreenCommand suits check effect c s).2.result ≠ .accepted) :
    (oneScreenCommand suits check effect c s).1 = s := by
  cases generic : genericCheck .oneScreen suits c with
  | some why => rw [oneScreenCommand_generic generic]
  | none =>
    cases named : toIndex 8 c.selector.toNat with
    | some i =>
      simp only [oneScreenCommand, generic, named] at refused ⊢
      exact applyScreen_refused_state refused
    | none => simp only [oneScreenCommand, generic, named]

end Classes

/-- A command's body that answers neither OK nor ACCEPTED leaves the state as it stands. -/
def RefusalsChangeNothing (body : Command → State → State × Answer) (c : Command) (s : State) : Prop :=
  (body c s).2.result ≠ .ok → (body c s).2.result ≠ .accepted → (body c s).1 = s

theorem bodyOf_refusalsChangeNothing (c : Command) (s : State) :
    RefusalsChangeNothing (bodyOf c.code.toNat) c s := by
  intro notOk notAccepted
  by_cases listed : c.code.toNat ∈ commandCodes
  · rcases commandCodes_cases _ listed with code | code | code | unit | screen
    · rw [code]; rfl
    · obtain ⟨size, check, effect, form⟩ := screenForm_of_class (code := c.code) (by rw [code]; rfl) c.payload
      rw [form c rfl rfl] at notOk ⊢
      exact screenCommand_refused_state notOk
    · rw [code] at notAccepted ⊢
      exact oneScreenCommand_refused_state notAccepted
    · obtain ⟨-, suits, check, effect, -, body⟩ := bodyOf_unit unit
      rw [body] at notOk ⊢
      exact unitCommand_refused_state notOk
    · obtain ⟨-, suits, size, check, effect, -, body⟩ := bodyOf_screen screen
      rw [body] at notOk ⊢
      exact screenCommand_refused_state notOk
  · rw [bodyOf_unlisted listed]; rfl

/-! ### An execution and its reply (R160, R173) -/

/-- What an execution of a command leaves: its reply, with a notice after it or none, and after a refusal the reply
alone. -/
def AnswersOnce (c : Command) (s u : State) : Prop :=
  ∃ (x : Reply) (t : State), x.tag = c.tag ∧ x.code = c.code ∧
    (u = appendReply x t ∨ ∃ body, u = file none body (appendReply x t)) ∧
    (x.result ≠ .ok → x.result ≠ .accepted → u = appendReply x s)

/-- The reply that an answer gives a command (R162). -/
def replyTo (c : Command) (a : Answer) : Reply := ⟨c.tag, c.code, a.result, a.mask, a.payload⟩

section Executions
variable {body : Command → State → State × Answer} {c : Command} {s : State}
  (clean : RefusalsChangeNothing body c s)
include clean

theorem execute_answersOnce : AnswersOnce c s (execute body c s) :=
  ⟨replyTo c (body c s).2, (body c s).1, rfl, rfl, .inl rfl,
    fun notOk notAccepted => congrArg (appendReply (replyTo c (body c s).2)) (clean notOk notAccepted)⟩

theorem executeThen_ready_answersOnce (scope : Scope) :
    AnswersOnce c s (executeThen (readyAfter scope) body c s) := by
  refine ⟨replyTo c (body c s).2, (body c s).1, rfl, rfl, ?_,
    fun notOk notAccepted => (if_neg notOk).trans (congrArg _ (clean notOk notAccepted))⟩
  by_cases ok : (body c s).2.result = .ok
  · exact .inr ⟨_, if_pos ok⟩
  · exact .inl (if_neg ok)

end Executions

theorem executeUnitReset_answersOnce (c : Command) (s : State) : AnswersOnce c s (executeUnitReset c s) := by
  unfold executeUnitReset
  split
  · exact executeThen_ready_answersOnce (fun notOk _ => unitCommand_refused_state notOk) _
  · split
    · exact executeThen_ready_answersOnce (fun notOk _ => unitCommand_refused_state notOk) _
    · exact execute_answersOnce fun notOk _ => unitCommand_refused_state notOk

theorem executeCommand_answersOnce (c : Command) (s : State) : AnswersOnce c s (executeCommand c s) := by
  unfold executeCommand
  split
  · exact executeUnitReset_answersOnce c s
  · exact execute_answersOnce (bodyOf_refusalsChangeNothing c s)

/-! ### An index beyond the end of its table (R163) -/

theorem unitCommand_refuses {suits : Bool} {check : State → Option Result} {effect : State → State × List Byte}
    {c : Command} {s : State} {why : Result} (length : suits = true) (selector : c.selector = 14#8)
    (refuses : check s = some why) : unitCommand suits check effect c s = (s, ⟨why, 0#8, []⟩) := by
  rw [length, unitCommand_refused selector refuses]

/-- Each unit-class command that carries an index checks it first. -/
theorem bodyOf_beyond {r : Instr} {c : Command} {n : Nat} (s : State) (spells : r.command = some c)
    (limit : r.indexLimit = some n) (length : c.lengthSuits = true) (selector : c.selector = 14#8)
    (beyond : n ≤ (c.byte 0).toNat) (one : ¬(c.byte 0 = 255#8 ∧ (c.code = 84#8 ∨ c.code = 118#8))) :
    bodyOf c.code.toNat c s = (s, ⟨.badIndex, 0#8, []⟩) := by
  have none_ : readIndex n (c.byte 0) = none := readIndex_eq_none beyond
  cases r <;> cases limit <;> cases spells
  case monitorStatus a =>
    have single : (commandOf 84#8 a).byte 0 ≠ 255#8 := fun all => one ⟨all, .inl rfl⟩
    refine unitCommand_refuses (by simpa [Command.lengthSuits, commandOf] using length) selector ?_
    simp [checkMonitorStatus, readMonitors, single, readMonitorIndex, none_, firstFailure]
  case lineRead a =>
    have single : (commandOf 118#8 a).byte 0 ≠ 255#8 := fun all => one ⟨all, .inr rfl⟩
    refine unitCommand_refuses (by simpa [Command.lengthSuits, commandOf] using length) selector ?_
    simp [checkLineRead, readLines, single, readLineIndex, none_]
  all_goals
    refine unitCommand_refuses (by simpa [Command.lengthSuits, commandOf] using length) selector ?_
    simp [checkFormatLoad, checkFormatClear, checkFormatRead, checkCurveLoad, checkMonitorLoad, checkMonitorEnable,
      checkMonitorIndex, checkMonitorAck, readMonitorIndex, checkLinkLoad, checkLinkEnable, checkLinkIndex,
      checkCueFire, readLinkIndex, checkTimerStart, checkTimerIndex, readTimerIndex, checkLineSetup, checkLineSet, readLineIndex,
      none_, firstFailure]

theorem exec_beyond {r : Instr} {c : Command} {n : Nat} {s : State} (spells : r.command = some c)
    (limit : r.indexLimit = some n) (can : s.canExecute = true) (length : c.lengthSuits = true)
    (selector : c.selector = 14#8) (beyond : n ≤ (c.byte 0).toNat)
    (one : ¬(c.byte 0 = 255#8 ∧ (c.code = 84#8 ∨ c.code = 118#8))) :
    exec r s = .next (appendReply ⟨c.tag, c.code, .badIndex, 0#8, []⟩ s) := by
  have other : c.code ≠ 2#8 := by cases r <;> cases limit <;> cases spells <;> simp [commandOf]
  rw [exec_command spells can, executeCommand_eq other, bodyOf_beyond s spells limit length selector beyond one]

/-! ### A byte that names no value (R163, R165, R183) -/

theorem readFlag_eq_none {b : Byte} (bad : 2 ≤ b.toNat) : readFlag b = none := by
  have not0 : b ≠ 0#8 := by rintro rfl; exact absurd bad (by decide)
  have not1 : b ≠ 1#8 := by rintro rfl; exact absurd bad (by decide)
  rw [readFlag, if_neg not0, if_neg not1]

theorem screenCommand_refuses {suits : Bool} {size : Nat} {check : Fin 8 → State → Option Result}
    {effect : Fin 8 → State → State × List Byte} {c : Command} {s : State} {i : Fin 8} {why : Result}
    (length : suits = true) (selector : c.selector = BitVec.ofNat 8 i.val) (refuses : check i s = some why) :
    screenCommand suits size check effect c s = (s, ⟨why, screenFlag i, []⟩) := by
  rw [length, screenCommand_refused selector refuses]

section Values
variable {c : Command} {s : State}

theorem cmdMuteSet_badFlag {i : Fin 8} {channel on : Byte} (selector : c.selector = BitVec.ofNat 8 i.val)
    (payload : c.payload = [channel, on]) (bad : 2 ≤ on.toNat) :
    cmdMuteSet c s = (s, ⟨.badValue, screenFlag i, []⟩) := by
  have flag : readFlag (c.byte 1) = none := by
    rw [Command.byte, payload]
    exact readFlag_eq_none bad
  refine screenCommand_refuses (by rw [payload]; rfl) selector ?_
  simp [checkMute, flag, firstFailure]

theorem cmdCurveLoad_badFlag {k : Fin 4} {valid : Byte} {rest : List Byte} (selector : c.selector = 14#8)
    (payload : c.payload = byteOf k.val :: valid :: rest) (length : rest.length = 34) (bad : 2 ≤ valid.toNat) :
    cmdCurveLoad c s = (s, ⟨.badValue, 0#8, []⟩) := by
  have index : readIndex 4 (c.byte 0) = some k := readIndex_byteOf (by decide) payload
  have flag : readFlag (c.byte 1) = none := by
    rw [Command.byte, payload]
    exact readFlag_eq_none bad
  refine unitCommand_refuses (by rw [payload, List.length_cons, List.length_cons, length]; rfl) selector ?_
  simp [checkCurveLoad, index, flag, firstFailure]

theorem cmdMonitorLoad_badPoint {k : Fin 48} {screen point : Byte} {rest : List Byte} (selector : c.selector = 14#8)
    (payload : c.payload = byteOf k.val :: screen :: point :: rest) (length : rest.length = 17)
    (bad : 3 ≤ point.toNat) : cmdMonitorLoad c s = (s, ⟨.badValue, 0#8, []⟩) := by
  have index : readMonitorIndex c = some k := readIndex_byteOf (by decide) payload
  have code : 2 < c.num 2 := by
    rw [Command.num, Command.byte, payload]
    exact bad
  refine unitCommand_refuses
    (by rw [payload, List.length_cons, List.length_cons, List.length_cons, length]; rfl) selector ?_
  simp [checkMonitorLoad, index, code, firstFailure]

/-- Piece `j` of a list cut into pieces. -/
theorem mem_chunks {α : Type} {n j k : Nat} {xs : List α} (within : j < k) :
    (xs.drop (n * j)).take n ∈ chunks n k xs := by
  induction k generalizing j xs with
  | zero => exact absurd within (Nat.not_lt_zero j)
  | succ k ih =>
    cases j with
    | zero => exact List.mem_cons_self
    | succ j =>
      rw [Nat.mul_succ, Nat.add_comm (n * j), ← List.drop_drop]
      exact List.mem_cons_of_mem _ (ih (Nat.lt_of_succ_lt_succ within))

/-- The invert byte of term `j` stands at byte 16 + 5j (section 11.4). -/
theorem invertsAreFlags_eq_false {j : Nat} (within : j < c.num 11) (bad : 2 ≤ (c.byte (5 * j + 16)).toNat) :
    invertsAreFlags c = false := by
  have invert : (((c.payload.drop 12).drop (5 * j)).take 5).getD 4 0#8 = c.byte (5 * j + 16) := by
    rw [Command.byte, List.drop_drop, List.getD_eq_getElem?_getD, List.getElem?_take_of_lt (by decide),
      List.getElem?_drop, List.getD_eq_getElem?_getD]
    congr 2
    omega
  refine List.all_eq_false.mpr ⟨_, mem_chunks within, ?_⟩
  rw [invert, readFlag_eq_none bad]
  exact Bool.false_ne_true

theorem cmdFormatLoad_badInvert {k : Fin 32} {j : Nat} {rest : List Byte} (selector : c.selector = 14#8)
    (payload : c.payload = byteOf k.val :: rest) (length : formatLengthSuits c = true)
    (within : j < (rest.getD 10 0#8).toNat) (bad : 2 ≤ (rest.getD (5 * j + 15) 0#8).toNat) :
    cmdFormatLoad c s = (s, ⟨.badValue, 0#8, []⟩) := by
  have index : readIndex 32 (c.byte 0) = some k := readIndex_byteOf (by decide) payload
  have later (m : Nat) : c.byte (m + 1) = rest.getD m 0#8 := by
    rw [Command.byte, payload, List.getD_cons_succ]
  have inverts : invertsAreFlags c = false :=
    invertsAreFlags_eq_false (j := j) (by rwa [Command.num, later 10]) (by rwa [later (5 * j + 15)])
  refine unitCommand_refuses length selector ?_
  simp [checkFormatLoad, index, inverts, firstFailure]

/-- An unknown form of EQ_LOAD is judged by its channel first (log entry 20). -/
theorem cmdEqLoad_unknownForm {i : Fin 8} {form channel : Byte} {rest : List Byte}
    (selector : c.selector = BitVec.ofNat 8 i.val) (payload : c.payload = form :: channel :: rest)
    (length : rest.length = 5) (bad : 2 ≤ form.toNat) :
    cmdEqLoad c s = (s, ⟨if channel.toNat < 16 then .badValue else .badIndex, screenFlag i, []⟩) := by
  have not0 : ¬c.payload.head? = some 0#8 := by
    rw [payload, List.head?_cons, Option.some.injEq]
    rintro rfl
    exact absurd bad (by decide)
  have not1 : ¬c.payload.head? = some 1#8 := by
    rw [payload, List.head?_cons, Option.some.injEq]
    rintro rfl
    exact absurd bad (by decide)
  have named : c.byte 1 = channel := by rw [Command.byte, payload]; rfl
  rw [cmdEqLoad, if_neg not0, if_neg not1]
  refine screenCommand_refuses (by rw [payload, List.length_cons, List.length_cons, length]; rfl) selector ?_
  by_cases channelOk : channel.toNat < 16
  · simp [checkEqForm, named, readIndex, toIndex, channelOk, firstFailure]
  · simp [checkEqForm, named, readIndex, toIndex, channelOk, firstFailure]

end Values

/-! ### A screen that is OFF, and banks that cannot be written -/

section Screens
variable {c : Command} {s : State} {i : Fin 8} (selector : c.selector = BitVec.ofNat 8 i.val)

theorem isOff_eq_true (off : s.screens[i].state = .off) : s.isOff i = true := beq_iff_eq.mpr off

section Off
variable (off : s.screens[i].state = .off)
include selector off

theorem cmdScreenClose_off (length : c.payload.length = 0) :
    cmdScreenClose c s = (s, ⟨.badState, screenFlag i, []⟩) := by
  refine screenCommand_refuses (by rw [isEmpty_eq_length, length]; rfl) selector ?_
  simp only [checkClose, off]

theorem cmdScreenResume_off (length : c.payload.length = 0) :
    cmdScreenResume c s = (s, ⟨.badState, screenFlag i, []⟩) := by
  refine screenCommand_refuses (by rw [isEmpty_eq_length, length]; rfl) selector ?_
  simp only [checkResume, off]
  rfl

theorem cmdEqSwap_off (length : c.payload.length = 0) : cmdEqSwap c s = (s, ⟨.badState, screenFlag i, []⟩) := by
  refine screenCommand_refuses (by rw [isEmpty_eq_length, length]; rfl) selector ?_
  simp only [checkSwap, isOff_eq_true off]
  rfl

theorem cmdAlignAbort_off (length : c.payload.length = 0) :
    cmdAlignAbort c s = (s, ⟨.badState, screenFlag i, []⟩) := by
  refine screenCommand_refuses (by rw [isEmpty_eq_length, length]; rfl) selector ?_
  have free : s.isAligning i = false := isAligning_eq_false (by rw [off]; simp)
  simp only [checkAlignAbort, free]
  rfl

theorem cmdFaderSet_off (length : c.payload.length = 3) : cmdFaderSet c s = (s, ⟨.badState, screenFlag i, []⟩) := by
  refine screenCommand_refuses (by rw [length]; rfl) selector ?_
  simp only [checkFader, isOff_eq_true off]
  rfl

theorem cmdFormatTake_off (length : c.payload.length = 2) :
    cmdFormatTake c s = (s, ⟨.badState, screenFlag i, []⟩) := by
  refine screenCommand_refuses (by rw [length]; rfl) selector ?_
  simp only [checkTake, isOff_eq_true off]
  rfl

theorem cmdMuteSet_off {channel : Byte} {on : Bool} (payload : c.payload = [channel, flagByte on]) :
    cmdMuteSet c s = (s, ⟨.badState, screenFlag i, []⟩) := by
  have flag : readFlag (c.byte 1) = some on := by
    rw [Command.byte, payload]
    exact readFlag_flagByte on
  refine screenCommand_refuses (by rw [payload]; rfl) selector ?_
  simp only [checkMute, flag, isOff_eq_true off]
  rfl

theorem cmdChannelSetup_off (length : c.payload.length = 4) :
    cmdChannelSetup c s = (s, ⟨.badState, screenFlag i, []⟩) := by
  refine screenCommand_refuses (by rw [length]; rfl) selector ?_
  simp only [checkChannelSetup, isOff_eq_true off]
  rfl

theorem cmdFormatArm_off (length : c.payload.length = 1) :
    cmdFormatArm c s = (s, ⟨.badState, screenFlag i, []⟩) := by
  refine screenCommand_refuses (by rw [length]; rfl) selector ?_
  unfold checkArm
  split <;> simp only [isOff_eq_true off, firstFailure, if_true]

end Off

section Busy
variable (busy : s.screens[i].state = .inAlign ∨ s.screens[i].eqSwap ≠ none)
include selector busy

theorem cmdEqSwap_busy (payload : c.payload = []) (on : s.screens[i].state ≠ .off) :
    cmdEqSwap c s = (s, ⟨.busy, screenFlag i, []⟩) := by
  refine screenCommand_refuses (by rw [payload]; rfl) selector ?_
  simp only [checkSwap, isOff_eq_false on, eqBusy_eq_true busy]
  rfl

theorem cmdEqLoadGraphic_busy {k : Fin 16} {form : Byte} {rest : List Byte}
    (payload : c.payload = form :: byteOf k.val :: rest) (length : rest.length = 31) :
    cmdEqLoadGraphic c s = (s, ⟨.busy, screenFlag i, []⟩) := by
  have channel : readIndex 16 (c.byte 1) = some k := by
    rw [Command.byte, payload]
    exact readIndex_ofNat (by decide) k
  refine screenCommand_refuses (by rw [payload, List.length_cons, List.length_cons, length]; rfl) selector ?_
  simp only [checkEqGraphic, channel, eqBusy_eq_true busy]
  rfl

theorem cmdEqLoadSection_busy {k : Fin 16} {j : Fin 8} {form : Byte} {rest : List Byte}
    (payload : c.payload = form :: byteOf k.val :: byteOf j.val :: rest) (length : rest.length = 4) :
    cmdEqLoadSection c s = (s, ⟨.busy, screenFlag i, []⟩) := by
  have place : readSectionPlace c = some (k, j) := by
    have channel : readIndex 16 (c.byte 1) = some k := by
      rw [Command.byte, payload]
      exact readIndex_ofNat (by decide) k
    have index : readIndex 8 (c.byte 2) = some j := by
      rw [Command.byte, payload]
      exact readIndex_ofNat (by decide) j
    rw [readSectionPlace, channel, index]
    rfl
  refine screenCommand_refuses
    (by rw [payload, List.length_cons, List.length_cons, List.length_cons, length]; rfl) selector ?_
  simp only [checkEqSection, place, eqBusy_eq_true busy]
  rfl

end Busy

end Screens

theorem exec_eqLoad_unknownForm {i : Fin 8} {s : State} {tag form channel : Byte} {rest : List Byte}
    {queue : List Command} (can : s.canExecute = true) (bad : 2 ≤ form.toNat) (length : rest.length = 5)
    (head : s.intake = ⟨tag, 48#8, BitVec.ofNat 8 i.val, form :: channel :: rest⟩ :: queue) :
    exec .commandTake s = .next (appendReply
      ⟨tag, 48#8, if channel.toNat < 16 then .badValue else .badIndex, screenFlag i, []⟩
      { s with intake := queue }) := by
  have body : bodyOf 48 = cmdEqLoad := rfl
  rw [takeCommand_head head can, executeCommand_eq (show (48#8 : Byte) ≠ 2#8 by decide),
    show (48#8 : Byte).toNat = 48 from rfl, body, cmdEqLoad_unknownForm rfl rfl length bad]

/-- Settles O48: what every execution answers, and the refusals that the statement names, each from its check. -/
theorem refusedCommandsChangeNothing : Obligations.RefusedCommandsChangeNothing := by
  refine ⟨fun r c s spells can => ?_, fun r c n s spells limit can length selector beyond one =>
    exec_beyond spells limit can length selector beyond one, fun i a s channel on can names bad payload => ?_,
    fun a s code rest can none => ⟨fun k bad length payload => ?_, fun k screen bad length payload => ?_⟩,
    fun k j a s rest can none payload length within bad => ?_,
    fun i s tag form channel rest queue can bad length head => exec_eqLoad_unknownForm can bad length head,
    fun i a s can names off => ⟨fun empty => ⟨?_, ?_, ?_, ?_⟩, fun three => ?_, fun two => ?_,
      fun channel on payload => ?_, fun four => ?_, fun one => ?_⟩,
    fun i a s can names busy => ⟨fun payload on => ?_, fun k rest payload length => ?_,
      fun k j rest payload length => ?_⟩⟩
  · obtain ⟨x, t, tag, code, replies, refused⟩ := executeCommand_answersOnce c s
    exact ⟨x, t, _, exec_command spells can, tag, code, replies, refused⟩
  · exact congrArg _ (commandRow_refuses can (cmdMuteSet_badFlag names payload bad))
  · exact congrArg _ (commandRow_refuses can (cmdCurveLoad_badFlag none payload length bad))
  · exact congrArg _ (commandRow_refuses can (cmdMonitorLoad_badPoint none payload length bad))
  · exact congrArg _ (commandRow_refuses can (cmdFormatLoad_badInvert none payload length within bad))
  · exact congrArg _ (commandRow_refuses can (cmdScreenClose_off names off empty))
  · exact congrArg _ (commandRow_refuses can (cmdScreenResume_off names off empty))
  · exact congrArg _ (commandRow_refuses can (cmdEqSwap_off names off empty))
  · exact congrArg _ (commandRow_refuses can (cmdAlignAbort_off names off empty))
  · exact congrArg _ (commandRow_refuses can (cmdFaderSet_off names off three))
  · exact congrArg _ (commandRow_refuses can (cmdFormatTake_off names off two))
  · exact congrArg _ (commandRow_refuses can (cmdMuteSet_off names off payload))
  · exact congrArg _ (commandRow_refuses can (cmdChannelSetup_off names off four))
  · exact congrArg _ (commandRow_refuses can (cmdFormatArm_off names off one))
  · exact congrArg _ (commandRow_refuses can (cmdEqSwap_busy names busy payload on))
  · exact congrArg _ (commandRow_refuses can (cmdEqLoadGraphic_busy (c := formCommandOf 48#8 0#8 a) names busy
      (congrArg _ payload) length))
  · exact congrArg _ (commandRow_refuses can (cmdEqLoadSection_busy (c := formCommandOf 48#8 1#8 a) names busy
      (congrArg _ payload) length))

end Sys2Proof.Machine
end

section
/-!
PROOF. A step on a queue that holds a row: the companion of `step_idle`, which is the step on an empty one.
-/

namespace Sys2Proof.Machine

theorem step_front {s : State} {i : Instr} {rest : List Instr} (h : s.pending = i :: rest) :
    step s = exec i { s with pending := rest } := by
  unfold step
  rw [h]

/-- Settles O1: the front row is the queue's own, and writing the rest overwrites the queue that held it. -/
theorem stepRunsTheFrontRow : Obligations.StepRunsTheFrontRow := by
  intro i s rest
  have front : { s with pending := i :: rest }.pending = i :: rest := rfl
  exact step_front front

end Sys2Proof.Machine
end
